-- ==== Sys2Proof/Word.lean ====
section
/-! DEFINITION. The two word types of RBFS: a byte of a stream, buffer, frame or table (00_scope.md R19), and a
stream cursor (10_state.md R26, R27). -/

namespace Sys2Proof

/-- One byte: the only width a memory access of RBFS has (20_memory.md R59). -/
abbrev Byte := BitVec 8

/-- A cursor or logical stream position: an unsigned 64-bit count, arithmetic modulo 2^64 (10_state.md R26, R27, R30;
41_ring_buffer.md R121). -/
abbrev Cursor := BitVec 64

end Sys2Proof
end

