-- ==== Sys2Proof/Config.lean ====
section
/-! DEFINITION. The implementation parameters of 00_scope.md section 4, as one record of plain data that the state carries and
no step changes; the values this hardware takes; and the free values of the model. `N_SLOTS` and `N_CHANNELS` are arguments of
`State.resetWith` and from then on the lengths of the registry and of the engine's list of channels (Machine/State.lean). The
value of `CRC_TABLE` is in Machine/Crc.lean. Log entry 15. -/

namespace Sys2Proof

/-- The parameters of a block, under the spec's own names (00_scope.md section 4). No rule of the model uses a number where the
spec uses one of these names. -/
structure Params where
  /-- `FRAME_SIZE`: bytes of one frame, header and checksum included (R9). -/
  frameSize : Nat
  /-- `N_SAMPLES`: samples in one frame (R10). -/
  nSamples  : Nat
  /-- `HEADER`: the value of the header byte (R11). -/
  header    : Byte
  /-- `LOG2_CAP`, which fixes `CAPACITY` (R12). -/
  log2Cap   : Nat
  /-- `CTX_WIDTH`: bits of the opaque consumer handle (R17). -/
  ctxWidth  : Nat
  /-- `CRC_TABLE`: a function from 0..255 to 0..255 (R16). -/
  crcTable  : Vector Byte 256
  deriving DecidableEq, Repr

/-- `CAPACITY` = 2^`LOG2_CAP`: bytes of one ring buffer (R12, R18). -/
def Params.capacity (p : Params) : Nat := 2 ^ p.log2Cap

/-- ceil(log2(`n`)): the bits that hold 0..`n`-1. -/
def bitsBelow (n : Nat) : Nat := if n ≤ 1 then 0 else Nat.log2 (n - 1) + 1

/-- `REQ_WIDTH` = ceil(log2(`FRAME_SIZE`+1)): bits of `last_req` and of a request count (R17). -/
def Params.reqWidth (p : Params) : Nat := bitsBelow (p.frameSize + 1)

/-- `CHAN_WIDTH` = ceil(log2(`N_CHANNELS`)): bits of a channel id (R17). -/
def chanWidth (nChannels : Nat) : Nat := bitsBelow nChannels

/-- Bytes of a handle in a trace: `CTX_WIDTH` bits in whole bytes, four at 32 (30_encoding.md R104). -/
def Params.ctxBytes (p : Params) : Nat := (p.ctxWidth + 7) / 8

/-- The constraints between parameters that the scanner and the store rest on (R18): a header and a checksum, a buffer of at
least one frame, a capacity that divides 2^64; and that a count of `CAPACITY` is itself a 64-bit number (41_ring_buffer.md
R121: no count overflows). -/
def Params.wf (p : Params) : Bool :=
  decide (2 ≤ p.frameSize) && decide (p.frameSize ≤ p.capacity) && decide (p.log2Cap < 64)

/-- The frame holds the fields of the wire layout and nothing else: `FRAME_SIZE` = 11 + 3 x `N_SAMPLES` (R18). Where it fails,
the field offsets have no reading (R9). -/
def Params.laidOut (p : Params) : Bool := decide (p.frameSize = 11 + 3 * p.nSamples)

namespace Config

/-- The value of `N_SLOTS` that this hardware takes: registry slots, one per serial peripheral (R14). -/
def nSlots : Nat := 2

/-- The value of `N_CHANNELS` that this hardware takes: DMA channels, the width of the interrupt bitmask (R15). -/
def nChannels : Nat := 12

/-- FREE VALUE. `streamByte s k` is the byte that peripheral `s` delivers at its `k`-th read when `State` lists no byte
waiting there: `STREAM[s]` is an arbitrary sequence (10_state.md R44, 43_rearm.md R176). No body: nothing can be proved of
its value. Log entry 9. -/
opaque streamByte : Nat → Nat → Byte

/-- FREE VALUE. `unreadByte raw o` is the byte that a field at offset `o` of the frame `raw` is read from where the parameters
leave the field offsets without a reading (R9). No body. Log entry 15. -/
opaque unreadByte : List Byte → Nat → Byte

end Config

end Sys2Proof
end

