-- ==== Sys2Proof/Syntax.lean ====
section
/-! DEFINITION. The operations of RBFS: one constructor per row of spec/opcode_table.json (30_encoding.md R103, R104), and the
reasons a byte sequence is no operation. Slots, channels, offsets and counts are numbers: their ranges are parameters of the
block (00_scope.md R12 to R17), and the operations judge them. -/

namespace Sys2Proof

/-- One operation of the block, of its neighbours, or of the test harness. -/
inductive Instr where
  /-- RESET (R230), host command. -/
  | reset
  /-- INIT `s c h` (R184), host command. -/
  | init (s c h : Nat)
  /-- ENABLE (R186), host command. -/
  | enable
  /-- CRC.STEP (R111). -/
  | crcStep (c8 b : Byte)
  /-- CRC.RANGE (R112). -/
  | crcRange (bytes : List Byte)
  /-- FRAME.VALID (R114). -/
  | frameValid (f : List Byte)
  /-- RB.PHYS (R122). -/
  | rbPhys (p : Cursor)
  /-- RB.AVAIL (R123). -/
  | rbAvail (s : Nat)
  /-- RB.WINDOW (R124). -/
  | rbWindow (s : Nat) (start : Cursor) (len : Nat)
  /-- RB.COPY (R125). -/
  | rbCopy (s : Nat) (start : Cursor) (len : Nat)
  /-- RB.ADVI (R126); `n` is a count, any count. -/
  | rbAdvi (s n : Nat)
  /-- RB.ADVX (R127). -/
  | rbAdvx (s n : Nat)
  /-- RB.DMAWR (R128), a step of the DMA engine. -/
  | rbDmawr (s a : Nat) (b : Byte)
  /-- PUSH (R106), test harness. -/
  | push (s : Nat) (bytes : List Byte)
  /-- SCAN (R136). -/
  | scan (s : Nat)
  /-- SCN.IDLE (R137); the operand of the six classes is the slot of the scan they belong to. -/
  | scnIdle (s : Nat)
  /-- SCN.SKIP (R138). -/
  | scnSkip (s : Nat)
  /-- SCN.DEFER (R139). -/
  | scnDefer (s : Nat)
  /-- SCN.ACCEPT (R140). -/
  | scnAccept (s : Nat)
  /-- SCN.REJECT (R141). -/
  | scnReject (s : Nat)
  /-- SCN.DRAIN (R142). -/
  | scnDrain (s : Nat)
  /-- DECODE (R151). -/
  | decode (f : List Byte)
  /-- EMIT (R152). -/
  | emit (s : Nat)
  /-- SVC (R161). -/
  | svc (s : Nat)
  /-- ACK (R164). -/
  | ack (c : Nat)
  /-- ARM (R165). -/
  | arm (c waddr count : Nat)
  /-- DMA (R105), test harness: a whole transfer of the engine. -/
  | dma (c : Nat) (bytes : List Byte)
  /-- RAISE (R107), test harness and wiring error. -/
  | raise (c : Nat)
  /-- DMA.CONFIG (R171). -/
  | dmaConfig (c s : Nat)
  /-- DMA.BYTE (R173), a step of the DMA engine. -/
  | dmaByte (c : Nat)
  /-- DMA.DONE (R174), a step of the DMA engine. -/
  | dmaDone (c : Nat)
  /-- IRQ (R187). -/
  | irq
  /-- LOOKUP (R182). -/
  | lookup (c : Nat)
  /-- DISPATCH (R188). -/
  | dispatch (c : Nat)
  /-- FATAL, the operation `raise Fatal(code, chan)` (R203). -/
  | fatal (code chan : Nat)
  /-- HEADER_BYTE: the scanner meets a header byte at the scan position (R89, R90). -/
  | headerByte
  /-- FRAME: the scanner meets a whole valid frame at the scan position (R75, R114). -/
  | frame (raw : List Byte)
  deriving DecidableEq, Repr

/-- Why a byte sequence is no operation (30_encoding.md R103, R104; 93_implementation_defined.md U12). -/
inductive DecodeError where
  /-- The bytes end before the operation's last operand. -/
  | truncated
  /-- The code byte is no code of R103. -/
  | unlistedCode (code : Byte)
  deriving DecidableEq, Repr

end Sys2Proof
end

