-- ==== Sys2Proof/WellFormed.lean ====
section
/-! DEFINITION. Which instruction terms have an encoding (30_encoding.md R104, R112, R114, R151, R75): a slot, a channel and a
code fit one byte, an offset and a count fit eight, a handle fits its bytes, the byte list of DMA and PUSH fits
its one-byte count and that of CRC.RANGE its eight-byte count, a frame operand has `FRAME_SIZE` bytes, a FRAME is a valid frame. Whether a number is in the range the operation asks for is no
matter of encoding: the operation judges it. -/

namespace Sys2Proof

/-- A number that fits one byte (R104: `ss`, `cc`). -/
def byteOk (n : Nat) : Bool := decide (n < 256)

/-- A number that fits eight bytes: an offset or a count (log entry 4). -/
def countOk (n : Nat) : Bool := decide (n < 2 ^ 64)

/-- A handle that fits its bytes (R104: `hh hh hh hh`). -/
def handleOk (p : Params) (h : Nat) : Bool := decide (h < 256 ^ p.ctxBytes)

/-- A byte list whose length fits the count byte `nn` that R104 gives DMA and PUSH. -/
def countedOk (bytes : List Byte) : Bool := decide (bytes.length < 256)

/-- Exactly `FRAME_SIZE` bytes (R114, R151). -/
def frameLengthOk (p : Params) (f : List Byte) : Bool := decide (f.length = p.frameSize)

/-- The instruction can be encoded. -/
def Instr.wf (p : Params) : Instr → Bool
  | .reset => true
  | .init s c h => byteOk s && byteOk c && handleOk p h
  | .enable => true
  | .crcStep _ _ => true
  | .crcRange bytes => countOk bytes.length
  | .frameValid f => frameLengthOk p f
  | .rbPhys _ => true
  | .rbAvail s => byteOk s
  | .rbWindow s _ n => byteOk s && countOk n
  | .rbCopy s _ n => byteOk s && countOk n
  | .rbAdvi s n => byteOk s && countOk n
  | .rbAdvx s n => byteOk s && countOk n
  | .rbDmawr s a _ => byteOk s && countOk a
  | .push s bytes => byteOk s && countedOk bytes
  | .scan s => byteOk s
  | .scnIdle s => byteOk s
  | .scnSkip s => byteOk s
  | .scnDefer s => byteOk s
  | .scnAccept s => byteOk s
  | .scnReject s => byteOk s
  | .scnDrain s => byteOk s
  | .decode f => frameLengthOk p f
  | .emit s => byteOk s
  | .svc s => byteOk s
  | .ack c => byteOk c
  | .arm c a n => byteOk c && countOk a && countOk n
  | .dma c bytes => byteOk c && countedOk bytes
  | .raise c => byteOk c
  | .dmaConfig c s => byteOk c && byteOk s
  | .dmaByte c => byteOk c
  | .dmaDone c => byteOk c
  | .irq => true
  | .lookup c => byteOk c
  | .dispatch c => byteOk c
  | .fatal code c => byteOk code && byteOk c
  | .headerByte => true
  | .frame raw => Machine.isFrame p raw

end Sys2Proof
end

