-- ==== Sys2Proof/Decode.lean ====
section
/-! DEFINITION. The byte encoding of operations: a code byte (30_encoding.md R103), then the operands in the order of R103's
table, multi-byte operands little-endian, a byte list after its count (R104). R104 gives these bytes for RESET, INIT, ENABLE,
DMA, RAISE, IRQ, PUSH and SCAN; the same convention for the other operations, with eight bytes for an offset or a count (the length of
CRC.RANGE's sequence among them), is log entry 4 (DESIGN CHOICE). The parameters say how long a frame and a handle are. A byte that is no code of R103 is refused by name.
The two rows of the table that are formats of the stream, HEADER_BYTE and FRAME (R75, R89), are no operations of a trace: they
are read by the scanner's decoder, from the bytes at the scan position (20_memory.md R72). First the two decoders, total; then the
encoder; then the table words the host asks about. -/

namespace Sys2Proof

/-- What decoding answers: the instruction and the bytes after it, or why there is none. -/
abbrev DecodeResult := Except DecodeError (Instr × List Byte)

/-- The value of bytes laid out little-endian. -/
def leNat : List Byte → Nat
  | [] => 0
  | b :: bs => b.toNat + 256 * leNat bs

/-- The low `k` bytes of `n`, little-endian. -/
def leBytes : Nat → Nat → List Byte
  | 0, _ => []
  | k + 1, n => BitVec.ofNat 8 n :: leBytes k (n / 256)

/-- Read one byte and go on with it. -/
def withByte (bs : List Byte) (k : Byte → List Byte → DecodeResult) : DecodeResult :=
  match bs with
  | [] => .error .truncated
  | b :: rest => k b rest

/-- Read a slot, a channel or a code: one byte, any value. -/
def withSmall (bs : List Byte) (k : Nat → List Byte → DecodeResult) : DecodeResult :=
  withByte bs fun b rest => k b.toNat rest

/-- Read `n` bytes. -/
def withBytes (n : Nat) (bs : List Byte) (k : List Byte → List Byte → DecodeResult) : DecodeResult :=
  if n ≤ bs.length then k (bs.take n) (bs.drop n) else .error .truncated

/-- Read a count byte and that many bytes, as R104 writes the lists of DMA and PUSH. -/
def withCounted (bs : List Byte) (k : List Byte → List Byte → DecodeResult) : DecodeResult :=
  withByte bs fun n rest => withBytes n.toNat rest k

/-- Read a number of `n` bytes, little-endian. -/
def withNat (n : Nat) (bs : List Byte) (k : Nat → List Byte → DecodeResult) : DecodeResult :=
  withBytes n bs fun w rest => k (leNat w) rest

/-- Read a count of eight bytes and that many bytes: CRC.RANGE's sequence, whose length R112 does not bound (log entry 4). -/
def withLongCounted (bs : List Byte) (k : List Byte → List Byte → DecodeResult) : DecodeResult :=
  withNat 8 bs fun n rest => withBytes n rest k

/-- Read a cursor: eight bytes, little-endian. -/
def withCursor (bs : List Byte) (k : Cursor → List Byte → DecodeResult) : DecodeResult :=
  withNat 8 bs fun w rest => k (BitVec.ofNat 64 w) rest

/-- The operation whose code byte is `code`, its operands in `bs`. -/
def decodeOperands (p : Params) (code : Byte) (bs : List Byte) : DecodeResult :=
  match code.toNat with
  | 0x00 => .ok (.reset, bs)
  | 0x01 => withSmall bs fun s bs => withSmall bs fun c bs => withNat p.ctxBytes bs fun h bs => .ok (.init s c h, bs)
  | 0x02 => .ok (.enable, bs)
  | 0x10 => withByte bs fun c8 bs => withByte bs fun b bs => .ok (.crcStep c8 b, bs)
  | 0x11 => withLongCounted bs fun l bs => .ok (.crcRange l, bs)
  | 0x12 => withBytes p.frameSize bs fun f bs => .ok (.frameValid f, bs)
  | 0x20 => withCursor bs fun c bs => .ok (.rbPhys c, bs)
  | 0x21 => withSmall bs fun s bs => .ok (.rbAvail s, bs)
  | 0x22 => withSmall bs fun s bs => withCursor bs fun c bs => withNat 8 bs fun n bs => .ok (.rbWindow s c n, bs)
  | 0x23 => withSmall bs fun s bs => withCursor bs fun c bs => withNat 8 bs fun n bs => .ok (.rbCopy s c n, bs)
  | 0x24 => withSmall bs fun s bs => withNat 8 bs fun n bs => .ok (.rbAdvi s n, bs)
  | 0x25 => withSmall bs fun s bs => withNat 8 bs fun n bs => .ok (.rbAdvx s n, bs)
  | 0x26 => withSmall bs fun s bs => withNat 8 bs fun a bs => withByte bs fun b bs => .ok (.rbDmawr s a b, bs)
  | 0x2F => withSmall bs fun s bs => withCounted bs fun l bs => .ok (.push s l, bs)
  | 0x30 => withSmall bs fun s bs => .ok (.scan s, bs)
  | 0x31 => withSmall bs fun s bs => .ok (.scnIdle s, bs)
  | 0x32 => withSmall bs fun s bs => .ok (.scnSkip s, bs)
  | 0x33 => withSmall bs fun s bs => .ok (.scnDefer s, bs)
  | 0x34 => withSmall bs fun s bs => .ok (.scnAccept s, bs)
  | 0x35 => withSmall bs fun s bs => .ok (.scnReject s, bs)
  | 0x36 => withSmall bs fun s bs => .ok (.scnDrain s, bs)
  | 0x37 => withBytes p.frameSize bs fun f bs => .ok (.decode f, bs)
  | 0x38 => withSmall bs fun s bs => .ok (.emit s, bs)
  | 0x40 => withSmall bs fun s bs => .ok (.svc s, bs)
  | 0x41 => withSmall bs fun c bs => .ok (.ack c, bs)
  | 0x42 => withSmall bs fun c bs => withNat 8 bs fun a bs => withNat 8 bs fun n bs => .ok (.arm c a n, bs)
  | 0x43 => withSmall bs fun c bs => withCounted bs fun l bs => .ok (.dma c l, bs)
  | 0x44 => withSmall bs fun c bs => .ok (.raise c, bs)
  | 0x45 => withSmall bs fun c bs => withSmall bs fun s bs => .ok (.dmaConfig c s, bs)
  | 0x46 => withSmall bs fun c bs => .ok (.dmaByte c, bs)
  | 0x47 => withSmall bs fun c bs => .ok (.dmaDone c, bs)
  | 0x50 => .ok (.irq, bs)
  | 0x51 => withSmall bs fun c bs => .ok (.lookup c, bs)
  | 0x52 => withSmall bs fun c bs => .ok (.dispatch c, bs)
  | 0x53 => withSmall bs fun code bs => withSmall bs fun c bs => .ok (.fatal code c, bs)
  | _ => .error (.unlistedCode code)

/-- The decoder of a trace: its first operation and the bytes after it. -/
def decode (p : Params) : List Byte → DecodeResult
  | [] => .error .truncated
  | b :: bs => decodeOperands p b bs

/-- What a header byte at the head of `bs` stands for: FRAME when the next `FRAME_SIZE` bytes are a valid frame, else
HEADER_BYTE (R75, R89; both rows of the table match this byte: log entry 4). -/
def decodeHeader (p : Params) (bs : List Byte) : Instr × List Byte :=
  if Machine.isFrame p (bs.take p.frameSize) then (.frame (bs.take p.frameSize), bs.drop p.frameSize)
  else (.headerByte, bs.drop 1)

/-- The scanner's decoder: what the bytes at the scan position of slot `s` stand for. Every byte value is legal: the header, or a
seeking byte, which is SCN.SKIP (R89, R90). -/
def decodeStream (p : Params) (s : Nat) : List Byte → Option (Instr × List Byte)
  | [] => none
  | b :: bs => some (if b = p.header then decodeHeader p (b :: bs) else (.scnSkip s, bs))

/-- The operation is a format of the stream, met at a scan position, and no event of a trace (R103 lists no code for it). -/
def Instr.onStream : Instr → Bool
  | .headerByte => true
  | .frame _ => true
  | .reset => false
  | .init _ _ _ => false
  | .enable => false
  | .crcStep _ _ => false
  | .crcRange _ => false
  | .frameValid _ => false
  | .rbPhys _ => false
  | .rbAvail _ => false
  | .rbWindow _ _ _ => false
  | .rbCopy _ _ _ => false
  | .rbAdvi _ _ => false
  | .rbAdvx _ _ => false
  | .rbDmawr _ _ _ => false
  | .push _ _ => false
  | .scan _ => false
  | .scnIdle _ => false
  | .scnSkip _ => false
  | .scnDefer _ => false
  | .scnAccept _ => false
  | .scnReject _ => false
  | .scnDrain _ => false
  | .decode _ => false
  | .emit _ => false
  | .svc _ => false
  | .ack _ => false
  | .arm _ _ _ => false
  | .dma _ _ => false
  | .raise _ => false
  | .dmaConfig _ _ => false
  | .dmaByte _ => false
  | .dmaDone _ => false
  | .irq => false
  | .lookup _ => false
  | .dispatch _ => false
  | .fatal _ _ => false

/-- The code byte of each operation (R103; the header byte for the two rows of the wire format). -/
def Instr.code (p : Params) : Instr → Byte
  | .reset => 0x00
  | .init _ _ _ => 0x01
  | .enable => 0x02
  | .crcStep _ _ => 0x10
  | .crcRange _ => 0x11
  | .frameValid _ => 0x12
  | .rbPhys _ => 0x20
  | .rbAvail _ => 0x21
  | .rbWindow _ _ _ => 0x22
  | .rbCopy _ _ _ => 0x23
  | .rbAdvi _ _ => 0x24
  | .rbAdvx _ _ => 0x25
  | .rbDmawr _ _ _ => 0x26
  | .push _ _ => 0x2F
  | .scan _ => 0x30
  | .scnIdle _ => 0x31
  | .scnSkip _ => 0x32
  | .scnDefer _ => 0x33
  | .scnAccept _ => 0x34
  | .scnReject _ => 0x35
  | .scnDrain _ => 0x36
  | .decode _ => 0x37
  | .emit _ => 0x38
  | .svc _ => 0x40
  | .ack _ => 0x41
  | .arm _ _ _ => 0x42
  | .dma _ _ => 0x43
  | .raise _ => 0x44
  | .dmaConfig _ _ => 0x45
  | .dmaByte _ => 0x46
  | .dmaDone _ => 0x47
  | .irq => 0x50
  | .lookup _ => 0x51
  | .dispatch _ => 0x52
  | .fatal _ _ => 0x53
  | .headerByte => p.header
  | .frame _ => p.header

/-- A byte operand that holds a small number. -/
def byteOf (n : Nat) : Byte := BitVec.ofNat 8 n

/-- The encoder: the bytes of an instruction (R103, R104). -/
def encode (p : Params) : Instr → List Byte
  | .reset => [0x00]
  | .init s c h => 0x01 :: byteOf s :: byteOf c :: leBytes p.ctxBytes h
  | .enable => [0x02]
  | .crcStep c8 b => [0x10, c8, b]
  | .crcRange l => 0x11 :: (leBytes 8 l.length ++ l)
  | .frameValid f => 0x12 :: f
  | .rbPhys c => 0x20 :: leBytes 8 c.toNat
  | .rbAvail s => [0x21, byteOf s]
  | .rbWindow s c n => 0x22 :: byteOf s :: (leBytes 8 c.toNat ++ leBytes 8 n)
  | .rbCopy s c n => 0x23 :: byteOf s :: (leBytes 8 c.toNat ++ leBytes 8 n)
  | .rbAdvi s n => 0x24 :: byteOf s :: leBytes 8 n
  | .rbAdvx s n => 0x25 :: byteOf s :: leBytes 8 n
  | .rbDmawr s a b => 0x26 :: byteOf s :: (leBytes 8 a ++ [b])
  | .push s l => 0x2F :: byteOf s :: byteOf l.length :: l
  | .scan s => [0x30, byteOf s]
  | .scnIdle s => [0x31, byteOf s]
  | .scnSkip s => [0x32, byteOf s]
  | .scnDefer s => [0x33, byteOf s]
  | .scnAccept s => [0x34, byteOf s]
  | .scnReject s => [0x35, byteOf s]
  | .scnDrain s => [0x36, byteOf s]
  | .decode f => 0x37 :: f
  | .emit s => [0x38, byteOf s]
  | .svc s => [0x40, byteOf s]
  | .ack c => [0x41, byteOf c]
  | .arm c a n => 0x42 :: byteOf c :: (leBytes 8 a ++ leBytes 8 n)
  | .dma c l => 0x43 :: byteOf c :: byteOf l.length :: l
  | .raise c => [0x44, byteOf c]
  | .dmaConfig c s => [0x45, byteOf c, byteOf s]
  | .dmaByte c => [0x46, byteOf c]
  | .dmaDone c => [0x47, byteOf c]
  | .irq => [0x50]
  | .lookup c => [0x51, byteOf c]
  | .dispatch c => [0x52, byteOf c]
  | .fatal code c => [0x53, byteOf code, byteOf c]
  | .headerByte => [p.header]
  | .frame raw => raw

/-- Bytes of the longest encoding but CRC.RANGE's, whose sequence has no longest: code, slot or channel, count and 255 listed bytes;
or code and a frame; or INIT. A word of the table with zeros above it is a CRC.RANGE of no bytes, which is shorter. -/
def maxEncodingBytes (p : Params) : Nat := max 258 (max (p.frameSize + 1) (p.ctxBytes + 3))

/-- A table word laid out as memory or trace holds it: its first byte is its low byte, zeros above `nbits`. -/
def tableBytes (p : Params) (nbits w : Nat) : List Byte :=
  (List.range (max (maxEncodingBytes p) (nbits / 8))).map fun k => BitVec.ofNat 8 ((w % 2 ^ nbits) / 256 ^ k)

/-- The instruction whose first byte heads `bs`, wherever such an instruction stands: an operation of R103, else, where the byte
is the header, the format of the stream. -/
def decodeWord (p : Params) (bs : List Byte) : DecodeResult :=
  match decode p bs with
  | .ok r => .ok r
  | .error e => if bs.head? = some p.header then .ok (decodeHeader p bs) else .error e

/-- The instruction this hardware's decoders read from a table word (none where they refuse). -/
def decodeTableWord (nbits w : Nat) : Option Instr :=
  match decodeWord Machine.stdParams (tableBytes Machine.stdParams nbits w) with
  | .ok (i, _) => some i
  | .error _ => none

/-- The bytes of the one instruction a table word stands for, without the zeros after it. -/
def tableInstrBytes (p : Params) (nbits w : Nat) : List Byte :=
  match decodeWord p (tableBytes p nbits w) with
  | .ok (_, rest) => (tableBytes p nbits w).take ((tableBytes p nbits w).length - rest.length)
  | .error _ => tableBytes p nbits w

end Sys2Proof
end

