-- ==== Sys2Proof/Machine/State.lean ====
section
/-! DEFINITION. The state of RBFS and of the neighbours a model must carry (10_state.md), the reasons a step stops, and the
state right after reset (R47; 70_reset_and_hazards.md R230, R231). Plain data throughout. Registers whose width is a parameter
of the block (a channel id, a request count, an offset, a handle, `INTS`) are numbers; `State.fits` (Safety.lean) says that each
stays inside its width. Log entry 15. -/

namespace Sys2Proof.Machine

/-- One sample of a frame (30_encoding.md R80 to R82). -/
structure Sample where
  distanceMm : BitVec 16
  intensity  : BitVec 8
  deriving DecidableEq, Repr

/-- The decoded record of a frame (30_encoding.md R94): 31 values. -/
structure Fields where
  header        : BitVec 8
  versionLength : BitVec 8
  speed         : BitVec 16
  startAngle    : BitVec 16
  samples       : List Sample
  endAngle      : BitVec 16
  timestamp     : BitVec 16
  checksum      : BitVec 8
  deriving DecidableEq, Repr

/-- The configuration of a DMA channel, `cfg[c]` (30_encoding.md R99, 43_rearm.md R171). -/
structure ChanCfg where
  /-- The slot whose buffer the channel writes and whose peripheral it reads. -/
  slot           : Nat
  /-- Low address bits that wrap on the write side. -/
  ringBits       : Nat
  /-- Bytes per transfer step. -/
  widthBytes     : Nat
  /-- The peripheral whose receive request paces the channel. -/
  pacing         : Nat
  /-- The peripheral whose receive register is read. -/
  readFrom       : Nat
  readIncrements  : Bool
  writeIncrements : Bool
  /-- The completion interrupt is enabled. -/
  doneIrq        : Bool
  deriving DecidableEq, Repr

/-- The DMA engine's state of one channel (R43). -/
structure Channel where
  armed     : Bool
  /-- `LOG2_CAP` bits. -/
  waddr     : Nat
  /-- `REQ_WIDTH` bits. -/
  remaining : Nat
  cfg       : ChanCfg
  deriving DecidableEq, Repr

/-- One slot of the instance registry: its six registers and its ring buffer (R22, R39; 30_encoding.md R96). -/
structure Slot where
  valid   : Bool
  /-- The DMA channel id, `CHAN_WIDTH` bits, in 0..`N_CHANNELS`-1 (R24). -/
  chan    : Nat
  /-- The opaque handle, `CTX_WIDTH` bits (R25). -/
  ctx     : Nat
  insert  : Cursor
  extract : Cursor
  /-- `last_req[s]`, `REQ_WIDTH` bits (R28). -/
  lastReq : Nat
  /-- `BUF[s]` by physical offset; an offset not listed holds no value. -/
  buf     : List Host.Cell
  deriving DecidableEq, Repr

/-- The serial peripheral of a slot, as the DMA engine sees it (20_memory.md R55; 43_rearm.md R176): the bytes of
`STREAM[s]` that wait to be read, oldest first, and how many have been read. The model's own field (log entry 9). -/
structure Uart where
  rx    : List Byte
  drawn : Nat
  deriving DecidableEq, Repr

/-- `DIAG` (R34, R38). -/
structure Diag where
  code : BitVec 2
  /-- `CHAN_WIDTH` bits. -/
  chan : Nat
  deriving DecidableEq, Repr

/-- The consumer as the sequencer sees it (42_scanner.md R152, R153): whether it returns before any other agent moves, each time
the sequencer is at the point of waiting for it. The model's own, an input (log entry 8). -/
structure Consumer where
  /-- The answers to come, first the next one: `true`, it has returned; `false`, another agent moves first. -/
  replies    : List Bool
  /-- The answer once the list is used up; `false` for ever is the consumer that hangs. -/
  thereafter : Bool
  deriving DecidableEq, Repr

/-- The working registers of one scan (R31). `remainder` and `pos` are computed from them (Operands.lean). -/
structure ScanRegs where
  slot      : Nat
  available : Nat
  consumed  : Nat
  deriving DecidableEq, Repr

/-- The operation that waits inside EMIT for the consumer to return (42_scanner.md R152, R153), with the working registers
the sequencer holds while it does (R31, R32). The step of a service that can be seen here is always SCAN (43_rearm.md R161). -/
inductive Held where
  /-- EMIT performed alone. -/
  | emit
  /-- SCN.ACCEPT performed alone. -/
  | accept (r : ScanRegs)
  /-- SCAN performed alone. -/
  | scan (r : ScanRegs)
  /-- SVC or DISPATCH performed alone, in step SCAN of the service of `r.slot`. -/
  | svc (r : ScanRegs)
  /-- A run of IRQ with its snapshot, dispatching channel `c`, in step SCAN of the service of `r.slot`. -/
  | irq (pending c : Nat) (r : ScanRegs)
  deriving DecidableEq, Repr

/-- A transaction at an output port of the block (30_encoding.md R93, R97 to R99; 60_exceptions.md R223, R225). -/
inductive PortEvent where
  | cfgReq (c : Nat) (cfg : ChanCfg)
  | armReq (c waddr count : Nat)
  | ackReq (c : Nat)
  | frameOut (ctx : Nat) (raw : List Byte) (fields : Fields)
  deriving DecidableEq, Repr

/-- A segment of a ring buffer: physical offset and length (41_ring_buffer.md R124). -/
structure Segment where
  offset : Nat
  len    : Nat
  deriving DecidableEq, Repr

/-- The value an operation returned to its caller. -/
inductive OpResult where
  /-- Nothing returned yet. -/
  | none
  /-- CRC.STEP, CRC.RANGE. -/
  | byte (v : Byte)
  /-- FRAME.VALID. -/
  | valid (v : Bool)
  /-- RB.PHYS. -/
  | offset (v : Nat)
  /-- RB.AVAIL. -/
  | avail (v : Cursor)
  /-- RB.WINDOW. -/
  | window (a b : Segment)
  /-- SCAN, SCN.IDLE, SCN.DEFER, SCN.DRAIN: the next request size. -/
  | next (n : Nat)
  /-- DECODE. -/
  | fields (f : Fields)
  /-- LOOKUP. -/
  | slot (s : Option Nat)
  deriving DecidableEq, Repr

/-- The whole machine. R21 counts three global control bits; the spec names two, `FATAL` and `IRQ_EN` (R33, R35, R36, R38), and
these two are here: the model's choice, log entry 24. -/
structure State where
  /-- The parameters of the block (00_scope.md section 4). No step changes them; they are no state (R44) but are carried so that
  every rule reads them by name. -/
  par    : Params
  /-- The instance registry with the ring buffers (R22, R39): `N_SLOTS` is its length (R14). -/
  slots  : List Slot
  /-- `SCRATCH` by index (R40); an index not listed holds no value. -/
  scratch : List Host.Cell
  /-- `FATAL` (R33). -/
  fatal  : Bool
  /-- `DIAG` (R34). -/
  diag   : Diag
  /-- `IRQ_EN` (R35). -/
  irqEn  : Bool
  /-- `INTS`, owned by the DMA engine (R37): bit `c` of the number is bit `c` of the mask. -/
  ints   : Nat
  /-- The DMA channels (R43): `N_CHANNELS` is the number of them (R15). -/
  chans  : List Channel
  /-- The working registers of a scan whose classes are performed one at a time (R31). -/
  scan   : Option ScanRegs
  /-- The operation waiting for the consumer (R31, R32; 42_scanner.md R153). -/
  held   : Option Held
  /-- The value last returned by an operation that returns one. The model's own field (log entry 6). -/
  result : OpResult
  /-- The transactions sent at the output ports, oldest first. The model's own field (log entry 7). -/
  out    : List PortEvent
  /-- INPUT: when the consumer returns from a frame transaction (42_scanner.md R153; log entry 8). -/
  consumer : Consumer
  /-- INPUT: the serial peripherals, one per slot (43_rearm.md R176, R183; log entry 9). -/
  uarts  : List Uart
  /-- INPUT: the bytes of the events still to come (30_encoding.md R104; log entry 3). -/
  trace  : List Byte
  deriving DecidableEq, Repr

/-- The ways the block stops without a next state that are not refusals. -/
inductive Fault where
  /-- SCAN, RB.COPY and the operations that call them read a byte of `BUF[s]` that nothing has written
  (70_reset_and_hazards.md R232; 93_implementation_defined.md U6). Safe: the hardware goes on with some byte. -/
  | unwrittenBuf
  /-- EMIT read a byte of `SCRATCH` that nothing has written (R232; U6). Safe: the hardware goes on with some byte. -/
  | unwrittenScratch
  deriving DecidableEq, Repr

/-- The ways an operation has no meaning in a state (00_scope.md R20, `refuse`). All are safe: no step, no state change. -/
inductive Refusal where
  /-- An arm of `exec` without a meaning. Raised by no arm of this model. -/
  | notModelled (mnemonic : String)
  /-- A state-changing operation of the sequencer while `FATAL` = 1 (60_exceptions.md R204; log entry 12). -/
  | halted
  /-- INIT or ENABLE outside phase CONFIG (44_demux.md R185 a, R186). -/
  | notConfigPhase
  /-- INIT, RB.AVAIL, RB.WINDOW, RB.COPY, RB.ADVI, RB.ADVX, RB.DMAWR or DMA.CONFIG with `s` ≥ `N_SLOTS` (R185 b; 10_state.md
  R22). -/
  | slotOutOfRange
  /-- INIT, ACK, ARM, RAISE, DMA.CONFIG, LOOKUP, DISPATCH or FATAL with `c` ≥ `N_CHANNELS` (R185 c; 30_encoding.md R95). -/
  | channelOutOfRange
  /-- RB.DMAWR or ARM with an offset ≥ `CAPACITY` (41_ring_buffer.md R128; 30_encoding.md R97). -/
  | offsetOutOfRange
  /-- INIT on an occupied slot (R185 d). -/
  | slotOccupied
  /-- INIT with a channel a valid slot holds (R185 e). -/
  | channelTaken
  /-- IRQ or DISPATCH outside phase RUN (60_exceptions.md R210, R217). -/
  | irqNotEnabled
  /-- An operation of the sequencer while another one of its operations is in progress (60_exceptions.md R210, R215, R222), RB.ADVI
  or RB.ADVX on a slot whose scan is in progress (42_scanner.md R136). -/
  | sequencerBusy
  /-- SCAN, a scan class, EMIT, SVC or PUSH on a slot that is not valid, or that does not exist (R23; 42_scanner.md R136;
  43_rearm.md R161; 30_encoding.md R106). -/
  | slotNotValid
  /-- SCAN entered with `insert - extract` above `CAPACITY` (42_scanner.md R154; U3). -/
  | availAboveCapacity
  /-- RB.WINDOW with `len` above `CAPACITY`, RB.COPY with `len` above `FRAME_SIZE` or `CAPACITY` (41_ring_buffer.md R124, R125;
  U4). -/
  | lenTooLong
  /-- RB.COPY of a position outside `[extract, insert)`, or a class of an open scan with such a position still to examine (R125;
  20_memory.md R51). -/
  | notReadable
  /-- RB.ADVX past `insert` (R127). -/
  | pastInsert
  /-- PUSH of more bytes than the buffer has room for (30_encoding.md R106). -/
  | noRoom
  /-- DMA.BYTE or DMA.DONE on a channel for which it is not enabled, RB.DMAWR on a slot whose channel is not writing (43_rearm.md
  R172 to R174; 10_state.md R45). -/
  | dmaNotEnabled
  /-- DMA.BYTE or DMA into the buffer of a slot whose scan is in progress (10_state.md R45; 20_memory.md R67). -/
  | bufferBeingRead
  /-- DMA on an idle channel or with a byte count other than `remaining` (30_encoding.md R105). -/
  | dmaIllFormed
  /-- ARM with a count outside 1..`FRAME_SIZE` (43_rearm.md R165; 30_encoding.md R102). -/
  | countOutOfRange
  /-- ARM of an armed channel, SVC of a slot whose channel is armed (R165, R175). -/
  | channelArmed
  /-- DISPATCH of a channel whose interrupt bit is not set (44_demux.md R188). -/
  | bitNotPending
  /-- FATAL with a code that names no cause (60_exceptions.md R200; U12). -/
  | notACause
  /-- FRAME.VALID or DECODE of a sequence that has not `FRAME_SIZE` bytes (40_checksum.md R114; 42_scanner.md R151). -/
  | frameLength
  /-- EMIT while `SCRATCH` holds no valid frame (42_scanner.md R152). -/
  | notAValidFrame
  /-- A scan class, HEADER_BYTE or FRAME whose condition does not hold at the scan position (30_encoding.md R89). -/
  | classNotTaken
  /-- HEADER_BYTE or FRAME with no scan in progress (30_encoding.md R89). -/
  | noScanInProgress
  /-- The next bytes of the trace are no operation: an unlisted code, or too few bytes for the operands (30_encoding.md R103,
  R104; U12). No operand value leads here. -/
  | badTrace (e : DecodeError)
  deriving DecidableEq, Repr

/-- The outcome of a step of this machine. -/
abbrev Out (α : Type) := Host.Outcome α Fault Refusal

/-- `cfg[c]` before INIT: the spec gives none (R43). Log entry 1. -/
def ChanCfg.reset : ChanCfg :=
  { slot := 0, ringBits := 0, widthBytes := 0, pacing := 0, readFrom := 0, readIncrements := false,
    writeIncrements := false, doneIrq := false }

/-- A channel after reset (R47): idle; `waddr` and `cfg` by log entry 1. -/
def Channel.reset : Channel := { armed := false, waddr := 0, remaining := 0, cfg := ChanCfg.reset }

/-- A slot after reset (R47): empty, cursors 0; `chan`, `ctx`, `lastReq` by log entry 1; `BUF` without a value. -/
def Slot.reset : Slot := { valid := false, chan := 0, ctx := 0, insert := 0, extract := 0, lastReq := 0, buf := [] }

/-- A peripheral from which nothing has been read and with no byte waiting. -/
def Uart.reset : Uart := { rx := [], drawn := 0 }

/-- The consumer that does its duty (42_scanner.md R153): it returns at once, always. -/
def Consumer.dutiful : Consumer := { replies := [], thereafter := true }

/-- The block with parameters `p`, `N_SLOTS` slots and `N_CHANNELS` channels right after reset (R47; R230, R231), with no event
to come. The parameters are arguments (00_scope.md section 4, R14, R15). -/
def State.resetWith (p : Params) (nSlots nChannels : Nat) : State :=
  { par := p
    slots := List.replicate nSlots Slot.reset
    scratch := []
    fatal := false
    diag := { code := 0, chan := 0 }
    irqEn := false
    ints := 0
    chans := List.replicate nChannels Channel.reset
    scan := none
    held := none
    result := .none
    out := []
    consumer := Consumer.dutiful
    uarts := List.replicate nSlots Uart.reset
    trace := [] }

/-- The machine right after reset, with the parameters this hardware takes. -/
def State.reset : State := State.resetWith stdParams Config.nSlots Config.nChannels

end Sys2Proof.Machine
end

