-- ==== Sys2Proof/Machine/Flags.lean ====
section
/-! DEFINITION. The flags of the block (10_state.md R36) and what is computed from them: single bits of `INTS`, the phase, the
shared line, the fatal output. -/

namespace Sys2Proof.Machine

/-- Bit `c` of an interrupt bitmask is set (30_encoding.md R95). -/
def bitSet (m c : Nat) : Bool := m.testBit c

/-- The mask with bit `c` set and the other bits as they were. -/
def setBit (m c : Nat) : Nat := m ||| 2 ^ c

/-- The mask with bit `c` cleared and the other bits as they were (43_rearm.md R164: "clear only that bit"). -/
def clearBit (m c : Nat) : Nat := if bitSet m c then m ^^^ 2 ^ c else m

/-- The three phases of the block (60_exceptions.md R216). -/
inductive Phase where
  | config
  | run
  | halted
  deriving DecidableEq, Repr

/-- The phase, a function of `FATAL` and `IRQ_EN` (R216). -/
def State.phase (st : State) : Phase := if st.fatal then .halted else if st.irqEn then .run else .config

/-- The shared interrupt line (R210). -/
def State.irqLine (st : State) : Bool := st.irqEn && !st.fatal && decide (st.ints ≠ 0)

/-- The sequencer is in the middle of a scan or waits for the consumer (60_exceptions.md R215). -/
def State.busy (st : State) : Bool := st.scan.isSome || st.held.isSome

/-- The scan whose frame an operation waits with; EMIT performed alone belongs to none. -/
def Held.regs : Held → Option ScanRegs
  | .emit => none
  | .accept r => some r
  | .scan r => some r
  | .svc r => some r
  | .irq _ _ r => some r

/-- The scans in progress: one held open between two of its classes, one that waits for the consumer. -/
def State.scansInProgress (st : State) : List ScanRegs := st.scan.toList ++ (st.held.bind Held.regs).toList

/-- The scanner is reading `BUF[s]`: a scan of slot `s` is in progress (20_memory.md R67). -/
def State.reading (st : State) (s : Nat) : Bool := st.scansInProgress.any fun r => decide (r.slot = s)

/-- `DIAG` as the host reads it: `code` in bits 1:0, `chan` in its `CHAN_WIDTH` bits above (10_state.md R38). -/
def Diag.word (nChannels : Nat) (d : Diag) : BitVec (chanWidth nChannels + 2) :=
  BitVec.ofNat (chanWidth nChannels) d.chan ++ d.code

/-- The fatal output: `FATAL`, `DIAG.code`, `DIAG.chan` (30_encoding.md R100; 60_exceptions.md R226). -/
def State.fatalOutput (st : State) : Bool × BitVec 2 × Nat := (st.fatal, st.diag.code, st.diag.chan)

end Sys2Proof.Machine
end

