-- ==== Sys2Proof/Machine/Operands.lean ====
section
/-! DEFINITION. Values computed from operands: physical offsets and segments (41_ring_buffer.md), the fields of a frame
(30_encoding.md sections 1 and 2), the scan position and remainder (10_state.md R30, R31). -/

namespace Sys2Proof.Machine

/-- `phys(c)`, the physical offset of a logical position: `c mod CAPACITY`, its low `LOG2_CAP` bits (41_ring_buffer.md R122). -/
def phys (p : Params) (c : Cursor) : Nat := c.toNat % p.capacity

/-- A count added to a cursor, modulo 2^64 (R121). -/
def advance (c : Cursor) (n : Nat) : Cursor := c + BitVec.ofNat 64 n

/-- The two physical segments of `len` positions from `start`, split at the physical end of the buffer (R124). -/
def window (p : Params) (start : Cursor) (len : Nat) : Segment × Segment :=
  if phys p start + len ≤ p.capacity then (⟨phys p start, len⟩, ⟨0, 0⟩)
  else (⟨phys p start, p.capacity - phys p start⟩, ⟨0, len - (p.capacity - phys p start)⟩)

/-- The physical offsets of a segment, in order. -/
def Segment.offsets (g : Segment) : List Nat := (List.range g.len).map (g.offset + ·)

/-- The physical offsets RB.COPY reads, in order: segment a, then segment b (R125). -/
def windowOffsets (p : Params) (start : Cursor) (len : Nat) : List Nat :=
  (window p start len).1.offsets ++ (window p start len).2.offsets

/-- Byte `o` of a frame. -/
def byteAt (f : List Byte) (o : Nat) : Byte := f.getD o 0

/-- The 16-bit field at frame offsets `o` (low) and `o + 1` (high): little-endian (30_encoding.md R86; 20_memory.md R57). -/
def halfAt (byte : Nat → Byte) (o : Nat) : BitVec 16 := byte (o + 1) ++ byte o

/-- `sample[k]` of a frame: three bytes at offset 6 + 3k (R80 to R82). -/
def sampleAt (byte : Nat → Byte) (k : Nat) : Sample :=
  { distanceMm := halfAt byte (6 + 3 * k), intensity := byte (8 + 3 * k) }

/-- The record whose bytes are given by offset, `n` samples between its fixed fields (R75, R94). -/
def recordOf (n : Nat) (byte : Nat → Byte) : Fields :=
  { header := byte 0
    versionLength := byte 1
    speed := halfAt byte 2
    startAngle := halfAt byte 4
    samples := (List.range n).map (sampleAt byte)
    endAngle := halfAt byte (6 + 3 * n)
    timestamp := halfAt byte (8 + 3 * n)
    checksum := byte (10 + 3 * n) }

/-- DECODE (42_scanner.md R151): the record of a frame, field by field. Where the frame size leaves the offsets without a
reading (00_scope.md R9), the bytes of the record are free values (log entry 15). -/
def decodeFields (p : Params) (f : List Byte) : Fields :=
  if p.laidOut then recordOf p.nSamples (byteAt f) else recordOf p.nSamples (Config.unreadByte f)

/-- `remainder`, the available bytes from the scan position on (10_state.md R31). -/
def ScanRegs.remainder (r : ScanRegs) : Nat := r.available - r.consumed

/-- The registers after `n` more bytes are consumed. -/
def ScanRegs.consume (r : ScanRegs) (n : Nat) : ScanRegs := { r with consumed := r.consumed + n }

/-- What INIT writes into `cfg[c]` for slot `s` (43_rearm.md R171; 30_encoding.md R99). -/
def configFor (p : Params) (s : Nat) : ChanCfg :=
  { slot := s, ringBits := p.log2Cap, widthBytes := 1, pacing := s, readFrom := s, readIncrements := false,
    writeIncrements := true, doneIrq := true }

end Sys2Proof.Machine
end

