-- ==== Sys2Proof/Machine/Ops.lean ====
section
/-! DEFINITION. The shared operations over memories, registers, ports and channels, and the two operations that change the
phase as an exception and its end do: `raise Fatal` (60_exceptions.md R203) and RESET (70_reset_and_hazards.md R230). -/

namespace Sys2Proof.Machine

/-- Perform `o` to completion, then go on with its value (00_scope.md R20, `call`). -/
def andThen {α β : Type} (o : Out α) (k : α → Out β) : Out β :=
  match o with
  | .next a => k a
  | .fault f => .fault f
  | .refused r => .refused r

/-- Go on with `k` when `ok` holds, refuse by name otherwise. -/
def require {α : Type} (ok : Bool) (why : Refusal) (k : Out α) : Out α := if ok then k else .refused why

/-! ### Memories: lists of cells, addresses strictly rising; an address not listed holds no value. -/

/-- The byte at an address, if something wrote it. -/
def memRead : List Host.Cell → Nat → Option Byte
  | [], _ => none
  | (k, v) :: m, a => if k = a then some v else memRead m a

/-- Store a byte, keeping the addresses strictly rising. -/
def memWrite : List Host.Cell → Nat → Byte → List Host.Cell
  | [], a, b => [(a, b)]
  | (k, v) :: m, a, b => if a < k then (a, b) :: (k, v) :: m else if a = k then (a, b) :: m else (k, v) :: memWrite m a b

/-- Store bytes at `a`, `a + 1`, ... in this order. -/
def memWriteAll : List Host.Cell → Nat → List Byte → List Host.Cell
  | m, _, [] => m
  | m, a, b :: bs => memWriteAll (memWrite m a b) (a + 1) bs

/-- All addresses of a memory are at least `lo`, below `hi`, and strictly rising. -/
def memWfFrom : Nat → Nat → List Host.Cell → Bool
  | _, _, [] => true
  | lo, hi, (k, _) :: m => decide (lo ≤ k) && decide (k < hi) && memWfFrom (k + 1) hi m

/-- The canonical form of a memory of `size` bytes. -/
def Memory.wf (size : Nat) (m : List Host.Cell) : Bool := memWfFrom 0 size m

/-- Every memory of the machine is in canonical form and inside its size (10_state.md R39, R40). -/
def State.memWf (st : State) : Bool :=
  st.slots.all (fun x => Memory.wf st.par.capacity x.buf) && Memory.wf st.par.frameSize st.scratch

/-! ### Registers. -/

/-- `N_SLOTS` (00_scope.md R14). -/
def State.nSlots (st : State) : Nat := st.slots.length

/-- `N_CHANNELS` (R15). -/
def State.nChannels (st : State) : Nat := st.chans.length

/-- Slot `s` exists (10_state.md R22). -/
def State.isSlot (st : State) (s : Nat) : Bool := decide (s < st.nSlots)

/-- Channel `c` exists (30_encoding.md R95). -/
def State.isChan (st : State) (c : Nat) : Bool := decide (c < st.nChannels)

/-- The registers of slot `s`; a slot that does not exist reads as an empty one. -/
def State.slot (st : State) (s : Nat) : Slot := st.slots.getD s Slot.reset

/-- The engine's state of channel `c`; a channel that does not exist reads as an idle one. -/
def State.chan (st : State) (c : Nat) : Channel := st.chans.getD c Channel.reset

/-- The peripheral of slot `s`. -/
def State.uart (st : State) (s : Nat) : Uart := st.uarts.getD s Uart.reset

/-- Write slot `s`. -/
def State.setSlot (st : State) (s : Nat) (x : Slot) : State := { st with slots := st.slots.set s x }

/-- Write channel `c`. -/
def State.setChan (st : State) (c : Nat) (x : Channel) : State := { st with chans := st.chans.set c x }

/-- Write the peripheral of slot `s`. -/
def State.setUart (st : State) (s : Nat) (x : Uart) : State := { st with uarts := st.uarts.set s x }

/-- Deliver the value an operation returns. -/
def State.setResult (st : State) (v : OpResult) : State := { st with result := v }

/-- `port!msg` (00_scope.md R20): send a transaction. -/
def State.send (st : State) (e : PortEvent) : State := { st with out := st.out ++ [e] }

/-! ### The consumer. -/

/-- The next answer of the consumer. -/
def Consumer.reply (q : Consumer) : Bool := q.replies.headD q.thereafter

/-- The consumer once `n` of its answers are used up. -/
def Consumer.drop (q : Consumer) (n : Nat) : Consumer := { q with replies := q.replies.drop n }

/-- The consumer has returned, now that the sequencer looks (42_scanner.md R152). -/
def State.reply (st : State) : Bool := st.consumer.reply

/-- The state once that answer is used up. -/
def State.afterReply (st : State) : State := { st with consumer := st.consumer.drop 1 }

/-! ### Ring buffer and scratch. -/

/-- `MemRead(BUF[s], a, 1)` as this model's reader sees it: the byte, if something wrote it. -/
def State.bufByte (st : State) (s : Nat) (a : Nat) : Option Byte := memRead (st.slot s).buf a

/-- `MemRead(SCRATCH, i, 1)`: the byte, if something wrote it. -/
def State.scratchByte (st : State) (i : Nat) : Option Byte := memRead st.scratch i

/-- `MemRead(BUF[s], a, 1)`; a byte nothing has written faults (93_implementation_defined.md U6). -/
def readBuf (s : Nat) (a : Nat) (st : State) : Out Byte :=
  match st.bufByte s a with
  | some b => .next b
  | none => .fault .unwrittenBuf

/-- The bytes of `BUF[s]` at a list of offsets, in order. -/
def readBufAll (s : Nat) (st : State) : List Nat → Out (List Byte)
  | [] => .next []
  | a :: as => andThen (readBuf s a st) fun b => andThen (readBufAll s st as) fun bs => .next (b :: bs)

/-- `SCRATCH[i ..]`, `n` bytes; a byte nothing has written faults (U6). -/
def readScratch (st : State) : Nat → Nat → Out (List Byte)
  | _, 0 => .next []
  | i, n + 1 =>
    match st.scratchByte i with
    | some b => andThen (readScratch st (i + 1) n) fun bs => .next (b :: bs)
    | none => .fault .unwrittenScratch

/-- RB.DMAWR (41_ring_buffer.md R128): store a byte of the ring buffer. -/
def writeBuf (s a : Nat) (b : Byte) (st : State) : State :=
  st.setSlot s { st.slot s with buf := memWrite (st.slot s).buf a b }

/-- `insert[s] - extract[s]` (RB.AVAIL, R123), modulo 2^64. -/
def State.avail (st : State) (s : Nat) : Cursor := (st.slot s).insert - (st.slot s).extract

/-- RB.ADVI (R126): `insert[s] <- insert[s] + n`. -/
def advInsert (s n : Nat) (st : State) : State :=
  st.setSlot s { st.slot s with insert := advance (st.slot s).insert n }

/-- RB.ADVX (R127): `extract[s] <- extract[s] + n`. -/
def advExtract (s n : Nat) (st : State) : State :=
  st.setSlot s { st.slot s with extract := advance (st.slot s).extract n }

/-- The bytes of `len` logical positions from `start`, read segment by segment (R125). -/
def readRange (s : Nat) (start : Cursor) (len : Nat) (st : State) : Out (List Byte) :=
  readBufAll s st (windowOffsets st.par start len)

/-- RB.COPY (R125): `SCRATCH[i] <- BUF[s][phys(start + i)]` for `i` in 0..`len`-1. -/
def copyRange (s : Nat) (start : Cursor) (len : Nat) (st : State) : Out State :=
  andThen (readRange s start len st) fun bs => .next { st with scratch := memWriteAll st.scratch 0 bs }

/-- PUSH's stores (30_encoding.md R106): bytes at the logical positions from `c`. -/
def pushBytes (s : Nat) : Cursor → List Byte → State → State
  | _, [], st => st
  | c, b :: bs, st => pushBytes s (advance c 1) bs (writeBuf s (phys st.par c) b st)

/-- The frame output transaction of slot `s` for the bytes `raw` (30_encoding.md R93). -/
def sendFrame (s : Nat) (raw : List Byte) (st : State) : State :=
  st.send (.frameOut (st.slot s).ctx raw (decodeFields st.par raw))

/-- EMIT up to the wait for the consumer (42_scanner.md R152). -/
def emitFrame (s : Nat) (st : State) : Out State :=
  andThen (readScratch st 0 st.par.frameSize) fun raw => .next (sendFrame s raw st)

/-! ### The DMA engine and its control port. -/

/-- ACK (43_rearm.md R164). -/
def ackChan (c : Nat) (st : State) : State :=
  { st with ints := clearBit st.ints c }.send (.ackReq c)

/-- ARM (R165). -/
def armChan (c waddr count : Nat) (st : State) : State :=
  (st.setChan c { st.chan c with waddr := waddr, remaining := count, armed := true }).send (.armReq c waddr count)

/-- DMA.CONFIG (R171). -/
def configChan (c s : Nat) (st : State) : State :=
  (st.setChan c { st.chan c with cfg := configFor st.par s }).send (.cfgReq c (configFor st.par s))

/-- The next byte of `STREAM[s]` (R176): the oldest byte waiting, else a free one. -/
def nextStreamByte (s : Nat) (st : State) : Byte :=
  match (st.uart s).rx with
  | b :: _ => b
  | [] => Config.streamByte s (st.uart s).drawn

/-- The peripheral of slot `s` after one read of its receive register (20_memory.md R55) that leaves the bytes `rx` waiting. -/
def drawStream (s : Nat) (rx : List Byte) (st : State) : State :=
  st.setUart s { rx := rx, drawn := (st.uart s).drawn + 1 }

/-- DMA.BYTE is enabled (R173), a byte being at hand. -/
def State.byteEnabled (st : State) (c : Nat) : Bool :=
  (st.chan c).armed && decide ((st.chan c).remaining ≠ 0)

/-- The DMA channel of slot `s`, the one writer of `BUF[s]`, is writing there: the slot is valid, its channel is armed for it and has
bytes to go, and the scanner is not reading the buffer (10_state.md R45; R172, R173; 20_memory.md R67). -/
def State.writing (st : State) (s : Nat) : Bool :=
  (st.slot s).valid && st.byteEnabled (st.slot s).chan && decide ((st.chan (st.slot s).chan).cfg.slot = s) && !st.reading s

/-- DMA.DONE is enabled (R174). -/
def State.doneEnabled (st : State) (c : Nat) : Bool :=
  (st.chan c).armed && decide ((st.chan c).remaining = 0)

/-- The engine's write of the byte `b` just read (R173): into the buffer at `waddr`, which then wraps on; one byte less to go. -/
def storeByte (c : Nat) (b : Byte) (st : State) : State :=
  (writeBuf (st.chan c).cfg.slot (st.chan c).waddr b st).setChan c
    { st.chan c with waddr := ((st.chan c).waddr + 1) % st.par.capacity, remaining := (st.chan c).remaining - 1 }

/-- DMA.BYTE (R173): the next byte of the stream of the channel's slot, stored. -/
def transferByte (c : Nat) (st : State) : State :=
  storeByte c (nextStreamByte (st.chan c).cfg.slot st)
    (drawStream (st.chan c).cfg.slot (st.uart (st.chan c).cfg.slot).rx.tail st)

/-- DMA.BYTE once for each byte listed, these being the next bytes of the stream (30_encoding.md R105); the bytes that wait
already come after them. -/
def transferBytes (c : Nat) : List Byte → State → State
  | [], st => st
  | b :: bs, st =>
    transferBytes c bs (storeByte c b (drawStream (st.chan c).cfg.slot (st.uart (st.chan c).cfg.slot).rx st))

/-- `INTS[c] <- 1`. -/
def raiseChan (c : Nat) (st : State) : State := { st with ints := setBit st.ints c }

/-- DMA.DONE (R174). -/
def finishTransfer (c : Nat) (st : State) : State :=
  raiseChan c (st.setChan c { st.chan c with armed := false })

/-! ### The registry. -/

/-- Slot `s` is valid and holds channel `c`. -/
def State.owns (st : State) (s c : Nat) : Bool :=
  (st.slot s).valid && decide ((st.slot s).chan = c)

/-- LOOKUP (44_demux.md R182): the first slot, in ascending order, that owns the channel. -/
def State.lookup (st : State) (c : Nat) : Option Nat :=
  (List.range st.nSlots).find? fun s => st.owns s c

/-! ### The exception and its end. -/

/-- `DIAG.code` of an interrupt bit no slot owns (60_exceptions.md R201). -/
def unmatchedIrq : BitVec 2 := 1

/-- `DIAG.code` of a buffer smaller than a frame (R202). -/
def capacityTooSmall : BitVec 2 := 2

/-- `raise Fatal(code, chan)` (R203): the first one is recorded and halts the block; the operation in progress and every
operation that called it are abandoned. -/
def raiseFatal (code : BitVec 2) (chan : Nat) (st : State) : State :=
  if st.fatal then { st with scan := none, held := none }
  else { st with fatal := true, diag := { code := code, chan := chan }, scan := none, held := none }

/-- RESET (70_reset_and_hazards.md R230, R231; 60_exceptions.md R205): the block and the DMA engine as after reset, with the
same parameters; the inputs and the history of the ports are not the block's and stay. What R231 leaves unspecified: log entry
1. -/
def resetBlock (st : State) : State :=
  { State.resetWith st.par st.nSlots st.nChannels with
    out := st.out, consumer := st.consumer, uarts := st.uarts, trace := st.trace }

end Sys2Proof.Machine
end

