-- ==== Sys2Proof/Machine/Chk.lean ====
section
/-! DEFINITION. CHK's operations as instructions (40_checksum.md): each returns its value and writes nothing else. -/

namespace Sys2Proof.Machine

/-- CRC.STEP (R111). -/
def execCrcStep (c8 b : Byte) (st : State) : Out State := .next (st.setResult (.byte (crcStep (tableAt st.par) c8 b)))

/-- CRC.RANGE (R112). -/
def execCrcRange (bytes : List Byte) (st : State) : Out State :=
  .next (st.setResult (.byte (crcRange (tableAt st.par) bytes)))

/-- FRAME.VALID (R114): its operand has `FRAME_SIZE` bytes. -/
def execFrameValid (f : List Byte) (st : State) : Out State :=
  require (decide (f.length = st.par.frameSize)) .frameLength <| .next (st.setResult (.valid (frameValid st.par f)))

end Sys2Proof.Machine
end

