-- ==== Sys2Proof/Machine/Scn.lean ====
section
/-! DEFINITION. SCN, the scanner (42_scanner.md): the six classes, the scan they make up, EMIT and DECODE. SCAN performs its
classes one after another in one step; a class performed as an instruction of its own does one iteration and leaves the scan
open in `State.scan`; what may come between two classes is the model's choice (log entry 5). A scan is cut only where EMIT waits
for the consumer, at any of its frames. What `SCRATCH` holds once a scan has returned is not architectural (10_state.md R40, U9):
that the model keeps the bytes last copied is its choice (log entry 26). -/

namespace Sys2Proof.Machine

/-- The six classes of one scan iteration (30_encoding.md R89). -/
inductive ScanClass where
  | idle
  | drain
  | skip
  | defer
  | accept
  | reject
  deriving DecidableEq, Repr

/-- `pos`, the logical position examined next (10_state.md R30). -/
def ScanRegs.pos (r : ScanRegs) (st : State) : Cursor := advance (st.slot r.slot).extract r.consumed

/-- The registers at scan entry (R136): `available` is fixed for the whole scan, nothing is consumed. -/
def scanEntry (s : Nat) (st : State) : ScanRegs := { slot := s, available := (st.avail s).toNat, consumed := 0 }

/-- The class at the scan position, the conditions tested in the order of R89's table. `consumed` never passes `available`
(R147), so the loop's own test `consumed < available` (R136) is DRAIN's condition negated. -/
def classify (r : ScanRegs) (st : State) : Out ScanClass :=
  if r.available = 0 then .next .idle
  else if r.available ≤ r.consumed then .next .drain
  else andThen (readBuf r.slot (phys st.par (r.pos st)) st) fun b =>
    if b ≠ st.par.header then .next .skip
    else if r.remainder < st.par.frameSize then .next .defer
    else andThen (readRange r.slot (r.pos st) st.par.frameSize st) fun f =>
      if frameValid st.par f then .next .accept else .next .reject

/-- What one class leaves: the scan goes on, it has returned a request size, or it waits for the consumer inside EMIT. -/
inductive ClassOut where
  | more (r : ScanRegs) (st : State)
  | done (n : Nat) (st : State)
  | held (r : ScanRegs) (st : State)
  deriving DecidableEq, Repr

/-- SCN.IDLE (R137): nothing is written. -/
def scnIdle (_r : ScanRegs) (st : State) : Out ClassOut := .next (.done st.par.frameSize st)

/-- SCN.SKIP (R138). -/
def scnSkip (r : ScanRegs) (st : State) : Out ClassOut := .next (.more (r.consume 1) st)

/-- SCN.DEFER (R139). -/
def scnDefer (r : ScanRegs) (st : State) : Out ClassOut :=
  .next (.done (st.par.frameSize - r.remainder) (advExtract r.slot r.consumed st))

/-- SCN.ACCEPT (R140): copy, EMIT, and past the frame once the consumer has returned; until then it waits. -/
def scnAccept (r : ScanRegs) (st : State) : Out ClassOut :=
  andThen (copyRange r.slot (r.pos st) st.par.frameSize st) fun st1 =>
  andThen (emitFrame r.slot st1) fun st2 =>
    if st2.reply then .next (.more (r.consume st.par.frameSize) st2.afterReply) else .next (.held r st2.afterReply)

/-- SCN.REJECT (R141). -/
def scnReject (r : ScanRegs) (st : State) : Out ClassOut :=
  andThen (copyRange r.slot (r.pos st) st.par.frameSize st) fun st1 => .next (.more (r.consume 1) st1)

/-- SCN.DRAIN (R142). -/
def scnDrain (r : ScanRegs) (st : State) : Out ClassOut :=
  .next (.done st.par.frameSize (advExtract r.slot r.consumed st))

/-- The effect of a class. -/
def performClass : ScanClass → ScanRegs → State → Out ClassOut
  | .idle => scnIdle
  | .drain => scnDrain
  | .skip => scnSkip
  | .defer => scnDefer
  | .accept => scnAccept
  | .reject => scnReject

/-- One iteration: the class the state is in, performed. -/
def scanIter (r : ScanRegs) (st : State) : Out ClassOut := andThen (classify r st) fun k => performClass k r st

/-- What a whole scan leaves: its return value, or it waits for the consumer. -/
inductive ScanOut where
  | done (n : Nat) (st : State)
  | held (r : ScanRegs) (st : State)
  deriving DecidableEq, Repr

/-- The loop of SCAN (R136) from any of its iterations. The first argument bounds the iterations: the callers give one more
than the bytes left, each iteration that goes on consumes at least one of them (R147), so it is not 0 before the scan ends;
were it 0, every byte would be consumed and the class would be DRAIN. -/
def scanRun : Nat → ScanRegs → State → Out ScanOut
  | 0, r, st => .next (.done st.par.frameSize (advExtract r.slot r.consumed st))
  | k + 1, r, st => andThen (scanIter r st) fun o =>
    match o with
    | .more r' st' => scanRun k r' st'
    | .done n st' => .next (.done n st')
    | .held r' st' => .next (.held r' st')

/-- SCAN (R136) from its entry. Refused when `insert - extract` is above `CAPACITY` (R154). The bound of the loop counts one
iteration for each available byte and one for the exit. -/
def scanSlot (s : Nat) (st : State) : Out ScanOut :=
  require (decide ((st.avail s).toNat ≤ st.par.capacity)) .availAboveCapacity <|
    scanRun ((st.avail s).toNat + 1) (scanEntry s st) st

/-- SCAN called alone (R136). -/
def execScan (s : Nat) (st : State) : Out State :=
  require (!st.fatal) .halted <|
  require (!st.busy) .sequencerBusy <|
  require (st.slot s).valid .slotNotValid <|
  andThen (scanSlot s st) fun o =>
    match o with
    | .done n st' => .next (st'.setResult (.next n))
    | .held r st' => .next { st' with held := some (.scan r) }

/-- The bytes the scan has still to examine lie in `[extract, insert)`, the only positions that can be read (20_memory.md R51;
10_state.md R29 a, b). -/
def ScanRegs.inside (r : ScanRegs) (st : State) : Bool :=
  decide (r.consumed ≤ r.available) && decide (r.available ≤ (st.avail r.slot).toNat)

/-- The registers a class of slot `s` performed alone works on: those of the open scan of `s`, else those of a scan of `s`
entered now. -/
def classRegs (s : Nat) (st : State) (k : ScanRegs → Out State) : Out State :=
  require st.held.isNone .sequencerBusy <|
  match st.scan with
  | some r => require (decide (r.slot = s)) .sequencerBusy (require (r.inside st) .notReadable (k r))
  | none => require (decide ((st.avail s).toNat ≤ st.par.capacity)) .availAboveCapacity (k (scanEntry s st))

/-- Keep what a class performed alone leaves: the scan stays open, or ends with its return value, or waits. -/
def keepClass (o : ClassOut) : Out State :=
  match o with
  | .more r st => .next { st with scan := some r }
  | .done n st => .next ({ st with scan := none }.setResult (.next n))
  | .held r st => .next { st with scan := none, held := some (.accept r) }

/-- One class performed alone on the scan of slot `s`; refused where another class is the one taken (30_encoding.md R89). The
spec knows no class alone, so which operations may come between two classes of an open scan is the model's choice (log entry 5). -/
def classAlone (k : ScanClass) (s : Nat) (st : State) : Out State :=
  require (!st.fatal) .halted <|
  require (st.slot s).valid .slotNotValid <|
  classRegs s st fun r =>
  andThen (classify r st) fun k' =>
  require (decide (k' = k)) .classNotTaken <|
  andThen (performClass k r st) keepClass

/-- SCN.IDLE (R137). -/
def execScnIdle (s : Nat) (st : State) : Out State := classAlone .idle s st

/-- SCN.SKIP (R138). -/
def execScnSkip (s : Nat) (st : State) : Out State := classAlone .skip s st

/-- SCN.DEFER (R139). -/
def execScnDefer (s : Nat) (st : State) : Out State := classAlone .defer s st

/-- SCN.ACCEPT (R140). -/
def execScnAccept (s : Nat) (st : State) : Out State := classAlone .accept s st

/-- SCN.REJECT (R141). -/
def execScnReject (s : Nat) (st : State) : Out State := classAlone .reject s st

/-- SCN.DRAIN (R142). -/
def execScnDrain (s : Nat) (st : State) : Out State := classAlone .drain s st

/-- DECODE (R151). -/
def execDecode (f : List Byte) (st : State) : Out State :=
  require (decide (f.length = st.par.frameSize)) .frameLength <| .next (st.setResult (.fields (decodeFields st.par f)))

/-- EMIT (R152): `SCRATCH` holds a valid frame; the transaction is sent, and the sequencer waits unless the consumer returns
at once (R153). Performed alone after a scan has returned, it finds the bytes last copied (log entry 26: R40 and U9 leave
open what is there), and sends them under the handle of the slot it is given, which need not be the slot whose scan copied them
(R93's `ctx` is that slot's; what EMIT of another valid slot does is open, and the choice is log entry 26). -/
def execEmit (s : Nat) (st : State) : Out State :=
  require (!st.fatal) .halted <|
  require st.held.isNone .sequencerBusy <|
  require (st.slot s).valid .slotNotValid <|
  andThen (readScratch st 0 st.par.frameSize) fun f =>
  require (frameValid st.par f) .notAValidFrame <|
    .next { (sendFrame s f st).afterReply with held := if st.reply then none else some .emit }

end Sys2Proof.Machine
end

