-- ==== Sys2Proof/Machine/Rrs.lean ====
section
/-! DEFINITION. RRS, the rearm sequencer, and the DMA engine as RBFS relies on it (43_rearm.md), with the test operations DMA
and RAISE (30_encoding.md R105, R107). -/

namespace Sys2Proof.Machine

/-- Steps ACK and ARM of a service whose scan returned `n` (R161): acknowledge, record the request, rearm at `phys(insert)`. -/
def serviceEnd (s : Nat) (n : Nat) (st : State) : State :=
  let c := (st.slot s).chan
  let st1 := ackChan c st
  let st2 := st1.setSlot s { st1.slot s with lastReq := n }
  armChan c (phys st2.par (st2.slot s).insert) n st2

/-- What a service leaves: it has returned, or it waits for the consumer in step SCAN. -/
inductive SvcOut where
  | done (st : State)
  | held (r : ScanRegs) (st : State)
  deriving DecidableEq, Repr

/-- SVC (R161): ADV, SCAN, ACK, ARM. -/
def service (s : Nat) (st : State) : Out SvcOut :=
  andThen (scanSlot s (advInsert s (st.slot s).lastReq st)) fun o =>
    match o with
    | .done n st' => .next (.done (serviceEnd s n st'))
    | .held r st' => .next (.held r st')

/-- SVC called alone (R161): the slot is valid and its channel is not armed (R175; 20_memory.md R67). The spec calls it from DISPATCH
only, with the bit pending; alone it asks for neither the bit nor phase RUN (log entry 11). -/
def execSvc (s : Nat) (st : State) : Out State :=
  require (!st.fatal) .halted <|
  require (!st.busy) .sequencerBusy <|
  require (st.slot s).valid .slotNotValid <|
  require (!(st.chan (st.slot s).chan).armed) .channelArmed <|
  andThen (service s st) fun o =>
    match o with
    | .done st' => .next st'
    | .held r st' => .next { st' with held := some (.svc r) }

/-- ACK (R164). The spec performs it only inside a service, on the set bit of the slot's own channel (60_exceptions.md R209);
performed alone it is that write for any channel, owned or not, bit set or not, in CONFIG as in RUN (log entry 25). -/
def execAck (c : Nat) (st : State) : Out State :=
  require (!st.fatal) .halted <|
  require (st.isChan c) .channelOutOfRange <|
    .next (ackChan c st)

/-- ARM (R165): the count is in 1..`FRAME_SIZE` and the channel is not armed. The spec performs it only inside INIT and SVC, on the
channel of a slot (30_encoding.md R97); performed alone it arms any channel, owned or not, configured or not: the bytes it
then moves go where `cfg` points (log entries 1 and 25). -/
def execArm (c waddr count : Nat) (st : State) : Out State :=
  require (!st.fatal) .halted <|
  require (st.isChan c) .channelOutOfRange <|
  require (decide (waddr < st.par.capacity)) .offsetOutOfRange <|
  require (decide (1 ≤ count) && decide (count ≤ st.par.frameSize)) .countOutOfRange <|
  require (!(st.chan c).armed) .channelArmed <|
    .next (armChan c waddr count st)

/-- DMA.CONFIG (R171). The spec issues it once for each slot, by INIT (30_encoding.md R99); performed alone it points any channel,
armed, owned or neither, at any slot, as often as it is performed, in CONFIG as in RUN (log entry 25). -/
def execDmaConfig (c s : Nat) (st : State) : Out State :=
  require (!st.fatal) .halted <|
  require (st.isChan c) .channelOutOfRange <|
  require (st.isSlot s) .slotOutOfRange <|
    .next (configChan c s st)

/-- DMA.BYTE (R173), by the engine, in every phase; not into a buffer that the scanner is reading (20_memory.md R67). -/
def execDmaByte (c : Nat) (st : State) : Out State :=
  require (st.byteEnabled c) .dmaNotEnabled <|
  require (!st.reading (st.chan c).cfg.slot) .bufferBeingRead <|
    .next (transferByte c st)

/-- DMA.DONE (R174), by the engine, in every phase. -/
def execDmaDone (c : Nat) (st : State) : Out State :=
  require (st.doneEnabled c) .dmaNotEnabled <| .next (finishTransfer c st)

/-- DMA (30_encoding.md R105): the listed bytes are the next of the stream; as many DMA.BYTE steps, then DMA.DONE.
Like DMA.BYTE, not into a buffer that the scanner is reading. -/
def execDma (c : Nat) (bytes : List Byte) (st : State) : Out State :=
  require ((st.chan c).armed && decide (bytes.length = (st.chan c).remaining)) .dmaIllFormed <|
  require (!st.reading (st.chan c).cfg.slot) .bufferBeingRead <|
    .next (finishTransfer c (transferBytes c bytes st))

/-- RAISE (30_encoding.md R107). -/
def execRaise (c : Nat) (st : State) : Out State :=
  require (st.isChan c) .channelOutOfRange <| .next (raiseChan c st)

end Sys2Proof.Machine
end

