-- ==== Sys2Proof/Machine/Dmx.lean ====
section
/-! DEFINITION. DMX, the registry and the interrupt demultiplexer (44_demux.md): INIT, ENABLE, IRQ, LOOKUP, DISPATCH; and what
the sequencer does when the consumer returns from a frame transaction that was waited for (42_scanner.md R152). -/

namespace Sys2Proof.Machine

/-- INIT's writes (R184), its refusals past. The capacity check comes before anything is written (60_exceptions.md R202). The
handle is kept in its `CTX_WIDTH` bits. -/
def initSlot (s c h : Nat) (st : State) : State :=
  if st.par.capacity < st.par.frameSize then raiseFatal capacityTooSmall c st
  else
    let st1 := st.setSlot s { st.slot s with
      valid := true, chan := c, ctx := h % 2 ^ st.par.ctxWidth, insert := 0, extract := 0, lastReq := st.par.frameSize }
    armChan c 0 st.par.frameSize (configChan c s st1)

/-- INIT (R184, R185): operands and state judged in the order of R185, then the writes. -/
def execInit (s c h : Nat) (st : State) : Out State :=
  require (decide (st.phase = .config)) .notConfigPhase <|
  require (st.isSlot s) .slotOutOfRange <|
  require (st.isChan c) .channelOutOfRange <|
  require (!(st.slot s).valid) .slotOccupied <|
  require (st.lookup c).isNone .channelTaken <|
    .next (initSlot s c h st)

/-- ENABLE (R186). -/
def execEnable (st : State) : Out State :=
  require (decide (st.phase = .config)) .notConfigPhase <| .next { st with irqEn := true }

/-- LOOKUP (R182). -/
def execLookup (c : Nat) (st : State) : Out State :=
  require (st.isChan c) .channelOutOfRange <| .next (st.setResult (.slot (st.lookup c)))

/-- What dispatching one bit leaves: the service returned, it waits for the consumer, or the block halted. -/
inductive DispatchOut where
  | done (st : State)
  | held (r : ScanRegs) (st : State)
  | fatal (st : State)
  deriving DecidableEq, Repr

/-- DISPATCH (R188): the owner's service, or `Fatal(UNMATCHED_IRQ, c)` (R191). -/
def dispatchChan (c : Nat) (st : State) : Out DispatchOut :=
  match st.lookup c with
  | none => .next (.fatal (raiseFatal unmatchedIrq c st))
  | some s => andThen (service s st) fun o =>
    match o with
    | .done st' => .next (.done st')
    | .held r st' => .next (.held r st')

/-- The loop of IRQ (R187) over the channels still to be looked at, ascending; `pending` is the snapshot less the bits
already handled. -/
def irqRun : List Nat → Nat → State → Out State
  | [], _, st => .next st
  | c :: cs, pending, st =>
    if bitSet pending c then
      andThen (dispatchChan c st) fun o =>
        match o with
        | .done st' => irqRun cs (clearBit pending c) st'
        | .held r st' => .next { st' with held := some (.irq pending c r) }
        | .fatal st' => .next st'
    else irqRun cs pending st

/-- The channels in ascending order. -/
def State.channels (st : State) : List Nat := List.range st.nChannels

/-- The channels above `c`, ascending. -/
def State.channelsAbove (st : State) (c : Nat) : List Nat := st.channels.filter (c < ·)

/-- IRQ (R187): one run of the handler on a snapshot of `INTS`. In phase RUN with `INTS` = 0 it does nothing (R195). -/
def execIrq (st : State) : Out State :=
  require (decide (st.phase = .run)) .irqNotEnabled <|
  require (!st.busy) .sequencerBusy <|
    irqRun st.channels st.ints st

/-- DISPATCH called alone (R188), for a bit that a snapshot taken now would hold. -/
def execDispatch (c : Nat) (st : State) : Out State :=
  require (decide (st.phase = .run)) .irqNotEnabled <|
  require (!st.busy) .sequencerBusy <|
  require (st.isChan c) .channelOutOfRange <|
  require (bitSet st.ints c) .bitNotPending <|
  andThen (dispatchChan c st) fun o =>
    match o with
    | .done st' => .next st'
    | .held r st' => .next { st' with held := some (.svc r) }
    | .fatal st' => .next st'

/-- A scan after the consumer has returned: past the frame just delivered, and on (42_scanner.md R140). -/
def scanAgain (r : ScanRegs) (st : State) : Out ScanOut :=
  scanRun (r.available - (r.consumed + st.par.frameSize) + 1) (r.consume st.par.frameSize) st

/-- The consumer returns (42_scanner.md R152): the operation that waited goes on to its end or to its next frame. -/
def resume (st : State) : Out State :=
  let free := { st with held := none }
  match st.held with
  | none => .next st
  | some .emit => .next free
  | some (.accept r) => .next { free with scan := some (r.consume st.par.frameSize) }
  | some (.scan r) => andThen (scanAgain r free) fun o =>
    match o with
    | .done n st' => .next (st'.setResult (.next n))
    | .held r' st' => .next { st' with held := some (.scan r') }
  | some (.svc r) => andThen (scanAgain r free) fun o =>
    match o with
    | .done n st' => .next (serviceEnd r.slot n st')
    | .held r' st' => .next { st' with held := some (.svc r') }
  | some (.irq pending c r) => andThen (scanAgain r free) fun o =>
    match o with
    | .done n st' => irqRun (st'.channelsAbove c) (clearBit pending c) (serviceEnd r.slot n st')
    | .held r' st' => .next { st' with held := some (.irq pending c r') }

end Sys2Proof.Machine
end

