-- ==== Sys2Proof/Machine/Rbs.lean ====
section
/-! DEFINITION. RBS's operations as instructions (41_ring_buffer.md), and the test operation PUSH (30_encoding.md R106). The
operations that only another operation calls can be performed alone on any slot, valid or not (log entry 11: R23 and R123 to R127
leave it open). -/

namespace Sys2Proof.Machine

/-- RB.PHYS (R122). -/
def execRbPhys (c : Cursor) (st : State) : Out State := .next (st.setResult (.offset (phys st.par c)))

/-- RB.AVAIL (R123); that it does not ask for `valid[s]` is log entry 11. -/
def execRbAvail (s : Nat) (st : State) : Out State :=
  require (st.isSlot s) .slotOutOfRange <| .next (st.setResult (.avail (st.avail s)))

/-- RB.WINDOW (R124): reads no memory; the slot only names the buffer the segments lie in. -/
def execRbWindow (s : Nat) (start : Cursor) (len : Nat) (st : State) : Out State :=
  require (st.isSlot s) .slotOutOfRange <|
  require (decide (len ≤ st.par.capacity)) .lenTooLong <|
    .next (st.setResult (.window (window st.par start len).1 (window st.par start len).2))

/-- The positions `start .. start + len - 1` all lie in `[extract[s], insert[s])` (R125; 20_memory.md R51). -/
def State.readable (st : State) (s : Nat) (start : Cursor) (len : Nat) : Bool :=
  decide (len = 0) || decide ((start - (st.slot s).extract).toNat + len ≤ (st.avail s).toNat)

/-- RB.COPY of `len` positions is a copy the unit makes: at most a frame, at most a buffer (R125; U4). -/
def Params.copies (p : Params) (len : Nat) : Bool := decide (len ≤ p.frameSize) && decide (len ≤ p.capacity)

/-- RB.COPY (R125); that it does not ask for `valid[s]` is log entry 11. -/
def execRbCopy (s : Nat) (start : Cursor) (len : Nat) (st : State) : Out State :=
  require (!st.fatal) .halted <|
  require (st.isSlot s) .slotOutOfRange <|
  require (Params.copies st.par len) .lenTooLong <|
  require (st.readable s start len) .notReadable <|
    copyRange s start len st

/-- RB.ADVI (R126), for any count; that it does not ask for `valid[s]` is log entry 11. While a scan of the
slot is in progress it is refused: the scan leaves `insert` as it is until it returns (42_scanner.md R136). -/
def execRbAdvi (s n : Nat) (st : State) : Out State :=
  require (!st.fatal) .halted <|
  require (st.isSlot s) .slotOutOfRange <|
  require (!st.reading s) .sequencerBusy <|
    .next (advInsert s n st)

/-- RB.ADVX (R127): `n` is at most `RB.AVAIL(s)`; that it does not ask for `valid[s]` is log entry 11. While a scan of the
slot is in progress it is refused: `extract` is written once, by the scan's own end (42_scanner.md R136), and the bytes still to be
examined stay in `[extract, insert)` (20_memory.md R51). -/
def execRbAdvx (s n : Nat) (st : State) : Out State :=
  require (!st.fatal) .halted <|
  require (st.isSlot s) .slotOutOfRange <|
  require (!st.reading s) .sequencerBusy <|
  require (decide (n ≤ (st.avail s).toNat)) .pastInsert <|
    .next (advExtract s n st)

/-- RB.DMAWR (R128), by the DMA engine, in every phase (60_exceptions.md R204): only while the channel of slot `s` is writing, and
never while the scanner reads the buffer (10_state.md R45; 20_memory.md R67). Performed alone, it takes any offset of the buffer
and leaves the channel as it is (log entry 11). -/
def execRbDmawr (s a : Nat) (b : Byte) (st : State) : Out State :=
  require (st.isSlot s) .slotOutOfRange <|
  require (decide (a < st.par.capacity)) .offsetOutOfRange <|
  require (st.writing s) .dmaNotEnabled <|
    .next (writeBuf s a b st)

/-- PUSH (30_encoding.md R106), no hardware: the bytes into the buffer from `insert[s]` on, then `insert[s]` past them. R106
names no bar but these two, so PUSH moves in every phase (log entry 12) and whatever is in progress (log entries 5 and 8). -/
def execPush (s : Nat) (bytes : List Byte) (st : State) : Out State :=
  require (st.slot s).valid .slotNotValid <|
  require (decide ((st.avail s).toNat + bytes.length ≤ st.par.capacity)) .noRoom <|
    .next (advInsert s bytes.length (pushBytes s (st.slot s).insert bytes st))

end Sys2Proof.Machine
end

