-- ==== Sys2Proof/Machine/Sys.lean ====
section
/-! DEFINITION. The two operations that move the block between its phases as an exception and its end do: FATAL
(60_exceptions.md R203) and RESET (70_reset_and_hazards.md R230). -/

namespace Sys2Proof.Machine

/-- RESET (R230), admitted in every phase. -/
def execReset (st : State) : Out State := .next (resetBlock st)

/-- FATAL, `raise Fatal(code, chan)` as an operation of its own (R203): the code names one of the two causes (R200). -/
def execFatal (code chan : Nat) (st : State) : Out State :=
  require (decide (code = unmatchedIrq.toNat ∨ code = capacityTooSmall.toNat)) .notACause <|
  require (st.isChan chan) .channelOutOfRange <|
    .next (raiseFatal (BitVec.ofNat 2 code) chan st)

end Sys2Proof.Machine
end

