-- ==== Sys2Proof/Machine/Wire.lean ====
section
/-! DEFINITION. The two rows of the table that are formats of the stream, HEADER_BYTE (30_encoding.md R89, R90) and FRAME (R75):
what the scanner does when the bytes at the scan position of a scan in progress are those. The stream steers the scanner as
an instruction stream steers a processor (20_memory.md R72): these two are fetched from the buffer at the scan position
(Machine/Sched.lean), never from a trace (R103). With no scan in progress there is no such position. Log entry 5. -/

namespace Sys2Proof.Machine

/-- The open scan, with nothing waiting. -/
def openScan (st : State) (k : ScanRegs → Out State) : Out State :=
  require (!st.fatal) .halted <|
  require st.held.isNone .sequencerBusy <|
  match st.scan with
  | some r => require (st.slot r.slot).valid .slotNotValid (require (r.inside st) .notReadable (k r))
  | none => .refused .noScanInProgress

/-- A class of the candidate arm: the byte at the scan position is the header (42_scanner.md R145). -/
def ScanClass.isCandidate : ScanClass → Bool
  | .defer => true
  | .accept => true
  | .reject => true
  | .idle => false
  | .drain => false
  | .skip => false

/-- HEADER_BYTE: the byte at the scan position is a header; the class that its remainder and checksum select is performed. -/
def execHeaderByte (st : State) : Out State :=
  openScan st fun r =>
  andThen (classify r st) fun k =>
  require k.isCandidate .classNotTaken <|
  andThen (performClass k r st) keepClass

/-- FRAME: the `FRAME_SIZE` available bytes from the scan position on are the valid frame `raw`; SCN.ACCEPT is performed. -/
def execFrame (raw : List Byte) (st : State) : Out State :=
  openScan st fun r =>
  andThen (classify r st) fun k =>
  require (decide (k = .accept)) .classNotTaken <|
  andThen (readRange r.slot (r.pos st) st.par.frameSize st) fun f =>
  require (decide (f = raw)) .classNotTaken <|
  andThen (performClass .accept r st) keepClass

end Sys2Proof.Machine
end

