-- ==== Sys2Proof/Machine/Dispatch.lean ====
section
/-! DEFINITION. One arm per operation. -/

namespace Sys2Proof.Machine

def exec (i : Instr) (s : State) : Host.Outcome State Fault Refusal :=
  match i with
  | .reset => Sys2Proof.Machine.execReset s
  | .init t c h => Sys2Proof.Machine.execInit t c h s
  | .enable => Sys2Proof.Machine.execEnable s
  | .crcStep c8 b => Sys2Proof.Machine.execCrcStep c8 b s
  | .crcRange l => Sys2Proof.Machine.execCrcRange l s
  | .frameValid f => Sys2Proof.Machine.execFrameValid f s
  | .rbPhys p => Sys2Proof.Machine.execRbPhys p s
  | .rbAvail t => Sys2Proof.Machine.execRbAvail t s
  | .rbWindow t p n => Sys2Proof.Machine.execRbWindow t p n s
  | .rbCopy t p n => Sys2Proof.Machine.execRbCopy t p n s
  | .rbAdvi t n => Sys2Proof.Machine.execRbAdvi t n s
  | .rbAdvx t n => Sys2Proof.Machine.execRbAdvx t n s
  | .rbDmawr t a b => Sys2Proof.Machine.execRbDmawr t a b s
  | .push t l => Sys2Proof.Machine.execPush t l s
  | .scan t => Sys2Proof.Machine.execScan t s
  | .scnIdle t => Sys2Proof.Machine.execScnIdle t s
  | .scnSkip t => Sys2Proof.Machine.execScnSkip t s
  | .scnDefer t => Sys2Proof.Machine.execScnDefer t s
  | .scnAccept t => Sys2Proof.Machine.execScnAccept t s
  | .scnReject t => Sys2Proof.Machine.execScnReject t s
  | .scnDrain t => Sys2Proof.Machine.execScnDrain t s
  | .decode f => Sys2Proof.Machine.execDecode f s
  | .emit t => Sys2Proof.Machine.execEmit t s
  | .svc t => Sys2Proof.Machine.execSvc t s
  | .ack c => Sys2Proof.Machine.execAck c s
  | .arm c a n => Sys2Proof.Machine.execArm c a n s
  | .dma c l => Sys2Proof.Machine.execDma c l s
  | .raise c => Sys2Proof.Machine.execRaise c s
  | .dmaConfig c t => Sys2Proof.Machine.execDmaConfig c t s
  | .dmaByte c => Sys2Proof.Machine.execDmaByte c s
  | .dmaDone c => Sys2Proof.Machine.execDmaDone c s
  | .irq => Sys2Proof.Machine.execIrq s
  | .lookup c => Sys2Proof.Machine.execLookup c s
  | .dispatch c => Sys2Proof.Machine.execDispatch c s
  | .fatal code c => Sys2Proof.Machine.execFatal code c s
  | .headerByte => Sys2Proof.Machine.execHeaderByte s
  | .frame raw => Sys2Proof.Machine.execFrame raw s

end Sys2Proof.Machine
end

