-- ==== Sys2Proof/Machine/Sched.lean ====
section
/-! DEFINITION. Which agent moves next (00_scope.md R8; 70_reset_and_hazards.md R233, R236, R256): the fetch of the next event
of the trace, the operations that only the sequencer performs, the scanner's own fetch from the buffer at the scan position
(10_state.md R30; 20_memory.md R72), and the event the hardware takes by itself when the trace holds none. Log entries 3 and
10. -/

namespace Sys2Proof.Machine

/-- The next event of the trace, and the state with its bytes taken from the trace (30_encoding.md R104). -/
def fetch (st : State) : Except DecodeError (Instr × State) :=
  match decode st.par st.trace with
  | .error e => .error e
  | .ok (i, rest) => .ok (i, { st with trace := rest })

/-- The operation is a step of the host's reset, of the DMA engine, or of the world outside the block (the test operations DMA,
RAISE and PUSH), not of the sequencer (R8; 30_encoding.md R103 column `kind`). These may act while the sequencer waits for the
consumer; that PUSH, which is no hardware, is among them is the model's choice (log entry 8). -/
def othersStep : Instr → Bool
  | .reset => true
  | .rbDmawr _ _ _ => true
  | .dma _ _ => true
  | .raise _ => true
  | .dmaByte _ => true
  | .dmaDone _ => true
  | .init _ _ _ => false
  | .enable => false
  | .crcStep _ _ => false
  | .crcRange _ => false
  | .frameValid _ => false
  | .rbPhys _ => false
  | .rbAvail _ => false
  | .rbWindow _ _ _ => false
  | .rbCopy _ _ _ => false
  | .rbAdvi _ _ => false
  | .rbAdvx _ _ => false
  | .push _ _ => true
  | .scan _ => false
  | .scnIdle _ => false
  | .scnSkip _ => false
  | .scnDefer _ => false
  | .scnAccept _ => false
  | .scnReject _ => false
  | .scnDrain _ => false
  | .decode _ => false
  | .emit _ => false
  | .svc _ => false
  | .ack _ => false
  | .arm _ _ _ => false
  | .dmaConfig _ _ => false
  | .irq => false
  | .lookup _ => false
  | .dispatch _ => false
  | .fatal _ _ => false
  | .headerByte => false
  | .frame _ => false

/-- Perform an event of the trace: an operation of the sequencer is refused while the sequencer waits inside EMIT
(42_scanner.md R152); the other agents move. Into the buffer whose scan waits no DMA channel writes (10_state.md R45; 20_memory.md
R67): RB.DMAWR, DMA.BYTE and DMA refuse that themselves. R106 bars PUSH nowhere (log entry 8). -/
def performEvent (i : Instr) (st : State) : Out State :=
  require (st.held.isNone || othersStep i) .sequencerBusy (exec i st)

/-- DMA.BYTE of channel `c` is enabled, a byte waits at its peripheral (43_rearm.md R173, R176), and the scanner is not reading
the buffer (20_memory.md R67). -/
def State.byteReady (st : State) (c : Nat) : Bool :=
  st.byteEnabled c && !(st.uart (st.chan c).cfg.slot).rx.isEmpty && !st.reading (st.chan c).cfg.slot

/-- The event the hardware takes by itself: the interrupt when its line is asserted and the sequencer is free
(60_exceptions.md R210), else a completion, else a byte that waits, the lowest channel first. -/
def hardwareEvent (st : State) : Option Instr :=
  if st.irqLine && !st.busy then some .irq
  else match (st.channels.find? fun c => st.doneEnabled c) with
    | some c => some (.dmaDone c)
    | none => (st.channels.find? fun c => st.byteReady c).map .dmaByte

/-- The hardware's own event, else nothing changes (R233; 60_exceptions.md R227). -/
def hardwareStep (st : State) : Out State :=
  match hardwareEvent st with
  | some i => exec i st
  | none => .next st

/-- How many bytes the scanner looks at where the byte at its position is `b`: a whole candidate where there is one, else that
byte (42_scanner.md R136, R145). -/
def fetchLength (r : ScanRegs) (b : Byte) (st : State) : Nat :=
  if b = st.par.header ∧ st.par.frameSize ≤ r.remainder then st.par.frameSize else 1

/-- The bytes the scanner looks at, none where every available byte is consumed. -/
def scanBytes (r : ScanRegs) (st : State) : Out (List Byte) :=
  if r.available ≤ r.consumed then .next []
  else andThen (readBuf r.slot (phys st.par (r.pos st)) st) fun b =>
    readRange r.slot (r.pos st) (fetchLength r b st) st

/-- The scanner's fetch: the operation that the bytes at the scan position stand for, or the end of the scan where none is left
(30_encoding.md R89; 20_memory.md R72). -/
def scanFetch (r : ScanRegs) (st : State) : Out Instr :=
  andThen (scanBytes r st) fun bs =>
    match decodeStream st.par r.slot bs with
    | some (i, _) => .next i
    | none => .next (if r.available = 0 then .scnIdle r.slot else .scnDrain r.slot)

/-- One step with no event in the trace: an open scan goes on by itself, unless the sequencer waits for the consumer; else the
hardware's own event (log entry 10). -/
def idleStep (st : State) : Out State :=
  match st.scan with
  | some r => if st.held.isNone then andThen (scanFetch r st) fun i => exec i st else hardwareStep st
  | none => hardwareStep st

/-- One step of the trace: fetch and perform its next event. -/
def traceStep (st : State) : Out State :=
  match fetch st with
  | .error e => .refused (.badTrace e)
  | .ok (i, st') => performEvent i st'

/-- The consumer's return is what happens next. -/
def State.resumes (st : State) : Bool := st.held.isSome && st.reply

/-- The state once the sequencer, if it waits, has taken the consumer's next answer. -/
def State.turn (st : State) : State := if st.held.isSome then st.afterReply else st

/-- One step of the agents other than the consumer: the trace's next event, else the hardware's. -/
def agentStep (st : State) : Out State := if st.trace.isEmpty then idleStep st else traceStep st

/-- One step: a consumer that returns lets the waiting operation go on; else another agent moves (42_scanner.md R152, R153). -/
def nextStep (st : State) : Out State := if st.resumes then resume st.turn else agentStep st.turn

/-- Make `bytes` the next ones of the trace, with nothing waiting for the consumer. -/
def placeOnTrace (bytes : List Byte) (st : State) : State := { st with trace := bytes ++ st.trace, held := none }

/-- Make `bytes` the ones at the position of a scan of slot 0 in progress, which nothing goes before: they stand in the buffer
from `extract` to `insert`, the slot is valid, the trace is empty, and nothing waits for the consumer. -/
def placeOnStream (bytes : List Byte) (st : State) : State :=
  let st1 := pushBytes 0 (st.slot 0).extract bytes st
  { st1.setSlot 0 { st1.slot 0 with valid := true, insert := advance (st.slot 0).extract bytes.length } with
    scan := some { slot := 0, available := bytes.length, consumed := 0 }, held := none, trace := [] }

/-- Put the instruction of a table word where the next step fetches it: an operation on the trace, a format of the stream in the
buffer. -/
def placeWord (st : State) (nbits w : Nat) : State :=
  match decodeWord st.par (tableBytes st.par nbits w) with
  | .ok (i, _) => (if i.onStream then placeOnStream else placeOnTrace) (tableInstrBytes st.par nbits w) st
  | .error _ => placeOnTrace (tableInstrBytes st.par nbits w) st

end Sys2Proof.Machine
end

