-- ==== Sys2Proof/Machine/Trace.lean ====
section
/-! DEFINITION. The two pseudo events of traces, FEED and RUN (30_encoding.md R104, R108), by their expansions; a list of events
performed in order; and a scan performed class by class (R89), for comparison with SCAN. -/

namespace Sys2Proof.Machine

/-- A list of events performed one after the other, by `exec` alone: nothing comes between two of them. In particular the consumer
is not asked again, so an operation that waits in EMIT still waits when the next event is performed, which the model chooses (log
entry 27); `step` is where a wait ends. -/
def runEvents : List Instr → State → Out State
  | [], st => .next st
  | i :: is, st => andThen (exec i st) (runEvents is)

/-- `FEED c [..]` (R104): DMA, then IRQ. -/
def feed (c : Nat) (bytes : List Byte) (st : State) : Out State := runEvents [.dma c bytes, .irq] st

/-- `RUN c [..]` (R108), at most `k` FEEDs: while at least `last_req[s]` bytes remain, the next `last_req[s]` of them are fed;
what is left over is not delivered. R108 does not say what happens when the IRQ of a FEED waits in EMIT: here the RUN does not
wait for it, so another FEED meets an idle channel and is refused, and a RUN whose last FEED waits ends with the wait in
`State.held`. Nor does it say what RUN is of a channel that no slot owns: here it is nothing (log entry 27 for both). -/
def runStream : Nat → Nat → List Byte → State → Out State
  | 0, _, _, st => .next st
  | k + 1, c, bytes, st =>
    match st.lookup c with
    | none => .next st
    | some s =>
      let n := (st.slot s).lastReq
      if n ≤ bytes.length then andThen (feed c (bytes.take n) st) (runStream k c (bytes.drop n)) else .next st

/-- `RUN c [..]`: a request is at least one byte (42_scanner.md R149), so the list's length bounds the FEEDs. -/
def runBytes (c : Nat) (bytes : List Byte) (st : State) : Out State := runStream bytes.length c bytes st

/-- The instruction that performs a class alone. -/
def classInstr (k : ScanClass) (s : Nat) : Instr :=
  match k with
  | .idle => .scnIdle s
  | .drain => .scnDrain s
  | .skip => .scnSkip s
  | .defer => .scnDefer s
  | .accept => .scnAccept s
  | .reject => .scnReject s

/-- The registers the next class of slot `s` works on. -/
def scanRegsNow (s : Nat) (st : State) : ScanRegs := st.scan.getD (scanEntry s st)

/-- At most `k` class instructions of slot `s`, each the class the state is in, until the scan ends. -/
def scanByClasses : Nat → Nat → State → Out State
  | 0, _, st => .next st
  | k + 1, s, st =>
    andThen (classify (scanRegsNow s st) st) fun cls =>
    andThen (exec (classInstr cls s) st) fun st' =>
      if st'.scan.isSome then scanByClasses k s st' else .next st'

end Sys2Proof.Machine
end

