-- ==== Sys2Proof/Safety.lean ====
section
/-! DEFINITION. What counts as a safe run, and the predicates claims about RBFS are stated with: what a ring buffer holds at
logical positions, which scan a class works on, when a service can run, and the invariants of the block. -/

namespace Sys2Proof.Machine

/-- An outcome that is no fault: nothing read a byte that nothing had written (70_reset_and_hazards.md R232). -/
def safeOutcome (o : Out State) : Prop := ∀ f, o ≠ .fault f

/-! ### Logical contents. -/

/-- The byte at a logical position of slot `s` (20_memory.md R52). -/
def State.logicalByte (st : State) (s : Nat) (c : Cursor) : Option Byte := st.bufByte s (phys st.par c)

/-- The positions from `c` on hold the bytes `f`. -/
abbrev State.holds (st : State) (s : Nat) (c : Cursor) (f : List Byte) : Prop :=
  ∀ i < f.length, st.logicalByte s (advance c i) = f[i]?

/-- The `n` positions from `c` on hold bytes that something wrote. -/
abbrev State.written (st : State) (s : Nat) (c : Cursor) (n : Nat) : Prop :=
  ∀ i < n, (st.logicalByte s (advance c i)).isSome = true

/-- `f` is a valid frame as the scanner judges it: header first, `FRAME_SIZE` bytes, checksum valid (30_encoding.md R85). -/
abbrev State.validFrame (st : State) (f : List Byte) : Prop := isFrame st.par f = true

/-- The frame output transaction that delivers `f` for slot `s` (30_encoding.md R93). -/
def State.delivery (st : State) (s : Nat) (f : List Byte) : PortEvent :=
  .frameOut (st.slot s).ctx f (decodeFields st.par f)

/-- Only frame output transactions of slot `s`, of valid frames. -/
def State.deliveries (st : State) (s : Nat) (l : List PortEvent) : Prop :=
  ∀ e ∈ l, ∃ f, st.validFrame f ∧ e = st.delivery s f

/-! ### Conditions on the sequencer and the consumer. -/

/-- The consumer returns at once from every frame: the duty of 42_scanner.md R153, done before any other agent moves. -/
abbrev Consumer.prompt (q : Consumer) : Prop := (∀ b ∈ q.replies, b = true) ∧ q.thereafter = true

/-- The sequencer may perform an operation that starts a scan: the block runs, nothing is in progress. -/
abbrev State.ready (st : State) : Prop := st.fatal = false ∧ st.scan = none ∧ st.held = none

/-- `r` are the registers the next class of slot `s` works on: of the open scan, or of a scan entered now; its bytes lie in
`[extract, insert)`. -/
abbrev State.scanning (st : State) (s : Nat) (r : ScanRegs) : Prop :=
  st.fatal = false ∧ st.held = none ∧ (st.slot s).valid = true ∧ r.slot = s ∧ r.inside st = true ∧
    (st.scan = some r ∨ (st.scan = none ∧ (st.avail s).toNat ≤ st.par.capacity ∧ r = scanEntry s st))

/-- The service of slot `s` can run: the slot is valid, its channel exists, the bytes it will account for fit the buffer and are
written. -/
abbrev State.serviceable (st : State) (s : Nat) : Prop :=
  (st.slot s).valid = true ∧ (st.slot s).chan < st.nChannels ∧
    (st.avail s).toNat + (st.slot s).lastReq ≤ st.par.capacity ∧
    st.written s (st.slot s).extract ((st.avail s).toNat + (st.slot s).lastReq)

/-- What a completed service of slot `s` leaves of the slot and its channel (43_rearm.md R161, R165, R177). -/
def serviced (st t : State) (s : Nat) : Prop :=
  (t.slot s).valid = (st.slot s).valid ∧ (t.slot s).chan = (st.slot s).chan ∧ (t.slot s).ctx = (st.slot s).ctx ∧
    (t.slot s).buf = (st.slot s).buf ∧ (t.slot s).insert = advance (st.slot s).insert (st.slot s).lastReq ∧
    (t.avail s).toNat + (t.slot s).lastReq = st.par.frameSize ∧ 1 ≤ (t.slot s).lastReq ∧
    t.chan (st.slot s).chan =
      { armed := true
        waddr := phys st.par (t.slot s).insert
        remaining := (t.slot s).lastReq
        cfg := (st.chan (st.slot s).chan).cfg }

/-- The acknowledge and the rearm that end the service of slot `s`, `t` being the state it leaves (20_memory.md R69). -/
def rearmOf (st t : State) (s : Nat) : List PortEvent :=
  [.ackReq (st.slot s).chan, .armReq (st.slot s).chan (phys st.par (t.slot s).insert) (t.slot s).lastReq]

/-- The channels whose interrupt bit is set, ascending (44_demux.md R190). -/
def State.pendingChannels (st : State) : List Nat := st.channels.filter (bitSet st.ints)

/-! ### Invariants. -/

/-- Every list of the machine has its length, every register stays inside its width, and every channel writes a slot's buffer
(00_scope.md R12 to R17; 10_state.md R22, R24, R34, R37, R43). -/
abbrev State.fits (st : State) : Prop :=
  st.uarts.length = st.nSlots ∧ st.ints < 2 ^ st.nChannels ∧ st.diag.chan < 2 ^ chanWidth st.nChannels ∧
  (∀ s < st.nSlots, (st.slot s).chan < 2 ^ chanWidth st.nChannels ∧ (st.slot s).ctx < 2 ^ st.par.ctxWidth ∧
    (st.slot s).lastReq < 2 ^ st.par.reqWidth ∧ ((st.slot s).valid = true → (st.slot s).chan < st.nChannels)) ∧
  (∀ c < st.nChannels, (st.chan c).waddr < st.par.capacity ∧ (st.chan c).remaining < 2 ^ st.par.reqWidth ∧
    (st.chan c).cfg.slot < st.nSlots)

/-- No two valid slots hold the same channel (10_state.md R24). -/
abbrev State.registryUnique (st : State) : Prop :=
  ∀ s < st.nSlots, ∀ u < st.nSlots, (st.slot s).valid = true → (st.slot u).valid = true →
    (st.slot s).chan = (st.slot u).chan → s = u

/-- `DIAG` and `FATAL` agree: nothing recorded while the block runs, one of the two causes and a legal channel once it is
halted, and nothing then in progress (10_state.md R34, R38; 60_exceptions.md R200, R203). -/
abbrev State.diagLegal (st : State) : Prop :=
  (st.fatal = false → st.diag = { code := 0, chan := 0 }) ∧
  (st.fatal = true → (st.diag.code = unmatchedIrq ∨ st.diag.code = capacityTooSmall) ∧ st.diag.chan < st.nChannels ∧
    st.scan = none ∧ st.held = none)

/-- At most one scan is in progress, and the bytes it has still to examine (past the frame the consumer has, where it waits) lie
in `[extract, insert)` of a valid slot (60_exceptions.md R215; 20_memory.md R51; 10_state.md R29). -/
abbrev State.scanLegal (st : State) : Prop :=
  st.scansInProgress.length ≤ 1 ∧
  (∀ r ∈ st.scan, (st.slot r.slot).valid = true ∧ r.inside st = true) ∧
  (∀ r ∈ st.held.bind Held.regs, (st.slot r.slot).valid = true ∧ (r.consume st.par.frameSize).inside st = true)

/-- Every request on record is of 1..`FRAME_SIZE` bytes and no armed channel has more to go (10_state.md R28; 42_scanner.md
R149). -/
abbrev State.requestsLegal (st : State) : Prop :=
  (∀ s < st.nSlots, (st.slot s).valid = true → 1 ≤ (st.slot s).lastReq ∧ (st.slot s).lastReq ≤ st.par.frameSize) ∧
  (∀ c < st.nChannels, (st.chan c).armed = true → (st.chan c).remaining ≤ st.par.frameSize)

/-- The rearm protocol for one slot (43_rearm.md R174, R177 to R179): request and backlog make up one frame; the bytes
delivered so far are in the buffer; the channel writes on where they end; it is idle only when its transfer is complete. -/
abbrev State.slotInProtocol (st : State) (s : Nat) : Prop :=
  (st.slot s).chan < st.nChannels ∧ (st.chan (st.slot s).chan).cfg.slot = s ∧
    (st.avail s).toNat + (st.slot s).lastReq = st.par.frameSize ∧
    1 ≤ (st.slot s).lastReq ∧ (st.chan (st.slot s).chan).remaining ≤ (st.slot s).lastReq ∧
    st.written s (st.slot s).extract
      ((st.avail s).toNat + ((st.slot s).lastReq - (st.chan (st.slot s).chan).remaining)) ∧
    (st.chan (st.slot s).chan).waddr = phys st.par (advance (st.slot s).insert
      ((st.slot s).lastReq - (st.chan (st.slot s).chan).remaining)) ∧
    ((st.chan (st.slot s).chan).armed = false → (st.chan (st.slot s).chan).remaining = 0) ∧
    (bitSet st.ints (st.slot s).chan = true → (st.chan (st.slot s).chan).armed = false)

/-- The rearm protocol for the block: parameters within their constraints, nothing in progress, every valid slot in protocol, no
shared channel, and no channel armed or pending that no slot owns. -/
abbrev State.inProtocol (st : State) : Prop :=
  st.par.wf = true ∧ st.scan = none ∧ st.held = none ∧ st.registryUnique ∧
  (∀ s < st.nSlots, (st.slot s).valid = true → st.slotInProtocol s) ∧
  (∀ c < st.nChannels, (st.chan c).armed = true ∨ bitSet st.ints c = true → ∃ s < st.nSlots, st.owns s c = true)

/-- The events of a run that follows the protocol: the host's commands, the engine's steps, the interrupt. RAISE is the wiring
error of 60_exceptions.md R208; the other operations are parts of these or the test harness's. -/
def protocolEvent : Instr → Bool
  | .reset => true
  | .init _ _ _ => true
  | .enable => true
  | .dma _ _ => true
  | .dmaByte _ => true
  | .dmaDone _ => true
  | .irq => true
  | .crcStep _ _ => false
  | .crcRange _ => false
  | .frameValid _ => false
  | .rbPhys _ => false
  | .rbAvail _ => false
  | .rbWindow _ _ _ => false
  | .rbCopy _ _ _ => false
  | .rbAdvi _ _ => false
  | .rbAdvx _ _ => false
  | .rbDmawr _ _ _ => false
  | .push _ _ => false
  | .scan _ => false
  | .scnIdle _ => false
  | .scnSkip _ => false
  | .scnDefer _ => false
  | .scnAccept _ => false
  | .scnReject _ => false
  | .scnDrain _ => false
  | .decode _ => false
  | .emit _ => false
  | .svc _ => false
  | .ack _ => false
  | .arm _ _ _ => false
  | .raise _ => false
  | .dmaConfig _ _ => false
  | .lookup _ => false
  | .dispatch _ => false
  | .fatal _ _ => false
  | .headerByte => false
  | .frame _ => false

/-- The next event of the trace, if the trace is not empty, satisfies `p`. -/
def State.nextEventIs (st : State) (p : Instr → Prop) : Prop :=
  st.trace = [] ∨ ∃ i st', fetch st = .ok (i, st') ∧ p i

/-- The trace's next event is RESET and the step takes it. -/
def State.takesReset (st : State) : Prop := st.resumes = false ∧ ∃ st', fetch st = .ok (.reset, st')

end Sys2Proof.Machine
end

