-- ==== Sys2Proof/Certificates/Slice0/Obligations.lean ====
section
/-! DEFINITION. The statements about RBFS offered for proof. Each is a rule of the spec, or rests on the sections it cites. They
hold for every block (any parameters, any number of slots and channels: 00_scope.md section 4) unless they name `stdParams`;
`st.par.wf` is the constraints of R18, `st.fits` that every register is inside its width. Where a statement speaks of `result`,
the value an operation returned, it rests on log entry 6; of `out`, the transactions sent, on log entry 7; of `consumer` and
`held`, the consumer's return, on log entry 8; of an internal operation performed alone and refused, on log entry 11; of one performed alone where no operation of the spec calls
it (on an empty slot, with its bit clear, in phase CONFIG), on log entries 11 and 25. -/

open Sys2Proof Sys2Proof.Machine

/-! ### The step and the encoding. -/

/-- A step runs the decoded event. With no frame transaction waiting, the bytes at the head of the trace decode to `i` and the
step is `exec i` with those bytes taken; while one waits and the consumer has not returned, the same for the steps of other
agents, and the sequencer's are refused; when the consumer has returned the waiting operation goes on; bytes that are no
operation are refused by name; with no event an open scan performs what its decoder reads from the bytes at the scan position
(a seeking byte, a header, a whole frame, the end), else the hardware takes the interrupt when its line is asserted and the
sequencer is free, and otherwise nothing changes unless a channel can complete or a byte waits. A sequencer that waits takes one
answer of the consumer in each step. (Log entries 3, 8 and 10: the trace, the consumer's answers and the order of the agents are
the model's.) -/
def Obligations.StepRunsTheDecodedEvent : Prop :=
  (∀ st : State, (st.held = none → st.turn = st ∧ st.resumes = false) ∧
    (st.held ≠ none → st.turn = { st with consumer := st.consumer.drop 1 } ∧ st.resumes = st.consumer.reply)) ∧
  (∀ st i rest, st.resumes = false → st.trace ≠ [] → decode st.par st.trace = .ok (i, rest) →
    (st.held = none ∨ othersStep i = true → step st = exec i { st.turn with trace := rest }) ∧
    (st.held ≠ none → othersStep i = false → step st = .refused .sequencerBusy)) ∧
  (∀ st e, st.resumes = false → st.trace ≠ [] → decode st.par st.trace = .error e → step st = .refused (.badTrace e)) ∧
  (∀ st, st.resumes = true → step st = resume st.turn) ∧
  (∀ st r, st.held = none → st.trace = [] → st.scan = some r →
    (r.available ≤ r.consumed →
      step st = exec (if r.available = 0 then .scnIdle r.slot else .scnDrain r.slot) st) ∧
    (∀ b i rest, r.consumed < r.available → st.logicalByte r.slot (r.pos st) = some b →
      (b ≠ st.par.header ∨ r.remainder < st.par.frameSize) → decodeStream st.par r.slot [b] = some (i, rest) →
      step st = exec i st) ∧
    (∀ f i rest, st.par.wf = true → st.par.frameSize ≤ r.remainder → f.length = st.par.frameSize →
      f[0]? = some st.par.header → st.holds r.slot (r.pos st) f → decodeStream st.par r.slot f = some (i, rest) →
      step st = exec i st)) ∧
  (∀ st, st.resumes = false → st.trace = [] → st.scan = none ∨ st.held ≠ none →
    (st.irqLine = true → st.busy = false → step st = exec .irq st) ∧
    ((st.irqLine = false ∨ st.busy = true) → (∀ c, st.doneEnabled c = false ∧ st.byteReady c = false) →
      step st = .next st.turn))

/-- Decoding the encoding of a well-formed operation gives it back and leaves the bytes after it: the operations of a trace by its
decoder; a frame, and a lone header byte when nothing follows it, by the scanner's decoder. (Log entry 4 for the operations
whose bytes R104 does not give.) -/
def Obligations.DecodeOfEncode : Prop :=
  (∀ p i rest, i.wf p = true → i.onStream = false → decode p (encode p i ++ rest) = .ok (i, rest)) ∧
  (∀ p s f rest, (Instr.frame f).wf p = true →
    decodeStream p s (encode p (.frame f) ++ rest) = some (.frame f, rest)) ∧
  (∀ p s, p.wf = true → decodeStream p s (encode p .headerByte) = some (.headerByte, []))

/-- The other direction: what decodes is well-formed and its encoding is the bytes that were read, so each byte sequence has
one meaning; what the scanner's decoder reads is a seeking byte, a header byte or a whole valid frame. (The byte forms of the 27
operations that R104 does not write, and the reading of a header byte as HEADER_BYTE or FRAME, are the model's choice: log entry
4.) -/
def Obligations.EncodeOfDecode : Prop :=
  (∀ p bs i rest, decode p bs = .ok (i, rest) → i.wf p = true ∧ i.onStream = false ∧ encode p i ++ rest = bs) ∧
  (∀ p s bs i rest, decodeStream p s bs = some (i, rest) →
    (∃ b, b ≠ p.header ∧ bs = b :: rest ∧ i = .scnSkip s) ∨ (i.onStream = true ∧ i.wf p = true ∧ encode p i ++ rest = bs))

/-- Bytes of the spec decode to the operation the spec says: trace lines of R104 and of the programs P2 and P4; a byte that is no
listed code, 0x54 among them, is rejected by name, whatever follows it. At a scan position 0x54 is a header byte and the other
255 values are seeking bytes. (That a header byte not followed by a whole valid frame is HEADER_BYTE and not FRAME is the model's
choice: log entry 4.) -/
def Obligations.SpecBytesDecode : Prop :=
  decode stdParams [0x01, 0x00, 0x03, 0x01, 0x00, 0xFE, 0xCA] = .ok (.init 0 3 0xCAFE0001, []) ∧
  decode stdParams [0x43, 0x03, 0x02, 0x1A, 0x50, 0x50] = .ok (.dma 3 [0x1A, 0x50], [0x50]) ∧
  decode stdParams [0x50] = .ok (.irq, []) ∧
  decode stdParams [0x44, 0x05] = .ok (.raise 5, []) ∧
  decode stdParams [0x2F, 0x01, 0x01, 0x54, 0x00] = .ok (.push 1 [0x54], [0x00]) ∧
  decode stdParams [0x30, 0x01] = .ok (.scan 1, []) ∧
  (∀ s, decodeStream stdParams s [0x54, 0x2C] = some (.headerByte, [0x2C]) ∧
    ∀ (b : Byte) (rest : List Byte), b ≠ 0x54 → decodeStream stdParams s (b :: rest) = some (.scnSkip s, rest)) ∧
  ∀ (b : Byte) (rest : List Byte),
    b.toNat ∉ [0x00, 0x01, 0x02, 0x10, 0x11, 0x12, 0x20, 0x21, 0x22, 0x23, 0x24, 0x25, 0x26, 0x2F, 0x30, 0x31, 0x32, 0x33, 0x34,
      0x35, 0x36, 0x37, 0x38, 0x40, 0x41, 0x42, 0x43, 0x44, 0x45, 0x46, 0x47, 0x50, 0x51, 0x52, 0x53] →
    decode stdParams (b :: rest) = .error (.unlistedCode b)

/-! ### Reset, initialisation, phases, the fatal stop. -/

/-- RESET, in every phase and whatever is in progress: every slot empty with cursors 0, no fatal, nothing recorded, interrupts
disabled, no bit pending, every channel idle; the block is in phase CONFIG, with no operation in progress; slots and channels
are as many as before and the parameters the same. -/
def Obligations.ResetEmptiesTheBlock : Prop :=
  ∀ st, ∃ t, exec .reset st = .next t ∧
    (∀ s, (t.slot s).valid = false ∧ (t.slot s).insert = 0 ∧ (t.slot s).extract = 0) ∧
    t.fatal = false ∧ t.diag.code = 0 ∧ t.diag.chan = 0 ∧ t.irqEn = false ∧ t.ints = 0 ∧
    (∀ c, (t.chan c).armed = false ∧ (t.chan c).remaining = 0) ∧
    t.phase = .config ∧ t.scan = none ∧ t.held = none ∧
    t.nSlots = st.nSlots ∧ t.nChannels = st.nChannels ∧ t.par = st.par

/-- The state after reset, whatever the parameters, with at least one slot, meets every invariant of the model, in phase CONFIG
with the line low; the parameters this hardware takes meet their constraints; and RESET leaves what is not the block's: the
port history and the inputs (log entries 3, 7, 8 and 9). -/
def Obligations.ResetMeetsTheInvariants : Prop :=
  stdParams.wf = true ∧ stdParams.laidOut = true ∧ State.reset = State.resetWith stdParams 2 12 ∧
  (∀ p nSlots nChannels, p.wf = true → 1 ≤ nSlots →
    (State.resetWith p nSlots nChannels).memWf = true ∧ (State.resetWith p nSlots nChannels).fits ∧
    (State.resetWith p nSlots nChannels).registryUnique ∧ (State.resetWith p nSlots nChannels).diagLegal ∧
    (State.resetWith p nSlots nChannels).requestsLegal ∧ (State.resetWith p nSlots nChannels).inProtocol ∧
    (State.resetWith p nSlots nChannels).scanLegal ∧
    (State.resetWith p nSlots nChannels).phase = .config ∧ (State.resetWith p nSlots nChannels).irqLine = false) ∧
  ∀ st t, exec .reset st = .next t →
    t.out = st.out ∧ t.uarts = st.uarts ∧ t.trace = st.trace ∧ t.consumer = st.consumer

/-- INIT completes exactly when its five preconditions hold, and is refused otherwise. -/
def Obligations.InitCompletesExactlyWhenAdmitted : Prop :=
  ∀ s c h st,
    ((∃ t, exec (.init s c h) st = .next t) ↔
      st.phase = .config ∧ s < st.nSlots ∧ c < st.nChannels ∧ (st.slot s).valid = false ∧ ∀ u, st.owns u c = false) ∧
    (∀ f, exec (.init s c h) st ≠ .fault f)

/-- An admitted INIT makes the instance: the six registers, the buffer as it was, the channel configured for the slot and
armed at offset 0 for a whole frame, one configuration and one request sent, nothing else changed. INIT that is not admitted
is refused. In a block whose buffer is smaller than a frame an admitted INIT raises `Fatal(CAPACITY_TOO_SMALL, c)` before it
writes anything. (The handle is kept in its `CTX_WIDTH` bits: log entry 15.) -/
def Obligations.InitMakesTheInstance : Prop :=
  (∀ s c h st, st.phase = .config → s < st.nSlots → c < st.nChannels → (st.slot s).valid = false →
    (∀ u, st.owns u c = false) → st.par.frameSize ≤ st.par.capacity →
    ∃ t cfg, exec (.init s c h) st = .next t ∧
      t.slot s = { valid := true, chan := c, ctx := h % 2 ^ st.par.ctxWidth, insert := 0, extract := 0,
                   lastReq := st.par.frameSize, buf := (st.slot s).buf } ∧
      (∀ u, u ≠ s → t.slot u = st.slot u) ∧
      t.chan c = { armed := true, waddr := 0, remaining := st.par.frameSize, cfg := cfg } ∧
      cfg.slot = s ∧ cfg.ringBits = st.par.log2Cap ∧ cfg.widthBytes = 1 ∧ cfg.pacing = s ∧ cfg.readFrom = s ∧
      cfg.readIncrements = false ∧ cfg.writeIncrements = true ∧ cfg.doneIrq = true ∧
      (∀ d, d ≠ c → t.chan d = st.chan d) ∧
      t.out = st.out ++ [.cfgReq c cfg, .armReq c 0 st.par.frameSize] ∧
      { t with slots := st.slots, chans := st.chans, out := st.out } = st) ∧
  (∀ s c h st, ¬ (st.phase = .config ∧ s < st.nSlots ∧ c < st.nChannels ∧ (st.slot s).valid = false ∧
      ∀ u, st.owns u c = false) →
    ∃ why, exec (.init s c h) st = .refused why) ∧
  (∀ s c h st, st.phase = .config → s < st.nSlots → c < st.nChannels → (st.slot s).valid = false →
    (∀ u, st.owns u c = false) → st.par.capacity < st.par.frameSize →
    ∃ t, exec (.init s c h) st = .next t ∧ t.fatal = true ∧ t.diag.code = 2 ∧ t.diag.chan = c ∧
      { t with fatal := st.fatal, diag := st.diag, scan := st.scan, held := st.held } = st)

/-- ENABLE in phase CONFIG sets `IRQ_EN`, which makes the phase RUN, and changes nothing else; in any other phase it is
refused. -/
def Obligations.EnableStartsRun : Prop :=
  ∀ st, (st.phase = .config → exec .enable st = .next { st with irqEn := true } ∧ State.phase { st with irqEn := true } = .run) ∧
    (st.phase ≠ .config → exec .enable st = .refused .notConfigPhase)

/-- Fatal entry: the first fatal records its code and channel, sets `FATAL`, halts the block and abandons what is in progress,
and changes no slot, no channel, no bit of `INTS` and no port; a later one changes neither `FATAL` nor `DIAG`. A code that is
no cause, or a channel that does not exist, is refused (log entry 19). -/
def Obligations.FatalEntryRecordsTheFirst : Prop :=
  (∀ code chan st, (code = 1 ∨ code = 2) → chan < st.nChannels →
    ∃ t, exec (.fatal code chan) st = .next t ∧ t.phase = .halted ∧ t.scan = none ∧ t.held = none ∧
      (st.fatal = false → t.diag.code.toNat = code ∧ t.diag.chan = chan) ∧ (st.fatal = true → t.diag = st.diag) ∧
      { t with fatal := st.fatal, diag := st.diag, scan := st.scan, held := st.held } = st) ∧
  (∀ code chan st, ¬ (code = 1 ∨ code = 2) ∨ st.nChannels ≤ chan → ∃ why, exec (.fatal code chan) st = .refused why)

/-- The only moves between phases a step makes: RESET to CONFIG, ENABLE from CONFIG to RUN, a fatal to HALTED; RUN never goes
back to CONFIG without RESET. -/
def Obligations.PhaseMovesOnlyForward : Prop :=
  State.reset.phase = .config ∧
  ∀ st t, step st = .next t →
    t.phase = st.phase ∨
    (st.takesReset ∧ t.phase = .config) ∨
    (st.phase = .config ∧ t.phase = .run ∧ ∃ st', fetch st = .ok (.enable, st')) ∨
    (st.phase ≠ .halted ∧ t.phase = .halted)

/-- In phase HALTED, nothing waiting for the consumer, nothing but RESET changes the phase or the diagnostic, no transaction
leaves the block, and every slot's registers but `insert` keep their values (PUSH, a test operation, may move `insert`); and
every operation of the sequencer that writes state of the block or sends a transaction is refused: the handler and its parts,
INIT and ENABLE, scans, their classes and the two stream formats, copies and cursor moves, frames, services, acknowledges,
rearms and channel configurations. R204 names INIT, ENABLE, IRQ, SCAN, EMIT, ACK and ARM; that their parts are refused alike,
so that `extract` stands still, is log entry 12, the model's reading. -/
def Obligations.HaltedBlockStandsStill : Prop :=
  (∀ st t, st.fatal = true → st.held = none → step st = .next t → ¬ st.takesReset →
    t.fatal = true ∧ t.diag = st.diag ∧ t.out = st.out ∧
    ∀ s, (t.slot s).valid = (st.slot s).valid ∧ (t.slot s).chan = (st.slot s).chan ∧ (t.slot s).ctx = (st.slot s).ctx ∧
      (t.slot s).extract = (st.slot s).extract ∧ (t.slot s).lastReq = (st.slot s).lastReq) ∧
  (∀ st, st.fatal = true → ∀ i : Instr,
    i = .irq ∨ i = .enable ∨ (∃ s c h, i = .init s c h) ∨ (∃ s, i = .scan s ∨ i = .emit s ∨ i = .svc s) ∨
      (∃ k s, i = classInstr k s) ∨ i = .headerByte ∨ (∃ f, i = .frame f) ∨ (∃ s c n, i = .rbCopy s c n) ∨
      (∃ s n, i = .rbAdvi s n ∨ i = .rbAdvx s n) ∨
      (∃ c, i = .ack c ∨ i = .dispatch c) ∨ (∃ c a n, i = .arm c a n) ∨ (∃ c s, i = .dmaConfig c s) →
    ∃ why, exec i st = .refused why)

/-! ### The checksum. -/

/-- CRC.STEP returns the table entry at the running value xor the byte; CRC.RANGE returns the checksum of the bytes, 0x00 for
none and one more table step for one more byte at the end, for every table; FRAME.VALID of `FRAME_SIZE` bytes returns whether
the checksum of the first `FRAME_SIZE` - 1 is the last, and is refused on another number of bytes; nothing else is written. -/
def Obligations.ChecksumOperationsReturn : Prop :=
  (∀ c8 b st, exec (.crcStep c8 b) st = .next { st with result := .byte (tableAt st.par (c8 ^^^ b)) }) ∧
  (∀ bytes st, exec (.crcRange bytes) st = .next { st with result := .byte (crcRange (tableAt st.par) bytes) }) ∧
  (∀ table, crcRange table [] = 0) ∧
  (∀ table bytes b, crcRange table (bytes ++ [b]) = table (crcRange table bytes ^^^ b)) ∧
  (∀ (f : List Byte) (st : State), st.par.wf = true →
    (f.length = st.par.frameSize → ∃ v, exec (.frameValid f) st = .next { st with result := .valid v } ∧
      (v = true ↔ f[st.par.frameSize - 1]? = some (crcRange (tableAt st.par) (f.take (st.par.frameSize - 1))))) ∧
    (f.length ≠ st.par.frameSize → exec (.frameValid f) st = .refused .frameLength))

/-- The default table is the table of the 8-bit CRC with polynomial 0x4D, most significant bit first: eight rounds of shift and
conditional xor. -/
def Obligations.TableIsPolynomial4D : Prop :=
  ∀ i : Byte, tableAt stdParams i =
    (List.range 8).foldl (fun c _ => if c.getLsbD 7 then (c <<< 1) ^^^ (0x4D : Byte) else c <<< 1) i

/-- One changed byte makes a valid frame invalid, for every table that is a permutation, and the default table is one. -/
def Obligations.OneChangedByteInvalidates : Prop :=
  (∀ p, Function.Injective (tableAt p) → ∀ (f : List Byte) (i : Nat) (b : Byte), f.length = p.frameSize →
    i < p.frameSize → f[i]? ≠ some b → frameValid p f = true → frameValid p (f.set i b) = false) ∧
  Function.Injective (tableAt stdParams)

/-! ### The ring buffer. -/

/-- RB.PHYS returns the cursor modulo the capacity and RB.AVAIL returns `insert - extract` modulo 2^64; neither writes anything
else; and both are exact through the 2^64 wrap: cursors held modulo 2^64 give the counts and offsets of unbounded ones, as
long as the true distance is at most the capacity. RB.AVAIL of a slot that does not exist is refused. (That RB.AVAIL is performed
on a slot with `valid` = 0 too is the model's choice, not R123's: log entry 11.) -/
def Obligations.CursorOperationsReturn : Prop :=
  (∀ c st, ∃ v, exec (.rbPhys c) st = .next { st with result := .offset v } ∧ v = c.toNat % st.par.capacity) ∧
  (∀ s st, s < st.nSlots → ∃ v : Cursor, exec (.rbAvail s) st = .next { st with result := .avail v } ∧
    v.toNat = ((st.slot s).insert.toNat + 2 ^ 64 - (st.slot s).extract.toNat) % 2 ^ 64) ∧
  (∀ s st, st.nSlots ≤ s → exec (.rbAvail s) st = .refused .slotOutOfRange) ∧
  (∀ s (st : State) (e i : Nat), st.par.wf = true → e ≤ i → i - e ≤ st.par.capacity →
    (st.slot s).extract = BitVec.ofNat 64 e → (st.slot s).insert = BitVec.ofNat 64 i →
    (st.avail s).toNat = i - e ∧ phys st.par (st.slot s).insert = i % st.par.capacity)

/-- RB.WINDOW returns two segments that together cover the range in order: segment a from `phys(start)` inside the buffer,
segment b from offset 0, and position `start + i` is the `i`-th offset of the two; a longer range than the buffer is
refused, and a slot that does not exist; nothing else is written. (That it is performed for a slot with `valid` = 0 too, of which
it reads nothing, is the model's choice: log entry 11.) -/
def Obligations.WindowCoversTheRange : Prop :=
  ∀ s start len st, st.par.wf = true →
    (s < st.nSlots → len ≤ st.par.capacity →
      ∃ a b, exec (.rbWindow s start len) st = .next { st with result := .window a b } ∧
        a.offset = phys st.par start ∧ a.offset + a.len ≤ st.par.capacity ∧ b.offset = 0 ∧ a.len + b.len = len ∧
        (phys st.par start + len ≤ st.par.capacity → b.len = 0) ∧
        (∀ i < a.len, phys st.par (advance start i) = a.offset + i) ∧
        (∀ i < b.len, phys st.par (advance start (a.len + i)) = i)) ∧
    (st.nSlots ≤ s ∨ st.par.capacity < len → ∃ why, exec (.rbWindow s start len) st = .refused why)

/-- RB.COPY of readable, written positions copies them to `SCRATCH[0 .. len-1]`, whatever the physical wrap, and changes
nothing else; outside its preconditions it is refused, and a byte that nothing has written faults. (That it is performed on a slot
with `valid` = 0 too is the model's choice, not R125's: log entry 11.) -/
def Obligations.CopyReadsTheLogicalBytes : Prop :=
  ∀ s start len st, st.par.wf = true → st.fatal = false → s < st.nSlots →
    (len ≤ st.par.frameSize → st.readable s start len = true → st.written s start len →
      ∃ t, exec (.rbCopy s start len) st = .next t ∧
        (∀ i < len, t.scratchByte i = st.logicalByte s (advance start i)) ∧
        (∀ i, len ≤ i → t.scratchByte i = st.scratchByte i) ∧ { t with scratch := st.scratch } = st) ∧
    (st.par.frameSize < len → exec (.rbCopy s start len) st = .refused .lenTooLong) ∧
    (len ≤ st.par.frameSize → st.readable s start len = false → exec (.rbCopy s start len) st = .refused .notReadable) ∧
    (len ≤ st.par.frameSize → st.readable s start len = true → ¬ st.written s start len →
      exec (.rbCopy s start len) st = .fault .unwrittenBuf)

/-- RB.ADVI adds its count, any count, to `insert`, RB.ADVX a count of at most the available bytes to `extract`, modulo 2^64 and
changing nothing else; RB.ADVX past `insert` is refused, and either on a slot that does not exist or whose scan is in
progress. (That both are performed on a slot with `valid` = 0 too is the model's choice: log entry 11; that they are refused while
the slot is scanned is its choice as well: log entry 5.) -/
def Obligations.CursorsAdvance : Prop :=
  (∀ s n st, st.fatal = false → s < st.nSlots → st.reading s = false → ∃ t, exec (.rbAdvi s n) st = .next t ∧
    (t.slot s).insert.toNat = ((st.slot s).insert.toNat + n) % 2 ^ 64 ∧
    { t.slot s with insert := (st.slot s).insert } = st.slot s ∧ (∀ u, u ≠ s → t.slot u = st.slot u) ∧
    { t with slots := st.slots } = st) ∧
  (∀ s n st, st.fatal = false → s < st.nSlots → st.reading s = false →
    (n ≤ (st.avail s).toNat → ∃ t, exec (.rbAdvx s n) st = .next t ∧
      (t.slot s).extract.toNat = ((st.slot s).extract.toNat + n) % 2 ^ 64 ∧
      (t.avail s).toNat = (st.avail s).toNat - n ∧
      { t.slot s with extract := (st.slot s).extract } = st.slot s ∧ (∀ u, u ≠ s → t.slot u = st.slot u) ∧
      { t with slots := st.slots } = st) ∧
    ((st.avail s).toNat < n → exec (.rbAdvx s n) st = .refused .pastInsert)) ∧
  (∀ s n st, st.nSlots ≤ s ∨ st.reading s = true →
    (∃ why, exec (.rbAdvi s n) st = .refused why) ∧ ∃ why, exec (.rbAdvx s n) st = .refused why)

/-- RB.DMAWR, while the slot's own channel is armed for the slot with bytes to go and the slot is not being scanned, stores its byte
at its offset of the slot's buffer; every other byte of every buffer, every register and everything else is unchanged. Outside
the buffer, with the channel idle or configured for another slot, on an empty slot, or while the scanner reads the buffer it is
refused. -/
def Obligations.DmawrStoresOneByte : Prop :=
  (∀ s a b st, s < st.nSlots → a < st.par.capacity → (st.slot s).valid = true → (st.chan (st.slot s).chan).armed = true →
    (st.chan (st.slot s).chan).remaining ≠ 0 → (st.chan (st.slot s).chan).cfg.slot = s → st.reading s = false →
    ∃ t, exec (.rbDmawr s a b) st = .next t ∧
    t.bufByte s a = some b ∧ (∀ u x, (u ≠ s ∨ x ≠ a) → t.bufByte u x = st.bufByte u x) ∧
    (∀ u, { t.slot u with buf := (st.slot u).buf } = st.slot u) ∧ { t with slots := st.slots } = st) ∧
  (∀ s a b st, st.nSlots ≤ s ∨ st.par.capacity ≤ a ∨ (st.slot s).valid = false ∨ (st.chan (st.slot s).chan).armed = false ∨
    (st.chan (st.slot s).chan).remaining = 0 ∨ (st.chan (st.slot s).chan).cfg.slot ≠ s ∨ st.reading s = true →
    ∃ why, exec (.rbDmawr s a b) st = .refused why)

/-- PUSH with room stores its bytes at the positions from `insert` on and moves `insert` past them; every other byte, every
other register and everything else is unchanged; on an empty slot or without room it is refused. -/
def Obligations.PushDelivers : Prop :=
  ∀ s bytes st, st.par.wf = true →
    ((st.slot s).valid = true → (st.avail s).toNat + bytes.length ≤ st.par.capacity →
      ∃ t, exec (.push s bytes) st = .next t ∧ t.holds s (st.slot s).insert bytes ∧
        (t.slot s).insert = advance (st.slot s).insert bytes.length ∧
        (∀ u x, (u ≠ s ∨ ∀ i < bytes.length, x ≠ phys st.par (advance (st.slot s).insert i)) →
          t.bufByte u x = st.bufByte u x) ∧
        { t.slot s with insert := (st.slot s).insert, buf := (st.slot s).buf } = st.slot s ∧
        (∀ u, u ≠ s → t.slot u = st.slot u) ∧ { t with slots := st.slots } = st) ∧
    ((st.slot s).valid = false ∨ st.par.capacity < (st.avail s).toNat + bytes.length →
      ∃ why, exec (.push s bytes) st = .refused why)

/-- Who writes what: a ring buffer changes only in steps of the DMA engine, in PUSH and at RESET; a bit of `INTS` is cleared
only in a step that sends its channel's acknowledge, or at RESET. -/
def Obligations.BuffersAndBitsKeepTheirWriters : Prop :=
  (∀ st t, step st = .next t → (∀ s, (t.slot s).buf = (st.slot s).buf) ∨
    (st.resumes = false ∧ ((∃ i st', fetch st = .ok (i, st') ∧
        (i = .reset ∨ (∃ s a b, i = .rbDmawr s a b) ∨ (∃ s l, i = .push s l) ∨ (∃ c l, i = .dma c l) ∨ ∃ c, i = .dmaByte c)) ∨
      (st.trace = [] ∧ ∃ c, hardwareEvent st = some (.dmaByte c))))) ∧
  (∀ st t c, step st = .next t → bitSet st.ints c = true → bitSet t.ints c = false →
    st.takesReset ∨ ∃ l, t.out = st.out ++ l ∧ .ackReq c ∈ l)

/-- Every step keeps every memory in its canonical form and inside its size, the parameters meeting their constraints and the
registers inside their widths (`StepKeepsTheShape`: every step keeps that too). -/
def Obligations.StepKeepsMemoriesCanonical : Prop :=
  ∀ st t, st.par.wf = true → st.fits → st.memWf = true → step st = .next t → t.memWf = true

/-- Every step leaves the parameters, the number of slots and the number of channels as they are, and keeps every register inside
its width: each channel id, request, offset, handle and the mask of interrupt bits. -/
def Obligations.StepKeepsTheShape : Prop :=
  (∀ st t, step st = .next t → t.par = st.par ∧ t.nSlots = st.nSlots ∧ t.nChannels = st.nChannels) ∧
  (∀ st t, st.par.wf = true → st.fits → step st = .next t → t.fits)

/-! ### The scanner. -/

/-- SCN.IDLE with nothing available returns `FRAME_SIZE` and writes nothing else; SCAN does the same, however often it is
called. -/
def Obligations.IdleScanIsANoOp : Prop :=
  ∀ s st, st.ready → (st.slot s).valid = true → st.avail s = 0 →
    exec (.scnIdle s) st = .next { st with result := .next st.par.frameSize } ∧
    exec (.scan s) st = .next { st with result := .next st.par.frameSize }

/-- SCN.SKIP: a byte that is not the header costs one byte of progress and nothing else. -/
def Obligations.SkipConsumesOneByte : Prop :=
  ∀ s r b st, st.scanning s r → r.consumed < r.available → st.logicalByte s (r.pos st) = some b → b ≠ st.par.header →
    exec (.scnSkip s) st = .next { st with scan := some { r with consumed := r.consumed + 1 } }

/-- SCN.DEFER: at a header with less than a frame left, `extract` moves to the header, the scan ends and returns exactly the
bytes that are missing, a number in 1..`FRAME_SIZE`-1; nothing else changes. -/
def Obligations.DeferRequestsTheMissingBytes : Prop :=
  ∀ s r st, st.scanning s r → r.consumed < r.available → st.logicalByte s (r.pos st) = some st.par.header →
    r.available - r.consumed < st.par.frameSize →
    ∃ t n, exec (.scnDefer s) st = .next t ∧ t.result = .next n ∧ n = st.par.frameSize - (r.available - r.consumed) ∧
      1 ≤ n ∧ n < st.par.frameSize ∧ t.scan = none ∧
      t.slot s = { st.slot s with extract := advance (st.slot s).extract r.consumed } ∧ (∀ u, u ≠ s → t.slot u = st.slot u) ∧
      { t with slots := st.slots, scan := st.scan, result := st.result } = st

/-- SCN.ACCEPT: a full valid candidate is copied to scratch and delivered once, as raw bytes and decoded record under the
slot's handle; the scan then stands past the frame, or the sequencer waits when the consumer does not return; nothing else
changes. -/
def Obligations.AcceptDeliversTheFrame : Prop :=
  ∀ s r f st, st.par.wf = true → st.scanning s r → st.par.frameSize ≤ r.available - r.consumed → st.validFrame f →
    st.holds s (r.pos st) f →
    ∃ t, exec (.scnAccept s) st = .next t ∧ (∀ i < st.par.frameSize, t.scratchByte i = f[i]?) ∧
      t.out = st.out ++ [.frameOut (st.slot s).ctx f (decodeFields st.par f)] ∧ t.consumer = st.consumer.drop 1 ∧
      (st.consumer.reply = true → t.scan = some { r with consumed := r.consumed + st.par.frameSize } ∧ t.held = none) ∧
      (st.consumer.reply = false → t.scan = none ∧ t.held = some (.accept r)) ∧
      { t with scratch := st.scratch, out := st.out, scan := st.scan, held := st.held, consumer := st.consumer } = st

/-- SCN.REJECT: a full candidate with a wrong checksum costs one byte, is copied to scratch, and shows nowhere else: no frame,
no flag, no counter. -/
def Obligations.RejectConsumesOneByte : Prop :=
  ∀ s r f st, st.par.wf = true → st.scanning s r → st.par.frameSize ≤ r.available - r.consumed →
    f.length = st.par.frameSize → f[0]? = some st.par.header → frameValid st.par f = false → st.holds s (r.pos st) f →
    ∃ t, exec (.scnReject s) st = .next t ∧ (∀ i < st.par.frameSize, t.scratchByte i = f[i]?) ∧
      t.scan = some { r with consumed := r.consumed + 1 } ∧ { t with scratch := st.scratch, scan := st.scan } = st

/-- SCN.DRAIN: with every available byte consumed, `extract` moves past them, the scan ends and returns `FRAME_SIZE`; nothing
else changes. -/
def Obligations.DrainCommitsEverything : Prop :=
  ∀ s r st, st.scanning s r → r.consumed = r.available → 0 < r.available →
    ∃ t, exec (.scnDrain s) st = .next t ∧ t.result = .next st.par.frameSize ∧ t.scan = none ∧
      t.slot s = { st.slot s with extract := advance (st.slot s).extract r.available } ∧ (∀ u, u ≠ s → t.slot u = st.slot u) ∧
      { t with slots := st.slots, scan := st.scan, result := st.result } = st

/-- A class performed where another class is the one taken is refused: the six are mutually exclusive. So is every class, and
HEADER_BYTE and FRAME, of an open scan with a byte to examine that does not lie in `[extract, insert)`. -/
def Obligations.OnlyTheTakenClassRuns : Prop :=
  (∀ s r k k' st, st.scanning s r → classify r st = .next k → k' ≠ k →
    exec (classInstr k' s) st = .refused .classNotTaken) ∧
  (∀ r st i, st.scan = some r → r.available < r.consumed ∨ (st.avail r.slot).toNat < r.available →
    (∃ k s, i = classInstr k s) ∨ i = .headerByte ∨ (∃ f, i = .frame f) → ∃ why, exec i st = .refused why)

/-- Every step keeps the scan in its place: at most one is in progress, on a valid slot, and the bytes it has still to examine have
arrived and are not consumed. -/
def Obligations.ScanStaysInsideTheWindow : Prop :=
  ∀ st t, st.par.wf = true → st.scanLegal → step st = .next t → t.scanLegal

/-- HEADER_BYTE and FRAME are the scanner at a header: with a scan open and the header at its position, HEADER_BYTE is the one
of DEFER, ACCEPT and REJECT that remainder and checksum select, and completes; FRAME of the very bytes there is ACCEPT; with
no scan open both are refused. And what an open scan performs by itself, with no event in the trace, is the class it is in, so
fetching from the stream and R136's own tests agree. (Log entry 5: performing them as operations is the model's choice.) -/
def Obligations.HeaderByteIsTheCandidateArm : Prop :=
  (∀ st f, st.scan = none → (∃ why, exec .headerByte st = .refused why) ∧ ∃ why, exec (.frame f) st = .refused why) ∧
  (∀ r st k, st.par.wf = true → st.held = none → st.trace = [] → st.scan = some r → classify r st = .next k →
    step st = exec (classInstr k r.slot) st) ∧
  ∀ r st, st.par.wf = true → st.scanning r.slot r → st.scan = some r →
    r.consumed < r.available → st.logicalByte r.slot (r.pos st) = some st.par.header →
    (r.available - r.consumed < st.par.frameSize →
      ∃ t, exec .headerByte st = .next t ∧ exec (.scnDefer r.slot) st = .next t) ∧
    (∀ f, st.par.frameSize ≤ r.available - r.consumed → f.length = st.par.frameSize → st.holds r.slot (r.pos st) f →
      (frameValid st.par f = true → (∃ t, exec .headerByte st = .next t ∧ exec (.scnAccept r.slot) st = .next t) ∧
        ∃ t, exec (.frame f) st = .next t ∧ exec (.scnAccept r.slot) st = .next t) ∧
      (frameValid st.par f = false → ∃ t, exec .headerByte st = .next t ∧ exec (.scnReject r.slot) st = .next t) ∧
      (∀ g, g ≠ f → ∃ why, exec (.frame g) st = .refused why))

/-- DECODE of `FRAME_SIZE` bytes returns the record, each 16-bit field little-endian and unsigned at its offset, `N_SAMPLES`
samples of three bytes from offset 6 on; another number of bytes is refused; nothing else is written. Where `FRAME_SIZE` is
not 11 + 3 x `N_SAMPLES` the offsets have no reading (R9): DECODE then returns some record, its bytes free (log entry 15). -/
def Obligations.DecodeReturnsTheRecord : Prop :=
  ∀ (f : List Byte) (st : State) (n : Nat), st.par.nSamples = n →
    (f.length = st.par.frameSize → ∃ v, exec (.decode f) st = .next { st with result := .fields v } ∧
      v.samples.length = n ∧
      (st.par.laidOut = true →
        f[0]? = some v.header ∧ f[1]? = some v.versionLength ∧ f[10 + 3 * n]? = some v.checksum ∧
        (∀ lo hi : Byte, f[2]? = some lo → f[3]? = some hi → v.speed.toNat = hi.toNat * 256 + lo.toNat) ∧
        (∀ lo hi : Byte, f[4]? = some lo → f[5]? = some hi → v.startAngle.toNat = hi.toNat * 256 + lo.toNat) ∧
        (∀ k x, v.samples[k]? = some x →
          (∀ lo hi : Byte, f[6 + 3 * k]? = some lo → f[7 + 3 * k]? = some hi →
            x.distanceMm.toNat = hi.toNat * 256 + lo.toNat) ∧
          f[8 + 3 * k]? = some x.intensity) ∧
        (∀ lo hi : Byte, f[6 + 3 * n]? = some lo → f[7 + 3 * n]? = some hi → v.endAngle.toNat = hi.toNat * 256 + lo.toNat) ∧
        (∀ lo hi : Byte, f[8 + 3 * n]? = some lo → f[9 + 3 * n]? = some hi →
          v.timestamp.toNat = hi.toNat * 256 + lo.toNat))) ∧
    (f.length ≠ st.par.frameSize → exec (.decode f) st = .refused .frameLength)

/-- EMIT with a valid frame in scratch sends it once under the slot's handle and writes no other state; the sequencer waits
when the consumer does not return at once. (That scratch still holds what the last scan copied, and that the frame goes out under
the handle of this slot even where the scan of another slot copied it, is the model's choice: log entry 26.) -/
def Obligations.EmitSendsTheScratchFrame : Prop :=
  ∀ s f st, st.fatal = false → st.held = none → (st.slot s).valid = true → f.length = st.par.frameSize →
    (∀ i < st.par.frameSize, st.scratchByte i = f[i]?) → frameValid st.par f = true →
    exec (.emit s) st = .next { st with
      out := st.out ++ [.frameOut (st.slot s).ctx f (decodeFields st.par f)]
      consumer := st.consumer.drop 1
      held := if st.consumer.reply then none else some .emit }

/-- SCAN of a valid slot whose available bytes fit the buffer and are written completes. It changes only `extract` of its
slot, scratch, the result and the frame output, and takes one answer of the consumer for each frame. With a prompt consumer it
does not wait. When it does not wait, the request and what is left unread make up one frame; when it waits, `extract` and the
result stand still. Only valid frames are sent. On a slot that is not valid or holds more than the buffer, while something is
in progress, or halted, it is refused. -/
def Obligations.ScanCompletes : Prop :=
  (∀ s st, st.par.wf = true → st.ready → (st.slot s).valid = true → (st.avail s).toNat ≤ st.par.capacity →
    st.written s (st.slot s).extract (st.avail s).toNat →
    ∃ t, exec (.scan s) st = .next t ∧
      (∃ l, t.out = st.out ++ l ∧ st.deliveries s l ∧ t.consumer = st.consumer.drop l.length) ∧
      (∃ k ≤ (st.avail s).toNat, t.slot s = { st.slot s with extract := advance (st.slot s).extract k }) ∧
      (∀ u, u ≠ s → t.slot u = st.slot u) ∧
      { t with slots := st.slots, scratch := st.scratch, out := st.out, result := st.result, held := none,
               consumer := st.consumer } = st ∧
      (st.consumer.prompt → t.held = none) ∧
      (t.held = none → ∃ n, t.result = .next n ∧ 1 ≤ n ∧ (t.avail s).toNat + n = st.par.frameSize) ∧
      (t.held ≠ none → (∃ r, r.slot = s ∧ t.held = some (.scan r)) ∧ t.slot s = st.slot s ∧ t.result = st.result)) ∧
  (∀ s st, ((st.slot s).valid = false ∨ st.par.capacity < (st.avail s).toNat ∨ st.busy = true ∨ st.fatal = true) →
    ∃ why, exec (.scan s) st = .refused why)

/-- SCAN is its classes performed one after another, the class the state is in each time, until the scan ends. -/
def Obligations.ScanIsItsClasses : Prop :=
  ∀ s st, st.par.wf = true → st.ready → (st.slot s).valid = true → (st.avail s).toNat ≤ st.par.capacity →
    st.consumer.prompt → scanByClasses ((st.avail s).toNat + 1) s st = exec (.scan s) st

/-- What a scan delivers and returns depends on the logical contents of `[extract, insert)` and the handle only, not on where
the buffer wraps, and `extract` moves equally far. -/
def Obligations.ScanIgnoresPhysicalAlignment : Prop :=
  ∀ s st1 st2 t1, st1.par.wf = true → st2.par = st1.par → st1.ready → st2.ready → st1.consumer.prompt →
    st2.consumer.prompt → (st2.slot s).valid = true → st2.avail s = st1.avail s → (st2.slot s).ctx = (st1.slot s).ctx →
    (∀ i < (st1.avail s).toNat,
      st2.logicalByte s (advance (st2.slot s).extract i) = st1.logicalByte s (advance (st1.slot s).extract i)) →
    exec (.scan s) st1 = .next t1 →
    ∃ t2 l, exec (.scan s) st2 = .next t2 ∧ t2.result = t1.result ∧ t1.out = st1.out ++ l ∧ t2.out = st2.out ++ l ∧
      (t2.slot s).extract - (st2.slot s).extract = (t1.slot s).extract - (st1.slot s).extract

/-- Resynchronisation: garbage in which no candidate is valid, then a valid frame, all available: the frame is delivered once,
everything is consumed, a whole frame is requested next. With no garbage this is the round trip. -/
def Obligations.ScanFindsTheFrameAfterGarbage : Prop :=
  ∀ s g f st, st.par.wf = true → st.ready → (st.slot s).valid = true → st.consumer.prompt → st.validFrame f →
    (st.avail s).toNat = g.length + st.par.frameSize → g.length + st.par.frameSize ≤ st.par.capacity →
    st.holds s (st.slot s).extract (g ++ f) →
    (∀ j < g.length, (g ++ f)[j]? = some st.par.header →
      frameValid st.par (((g ++ f).drop j).take st.par.frameSize) = false) →
    ∃ t, exec (.scan s) st = .next t ∧ t.out = st.out ++ [st.delivery s f] ∧ t.result = .next st.par.frameSize ∧
      (t.slot s).extract = (st.slot s).insert ∧ t.held = none

/-- Request sizing is exact: after a scan that returned fewer than `FRAME_SIZE` bytes, exactly that many more make the next
scan find the header first with exactly one frame available. -/
def Obligations.RequestSizingIsExact : Prop :=
  ∀ s st t n bytes, st.par.wf = true → exec (.scan s) st = .next t → t.held = none → t.result = .next n →
    n < st.par.frameSize → bytes.length = n →
    ∃ u, exec (.push s bytes) t = .next u ∧ (u.avail s).toNat = st.par.frameSize ∧
      u.logicalByte s (u.slot s).extract = some st.par.header

/-- Every frame that a step sends is valid and carries its own record, under the handle of a slot; the port history only
grows. -/
def Obligations.OnlyValidFramesAreDelivered : Prop :=
  ∀ st t, st.par.wf = true → step st = .next t → ∃ l, t.out = st.out ++ l ∧
    ∀ ctx raw v, PortEvent.frameOut ctx raw v ∈ l →
      raw.length = st.par.frameSize ∧ frameValid st.par raw = true ∧ v = decodeFields st.par raw ∧
        ∃ s, ctx = (st.slot s).ctx

/-- The wait for the consumer adds nothing and loses nothing. An operation that waits at its first frame the consumer does not
take at once (the answers before are `pre`, all returns) ends, once the consumer returns, exactly as the same operation does
with a consumer that had returned there at once: the same state, the rest of the scan, of the service and of the handler's run
included. The same for an operation that was waiting, went on, and waits again. `q` is the consumer when the operation goes
on. -/
def Obligations.WaitingChangesNothing : Prop :=
  (∀ i st t q pre, st.par.wf = true → st.held = none → (∀ b ∈ pre, b = true) →
    ((∃ later, st.consumer.replies = pre ++ false :: later) ∨
      (st.consumer.replies = pre ∧ st.consumer.thereafter = false)) →
    exec i st = .next t → t.held ≠ none →
    resume { t with consumer := q } =
      exec i { st with consumer := { replies := pre ++ true :: q.replies, thereafter := q.thereafter } }) ∧
  (∀ st t q pre, st.par.wf = true → st.held ≠ none → (∀ b ∈ pre, b = true) →
    ((∃ later, st.consumer.replies = pre ++ false :: later) ∨
      (st.consumer.replies = pre ∧ st.consumer.thereafter = false)) →
    resume st = .next t → t.held ≠ none →
    resume { t with consumer := q } =
      resume { st with consumer := { replies := pre ++ true :: q.replies, thereafter := q.thereafter } })

/-! ### The rearm sequencer and the DMA engine. -/

/-- SVC of a serviceable slot, its channel idle and the consumer prompt, completes, and is RB.ADVI of the last request, SCAN with
everything SCAN does, ACK, ARM: with `u` the state after RB.ADVI and `v` the state after SCAN, the frames, the scratch, `extract` and the new
request are those of `v`. `insert` advances by the last request, the request with the unread bytes makes one frame, the
channel's bit alone is cleared, the channel is armed at `phys(insert)` for that request; the frames go out first, then the
acknowledge, then the rearm; other slots, channels and everything else are unchanged. While the slot's channel is armed it is
refused: writer and scanner never run at the same time. (R161 has SVC called by DISPATCH with the bit pending; that it is performed
alone too, with the bit of its channel clear and in phase CONFIG, is the model's choice: log entry 11.) -/
def Obligations.ServiceAdvancesScansAcknowledgesRearms : Prop :=
  (∀ s st, (st.chan (st.slot s).chan).armed = true → ∃ why, exec (.svc s) st = .refused why) ∧
  ∀ s st, st.par.wf = true → st.ready → st.serviceable s → (st.chan (st.slot s).chan).armed = false → st.consumer.prompt →
    ∃ t u v n l, exec (.svc s) st = .next t ∧
      exec (.rbAdvi s (st.slot s).lastReq) st = .next u ∧ exec (.scan s) u = .next v ∧ v.result = .next n ∧
      v.out = st.out ++ l ∧ st.deliveries s l ∧
      t.out = v.out ++ rearmOf st t s ∧ t.slot s = { v.slot s with lastReq := n } ∧ t.scratch = v.scratch ∧
      t.consumer = v.consumer ∧ serviced st t s ∧
      (∀ c, bitSet t.ints c = (bitSet st.ints c && !decide (c = (st.slot s).chan))) ∧
      (∀ u, u ≠ s → t.slot u = st.slot u) ∧ (∀ c, c ≠ (st.slot s).chan → t.chan c = st.chan c) ∧
      { t with slots := st.slots, chans := st.chans, ints := st.ints, out := st.out, scratch := st.scratch,
               consumer := st.consumer } = st

/-- ACK clears the bit of its channel and no other, sends the acknowledge, and changes nothing else. ARM of an idle channel with
a count in 1..`FRAME_SIZE` programs its address and count, arms it, sends the request, and changes nothing else; with another
count, an offset outside the buffer or on an armed channel it is refused. Either on a channel that does not exist is
refused. (That they are performed outside INIT and a service, with the bit already clear, on a channel no slot owns or that was
never configured, is the model's choice: log entry 25.) -/
def Obligations.AckAndArmDriveTheChannel : Prop :=
  (∀ c st, st.fatal = false → c < st.nChannels → ∃ t, exec (.ack c) st = .next t ∧ bitSet t.ints c = false ∧
    (∀ d, d ≠ c → bitSet t.ints d = bitSet st.ints d) ∧ t.out = st.out ++ [.ackReq c] ∧
    { t with ints := st.ints, out := st.out } = st) ∧
  (∀ c a n st, st.fatal = false → c < st.nChannels →
    (a < st.par.capacity → 1 ≤ n → n ≤ st.par.frameSize → (st.chan c).armed = false →
      ∃ t, exec (.arm c a n) st = .next t ∧
        t.chan c = { armed := true, waddr := a, remaining := n, cfg := (st.chan c).cfg } ∧
        (∀ d, d ≠ c → t.chan d = st.chan d) ∧ t.out = st.out ++ [.armReq c a n] ∧
        { t with chans := st.chans, out := st.out } = st) ∧
    (st.par.capacity ≤ a ∨ n = 0 ∨ st.par.frameSize < n ∨ (st.chan c).armed = true →
      ∃ why, exec (.arm c a n) st = .refused why)) ∧
  (∀ c a n st, st.nChannels ≤ c → (∃ why, exec (.ack c) st = .refused why) ∧ ∃ why, exec (.arm c a n) st = .refused why)

/-- DMA.CONFIG points the channel at the slot's buffer and peripheral, byte-wide, wrapping in the low `LOG2_CAP` address bits; it
does not arm it; nothing else changes. On a channel or slot that does not exist it is refused. (That it is performed outside
INIT, again, on an armed channel or one the slot does not own, is the model's choice: log entry 25.) -/
def Obligations.DmaConfigPointsTheChannel : Prop :=
  (∀ c s st, st.fatal = false → c < st.nChannels → s < st.nSlots → ∃ t, exec (.dmaConfig c s) st = .next t ∧
    { t.chan c with cfg := (st.chan c).cfg } = st.chan c ∧
    (t.chan c).cfg.slot = s ∧ (t.chan c).cfg.ringBits = st.par.log2Cap ∧ (t.chan c).cfg.widthBytes = 1 ∧
    (t.chan c).cfg.pacing = s ∧ (t.chan c).cfg.readFrom = s ∧ (t.chan c).cfg.readIncrements = false ∧
    (t.chan c).cfg.writeIncrements = true ∧ (t.chan c).cfg.doneIrq = true ∧
    (∀ d, d ≠ c → t.chan d = st.chan d) ∧ t.out = st.out ++ [.cfgReq c (t.chan c).cfg] ∧
    { t with chans := st.chans, out := st.out } = st) ∧
  (∀ c s st, st.nChannels ≤ c ∨ st.nSlots ≤ s → ∃ why, exec (.dmaConfig c s) st = .refused why)

/-- DMA.BYTE of an armed channel with bytes to go, its buffer not being scanned, stores one byte (the oldest that waits at the
peripheral, where one waits) at the write address, which moves on modulo the capacity, and counts it; no other byte, register,
bit or port changes. Of an armed channel with nothing to go DMA.DONE disarms it and sets its bit, and changes nothing else. On
another channel state, and DMA.BYTE into a buffer that the scanner is reading, they are refused. (Log entry 9: what the byte is
when none waits is free.) -/
def Obligations.DmaByteStoresAndDoneSetsTheBit : Prop :=
  (∀ c st, st.fits →
    ((st.chan c).armed = true → (st.chan c).remaining ≠ 0 → st.reading (st.chan c).cfg.slot = false →
      ∃ t b, exec (.dmaByte c) st = .next t ∧
      (∀ x xs, (st.uart (st.chan c).cfg.slot).rx = x :: xs → b = x ∧ (t.uart (st.chan c).cfg.slot).rx = xs) ∧
      t.bufByte (st.chan c).cfg.slot (st.chan c).waddr = some b ∧
      (∀ u a, (u ≠ (st.chan c).cfg.slot ∨ a ≠ (st.chan c).waddr) → t.bufByte u a = st.bufByte u a) ∧
      (t.chan c).waddr = ((st.chan c).waddr + 1) % st.par.capacity ∧
      (t.chan c).remaining + 1 = (st.chan c).remaining ∧ (t.chan c).armed = true ∧
      (t.chan c).cfg = (st.chan c).cfg ∧ (∀ d, d ≠ c → t.chan d = st.chan d) ∧
      (∀ u, { t.slot u with buf := (st.slot u).buf } = st.slot u) ∧
      (∀ u, u ≠ (st.chan c).cfg.slot → t.uart u = st.uart u) ∧
      { t with slots := st.slots, chans := st.chans, uarts := st.uarts } = st) ∧
    ((st.chan c).armed = false ∨ (st.chan c).remaining = 0 → exec (.dmaByte c) st = .refused .dmaNotEnabled) ∧
    (st.reading (st.chan c).cfg.slot = true → ∃ why, exec (.dmaByte c) st = .refused why)) ∧
  ∀ c st,
    ((st.chan c).armed = true → (st.chan c).remaining = 0 → ∃ t, exec (.dmaDone c) st = .next t ∧
      t.chan c = { st.chan c with armed := false } ∧ (∀ d, d ≠ c → t.chan d = st.chan d) ∧ bitSet t.ints c = true ∧
      (∀ d, d ≠ c → bitSet t.ints d = bitSet st.ints d) ∧ { t with chans := st.chans, ints := st.ints } = st) ∧
    ((st.chan c).armed = false ∨ (st.chan c).remaining ≠ 0 → exec (.dmaDone c) st = .refused .dmaNotEnabled)

/-- DMA of as many bytes as an armed channel has to go, its buffer not being scanned, stores them in order from the write address
on, wrapping at the end of the buffer (of a request longer than the buffer the last bytes stay), leaves the channel idle with its
bit set, and changes nothing else but the count of bytes read at the peripheral; another count, an idle channel or a buffer that
the scanner is reading is refused. -/
def Obligations.DmaTransfersTheWholeRequest : Prop :=
  ∀ c bytes st, st.fits →
    ((st.chan c).armed = true → bytes.length = (st.chan c).remaining → st.reading (st.chan c).cfg.slot = false →
      ∃ t, exec (.dma c bytes) st = .next t ∧
      (∀ i < bytes.length, bytes.length ≤ i + st.par.capacity →
        t.bufByte (st.chan c).cfg.slot (((st.chan c).waddr + i) % st.par.capacity) = bytes[i]?) ∧
      (∀ u a, (u ≠ (st.chan c).cfg.slot ∨ ∀ i < bytes.length, a ≠ ((st.chan c).waddr + i) % st.par.capacity) →
        t.bufByte u a = st.bufByte u a) ∧
      (t.chan c).armed = false ∧ (t.chan c).remaining = 0 ∧
      (t.chan c).waddr = ((st.chan c).waddr + bytes.length) % st.par.capacity ∧ (t.chan c).cfg = (st.chan c).cfg ∧
      (∀ d, d ≠ c → t.chan d = st.chan d) ∧ (∀ d, bitSet t.ints d = (bitSet st.ints d || decide (d = c))) ∧
      (∀ u, { t.slot u with buf := (st.slot u).buf } = st.slot u) ∧ (∀ u, (t.uart u).rx = (st.uart u).rx) ∧
      { t with slots := st.slots, chans := st.chans, uarts := st.uarts, ints := st.ints } = st) ∧
    ((st.chan c).armed = false ∨ bytes.length ≠ (st.chan c).remaining →
      exec (.dma c bytes) st = .refused .dmaIllFormed) ∧
    (st.reading (st.chan c).cfg.slot = true → ∃ why, exec (.dma c bytes) st = .refused why)

/-- RAISE sets the bit of its channel with no transfer behind it: no other bit and nothing else changes. Of a channel that does
not exist there is no bit: refused (30_encoding.md R95 and log entry 11, not R107). -/
def Obligations.RaiseSetsTheBit : Prop :=
  (∀ c st, c < st.nChannels → ∃ t, exec (.raise c) st = .next t ∧ bitSet t.ints c = true ∧
    (∀ d, d ≠ c → bitSet t.ints d = bitSet st.ints d) ∧ { t with ints := st.ints } = st) ∧
  (∀ c st, st.nChannels ≤ c → exec (.raise c) st = .refused .channelOutOfRange)

/-- What SCAN returns is never 0 and never above `FRAME_SIZE`, from every state; hence every step keeps every request on record
within 1..`FRAME_SIZE` and every armed transfer within `FRAME_SIZE`. -/
def Obligations.RequestsStayInRange : Prop :=
  (∀ s st t, st.par.wf = true → exec (.scan s) st = .next t → t.held = none →
    ∃ n, t.result = .next n ∧ 1 ≤ n ∧ n ≤ st.par.frameSize) ∧
  (∀ st t, st.par.wf = true → st.requestsLegal → step st = .next t → t.requestsLegal)

/-- The rearm protocol is kept by every event of a protocol run, the consumer prompt: outside its service a slot's backlog and
request make up one frame, its delivered bytes are in the buffer, its channel writes where they end; and no such event but
RESET changes `FATAL`. -/
def Obligations.ProtocolIsKept : Prop :=
  ∀ st t, st.inProtocol → st.consumer.prompt → st.nextEventIs (fun i => protocolEvent i = true) → step st = .next t →
    t.inProtocol ∧ t.consumer.prompt ∧ (¬ st.takesReset → t.fatal = st.fatal)

/-- No step of a protocol run reads a byte that the DMA engine has not written. -/
def Obligations.ProtocolNeverFaults : Prop :=
  ∀ st, st.inProtocol → st.consumer.prompt → st.nextEventIs (fun i => protocolEvent i = true) → safeOutcome (step st)

/-- In lock step with the sensor a whole valid frame fed to an empty slot is delivered, acknowledged and followed by a request
for the next whole frame, and the slot is again empty with the channel armed for it. -/
def Obligations.LockStepDeliversEveryFrame : Prop :=
  ∀ s c f st, st.par.wf = true → st.phase = .run → st.ready → st.consumer.prompt → st.ints = 0 → st.lookup c = some s →
    (st.slot s).extract = (st.slot s).insert → (st.slot s).lastReq = st.par.frameSize →
    st.chan c = { armed := true, waddr := phys st.par (st.slot s).insert, remaining := st.par.frameSize,
                  cfg := configFor st.par s } → st.validFrame f →
    ∃ t, feed c f st = .next t ∧
      t.out = st.out ++ [st.delivery s f, .ackReq c,
        .armReq c (phys st.par (advance (st.slot s).insert st.par.frameSize)) st.par.frameSize] ∧
      t.slot s = { st.slot s with
        insert := advance (st.slot s).insert st.par.frameSize
        extract := advance (st.slot s).insert st.par.frameSize
        buf := (t.slot s).buf } ∧
      t.chan c = { armed := true, waddr := phys st.par (t.slot s).insert, remaining := st.par.frameSize,
                   cfg := configFor st.par s } ∧
      t.ints = 0 ∧ t.phase = .run ∧ t.ready ∧ t.consumer.prompt ∧ t.lookup c = some s

/-! ### The registry and the interrupt. -/

/-- LOOKUP returns the lowest slot that owns the channel, and none exactly when no slot owns it; it writes nothing else. Of a
channel that does not exist it is refused. -/
def Obligations.LookupFindsTheOwner : Prop :=
  (∀ c st, c < st.nChannels → ∃ v, exec (.lookup c) st = .next { st with result := .slot v } ∧
    (∀ s, v = some s → (st.slot s).valid = true ∧ (st.slot s).chan = c ∧
      ∀ u, u < s → ¬ ((st.slot u).valid = true ∧ (st.slot u).chan = c)) ∧
    (v = none ↔ ∀ s, ¬ ((st.slot s).valid = true ∧ (st.slot s).chan = c))) ∧
  (∀ c st, st.nChannels ≤ c → exec (.lookup c) st = .refused .channelOutOfRange)

/-- Every step keeps the registry free of shared channels, and no step but RESET clears a slot or changes its channel or its
handle. -/
def Obligations.RegistryIsWriteOnce : Prop :=
  (∀ st t, st.registryUnique → step st = .next t → t.registryUnique) ∧
  (∀ st t, step st = .next t → ¬ st.takesReset → ∀ s, (st.slot s).valid = true →
    (t.slot s).valid = true ∧ (t.slot s).chan = (st.slot s).chan ∧ (t.slot s).ctx = (st.slot s).ctx)

/-- Every step keeps `FATAL`, `DIAG` and what is in progress in agreement. -/
def Obligations.StepKeepsDiagLegal : Prop :=
  ∀ st t, st.diagLegal → step st = .next t → t.diagLegal

/-- IRQ in phase RUN, every pending bit owned by a serviceable slot and the consumer prompt, completes, and is the dispatch of
every pending channel in ascending order: for each the frames of its slot, its acknowledge and its rearm go out, in this order.
Every pending slot is serviced, every other slot is as it was, no bit is left, the block keeps running. With nothing pending
a run changes nothing, which the model lets happen with the line low (log entry 13, the model's reading of R195); outside
phase RUN it is refused. (A pending bit whose channel is armed, as RAISE or
an ARM performed alone leave it, is serviced alike: log entry 18.) -/
def Obligations.IrqServicesEveryPendingSlot : Prop :=
  (∀ st, st.par.wf = true → st.phase = .run → st.ready → st.consumer.prompt → st.registryUnique →
    st.ints < 2 ^ st.nChannels →
    (∀ c < st.nChannels, bitSet st.ints c = true → ∃ s < st.nSlots, st.owns s c = true ∧ st.serviceable s) →
    ∃ t, exec .irq st = .next t ∧ runEvents (st.pendingChannels.map Instr.dispatch) st = .next t ∧
      (∃ frames : Nat → List PortEvent,
        (∀ s c, st.owns s c = true → bitSet st.ints c = true → st.deliveries s (frames s)) ∧
        t.out = st.out ++ st.pendingChannels.flatMap fun c =>
          match st.lookup c with
          | some s => frames s ++ rearmOf st t s
          | none => []) ∧
      t.phase = .run ∧ t.ints = 0 ∧ t.ready ∧
      (∀ s, (st.slot s).valid = true → bitSet st.ints (st.slot s).chan = true → serviced st t s) ∧
      (∀ s, ¬ ((st.slot s).valid = true ∧ bitSet st.ints (st.slot s).chan = true) → t.slot s = st.slot s) ∧
      (∀ c, bitSet st.ints c = false → t.chan c = st.chan c) ∧
      { t with slots := st.slots, chans := st.chans, ints := st.ints, out := st.out, scratch := st.scratch,
               consumer := st.consumer } = st) ∧
  (∀ st, st.phase = .run → st.ready → st.ints = 0 → exec .irq st = .next st) ∧
  (∀ st, st.phase ≠ .run → exec .irq st = .refused .irqNotEnabled)

/-- DISPATCH of a pending bit that a slot owns is that slot's service (SVC, the channel idle as the protocol has it), and
completes where the service does. A pending bit that no slot owns halts the block with its index and changes nothing else: no
bit, no slot, no port. So does a run of IRQ whose lowest pending bit it is. (A pending bit whose channel is armed, as RAISE or
an ARM performed alone leave it, is serviced alike: log entry 18.) -/
def Obligations.DispatchServesOrHalts : Prop :=
  (∀ c s st, st.phase = .run → st.ready → c < st.nChannels → bitSet st.ints c = true → st.lookup c = some s →
    ((st.chan c).armed = false → exec (.dispatch c) st = exec (.svc s) st) ∧
    (st.par.wf = true → st.serviceable s → st.consumer.prompt →
      ∃ t, exec (.dispatch c) st = .next t ∧ serviced st t s ∧ bitSet t.ints c = false)) ∧
  (∀ c st, st.phase = .run → st.ready → c < st.nChannels → bitSet st.ints c = true → (∀ s, st.owns s c = false) →
    exec (.dispatch c) st = .next { st with fatal := true, diag := { code := 1, chan := c } } ∧
    ((∀ d, d < c → bitSet st.ints d = false) →
      exec .irq st = .next { st with fatal := true, diag := { code := 1, chan := c } }))

/-- A run of IRQ that ends fatal stops at an unmatched pending bit: that bit and every higher one stay set, and no slot that
owns a higher channel is touched. -/
def Obligations.FatalRunStopsAtTheUnmatchedBit : Prop :=
  ∀ st t, exec .irq st = .next t → t.fatal = true →
    ∃ c, bitSet st.ints c = true ∧ (∀ s, st.owns s c = false) ∧
      t.diag = { code := 1, chan := c } ∧
      (∀ d, c ≤ d → bitSet t.ints d = bitSet st.ints d) ∧
      (∀ s, c < (st.slot s).chan → t.slot s = st.slot s)

/-- A run of IRQ sets no bit, and clears a bit only by the acknowledge of the service of the slot that owns it. -/
def Obligations.IrqClearsOnlyServicedBits : Prop :=
  ∀ st t, exec .irq st = .next t → ∀ c, (bitSet t.ints c = true → bitSet st.ints c = true) ∧
    (bitSet st.ints c = true → bitSet t.ints c = false →
      (∃ s, st.owns s c = true) ∧ ∃ l, t.out = st.out ++ l ∧ .ackReq c ∈ l)

/-- A bit that became set during a run of IRQ (the run waits for the consumer, the bit is not in its snapshot) is not handled
by that run: it is still set when the run ends or waits again. -/
def Obligations.BitsOutsideTheSnapshotWait : Prop :=
  ∀ pending c r st t d, st.held = some (.irq pending c r) → st.owns r.slot c = true → bitSet pending c = true →
    bitSet pending d = false → bitSet st.ints d = true → resume st = .next t → bitSet t.ints d = true
end

