-- ==== Sys2Proof/Laws/Encoding.lean ====
section
/-! SUPPORT. The laws of the operand readers and of the byte forms they read, each direction once: a prover of a round trip
cites one lemma for each operand of an encoding. -/

namespace Sys2Proof

@[simp] theorem leBytes_length (k n : Nat) : (leBytes k n).length = k := by
  induction k generalizing n with
  | zero => rfl
  | succ k ih => simp [leBytes, ih]

/-- Little-endian bytes read back as the number they were made of. -/
theorem leNat_leBytes {k n : Nat} (h : n < 256 ^ k) : leNat (leBytes k n) = n := by
  induction k generalizing n with
  | zero => simp only [Nat.pow_zero] at h; simp only [leBytes, leNat]; omega
  | succ k ih =>
    have hk : n / 256 < 256 ^ k := Nat.div_lt_of_lt_mul (by rw [Nat.pow_succ] at h; omega)
    simp only [leBytes, leNat, ih hk, BitVec.toNat_ofNat]
    omega

/-- Bytes made of the number they read as are the same bytes. -/
theorem leBytes_leNat (bs : List Byte) : leBytes bs.length (leNat bs) = bs := by
  induction bs with
  | nil => rfl
  | cons b bs ih =>
    have hb := b.isLt
    have h1 : (b.toNat + 256 * leNat bs) / 256 = leNat bs := by omega
    have h2 : BitVec.ofNat 8 (b.toNat + 256 * leNat bs) = b := by
      apply BitVec.eq_of_toNat_eq
      simp only [BitVec.toNat_ofNat]
      omega
    simp only [List.length_cons, leNat, leBytes, h1, h2, ih]

theorem leNat_lt (bs : List Byte) : leNat bs < 256 ^ bs.length := by
  induction bs with
  | nil => simp [leNat]
  | cons b bs ih =>
    have hb := b.isLt
    simp only [leNat, List.length_cons, Nat.pow_succ]
    omega

theorem byteOf_toNat {n : Nat} (h : n < 256) : (byteOf n).toNat = n := by
  simp only [byteOf, BitVec.toNat_ofNat]
  omega

@[simp] theorem byteOf_byte (b : Byte) : byteOf b.toNat = b := by simp [byteOf]

/-! ### One operand. -/

@[simp] theorem withByte_cons (b : Byte) (bs : List Byte) (k : Byte → List Byte → DecodeResult) :
    withByte (b :: bs) k = k b bs := rfl

theorem withSmall_byteOf {n : Nat} (h : n < 256) (bs : List Byte) (k : Nat → List Byte → DecodeResult) :
    withSmall (byteOf n :: bs) k = k n bs := by
  simp only [withSmall, withByte, byteOf_toNat h]

theorem withBytes_append {n : Nat} {l : List Byte} (h : l.length = n) (bs : List Byte)
    (k : List Byte → List Byte → DecodeResult) : withBytes n (l ++ bs) k = k l bs := by
  subst h
  simp [withBytes]

theorem withCounted_append {l : List Byte} (h : l.length < 256) (bs : List Byte)
    (k : List Byte → List Byte → DecodeResult) : withCounted (byteOf l.length :: (l ++ bs)) k = k l bs := by
  simp only [withCounted, withByte_cons]
  exact withBytes_append (byteOf_toNat h).symm bs k

theorem withNat_append {n v : Nat} (h : v < 256 ^ n) (bs : List Byte) (k : Nat → List Byte → DecodeResult) :
    withNat n (leBytes n v ++ bs) k = k v bs := by
  simp only [withNat, withBytes_append (leBytes_length n v), leNat_leBytes h]

theorem withLongCounted_append {l : List Byte} (h : l.length < 256 ^ 8) (bs : List Byte)
    (k : List Byte → List Byte → DecodeResult) : withLongCounted (leBytes 8 l.length ++ (l ++ bs)) k = k l bs := by
  simp only [withLongCounted, withNat_append h, withBytes_append rfl]

theorem withCursor_append (c : Cursor) (bs : List Byte) (k : Cursor → List Byte → DecodeResult) :
    withCursor (leBytes 8 c.toNat ++ bs) k = k c bs := by
  have hc := c.isLt
  simp only [withCursor, withNat_append (show c.toNat < 256 ^ 8 by omega)]
  simp

/-! ### What an operand reader that succeeds has read. -/

theorem withByte_ok {bs : List Byte} {k : Byte → List Byte → DecodeResult} {r : Instr × List Byte}
    (h : withByte bs k = .ok r) : ∃ b rest, bs = b :: rest ∧ k b rest = .ok r := by
  cases bs with
  | nil => cases h
  | cons b rest => exact ⟨b, rest, rfl, h⟩

theorem withSmall_ok {bs : List Byte} {k : Nat → List Byte → DecodeResult} {r : Instr × List Byte}
    (h : withSmall bs k = .ok r) : ∃ n rest, bs = byteOf n :: rest ∧ n < 256 ∧ k n rest = .ok r := by
  obtain ⟨b, rest, rfl, hk⟩ := withByte_ok h
  exact ⟨b.toNat, rest, by simp, b.isLt, hk⟩

theorem withBytes_ok {n : Nat} {bs : List Byte} {k : List Byte → List Byte → DecodeResult} {r : Instr × List Byte}
    (h : withBytes n bs k = .ok r) : ∃ l rest, bs = l ++ rest ∧ l.length = n ∧ k l rest = .ok r := by
  simp only [withBytes] at h
  split at h
  · rename_i hn
    exact ⟨bs.take n, bs.drop n, by simp, by simp [hn], h⟩
  · cases h

theorem withCounted_ok {bs : List Byte} {k : List Byte → List Byte → DecodeResult} {r : Instr × List Byte}
    (h : withCounted bs k = .ok r) :
    ∃ l rest, bs = byteOf l.length :: (l ++ rest) ∧ l.length < 256 ∧ k l rest = .ok r := by
  obtain ⟨b, tail, rfl, hk⟩ := withByte_ok h
  obtain ⟨l, rest, rfl, hl, hk⟩ := withBytes_ok hk
  exact ⟨l, rest, by simp [hl], by rw [hl]; exact b.isLt, hk⟩

theorem withNat_ok {n : Nat} {bs : List Byte} {k : Nat → List Byte → DecodeResult} {r : Instr × List Byte}
    (h : withNat n bs k = .ok r) : ∃ v rest, bs = leBytes n v ++ rest ∧ v < 256 ^ n ∧ k v rest = .ok r := by
  obtain ⟨l, rest, rfl, hl, hk⟩ := withBytes_ok h
  have hlt := leNat_lt l
  rw [hl] at hlt
  exact ⟨leNat l, rest, by rw [← hl, leBytes_leNat], hlt, hk⟩

theorem withLongCounted_ok {bs : List Byte} {k : List Byte → List Byte → DecodeResult} {r : Instr × List Byte}
    (h : withLongCounted bs k = .ok r) :
    ∃ l rest, bs = leBytes 8 l.length ++ (l ++ rest) ∧ l.length < 256 ^ 8 ∧ k l rest = .ok r := by
  obtain ⟨n, tail, rfl, hn, hk⟩ := withNat_ok h
  obtain ⟨l, rest, rfl, rfl, hl⟩ := withBytes_ok hk
  exact ⟨l, rest, rfl, hn, hl⟩

theorem withCursor_ok {bs : List Byte} {k : Cursor → List Byte → DecodeResult} {r : Instr × List Byte}
    (h : withCursor bs k = .ok r) : ∃ (c : Cursor) (rest : List Byte), bs = leBytes 8 c.toNat ++ rest ∧ k c rest = .ok r := by
  obtain ⟨v, rest, rfl, hv, hk⟩ := withNat_ok h
  refine ⟨BitVec.ofNat 64 v, rest, ?_, hk⟩
  rw [BitVec.toNat_ofNat, Nat.mod_eq_of_lt (by omega)]

end Sys2Proof
end

