-- ==== Sys2Proof/Laws/State.lean ====
section
/-! SUPPORT. One lemma per field of State per update, so that no proof unfolds an update; the registers and the numbers of slots
and channels seen through each update; and reading a register after a register is written. -/

namespace Sys2Proof.Machine

variable (st : State)

/-! ### One field after one update. -/

@[simp] theorem setSlot_par (s : Nat) (x : Slot) : (st.setSlot s x).par = st.par := rfl
@[simp] theorem setSlot_slots (s : Nat) (x : Slot) : (st.setSlot s x).slots = st.slots.set s x := rfl
@[simp] theorem setSlot_scratch (s : Nat) (x : Slot) : (st.setSlot s x).scratch = st.scratch := rfl
@[simp] theorem setSlot_fatal (s : Nat) (x : Slot) : (st.setSlot s x).fatal = st.fatal := rfl
@[simp] theorem setSlot_diag (s : Nat) (x : Slot) : (st.setSlot s x).diag = st.diag := rfl
@[simp] theorem setSlot_irqEn (s : Nat) (x : Slot) : (st.setSlot s x).irqEn = st.irqEn := rfl
@[simp] theorem setSlot_ints (s : Nat) (x : Slot) : (st.setSlot s x).ints = st.ints := rfl
@[simp] theorem setSlot_chans (s : Nat) (x : Slot) : (st.setSlot s x).chans = st.chans := rfl
@[simp] theorem setSlot_scan (s : Nat) (x : Slot) : (st.setSlot s x).scan = st.scan := rfl
@[simp] theorem setSlot_held (s : Nat) (x : Slot) : (st.setSlot s x).held = st.held := rfl
@[simp] theorem setSlot_result (s : Nat) (x : Slot) : (st.setSlot s x).result = st.result := rfl
@[simp] theorem setSlot_out (s : Nat) (x : Slot) : (st.setSlot s x).out = st.out := rfl
@[simp] theorem setSlot_consumer (s : Nat) (x : Slot) : (st.setSlot s x).consumer = st.consumer := rfl
@[simp] theorem setSlot_uarts (s : Nat) (x : Slot) : (st.setSlot s x).uarts = st.uarts := rfl
@[simp] theorem setSlot_trace (s : Nat) (x : Slot) : (st.setSlot s x).trace = st.trace := rfl

@[simp] theorem setChan_par (c : Nat) (x : Channel) : (st.setChan c x).par = st.par := rfl
@[simp] theorem setChan_slots (c : Nat) (x : Channel) : (st.setChan c x).slots = st.slots := rfl
@[simp] theorem setChan_scratch (c : Nat) (x : Channel) : (st.setChan c x).scratch = st.scratch := rfl
@[simp] theorem setChan_fatal (c : Nat) (x : Channel) : (st.setChan c x).fatal = st.fatal := rfl
@[simp] theorem setChan_diag (c : Nat) (x : Channel) : (st.setChan c x).diag = st.diag := rfl
@[simp] theorem setChan_irqEn (c : Nat) (x : Channel) : (st.setChan c x).irqEn = st.irqEn := rfl
@[simp] theorem setChan_ints (c : Nat) (x : Channel) : (st.setChan c x).ints = st.ints := rfl
@[simp] theorem setChan_chans (c : Nat) (x : Channel) : (st.setChan c x).chans = st.chans.set c x := rfl
@[simp] theorem setChan_scan (c : Nat) (x : Channel) : (st.setChan c x).scan = st.scan := rfl
@[simp] theorem setChan_held (c : Nat) (x : Channel) : (st.setChan c x).held = st.held := rfl
@[simp] theorem setChan_result (c : Nat) (x : Channel) : (st.setChan c x).result = st.result := rfl
@[simp] theorem setChan_out (c : Nat) (x : Channel) : (st.setChan c x).out = st.out := rfl
@[simp] theorem setChan_consumer (c : Nat) (x : Channel) : (st.setChan c x).consumer = st.consumer := rfl
@[simp] theorem setChan_uarts (c : Nat) (x : Channel) : (st.setChan c x).uarts = st.uarts := rfl
@[simp] theorem setChan_trace (c : Nat) (x : Channel) : (st.setChan c x).trace = st.trace := rfl

@[simp] theorem setUart_par (s : Nat) (x : Uart) : (st.setUart s x).par = st.par := rfl
@[simp] theorem setUart_slots (s : Nat) (x : Uart) : (st.setUart s x).slots = st.slots := rfl
@[simp] theorem setUart_scratch (s : Nat) (x : Uart) : (st.setUart s x).scratch = st.scratch := rfl
@[simp] theorem setUart_fatal (s : Nat) (x : Uart) : (st.setUart s x).fatal = st.fatal := rfl
@[simp] theorem setUart_diag (s : Nat) (x : Uart) : (st.setUart s x).diag = st.diag := rfl
@[simp] theorem setUart_irqEn (s : Nat) (x : Uart) : (st.setUart s x).irqEn = st.irqEn := rfl
@[simp] theorem setUart_ints (s : Nat) (x : Uart) : (st.setUart s x).ints = st.ints := rfl
@[simp] theorem setUart_chans (s : Nat) (x : Uart) : (st.setUart s x).chans = st.chans := rfl
@[simp] theorem setUart_scan (s : Nat) (x : Uart) : (st.setUart s x).scan = st.scan := rfl
@[simp] theorem setUart_held (s : Nat) (x : Uart) : (st.setUart s x).held = st.held := rfl
@[simp] theorem setUart_result (s : Nat) (x : Uart) : (st.setUart s x).result = st.result := rfl
@[simp] theorem setUart_out (s : Nat) (x : Uart) : (st.setUart s x).out = st.out := rfl
@[simp] theorem setUart_consumer (s : Nat) (x : Uart) : (st.setUart s x).consumer = st.consumer := rfl
@[simp] theorem setUart_uarts (s : Nat) (x : Uart) : (st.setUart s x).uarts = st.uarts.set s x := rfl
@[simp] theorem setUart_trace (s : Nat) (x : Uart) : (st.setUart s x).trace = st.trace := rfl

@[simp] theorem setResult_par (v : OpResult) : (st.setResult v).par = st.par := rfl
@[simp] theorem setResult_slots (v : OpResult) : (st.setResult v).slots = st.slots := rfl
@[simp] theorem setResult_scratch (v : OpResult) : (st.setResult v).scratch = st.scratch := rfl
@[simp] theorem setResult_fatal (v : OpResult) : (st.setResult v).fatal = st.fatal := rfl
@[simp] theorem setResult_diag (v : OpResult) : (st.setResult v).diag = st.diag := rfl
@[simp] theorem setResult_irqEn (v : OpResult) : (st.setResult v).irqEn = st.irqEn := rfl
@[simp] theorem setResult_ints (v : OpResult) : (st.setResult v).ints = st.ints := rfl
@[simp] theorem setResult_chans (v : OpResult) : (st.setResult v).chans = st.chans := rfl
@[simp] theorem setResult_scan (v : OpResult) : (st.setResult v).scan = st.scan := rfl
@[simp] theorem setResult_held (v : OpResult) : (st.setResult v).held = st.held := rfl
@[simp] theorem setResult_result (v : OpResult) : (st.setResult v).result = v := rfl
@[simp] theorem setResult_out (v : OpResult) : (st.setResult v).out = st.out := rfl
@[simp] theorem setResult_consumer (v : OpResult) : (st.setResult v).consumer = st.consumer := rfl
@[simp] theorem setResult_uarts (v : OpResult) : (st.setResult v).uarts = st.uarts := rfl
@[simp] theorem setResult_trace (v : OpResult) : (st.setResult v).trace = st.trace := rfl

@[simp] theorem send_par (e : PortEvent) : (st.send e).par = st.par := rfl
@[simp] theorem send_slots (e : PortEvent) : (st.send e).slots = st.slots := rfl
@[simp] theorem send_scratch (e : PortEvent) : (st.send e).scratch = st.scratch := rfl
@[simp] theorem send_fatal (e : PortEvent) : (st.send e).fatal = st.fatal := rfl
@[simp] theorem send_diag (e : PortEvent) : (st.send e).diag = st.diag := rfl
@[simp] theorem send_irqEn (e : PortEvent) : (st.send e).irqEn = st.irqEn := rfl
@[simp] theorem send_ints (e : PortEvent) : (st.send e).ints = st.ints := rfl
@[simp] theorem send_chans (e : PortEvent) : (st.send e).chans = st.chans := rfl
@[simp] theorem send_scan (e : PortEvent) : (st.send e).scan = st.scan := rfl
@[simp] theorem send_held (e : PortEvent) : (st.send e).held = st.held := rfl
@[simp] theorem send_result (e : PortEvent) : (st.send e).result = st.result := rfl
@[simp] theorem send_out (e : PortEvent) : (st.send e).out = st.out ++ [e] := rfl
@[simp] theorem send_consumer (e : PortEvent) : (st.send e).consumer = st.consumer := rfl
@[simp] theorem send_uarts (e : PortEvent) : (st.send e).uarts = st.uarts := rfl
@[simp] theorem send_trace (e : PortEvent) : (st.send e).trace = st.trace := rfl

@[simp] theorem afterReply_par : st.afterReply.par = st.par := rfl
@[simp] theorem afterReply_slots : st.afterReply.slots = st.slots := rfl
@[simp] theorem afterReply_scratch : st.afterReply.scratch = st.scratch := rfl
@[simp] theorem afterReply_fatal : st.afterReply.fatal = st.fatal := rfl
@[simp] theorem afterReply_diag : st.afterReply.diag = st.diag := rfl
@[simp] theorem afterReply_irqEn : st.afterReply.irqEn = st.irqEn := rfl
@[simp] theorem afterReply_ints : st.afterReply.ints = st.ints := rfl
@[simp] theorem afterReply_chans : st.afterReply.chans = st.chans := rfl
@[simp] theorem afterReply_scan : st.afterReply.scan = st.scan := rfl
@[simp] theorem afterReply_held : st.afterReply.held = st.held := rfl
@[simp] theorem afterReply_result : st.afterReply.result = st.result := rfl
@[simp] theorem afterReply_out : st.afterReply.out = st.out := rfl
@[simp] theorem afterReply_consumer : st.afterReply.consumer = st.consumer.drop 1 := rfl
@[simp] theorem afterReply_uarts : st.afterReply.uarts = st.uarts := rfl
@[simp] theorem afterReply_trace : st.afterReply.trace = st.trace := rfl

/-! ### The numbers of slots and channels. -/

@[simp] theorem setSlot_nSlots (s : Nat) (x : Slot) : (st.setSlot s x).nSlots = st.nSlots := by simp [State.nSlots]
@[simp] theorem setSlot_nChannels (s : Nat) (x : Slot) : (st.setSlot s x).nChannels = st.nChannels := rfl
@[simp] theorem setChan_nSlots (c : Nat) (x : Channel) : (st.setChan c x).nSlots = st.nSlots := rfl
@[simp] theorem setChan_nChannels (c : Nat) (x : Channel) : (st.setChan c x).nChannels = st.nChannels := by simp [State.nChannels]
@[simp] theorem setUart_nSlots (s : Nat) (x : Uart) : (st.setUart s x).nSlots = st.nSlots := rfl
@[simp] theorem setUart_nChannels (s : Nat) (x : Uart) : (st.setUart s x).nChannels = st.nChannels := rfl
@[simp] theorem setResult_nSlots (v : OpResult) : (st.setResult v).nSlots = st.nSlots := rfl
@[simp] theorem setResult_nChannels (v : OpResult) : (st.setResult v).nChannels = st.nChannels := rfl
@[simp] theorem send_nSlots (e : PortEvent) : (st.send e).nSlots = st.nSlots := rfl
@[simp] theorem send_nChannels (e : PortEvent) : (st.send e).nChannels = st.nChannels := rfl
@[simp] theorem afterReply_nSlots : st.afterReply.nSlots = st.nSlots := rfl
@[simp] theorem afterReply_nChannels : st.afterReply.nChannels = st.nChannels := rfl

/-! ### The registers after an update of something else. -/

@[simp] theorem setSlot_chan (s : Nat) (x : Slot) (d : Nat) : (st.setSlot s x).chan d = st.chan d := rfl
@[simp] theorem setSlot_uart (s : Nat) (x : Slot) (u : Nat) : (st.setSlot s x).uart u = st.uart u := rfl
@[simp] theorem setChan_slot (c : Nat) (x : Channel) (u : Nat) : (st.setChan c x).slot u = st.slot u := rfl
@[simp] theorem setChan_uart (c : Nat) (x : Channel) (u : Nat) : (st.setChan c x).uart u = st.uart u := rfl
@[simp] theorem setUart_slot (s : Nat) (x : Uart) (u : Nat) : (st.setUart s x).slot u = st.slot u := rfl
@[simp] theorem setUart_chan (s : Nat) (x : Uart) (d : Nat) : (st.setUart s x).chan d = st.chan d := rfl
@[simp] theorem setResult_slot (v : OpResult) (u : Nat) : (st.setResult v).slot u = st.slot u := rfl
@[simp] theorem setResult_chan (v : OpResult) (d : Nat) : (st.setResult v).chan d = st.chan d := rfl
@[simp] theorem setResult_uart (v : OpResult) (u : Nat) : (st.setResult v).uart u = st.uart u := rfl
@[simp] theorem send_slot (e : PortEvent) (u : Nat) : (st.send e).slot u = st.slot u := rfl
@[simp] theorem send_chan (e : PortEvent) (d : Nat) : (st.send e).chan d = st.chan d := rfl
@[simp] theorem send_uart (e : PortEvent) (u : Nat) : (st.send e).uart u = st.uart u := rfl
@[simp] theorem afterReply_slot (u : Nat) : st.afterReply.slot u = st.slot u := rfl
@[simp] theorem afterReply_chan (d : Nat) : st.afterReply.chan d = st.chan d := rfl
@[simp] theorem afterReply_uart (u : Nat) : st.afterReply.uart u = st.uart u := rfl

@[simp] theorem with_scratch_slot (v : List Host.Cell) (u : Nat) : State.slot { st with scratch := v } u = st.slot u := rfl
@[simp] theorem with_scratch_chan (v : List Host.Cell) (d : Nat) : State.chan { st with scratch := v } d = st.chan d := rfl
@[simp] theorem with_scratch_uart (v : List Host.Cell) (u : Nat) : State.uart { st with scratch := v } u = st.uart u := rfl
@[simp] theorem with_scratch_nSlots (v : List Host.Cell) : State.nSlots { st with scratch := v } = st.nSlots := rfl
@[simp] theorem with_scratch_nChannels (v : List Host.Cell) : State.nChannels { st with scratch := v } = st.nChannels := rfl
@[simp] theorem with_fatal_slot (v : Bool) (u : Nat) : State.slot { st with fatal := v } u = st.slot u := rfl
@[simp] theorem with_fatal_chan (v : Bool) (d : Nat) : State.chan { st with fatal := v } d = st.chan d := rfl
@[simp] theorem with_fatal_uart (v : Bool) (u : Nat) : State.uart { st with fatal := v } u = st.uart u := rfl
@[simp] theorem with_fatal_nSlots (v : Bool) : State.nSlots { st with fatal := v } = st.nSlots := rfl
@[simp] theorem with_fatal_nChannels (v : Bool) : State.nChannels { st with fatal := v } = st.nChannels := rfl
@[simp] theorem with_diag_slot (v : Diag) (u : Nat) : State.slot { st with diag := v } u = st.slot u := rfl
@[simp] theorem with_diag_chan (v : Diag) (d : Nat) : State.chan { st with diag := v } d = st.chan d := rfl
@[simp] theorem with_diag_uart (v : Diag) (u : Nat) : State.uart { st with diag := v } u = st.uart u := rfl
@[simp] theorem with_diag_nSlots (v : Diag) : State.nSlots { st with diag := v } = st.nSlots := rfl
@[simp] theorem with_diag_nChannels (v : Diag) : State.nChannels { st with diag := v } = st.nChannels := rfl
@[simp] theorem with_irqEn_slot (v : Bool) (u : Nat) : State.slot { st with irqEn := v } u = st.slot u := rfl
@[simp] theorem with_irqEn_chan (v : Bool) (d : Nat) : State.chan { st with irqEn := v } d = st.chan d := rfl
@[simp] theorem with_irqEn_uart (v : Bool) (u : Nat) : State.uart { st with irqEn := v } u = st.uart u := rfl
@[simp] theorem with_irqEn_nSlots (v : Bool) : State.nSlots { st with irqEn := v } = st.nSlots := rfl
@[simp] theorem with_irqEn_nChannels (v : Bool) : State.nChannels { st with irqEn := v } = st.nChannels := rfl
@[simp] theorem with_ints_slot (v : Nat) (u : Nat) : State.slot { st with ints := v } u = st.slot u := rfl
@[simp] theorem with_ints_chan (v : Nat) (d : Nat) : State.chan { st with ints := v } d = st.chan d := rfl
@[simp] theorem with_ints_uart (v : Nat) (u : Nat) : State.uart { st with ints := v } u = st.uart u := rfl
@[simp] theorem with_ints_nSlots (v : Nat) : State.nSlots { st with ints := v } = st.nSlots := rfl
@[simp] theorem with_ints_nChannels (v : Nat) : State.nChannels { st with ints := v } = st.nChannels := rfl
@[simp] theorem with_scan_slot (v : Option ScanRegs) (u : Nat) : State.slot { st with scan := v } u = st.slot u := rfl
@[simp] theorem with_scan_chan (v : Option ScanRegs) (d : Nat) : State.chan { st with scan := v } d = st.chan d := rfl
@[simp] theorem with_scan_uart (v : Option ScanRegs) (u : Nat) : State.uart { st with scan := v } u = st.uart u := rfl
@[simp] theorem with_scan_nSlots (v : Option ScanRegs) : State.nSlots { st with scan := v } = st.nSlots := rfl
@[simp] theorem with_scan_nChannels (v : Option ScanRegs) : State.nChannels { st with scan := v } = st.nChannels := rfl
@[simp] theorem with_held_slot (v : Option Held) (u : Nat) : State.slot { st with held := v } u = st.slot u := rfl
@[simp] theorem with_held_chan (v : Option Held) (d : Nat) : State.chan { st with held := v } d = st.chan d := rfl
@[simp] theorem with_held_uart (v : Option Held) (u : Nat) : State.uart { st with held := v } u = st.uart u := rfl
@[simp] theorem with_held_nSlots (v : Option Held) : State.nSlots { st with held := v } = st.nSlots := rfl
@[simp] theorem with_held_nChannels (v : Option Held) : State.nChannels { st with held := v } = st.nChannels := rfl
@[simp] theorem with_result_slot (v : OpResult) (u : Nat) : State.slot { st with result := v } u = st.slot u := rfl
@[simp] theorem with_result_chan (v : OpResult) (d : Nat) : State.chan { st with result := v } d = st.chan d := rfl
@[simp] theorem with_result_uart (v : OpResult) (u : Nat) : State.uart { st with result := v } u = st.uart u := rfl
@[simp] theorem with_result_nSlots (v : OpResult) : State.nSlots { st with result := v } = st.nSlots := rfl
@[simp] theorem with_result_nChannels (v : OpResult) : State.nChannels { st with result := v } = st.nChannels := rfl
@[simp] theorem with_out_slot (v : List PortEvent) (u : Nat) : State.slot { st with out := v } u = st.slot u := rfl
@[simp] theorem with_out_chan (v : List PortEvent) (d : Nat) : State.chan { st with out := v } d = st.chan d := rfl
@[simp] theorem with_out_uart (v : List PortEvent) (u : Nat) : State.uart { st with out := v } u = st.uart u := rfl
@[simp] theorem with_out_nSlots (v : List PortEvent) : State.nSlots { st with out := v } = st.nSlots := rfl
@[simp] theorem with_out_nChannels (v : List PortEvent) : State.nChannels { st with out := v } = st.nChannels := rfl
@[simp] theorem with_consumer_slot (v : Consumer) (u : Nat) : State.slot { st with consumer := v } u = st.slot u := rfl
@[simp] theorem with_consumer_chan (v : Consumer) (d : Nat) : State.chan { st with consumer := v } d = st.chan d := rfl
@[simp] theorem with_consumer_uart (v : Consumer) (u : Nat) : State.uart { st with consumer := v } u = st.uart u := rfl
@[simp] theorem with_consumer_nSlots (v : Consumer) : State.nSlots { st with consumer := v } = st.nSlots := rfl
@[simp] theorem with_consumer_nChannels (v : Consumer) : State.nChannels { st with consumer := v } = st.nChannels := rfl
@[simp] theorem with_trace_slot (v : List Byte) (u : Nat) : State.slot { st with trace := v } u = st.slot u := rfl
@[simp] theorem with_trace_chan (v : List Byte) (d : Nat) : State.chan { st with trace := v } d = st.chan d := rfl
@[simp] theorem with_trace_uart (v : List Byte) (u : Nat) : State.uart { st with trace := v } u = st.uart u := rfl
@[simp] theorem with_trace_nSlots (v : List Byte) : State.nSlots { st with trace := v } = st.nSlots := rfl
@[simp] theorem with_trace_nChannels (v : List Byte) : State.nChannels { st with trace := v } = st.nChannels := rfl

/-! ### A register after a register is written. -/

theorem slot_setSlot (s u : Nat) (x : Slot) :
    (st.setSlot s x).slot u = if u = s ∧ s < st.nSlots then x else st.slot u := by
  simp only [State.slot, State.setSlot, State.nSlots, List.getD_eq_getElem?_getD, List.getElem?_set]
  by_cases h : s = u
  · subst h
    by_cases h2 : s < st.slots.length <;> simp [h2]
  · simp [h, Ne.symm h]

theorem chan_setChan (c d : Nat) (x : Channel) :
    (st.setChan c x).chan d = if d = c ∧ c < st.nChannels then x else st.chan d := by
  simp only [State.chan, State.setChan, State.nChannels, List.getD_eq_getElem?_getD, List.getElem?_set]
  by_cases h : c = d
  · subst h
    by_cases h2 : c < st.chans.length <;> simp [h2]
  · simp [h, Ne.symm h]

theorem uart_setUart (s u : Nat) (x : Uart) :
    (st.setUart s x).uart u = if u = s ∧ s < st.uarts.length then x else st.uart u := by
  simp only [State.uart, State.setUart, List.getD_eq_getElem?_getD, List.getElem?_set]
  by_cases h : s = u
  · subst h
    by_cases h2 : s < st.uarts.length <;> simp [h2]
  · simp [h, Ne.symm h]

variable {st}

theorem slot_setSlot_self {s : Nat} (h : s < st.nSlots) (x : Slot) : (st.setSlot s x).slot s = x := by
  simp [slot_setSlot, h]
theorem slot_setSlot_ne {s u : Nat} (h : u ≠ s) (x : Slot) : (st.setSlot s x).slot u = st.slot u := by
  simp [slot_setSlot, h]
theorem chan_setChan_self {c : Nat} (h : c < st.nChannels) (x : Channel) : (st.setChan c x).chan c = x := by
  simp [chan_setChan, h]
theorem chan_setChan_ne {c d : Nat} (h : d ≠ c) (x : Channel) : (st.setChan c x).chan d = st.chan d := by
  simp [chan_setChan, h]
theorem uart_setUart_self {s : Nat} (h : s < st.uarts.length) (x : Uart) : (st.setUart s x).uart s = x := by
  simp [uart_setUart, h]
theorem uart_setUart_ne {s u : Nat} (h : u ≠ s) (x : Uart) : (st.setUart s x).uart u = st.uart u := by
  simp [uart_setUart, h]

/-- A slot that does not exist reads as an empty one. -/
theorem slot_absent {s : Nat} (h : st.nSlots ≤ s) : st.slot s = Slot.reset := by
  simp only [State.slot, State.nSlots] at h ⊢
  simp [List.getD_eq_getElem?_getD, List.getElem?_eq_none h]

/-- A channel that does not exist reads as an idle one. -/
theorem chan_absent {c : Nat} (h : st.nChannels ≤ c) : st.chan c = Channel.reset := by
  simp only [State.chan, State.nChannels] at h ⊢
  simp [List.getD_eq_getElem?_getD, List.getElem?_eq_none h]

/-- A valid slot exists. -/
theorem lt_of_valid {s : Nat} (h : (st.slot s).valid = true) : s < st.nSlots := by
  by_contra hs
  rw [slot_absent (by omega)] at h
  cases h

/-- An armed channel exists. -/
theorem lt_of_armed {c : Nat} (h : (st.chan c).armed = true) : c < st.nChannels := by
  by_contra hc
  rw [chan_absent (by omega)] at h
  cases h

/-- Two machines with as many slots and the same registers, slot by slot, have the same registry. -/
theorem slots_ext {st' : State} (hn : st'.nSlots = st.nSlots) (h : ∀ s, st'.slot s = st.slot s) : st'.slots = st.slots := by
  apply List.ext_getElem hn
  intro i h1 h2
  have := h i
  simpa [State.slot, List.getD_eq_getElem?_getD, List.getElem?_eq_getElem h1, List.getElem?_eq_getElem h2] using this

/-- Two machines with as many channels and the same channels, one by one, have the same engine state. -/
theorem chans_ext {st' : State} (hn : st'.nChannels = st.nChannels) (h : ∀ c, st'.chan c = st.chan c) :
    st'.chans = st.chans := by
  apply List.ext_getElem hn
  intro i h1 h2
  have := h i
  simpa [State.chan, List.getD_eq_getElem?_getD, List.getElem?_eq_getElem h1, List.getElem?_eq_getElem h2] using this

@[simp] theorem setSlot_same (st : State) (s : Nat) : st.setSlot s (st.slot s) = st := by
  by_cases h : s < st.slots.length
  · simp [State.setSlot, State.slot, List.getD_eq_getElem?_getD, List.getElem?_eq_getElem h]
  · have : st.slots.set s (st.slot s) = st.slots := List.set_eq_of_length_le (by omega)
    simp [State.setSlot, this]

end Sys2Proof.Machine
end

