-- ==== Sys2Proof/Laws/Memory.lean ====
section
/-! SUPPORT. The laws of the shared operations over memories and bitmasks: read after write, the canonical form kept, what a
read of a range answers, the offsets of a window, single bits of `INTS`. -/

namespace Sys2Proof.Machine

/-! ### `andThen` and `require`. -/

@[simp] theorem andThen_next {α β : Type} (a : α) (k : α → Out β) : andThen (.next a) k = k a := rfl
@[simp] theorem andThen_fault {α β : Type} (f : Fault) (k : α → Out β) : andThen (.fault f) k = .fault f := rfl
@[simp] theorem andThen_refused {α β : Type} (r : Refusal) (k : α → Out β) : andThen (.refused r) k = .refused r := rfl
@[simp] theorem require_true {α : Type} (why : Refusal) (k : Out α) : require true why k = k := rfl
@[simp] theorem require_false {α : Type} (why : Refusal) (k : Out α) : require false why k = .refused why := rfl

/-- A composed operation answers next exactly when both of its parts do. -/
theorem andThen_eq_next {α β : Type} {o : Out α} {k : α → Out β} {b : β} :
    andThen o k = .next b ↔ ∃ a, o = .next a ∧ k a = .next b := by
  cases o <;> simp

/-- A composed operation faults exactly when its first part does, or its second after the first. -/
theorem andThen_eq_fault {α β : Type} {o : Out α} {k : α → Out β} {f : Fault} :
    andThen o k = .fault f ↔ o = .fault f ∨ ∃ a, o = .next a ∧ k a = .fault f := by
  cases o <;> simp

/-- A guarded operation answers next exactly when the guard holds and the operation does. -/
theorem require_eq_next {α : Type} {ok : Bool} {why : Refusal} {k : Out α} {a : α} :
    require ok why k = .next a ↔ ok = true ∧ k = .next a := by
  cases ok <;> simp

/-- A guarded operation faults exactly when the guard holds and the operation does. -/
theorem require_eq_fault {α : Type} {ok : Bool} {why : Refusal} {k : Out α} {f : Fault} :
    require ok why k = .fault f ↔ ok = true ∧ k = .fault f := by
  cases ok <;> simp

/-! ### One byte of a memory. -/

@[simp] theorem memRead_memWrite_self (m : List Host.Cell) (a : Nat) (b : Byte) : memRead (memWrite m a b) a = some b := by
  induction m with
  | nil => simp [memWrite, memRead]
  | cons c m ih =>
    obtain ⟨k, v⟩ := c
    simp only [memWrite]
    split
    · simp [memRead]
    · split
      · simp [memRead]
      · have : ¬ k = a := by omega
        simp [memRead, this, ih]

theorem memRead_memWrite_ne {m : List Host.Cell} {a a' : Nat} (h : a' ≠ a) (b : Byte) :
    memRead (memWrite m a b) a' = memRead m a' := by
  induction m with
  | nil => simp [memWrite, memRead]; omega
  | cons c m ih =>
    obtain ⟨k, v⟩ := c
    simp only [memWrite]
    split
    · have : ¬ a = a' := by omega
      simp [memRead, this]
    · split
      · have h1 : ¬ a = a' := by omega
        have h2 : ¬ k = a' := by omega
        simp [memRead, h1, h2]
      · simp only [memRead]
        split
        · rfl
        · exact ih

theorem memWfFrom_memWrite {m : List Host.Cell} {lo hi a : Nat} (hm : memWfFrom lo hi m = true) (hl : lo ≤ a) (ha : a < hi)
    (b : Byte) : memWfFrom lo hi (memWrite m a b) = true := by
  induction m generalizing lo with
  | nil => simp [memWrite, memWfFrom, hl, ha]
  | cons c m ih =>
    obtain ⟨k, v⟩ := c
    simp only [memWfFrom, Bool.and_eq_true, decide_eq_true_eq] at hm
    obtain ⟨⟨h1, h2⟩, h3⟩ := hm
    simp only [memWrite]
    split
    · simp only [memWfFrom, Bool.and_eq_true, decide_eq_true_eq]
      exact ⟨⟨hl, ha⟩, ⟨by omega, h2⟩, h3⟩
    · split
      · subst_vars
        simp only [memWfFrom, Bool.and_eq_true, decide_eq_true_eq]
        exact ⟨⟨h1, h2⟩, h3⟩
      · simp only [memWfFrom, Bool.and_eq_true, decide_eq_true_eq]
        exact ⟨⟨h1, h2⟩, ih h3 (by omega)⟩

/-- A write inside the memory keeps its canonical form. -/
theorem memWrite_wf {size : Nat} {m : List Host.Cell} {a : Nat} (hm : Memory.wf size m = true) (ha : a < size) (b : Byte) :
    Memory.wf size (memWrite m a b) = true := memWfFrom_memWrite hm (Nat.zero_le a) ha b

/-- A run of writes inside the memory keeps its canonical form. -/
theorem memWriteAll_wf {size : Nat} {m : List Host.Cell} {a : Nat} {bs : List Byte} (hm : Memory.wf size m = true)
    (ha : a + bs.length ≤ size) : Memory.wf size (memWriteAll m a bs) = true := by
  induction bs generalizing m a with
  | nil => exact hm
  | cons b bs ih =>
    simp only [List.length_cons] at ha
    exact ih (memWrite_wf hm (by omega) b) (by omega)

theorem memRead_memWriteAll_outside {m : List Host.Cell} {a : Nat} {bs : List Byte} {x : Nat}
    (h : x < a ∨ a + bs.length ≤ x) : memRead (memWriteAll m a bs) x = memRead m x := by
  induction bs generalizing m a with
  | nil => rfl
  | cons b bs ih =>
    simp only [List.length_cons] at h
    rw [memWriteAll, ih (by omega), memRead_memWrite_ne (by omega)]

theorem memRead_memWriteAll_inside {m : List Host.Cell} {a : Nat} {bs : List Byte} {i : Nat} (h : i < bs.length) :
    memRead (memWriteAll m a bs) (a + i) = bs[i]? := by
  induction bs generalizing m a i with
  | nil => simp at h
  | cons b bs ih =>
    cases i with
    | zero => rw [memWriteAll, memRead_memWriteAll_outside (by omega)]; simp
    | succ i =>
      simp only [List.length_cons] at h
      have := ih (m := memWrite m a b) (a := a + 1) (i := i) (by omega)
      rw [memWriteAll, show a + (i + 1) = a + 1 + i by omega, this]
      simp

/-! ### Offsets. -/

theorem capacity_pos (p : Params) : 0 < p.capacity := Nat.two_pow_pos _

/-- What the constraints between the parameters say. -/
theorem wf_iff {p : Params} : p.wf = true ↔ 2 ≤ p.frameSize ∧ p.frameSize ≤ p.capacity ∧ p.log2Cap < 64 := by
  simp only [Params.wf, Bool.and_eq_true, decide_eq_true_eq, and_assoc]

/-- The capacity divides 2^64 (00_scope.md R18). -/
theorem capacity_dvd {p : Params} (h : p.log2Cap ≤ 64) : p.capacity ∣ 2 ^ 64 := Nat.pow_dvd_pow 2 h

theorem capacity_lt {p : Params} (h : p.log2Cap < 64) : p.capacity < 2 ^ 64 := Nat.pow_lt_pow_right (by omega) h

theorem phys_lt (p : Params) (c : Cursor) : phys p c < p.capacity := Nat.mod_lt _ (capacity_pos p)

theorem advance_toNat (c : Cursor) (n : Nat) : (advance c n).toNat = (c.toNat + n) % 2 ^ 64 := by
  simp [advance, BitVec.toNat_add]

@[simp] theorem advance_zero (c : Cursor) : advance c 0 = c := by simp [advance]

theorem advance_advance (c : Cursor) (m n : Nat) : advance (advance c m) n = advance c (m + n) := by
  simp only [advance, BitVec.ofNat_add, BitVec.add_assoc]

/-- The physical offset of a position `n` further on (41_ring_buffer.md R131: exact through the 2^64 wrap). -/
theorem phys_advance {p : Params} (h : p.log2Cap ≤ 64) (c : Cursor) (n : Nat) :
    phys p (advance c n) = (c.toNat + n) % p.capacity := by
  rw [phys, advance_toNat, Nat.mod_mod_of_dvd _ (capacity_dvd h)]

/-- One position further on is one offset further on, around the end of the buffer. -/
theorem phys_advance_phys {p : Params} (h : p.log2Cap ≤ 64) (c : Cursor) (n : Nat) :
    phys p (advance c n) = (phys p c + n) % p.capacity := by
  rw [phys_advance h, phys, Nat.mod_add_mod]

/-- Different positions less than a capacity apart have different offsets. -/
theorem phys_advance_ne {p : Params} (h : p.log2Cap ≤ 64) (c : Cursor) {i j : Nat} (hij : i < j) (hj : j < i + p.capacity) :
    phys p (advance c i) ≠ phys p (advance c j) := by
  rw [phys_advance h, phys_advance h]
  intro e
  have h2 : (c.toNat + i) ≡ (c.toNat + j) [MOD p.capacity] := e
  have h3 := (Nat.modEq_iff_dvd' (by omega)).mp h2
  have := Nat.le_of_dvd (by omega) h3
  omega

/-- The offsets RB.COPY reads are the physical offsets of the positions, one by one (R125: "equivalently"). -/
theorem windowOffsets_eq {p : Params} (hp : p.log2Cap ≤ 64) (start : Cursor) {len : Nat} (h : len ≤ p.capacity) :
    windowOffsets p start len = (List.range len).map fun i => phys p (advance start i) := by
  have hlt := phys_lt p start
  apply List.ext_getElem
  · simp only [windowOffsets, window, Segment.offsets]
    split <;> simp
    omega
  · intro i h1 h2
    simp only [List.length_map, List.length_range] at h2
    simp only [List.getElem_map, List.getElem_range, phys_advance_phys hp]
    simp only [windowOffsets, window, Segment.offsets]
    split
    · rename_i hle
      rw [List.getElem_append_left (by simpa using h2)]
      simp only [List.getElem_map, List.getElem_range]
      rw [Nat.mod_eq_of_lt (by omega)]
    · rename_i hle
      by_cases hi : i < p.capacity - phys p start
      · rw [List.getElem_append_left (by simpa using hi)]
        simp only [List.getElem_map, List.getElem_range]
        rw [Nat.mod_eq_of_lt (by omega)]
      · rw [List.getElem_append_right (by simp; omega)]
        simp only [List.getElem_map, List.getElem_range, List.length_map, List.length_range]
        rw [Nat.mod_eq_sub_mod (by omega), Nat.mod_eq_of_lt (by omega)]
        omega

/-! ### Reading ranges. -/

/-- A read of a list of offsets answers the bytes there when all are written. -/
theorem readBufAll_eq_next {s : Nat} {st : State} {as : List Nat} {bs : List Byte} :
    readBufAll s st as = .next bs ↔ as.map (st.bufByte s) = bs.map some := by
  induction as generalizing bs with
  | nil => cases bs <;> simp [readBufAll]
  | cons a as ih =>
    simp only [readBufAll, andThen_eq_next, readBuf, List.map_cons]
    cases hb : st.bufByte s a with
    | none => cases bs <;> simp
    | some b =>
      cases bs with
      | nil => simp
      | cons b' bs =>
        constructor
        · rintro ⟨x, hx, y, hy, hz⟩
          simp only [Host.Outcome.next.injEq] at hx hz
          subst hx
          obtain ⟨rfl, rfl⟩ := List.cons.inj hz
          simp [ih.mp hy]
        · intro h
          simp only [List.map_cons, List.cons.injEq, Option.some.injEq] at h
          obtain ⟨rfl, h⟩ := h
          exact ⟨b, rfl, bs, ih.mpr h, rfl⟩

/-- A read of a list of offsets is never refused. -/
theorem readBufAll_not_refused {s : Nat} {st : State} {as : List Nat} {r : Refusal} :
    readBufAll s st as ≠ .refused r := by
  induction as with
  | nil => simp [readBufAll]
  | cons a as ih =>
    simp only [readBufAll, readBuf]
    cases st.bufByte s a with
    | none => simp
    | some b =>
      simp only [andThen_next]
      cases h : readBufAll s st as with
      | next => simp
      | fault => simp
      | refused x =>
        intro e
        simp only [andThen_refused, Host.Outcome.refused.injEq] at e
        exact ih (e ▸ h)

/-- A read of a range answers `bs` exactly when `bs[i]` is the byte at the `i`-th logical position. -/
theorem readRange_eq_next {s : Nat} {start : Cursor} {len : Nat} {st : State} {bs : List Byte}
    (hp : st.par.log2Cap ≤ 64) (h : len ≤ st.par.capacity) :
    readRange s start len st = .next bs ↔
      bs.length = len ∧ ∀ i < len, st.bufByte s (phys st.par (advance start i)) = bs[i]? := by
  rw [readRange, readBufAll_eq_next, windowOffsets_eq hp start h]
  constructor
  · intro e
    have hl : len = bs.length := by simpa using congrArg List.length e
    refine ⟨hl.symm, fun i hi => ?_⟩
    have := congrArg (·[i]?) e
    simp only [List.map_map, List.getElem?_map, List.getElem?_range hi, Option.map_some, Function.comp_apply] at this
    rw [List.getElem?_eq_getElem (by omega)] at this ⊢
    simpa using this
  · rintro ⟨hl, hb⟩
    apply List.ext_getElem
    · simp [hl]
    · intro i h1 h2
      simp only [List.length_map, List.length_range] at h1
      have := hb i h1
      rw [List.getElem?_eq_getElem (by omega)] at this
      simpa using this

/-- A read of scratch answers the bytes there when all are written. -/
theorem readScratch_eq_next {st : State} {i n : Nat} {bs : List Byte} :
    readScratch st i n = .next bs ↔ bs.length = n ∧ ∀ k < n, st.scratchByte (i + k) = bs[k]? := by
  induction n generalizing i bs with
  | zero => cases bs <;> simp [readScratch]
  | succ n ih =>
    simp only [readScratch]
    cases hb : st.scratchByte i with
    | none =>
      simp only [reduceCtorEq, false_iff, not_and]
      intro hl h
      have := h 0 (by omega)
      rw [List.getElem?_eq_getElem (by omega)] at this
      simp [hb] at this
    | some b =>
      simp only [andThen_eq_next]
      constructor
      · rintro ⟨y, hy, hz⟩
        simp only [Host.Outcome.next.injEq] at hz
        subst hz
        obtain ⟨h1, h2⟩ := ih.mp hy
        refine ⟨by simp [h1], fun k hk => ?_⟩
        cases k with
        | zero => simp [hb]
        | succ k =>
          have := h2 k (by omega)
          rw [show i + (k + 1) = i + 1 + k by omega, this]
          simp
      · rintro ⟨hl, h⟩
        cases bs with
        | nil => simp at hl
        | cons b' bs =>
          have h0 := h 0 (by omega)
          simp only [Nat.add_zero, hb, List.getElem?_cons_zero, Option.some.injEq] at h0
          subst h0
          refine ⟨bs, ih.mpr ⟨by simpa using hl, fun k hk => ?_⟩, rfl⟩
          have := h (k + 1) (by omega)
          rw [show i + (k + 1) = i + 1 + k by omega] at this
          simpa using this

/-! ### Single bits of an interrupt bitmask. -/

@[simp] theorem bitSet_setBit (m c d : Nat) : bitSet (setBit m c) d = (bitSet m d || decide (c = d)) := by
  simp only [bitSet, setBit, Nat.testBit_or, Nat.testBit_two_pow]

@[simp] theorem bitSet_clearBit (m c d : Nat) : bitSet (clearBit m c) d = (bitSet m d && !decide (c = d)) := by
  by_cases h : bitSet m c = true
  · rw [clearBit, if_pos h]
    simp only [bitSet, Nat.testBit_xor, Nat.testBit_two_pow] at h ⊢
    by_cases hcd : c = d
    · subst hcd; simp [h]
    · simp [hcd]
  · rw [clearBit, if_neg h]
    by_cases hcd : c = d
    · subst hcd; simpa using h
    · simp [hcd]

@[simp] theorem bitSet_zero (c : Nat) : bitSet 0 c = false := by simp [bitSet]

/-- Masks with the same bits are the same mask. -/
theorem mask_ext {m n : Nat} (h : ∀ c, bitSet m c = bitSet n c) : m = n := Nat.eq_of_testBit_eq h

/-- A mask of `k` bits has no bit set from `k` on. -/
theorem bitSet_of_lt {m k c : Nat} (h : m < 2 ^ k) (hc : k ≤ c) : bitSet m c = false :=
  Nat.testBit_eq_false_of_lt (Nat.lt_of_lt_of_le h (Nat.pow_le_pow_right (by omega) hc))

/-- Setting a bit below `k` keeps a mask of `k` bits. -/
theorem setBit_lt {m k c : Nat} (h : m < 2 ^ k) (hc : c < k) : setBit m c < 2 ^ k :=
  Nat.or_lt_two_pow h (Nat.pow_lt_pow_right (by omega) hc)

/-- Clearing a bit keeps a mask of `k` bits. -/
theorem clearBit_lt {m k : Nat} (h : m < 2 ^ k) (c : Nat) : clearBit m c < 2 ^ k := by
  apply Nat.lt_pow_two_of_testBit
  intro i hi
  have := bitSet_clearBit m c i
  rw [bitSet_of_lt h hi, Bool.false_and] at this
  exact this

end Sys2Proof.Machine
end

