-- ==== Sys2Proof/Laws/Scan.lean ====
section
/-! SUPPORT. What one class of a scan and a whole scan can do, each said once: provers cite these instead of unfolding the
scanner. -/

namespace Sys2Proof.Machine

/-! ### The consumer. -/

@[simp] theorem drop_zero (q : Consumer) : q.drop 0 = q := rfl

@[simp] theorem drop_drop (q : Consumer) (m n : Nat) : (q.drop m).drop n = q.drop (m + n) := by
  simp [Consumer.drop, List.drop_drop]

/-- A prompt consumer has always returned. -/
theorem reply_of_prompt {q : Consumer} (h : q.prompt) : q.reply = true := by
  obtain ⟨h1, h2⟩ := h
  unfold Consumer.reply
  cases hr : q.replies with
  | nil => simpa using h2
  | cons b l => simpa using h1 b (by simp [hr])

/-- A prompt consumer stays prompt. -/
theorem prompt_drop {q : Consumer} (h : q.prompt) (n : Nat) : (q.drop n).prompt :=
  ⟨fun b hb => h.1 b (List.mem_of_mem_drop hb), h.2⟩

/-! ### Small facts. -/

@[simp] theorem advExtract_zero (s : Nat) (st : State) : advExtract s 0 st = st := by
  unfold advExtract
  rw [advance_zero]
  exact setSlot_same st s

theorem frameValid_of_isFrame {p : Params} {f : List Byte} (h : isFrame p f = true) :
    f.length = p.frameSize ∧ f[0]? = some p.header ∧ frameValid p f = true := by
  simp only [isFrame, Bool.and_eq_true, decide_eq_true_eq, beq_iff_eq] at h
  obtain ⟨⟨h1, h2⟩, h3⟩ := h
  exact ⟨h1, by rw [← h2, List.head?_eq_getElem?], h3⟩

theorem isFrame_of {p : Params} {f : List Byte} (h1 : f.length = p.frameSize) (h2 : f[0]? = some p.header)
    (h3 : frameValid p f = true) : isFrame p f = true := by
  simp only [isFrame, Bool.and_eq_true, decide_eq_true_eq, beq_iff_eq]
  exact ⟨⟨h1, by rw [List.head?_eq_getElem?]; exact h2⟩, h3⟩

/-- The state after `f` is copied to scratch. -/
def State.withScratch (st : State) (f : List Byte) : State := { st with scratch := memWriteAll st.scratch 0 f }

/-- RB.COPY of at most a buffer's length answers next exactly when the bytes are written, and then only scratch changes. -/
theorem copyRange_eq_next {s : Nat} {c : Cursor} {n : Nat} {st t : State} (hp : st.par.log2Cap ≤ 64)
    (hn : n ≤ st.par.capacity) :
    copyRange s c n st = .next t ↔
      ∃ f, f.length = n ∧ (∀ i < n, st.logicalByte s (advance c i) = f[i]?) ∧ t = st.withScratch f := by
  simp only [copyRange, andThen_eq_next, readRange_eq_next hp hn, Host.Outcome.next.injEq, State.logicalByte, State.withScratch]
  constructor
  · rintro ⟨f, ⟨h1, h2⟩, h3⟩
    exact ⟨f, h1, h2, h3.symm⟩
  · rintro ⟨f, h1, h2, h3⟩
    exact ⟨f, ⟨h1, h2⟩, h3.symm⟩

/-- After a frame is copied, scratch reads as that frame. -/
theorem readScratch_withScratch {st : State} {f : List Byte} {n : Nat} (h : f.length = n) :
    readScratch (st.withScratch f) 0 n = .next f := by
  rw [readScratch_eq_next]
  refine ⟨h, fun k hk => ?_⟩
  simp only [State.scratchByte, State.withScratch]
  exact memRead_memWriteAll_inside (by omega)

/-- The state after the frame `f` is copied and sent for slot `s`, and the consumer's answer taken. -/
def State.delivered (st : State) (s : Nat) (f : List Byte) : State := (sendFrame s f (st.withScratch f)).afterReply

theorem delivered_eq (st : State) (s : Nat) (f : List Byte) :
    st.delivered s f =
      { st with scratch := memWriteAll st.scratch 0 f, out := st.out ++ [st.delivery s f], consumer := st.consumer.drop 1 } :=
  rfl

/-! ### One class. -/

/-- The copy and EMIT of a candidate that lies in the buffer. -/
theorem scnAccept_of_holds {r : ScanRegs} {st : State} {f : List Byte} (hp : st.par.wf = true)
    (hl : f.length = st.par.frameSize) (h : st.holds r.slot (r.pos st) f) :
    scnAccept r st = .next (if st.reply then .more (r.consume st.par.frameSize) (st.delivered r.slot f)
      else .held r (st.delivered r.slot f)) := by
  obtain ⟨-, h2, h3⟩ := wf_iff.mp hp
  have hc : copyRange r.slot (r.pos st) st.par.frameSize st = .next (st.withScratch f) :=
    (copyRange_eq_next (Nat.le_of_lt h3) h2).mpr ⟨f, hl, fun i hi => h i (hl.symm ▸ hi), rfl⟩
  have he : emitFrame r.slot (st.withScratch f) = .next (sendFrame r.slot f (st.withScratch f)) := by
    have : (st.withScratch f).par = st.par := rfl
    simp [emitFrame, this, readScratch_withScratch hl]
  simp only [scnAccept, hc, andThen_next, he]
  have : (sendFrame r.slot f (st.withScratch f)).reply = st.reply := rfl
  rw [this]
  split <;> rfl

/-- The copy of a candidate that lies in the buffer, rejected. -/
theorem scnReject_of_holds {r : ScanRegs} {st : State} {f : List Byte} (hp : st.par.wf = true)
    (hl : f.length = st.par.frameSize) (h : st.holds r.slot (r.pos st) f) :
    scnReject r st = .next (.more (r.consume 1) (st.withScratch f)) := by
  obtain ⟨-, h2, h3⟩ := wf_iff.mp hp
  have hc : copyRange r.slot (r.pos st) st.par.frameSize st = .next (st.withScratch f) :=
    (copyRange_eq_next (Nat.le_of_lt h3) h2).mpr ⟨f, hl, fun i hi => h i (hl.symm ▸ hi), rfl⟩
  simp [scnReject, hc]

/-- The class of a state whose byte at the scan position is known. -/
theorem classify_of_byte {r : ScanRegs} {st : State} {b : Byte} (hc : r.consumed < r.available)
    (hb : st.logicalByte r.slot (r.pos st) = some b) :
    classify r st =
      if b ≠ st.par.header then .next .skip
      else if r.remainder < st.par.frameSize then .next .defer
      else andThen (readRange r.slot (r.pos st) st.par.frameSize st) fun f =>
        if frameValid st.par f then .next .accept else .next .reject := by
  have h1 : ¬ r.available = 0 := by omega
  have h2 : ¬ r.available ≤ r.consumed := by omega
  simp only [State.logicalByte] at hb
  simp only [classify, h1, h2, if_false, readBuf, hb, andThen_next]

/-- The class of a state with a full candidate in the buffer. -/
theorem classify_of_holds {r : ScanRegs} {st : State} {f : List Byte} (hp : st.par.wf = true)
    (hl : f.length = st.par.frameSize) (h0 : f[0]? = some st.par.header) (hr : st.par.frameSize ≤ r.remainder)
    (h : st.holds r.slot (r.pos st) f) :
    classify r st = .next (if frameValid st.par f then .accept else .reject) := by
  obtain ⟨h1, h2, h3⟩ := wf_iff.mp hp
  have hc : r.consumed < r.available := by simp only [ScanRegs.remainder] at hr; omega
  have hb : st.logicalByte r.slot (r.pos st) = some st.par.header := by
    have := h 0 (by omega)
    rwa [advance_zero, h0] at this
  have hrd : readRange r.slot (r.pos st) st.par.frameSize st = .next f :=
    (readRange_eq_next (Nat.le_of_lt h3) h2).mpr ⟨hl, fun i hi => h i (hl.symm ▸ hi)⟩
  rw [classify_of_byte hc hb]
  simp only [ne_eq, not_true_eq_false, if_false, Nat.not_lt.mpr hr, hrd, andThen_next]
  split <;> rfl

/-- Everything one iteration can do: the class taken, its condition, and what it leaves. -/
theorem scanIter_cases {r : ScanRegs} {st : State} {o : ClassOut} (hp : st.par.wf = true) (h : scanIter r st = .next o) :
    (r.available = 0 ∧ classify r st = .next .idle ∧ o = .done (st.par.frameSize) st) ∨
    (0 < r.available ∧ r.available ≤ r.consumed ∧ classify r st = .next .drain ∧
      o = .done (st.par.frameSize) (advExtract r.slot r.consumed st)) ∨
    (r.consumed < r.available ∧ classify r st = .next .skip ∧
      (∃ b, st.logicalByte r.slot (r.pos st) = some b ∧ b ≠ st.par.header) ∧ o = .more (r.consume 1) st) ∨
    (r.consumed < r.available ∧ r.remainder < st.par.frameSize ∧ classify r st = .next .defer ∧
      st.logicalByte r.slot (r.pos st) = some st.par.header ∧
      o = .done (st.par.frameSize - r.remainder) (advExtract r.slot r.consumed st)) ∨
    (∃ f, r.consumed + st.par.frameSize ≤ r.available ∧ st.validFrame f ∧ st.holds r.slot (r.pos st) f ∧ classify r st = .next .accept ∧
      o = if st.reply then .more (r.consume st.par.frameSize) (st.delivered r.slot f) else .held r (st.delivered r.slot f)) ∨
    (∃ f, r.consumed + st.par.frameSize ≤ r.available ∧ f.length = st.par.frameSize ∧ f[0]? = some st.par.header ∧ frameValid st.par f = false ∧
      st.holds r.slot (r.pos st) f ∧ classify r st = .next .reject ∧ o = .more (r.consume 1) (st.withScratch f)) := by
  obtain ⟨w1, w2, w3⟩ := wf_iff.mp hp
  obtain ⟨k, hk, hq⟩ := andThen_eq_next.mp h
  by_cases h0 : r.available = 0
  · have : classify r st = .next .idle := by simp [classify, h0]
    rw [this] at hk
    cases hk
    exact .inl ⟨h0, this, by simpa [performClass, scnIdle] using hq.symm⟩
  by_cases h1 : r.available ≤ r.consumed
  · have : classify r st = .next .drain := by simp [classify, h0, h1]
    rw [this] at hk
    cases hk
    exact .inr (.inl ⟨by omega, h1, this, by simpa [performClass, scnDrain] using hq.symm⟩)
  have hc : r.consumed < r.available := by omega
  cases hb : st.logicalByte r.slot (r.pos st) with
  | none =>
    simp only [State.logicalByte] at hb
    simp only [classify, h0, h1, if_false, readBuf, hb, andThen_fault, reduceCtorEq] at hk
  | some b =>
    have hk0 := hk
    rw [classify_of_byte hc hb] at hk
    by_cases hbh : b = st.par.header
    · subst hbh
      simp only [ne_eq, not_true_eq_false, if_false] at hk
      by_cases hr : r.remainder < st.par.frameSize
      · simp only [hr, if_true, Host.Outcome.next.injEq] at hk
        subst hk
        exact .inr (.inr (.inr (.inl ⟨hc, hr, hk0, rfl, by simpa [performClass, scnDefer] using hq.symm⟩)))
      · simp only [hr, if_false] at hk
        obtain ⟨f, hf, hk⟩ := andThen_eq_next.mp hk
        obtain ⟨hl, hh⟩ := (readRange_eq_next (Nat.le_of_lt w3) w2).mp hf
        have hholds : st.holds r.slot (r.pos st) f := fun i hi => hh i (hl ▸ hi)
        have hhead : f[0]? = some st.par.header := by
          have := hholds 0 (by omega)
          rw [advance_zero, hb] at this
          exact this.symm
        have hav : r.consumed + st.par.frameSize ≤ r.available := by simp only [ScanRegs.remainder] at hr; omega
        cases hv : frameValid st.par f with
        | true =>
          simp only [hv, if_true, Host.Outcome.next.injEq] at hk
          subst hk
          refine .inr (.inr (.inr (.inr (.inl ⟨f, hav, isFrame_of hl hhead hv, hholds, hk0, ?_⟩))))
          simp only [performClass, scnAccept_of_holds hp hl hholds, Host.Outcome.next.injEq] at hq
          exact hq.symm
        | false =>
          simp only [hv, Bool.false_eq_true, if_false, Host.Outcome.next.injEq] at hk
          subst hk
          refine .inr (.inr (.inr (.inr (.inr ⟨f, hav, hl, hhead, hv, hholds, hk0, ?_⟩))))
          simp only [performClass, scnReject_of_holds hp hl hholds, Host.Outcome.next.injEq] at hq
          exact hq.symm
    · simp only [ne_eq, hbh, not_false_eq_true, if_true, Host.Outcome.next.injEq] at hk
      subst hk
      exact .inr (.inr (.inl ⟨hc, hk0, ⟨b, rfl, hbh⟩, by simpa [performClass, scnSkip] using hq.symm⟩))

/-! ### The whole scan. -/

/-- The state with other scratch, with `l` sent and as many of the consumer's answers taken. -/
def State.scanned (st : State) (sc : List Host.Cell) (l : List PortEvent) : State :=
  { st with scratch := sc, out := st.out ++ l, consumer := st.consumer.drop l.length }

@[simp] theorem scanned_par (st : State) (sc : List Host.Cell) (l : List PortEvent) : (st.scanned sc l).par = st.par := rfl
@[simp] theorem scanned_slot (st : State) (sc : List Host.Cell) (l : List PortEvent) (u : Nat) :
    (st.scanned sc l).slot u = st.slot u := rfl
@[simp] theorem scanned_chan (st : State) (sc : List Host.Cell) (l : List PortEvent) (c : Nat) :
    (st.scanned sc l).chan c = st.chan c := rfl
@[simp] theorem scanned_avail (st : State) (sc : List Host.Cell) (l : List PortEvent) (u : Nat) :
    (st.scanned sc l).avail u = st.avail u := rfl
@[simp] theorem scanned_nSlots (st : State) (sc : List Host.Cell) (l : List PortEvent) :
    (st.scanned sc l).nSlots = st.nSlots := rfl
@[simp] theorem scanned_nChannels (st : State) (sc : List Host.Cell) (l : List PortEvent) :
    (st.scanned sc l).nChannels = st.nChannels := rfl
@[simp] theorem scanned_scratch (st : State) (sc : List Host.Cell) (l : List PortEvent) :
    (st.scanned sc l).scratch = sc := rfl
@[simp] theorem scanned_out (st : State) (sc : List Host.Cell) (l : List PortEvent) :
    (st.scanned sc l).out = st.out ++ l := rfl
@[simp] theorem scanned_ints (st : State) (sc : List Host.Cell) (l : List PortEvent) :
    (st.scanned sc l).ints = st.ints := rfl
@[simp] theorem scanned_held (st : State) (sc : List Host.Cell) (l : List PortEvent) :
    (st.scanned sc l).held = st.held := rfl
@[simp] theorem scanned_consumer (st : State) (sc : List Host.Cell) (l : List PortEvent) :
    (st.scanned sc l).consumer = st.consumer.drop l.length := rfl

/-- What a scan may have done to the state before it returns or waits: scratch, the frame output, the consumer's answers. -/
def scanTouched (s : Nat) (st st' : State) : Prop :=
  ∃ sc l, st' = st.scanned sc l ∧ st.deliveries s l

theorem scanTouched_refl (s : Nat) (st : State) : scanTouched s st st :=
  ⟨st.scratch, [], by simp [State.scanned], by simp [State.deliveries]⟩

theorem scanTouched_trans {s : Nat} {st st1 st2 : State} (h1 : scanTouched s st st1) (h2 : scanTouched s st1 st2) :
    scanTouched s st st2 := by
  obtain ⟨sc1, l1, rfl, d1⟩ := h1
  obtain ⟨sc2, l2, rfl, d2⟩ := h2
  refine ⟨sc2, l1 ++ l2, by simp [State.scanned], fun e he => ?_⟩
  rcases List.mem_append.mp he with he | he
  · exact d1 e he
  · exact d2 e he

theorem scanTouched_withScratch (s : Nat) (st : State) (f : List Byte) : scanTouched s st (st.withScratch f) :=
  ⟨memWriteAll st.scratch 0 f, [], by simp [State.withScratch, State.scanned], by simp [State.deliveries]⟩

theorem scanTouched_delivered (s : Nat) (st : State) {f : List Byte} (h : st.validFrame f) :
    scanTouched s st (st.delivered s f) :=
  ⟨_, [st.delivery s f], delivered_eq st s f, by simpa [State.deliveries] using ⟨f, h, rfl⟩⟩

theorem scanTouched_slot {s : Nat} {st st' : State} (h : scanTouched s st st') (u : Nat) : st'.slot u = st.slot u := by
  obtain ⟨sc, l, rfl, -⟩ := h
  rfl

theorem scanTouched_par {s : Nat} {st st' : State} (h : scanTouched s st st') : st'.par = st.par := by
  obtain ⟨sc, l, rfl, -⟩ := h
  rfl

theorem scanTouched_prompt {s : Nat} {st st' : State} (h : scanTouched s st st') (hq : st.consumer.prompt) :
    st'.consumer.prompt := by
  obtain ⟨sc, l, rfl, -⟩ := h
  exact prompt_drop hq _

/-- Everything a scan can do from iteration `r` on, bounded by `k`. Either it returns a request in 1..`FRAME_SIZE` and `extract`
has moved by the bytes consumed, or it waits, at a whole candidate, for a consumer that is not prompt. -/
def scanResult (k : Nat) (r : ScanRegs) (st : State) (o : ScanOut) : Prop :=
  (∃ n m st', scanTouched r.slot st st' ∧ o = .done n (advExtract r.slot m st') ∧ 1 ≤ n ∧ n ≤ st.par.frameSize ∧
    (r.consumed ≤ r.available → r.available < r.consumed + k →
      r.consumed ≤ m ∧ m ≤ r.available ∧ r.available - m + n = st.par.frameSize)) ∨
  (∃ r' st', scanTouched r.slot st st' ∧ o = .held r' st' ∧ ¬ st.consumer.prompt ∧ r'.slot = r.slot ∧
    r'.available = r.available ∧ r.consumed ≤ r'.consumed ∧ r'.consumed + st.par.frameSize ≤ r'.available)

/-- What the iterations after one that consumed `n` bytes do, seen from before it. -/
theorem scanResult_more {k n : Nat} {r : ScanRegs} {st st' : State} {o : ScanOut} (hn : 1 ≤ n)
    (hle : r.consumed + n ≤ r.available) (ht : scanTouched r.slot st st') (h : scanResult k (r.consume n) st' o) :
    scanResult (k + 1) r st o := by
  have hp := scanTouched_par ht
  rcases h with ⟨m, x, st'', ht', ho, h1, h2, h3⟩ | ⟨r', st'', ht', ho, h1, h2, h3, h4, h5⟩
  · rw [hp] at h2
    refine Or.inl ⟨m, x, st'', scanTouched_trans ht ht', ho, h1, h2, fun a b => ?_⟩
    have := h3 (by simpa [ScanRegs.consume] using hle) (by simp only [ScanRegs.consume]; omega)
    simp only [ScanRegs.consume, hp] at this
    omega
  · rw [hp] at h5
    refine Or.inr ⟨r', st'', scanTouched_trans ht ht', ho, fun hq => h1 (scanTouched_prompt ht hq), h2, h3, ?_, h5⟩
    simp only [ScanRegs.consume] at h4; omega

/-- Every scan is as `scanResult` says. -/
theorem scanRun_cases {k : Nat} {r : ScanRegs} {st : State} {o : ScanOut} (hp : st.par.wf = true)
    (h : scanRun k r st = .next o) : scanResult k r st o := by
  have hf2 := (wf_iff.mp hp).1
  induction k generalizing r st with
  | zero =>
    simp only [scanRun, Host.Outcome.next.injEq] at h
    exact .inl ⟨st.par.frameSize, r.consumed, st, scanTouched_refl _ _, h.symm, by omega, by omega, by omega⟩
  | succ k ih =>
    obtain ⟨c, hc, hk⟩ := andThen_eq_next.mp h
    rcases scanIter_cases hp hc with ⟨h0, -, rfl⟩ | ⟨h0, h1, -, rfl⟩ | ⟨h0, -, -, rfl⟩ | ⟨h0, h1, -, -, rfl⟩ |
      ⟨f, h0, hf, -, -, rfl⟩ | ⟨f, h0, -, -, -, -, -, rfl⟩
    · simp only [Host.Outcome.next.injEq] at hk
      exact .inl ⟨st.par.frameSize, 0, st, scanTouched_refl _ _, by simpa using hk.symm, by omega, by omega,
        fun a _ => by omega⟩
    · simp only [Host.Outcome.next.injEq] at hk
      exact .inl ⟨st.par.frameSize, r.consumed, st, scanTouched_refl _ _, hk.symm, by omega, by omega, fun a _ => by omega⟩
    · exact scanResult_more (n := 1) (by omega) (by omega) (scanTouched_refl _ _) (ih hp hk hf2)
    · simp only [Host.Outcome.next.injEq] at hk
      have hrem : r.remainder = r.available - r.consumed := rfl
      exact .inl ⟨_, r.consumed, st, scanTouched_refl _ _, hk.symm, by omega, by omega, fun a _ => by omega⟩
    · by_cases hr : st.reply = true
      · simp only [hr, if_true] at hk
        exact scanResult_more (by omega) h0 (scanTouched_delivered _ _ hf) (ih hp hk hf2)
      · simp only [Bool.not_eq_true] at hr
        simp only [hr, Bool.false_eq_true, if_false, Host.Outcome.next.injEq] at hk
        refine .inr ⟨r, _, scanTouched_delivered _ _ hf, hk.symm, fun hq => ?_, rfl, rfl, Nat.le_refl _, h0⟩
        rw [State.reply, reply_of_prompt hq] at hr
        cases hr
    · exact scanResult_more (n := 1) (by omega) (by omega) (scanTouched_withScratch _ _ f) (ih hp hk hf2)

/-- The available bytes from the scan's start on are written. -/
def ScanRegs.covered (r : ScanRegs) (st : State) : Prop := st.written r.slot (st.slot r.slot).extract r.available

/-- One iteration of a scan whose available bytes are written completes. -/
theorem scanIter_completes {r : ScanRegs} {st : State} (hp : st.par.wf = true) (hw : r.covered st) :
    ∃ o, scanIter r st = .next o := by
  by_cases h0 : r.available = 0
  · exact ⟨_, by simp [scanIter, classify, h0, performClass, scnIdle]; rfl⟩
  by_cases h1 : r.available ≤ r.consumed
  · exact ⟨_, by simp [scanIter, classify, h0, h1, performClass, scnDrain]; rfl⟩
  have hc : r.consumed < r.available := by omega
  obtain ⟨b, hb⟩ := Option.isSome_iff_exists.mp (hw r.consumed hc)
  have hb' : st.logicalByte r.slot (r.pos st) = some b := hb
  by_cases hbh : b = st.par.header
  · subst hbh
    by_cases hr : r.remainder < st.par.frameSize
    · exact ⟨_, by simp [scanIter, classify_of_byte hc hb', hr, performClass, scnDefer]; rfl⟩
    · have hav : r.consumed + st.par.frameSize ≤ r.available := by simp only [ScanRegs.remainder] at hr; omega
      have hpos : ∀ i, advance (r.pos st) i = advance (st.slot r.slot).extract (r.consumed + i) := by
        intro i; simp [ScanRegs.pos, advance_advance]
      let f : List Byte := (List.range st.par.frameSize).map fun i => (st.logicalByte r.slot (advance (r.pos st) i)).getD 0
      have hl : f.length = st.par.frameSize := by simp [f]
      have hh : st.holds r.slot (r.pos st) f := by
        intro i hi
        rw [hl] at hi
        obtain ⟨x, hx⟩ := Option.isSome_iff_exists.mp (hw (r.consumed + i) (by omega))
        rw [← hpos] at hx
        simp [f, hi, hx]
      have hhead : f[0]? = some st.par.header := by
        have := hh 0 (by have := (wf_iff.mp hp).1; omega)
        rw [advance_zero, hb'] at this
        exact this.symm
      simp only [scanIter, classify_of_holds hp hl hhead (Nat.le_of_not_lt hr) hh, andThen_next]
      split
      · exact ⟨_, by simp only [performClass]; exact scnAccept_of_holds hp hl hh⟩
      · exact ⟨_, by simp only [performClass]; exact scnReject_of_holds hp hl hh⟩
  · exact ⟨_, by simp [scanIter, classify_of_byte hc hb', hbh, performClass, scnSkip]; rfl⟩

theorem covered_of_touched {r : ScanRegs} {st st' : State} {n : Nat} (h : r.covered st) (ht : scanTouched r.slot st st') :
    (r.consume n).covered st' := by
  obtain ⟨sc, l, rfl, -⟩ := ht
  exact h

/-- A scan whose available bytes are written completes, from any of its iterations. -/
theorem scanRun_completes {k : Nat} {r : ScanRegs} {st : State} (hp : st.par.wf = true) (h : r.covered st) :
    ∃ o, scanRun k r st = .next o := by
  induction k generalizing r st with
  | zero => exact ⟨_, rfl⟩
  | succ k ih =>
    obtain ⟨o, ho⟩ := scanIter_completes hp h
    simp only [scanRun, ho, andThen_next]
    rcases scanIter_cases hp ho with ⟨-, -, rfl⟩ | ⟨-, -, -, rfl⟩ | ⟨-, -, -, rfl⟩ | ⟨-, -, -, -, rfl⟩ |
      ⟨f, -, hf, -, -, rfl⟩ | ⟨f, -, -, -, -, -, -, rfl⟩
    · exact ⟨_, rfl⟩
    · exact ⟨_, rfl⟩
    · exact ih hp (covered_of_touched h (scanTouched_refl _ _))
    · exact ⟨_, rfl⟩
    · split
      · rename_i heq
        split at heq
        · cases heq
          exact ih hp (covered_of_touched h (scanTouched_delivered _ _ hf))
        · cases heq
      · rename_i heq
        split at heq <;> cases heq
      · exact ⟨_, rfl⟩
    · exact ih hp (covered_of_touched h (scanTouched_withScratch _ _ _))

/-! ### What a scan leaves alone, whatever the parameters. -/

/-- The state with other scratch, output and consumer, and `extract` of slot `s` moved by `m`. -/
def scanMoved (s : Nat) (st st' : State) : Prop :=
  ∃ sc l q m, st' = advExtract s m { st with scratch := sc, out := st.out ++ l, consumer := q }

theorem scanMoved_refl (s : Nat) (st : State) : scanMoved s st st :=
  ⟨st.scratch, [], st.consumer, 0, by simp⟩

/-- The state of an outcome of a scan. -/
def ScanOut.state : ScanOut → State
  | .done _ st => st
  | .held _ st => st

/-- The state with other scratch, output and consumer. -/
def State.shown (st : State) (sc : List Host.Cell) (l : List PortEvent) (q : Consumer) : State :=
  { st with scratch := sc, out := st.out ++ l, consumer := q }

/-- A class that ends the scan moves at most `extract` of its slot; one that does not writes scratch, output and consumer. -/
theorem performClass_moves {k : ScanClass} {r : ScanRegs} {st : State} {o : ClassOut} (h : performClass k r st = .next o) :
    (∃ n m, o = .done n (advExtract r.slot m st)) ∨ (∃ sc l q n, o = .more (r.consume n) (st.shown sc l q)) ∨
      ∃ sc l q, o = .held r (st.shown sc l q) := by
  have hcopy : ∀ {u : State}, copyRange r.slot (r.pos st) st.par.frameSize st = .next u → ∃ f, u = st.withScratch f := by
    intro u hu
    obtain ⟨f, -, e⟩ := andThen_eq_next.mp hu
    exact ⟨f, (Host.Outcome.next.inj e).symm⟩
  cases k with
  | idle => exact .inl ⟨_, 0, by simpa [performClass, scnIdle] using h.symm⟩
  | drain => exact .inl ⟨_, _, (Host.Outcome.next.inj h).symm⟩
  | defer => exact .inl ⟨_, _, (Host.Outcome.next.inj h).symm⟩
  | skip =>
    cases h
    exact .inr (.inl ⟨st.scratch, [], st.consumer, 1, by simp [State.shown]⟩)
  | reject =>
    obtain ⟨u, hu, e⟩ := andThen_eq_next.mp h
    obtain ⟨f, rfl⟩ := hcopy hu
    cases e
    exact .inr (.inl ⟨memWriteAll st.scratch 0 f, [], st.consumer, 1, by simp [State.shown, State.withScratch]⟩)
  | accept =>
    obtain ⟨u, hu, e⟩ := andThen_eq_next.mp h
    obtain ⟨f, rfl⟩ := hcopy hu
    obtain ⟨v, hv, e⟩ := andThen_eq_next.mp e
    obtain ⟨raw, -, e'⟩ := andThen_eq_next.mp hv
    cases e'
    split at e
    · cases e
      exact .inr (.inl ⟨_, _, _, st.par.frameSize, rfl⟩)
    · cases e
      exact .inr (.inr ⟨_, _, _, rfl⟩)

/-- A scan moves at most `extract` of its slot, and that not where it waits; scratch, output and consumer aside. -/
theorem scanRun_moves {k : Nat} {r : ScanRegs} {st : State} {o : ScanOut} (h : scanRun k r st = .next o) :
    scanMoved r.slot st o.state ∧
      ∀ r' st', o = .held r' st' → r'.slot = r.slot ∧ ∃ sc l q, st' = st.shown sc l q := by
  induction k generalizing r st with
  | zero =>
    cases h
    exact ⟨⟨st.scratch, [], st.consumer, r.consumed, by simp [ScanOut.state]⟩, fun _ _ e => by cases e⟩
  | succ k ih =>
    obtain ⟨c, hc, hk⟩ := andThen_eq_next.mp h
    obtain ⟨cls, -, hc⟩ := andThen_eq_next.mp hc
    rcases performClass_moves hc with ⟨n, m, rfl⟩ | ⟨sc, l, q, n, rfl⟩ | ⟨sc, l, q, rfl⟩
    · cases hk
      exact ⟨⟨st.scratch, [], st.consumer, m, by simp [ScanOut.state]⟩, fun _ _ e => by cases e⟩
    · obtain ⟨⟨sc', l', q', m, e'⟩, hheld⟩ := ih hk
      refine ⟨⟨sc', l ++ l', q', m, by rw [e']; simp [ScanRegs.consume, State.shown]⟩, fun r' st' eo => ?_⟩
      obtain ⟨h1, sc'', l'', q'', h2⟩ := hheld r' st' eo
      exact ⟨h1, sc'', l ++ l'', q'', by rw [h2]; simp [State.shown]⟩
    · cases hk
      exact ⟨⟨sc, l, q, 0, by simp [ScanOut.state, State.shown]⟩, fun r' st' eo => by cases eo; exact ⟨rfl, sc, l, q, rfl⟩⟩

/-! ### The bound of the loop. -/

/-- A class that lets the scan go on consumes at least one available byte. -/
theorem scanIter_progress {r r' : ScanRegs} {st st' : State} (hp : st.par.wf = true)
    (h : scanIter r st = .next (.more r' st')) :
    r.consumed < r.available ∧ r'.available = r.available ∧ r.consumed < r'.consumed ∧ st'.par = st.par := by
  have hf2 := (wf_iff.mp hp).1
  rcases scanIter_cases hp h with ⟨-, -, e⟩ | ⟨-, -, -, e⟩ | ⟨h0, -, -, e⟩ | ⟨-, -, -, -, e⟩ | ⟨f, h0, -, -, -, e⟩ |
      ⟨f, h0, -, -, -, -, -, e⟩
  · cases e
  · cases e
  · cases e
    exact ⟨h0, rfl, by simp [ScanRegs.consume], rfl⟩
  · cases e
  · split at e
    · cases e
      exact ⟨by omega, rfl, by simp only [ScanRegs.consume]; omega, rfl⟩
    · cases e
  · cases e
    exact ⟨by omega, rfl, by simp [ScanRegs.consume], rfl⟩

/-- The bound of the loop does not matter once it counts an iteration for each byte left and one for the exit. -/
theorem scanRun_bound {k k' : Nat} {r : ScanRegs} {st : State} (hp : st.par.wf = true)
    (h : r.available < r.consumed + (k + 1)) (h' : r.available < r.consumed + (k' + 1)) :
    scanRun (k + 1) r st = scanRun (k' + 1) r st := by
  induction k generalizing k' r st with
  | zero =>
    simp only [scanRun]
    cases ho : scanIter r st with
    | fault => rfl
    | refused => rfl
    | next o =>
      cases o with
      | more r' st' => have := scanIter_progress hp ho; omega
      | done => rfl
      | held => rfl
  | succ k ih =>
    rw [scanRun, scanRun]
    cases ho : scanIter r st with
    | fault => rfl
    | refused => rfl
    | next o =>
      cases o with
      | more r' st' =>
        obtain ⟨h1, h2, h3, h4⟩ := scanIter_progress hp ho
        cases k' with
        | zero => omega
        | succ k' => exact ih (h4 ▸ hp) (by omega) (by omega)
      | done => rfl
      | held => rfl

end Sys2Proof.Machine
end

