-- ==== Sys2Proof/Laws/Ops.lean ====
section
/-! SUPPORT. What each shared operation does, field by field; and, for the operations with several outcomes (the scan of a
slot, a service, the dispatch of a bit, a step), everything they can answer, said once. Provers cite these instead of
unfolding the operations. -/

namespace Sys2Proof.Machine

variable (st : State)

/-! ### The control port and the engine. -/

@[simp] theorem ackChan_par (c : Nat) : (ackChan c st).par = st.par := rfl
@[simp] theorem ackChan_nSlots (c : Nat) : (ackChan c st).nSlots = st.nSlots := rfl
@[simp] theorem ackChan_nChannels (c : Nat) : (ackChan c st).nChannels = st.nChannels := rfl
@[simp] theorem ackChan_slot (c s : Nat) : (ackChan c st).slot s = st.slot s := rfl
@[simp] theorem ackChan_chan (c d : Nat) : (ackChan c st).chan d = st.chan d := rfl
@[simp] theorem ackChan_ints (c : Nat) : (ackChan c st).ints = clearBit st.ints c := rfl
@[simp] theorem ackChan_out (c : Nat) : (ackChan c st).out = st.out ++ [.ackReq c] := rfl

/-- ACK changes `INTS` and the port history only. -/
theorem ackChan_frame (c : Nat) : { ackChan c st with ints := st.ints, out := st.out } = st := rfl

@[simp] theorem armChan_par (c w n : Nat) : (armChan c w n st).par = st.par := rfl
@[simp] theorem armChan_nSlots (c w n : Nat) : (armChan c w n st).nSlots = st.nSlots := rfl
@[simp] theorem armChan_nChannels (c w n : Nat) : (armChan c w n st).nChannels = st.nChannels := by simp [armChan]
@[simp] theorem armChan_slot (c w n s : Nat) : (armChan c w n st).slot s = st.slot s := rfl
@[simp] theorem armChan_ints (c w n : Nat) : (armChan c w n st).ints = st.ints := rfl
@[simp] theorem armChan_out (c w n : Nat) : (armChan c w n st).out = st.out ++ [.armReq c w n] := rfl

/-- ARM changes the channels and the port history only. -/
theorem armChan_frame (c w n : Nat) : { armChan c w n st with chans := st.chans, out := st.out } = st := rfl

@[simp] theorem configChan_par (c u : Nat) : (configChan c u st).par = st.par := rfl
@[simp] theorem configChan_nSlots (c u : Nat) : (configChan c u st).nSlots = st.nSlots := rfl
@[simp] theorem configChan_nChannels (c u : Nat) : (configChan c u st).nChannels = st.nChannels := by simp [configChan]
@[simp] theorem configChan_slot (c u s : Nat) : (configChan c u st).slot s = st.slot s := rfl
@[simp] theorem configChan_ints (c u : Nat) : (configChan c u st).ints = st.ints := rfl
@[simp] theorem configChan_out (c u : Nat) : (configChan c u st).out = st.out ++ [.cfgReq c (configFor st.par u)] := rfl

@[simp] theorem raiseChan_par (c : Nat) : (raiseChan c st).par = st.par := rfl
@[simp] theorem raiseChan_nSlots (c : Nat) : (raiseChan c st).nSlots = st.nSlots := rfl
@[simp] theorem raiseChan_nChannels (c : Nat) : (raiseChan c st).nChannels = st.nChannels := rfl
@[simp] theorem raiseChan_slot (c s : Nat) : (raiseChan c st).slot s = st.slot s := rfl
@[simp] theorem raiseChan_chan (c d : Nat) : (raiseChan c st).chan d = st.chan d := rfl
@[simp] theorem raiseChan_ints (c : Nat) : (raiseChan c st).ints = setBit st.ints c := rfl

@[simp] theorem finishTransfer_par (c : Nat) : (finishTransfer c st).par = st.par := rfl
@[simp] theorem finishTransfer_nSlots (c : Nat) : (finishTransfer c st).nSlots = st.nSlots := rfl
@[simp] theorem finishTransfer_nChannels (c : Nat) : (finishTransfer c st).nChannels = st.nChannels := by simp [finishTransfer]
@[simp] theorem finishTransfer_slot (c s : Nat) : (finishTransfer c st).slot s = st.slot s := rfl
@[simp] theorem finishTransfer_ints (c : Nat) : (finishTransfer c st).ints = setBit st.ints c := rfl

@[simp] theorem advInsert_par (s n : Nat) : (advInsert s n st).par = st.par := rfl
@[simp] theorem advInsert_nSlots (s n : Nat) : (advInsert s n st).nSlots = st.nSlots := by simp [advInsert]
@[simp] theorem advInsert_nChannels (s n : Nat) : (advInsert s n st).nChannels = st.nChannels := rfl
@[simp] theorem advInsert_chan (s n d : Nat) : (advInsert s n st).chan d = st.chan d := rfl
@[simp] theorem advExtract_par (s n : Nat) : (advExtract s n st).par = st.par := rfl
@[simp] theorem advExtract_nSlots (s n : Nat) : (advExtract s n st).nSlots = st.nSlots := by simp [advExtract]
@[simp] theorem advExtract_nChannels (s n : Nat) : (advExtract s n st).nChannels = st.nChannels := rfl
@[simp] theorem advExtract_chan (s n d : Nat) : (advExtract s n st).chan d = st.chan d := rfl
@[simp] theorem writeBuf_par (s a : Nat) (b : Byte) : (writeBuf s a b st).par = st.par := rfl
@[simp] theorem writeBuf_nSlots (s a : Nat) (b : Byte) : (writeBuf s a b st).nSlots = st.nSlots := by simp [writeBuf]
@[simp] theorem writeBuf_nChannels (s a : Nat) (b : Byte) : (writeBuf s a b st).nChannels = st.nChannels := rfl
@[simp] theorem writeBuf_chan (s a d : Nat) (b : Byte) : (writeBuf s a b st).chan d = st.chan d := rfl

variable {st}

theorem armChan_chan_self {c : Nat} (h : c < st.nChannels) (w n : Nat) :
    (armChan c w n st).chan c = { armed := true, waddr := w, remaining := n, cfg := (st.chan c).cfg } := by
  simp [armChan, chan_setChan_self h]
theorem armChan_chan_ne {c d : Nat} (h : d ≠ c) (w n : Nat) : (armChan c w n st).chan d = st.chan d := by
  simp [armChan, chan_setChan_ne h]

theorem configChan_chan_self {c : Nat} (h : c < st.nChannels) (u : Nat) :
    (configChan c u st).chan c = { st.chan c with cfg := configFor st.par u } := by
  simp [configChan, chan_setChan_self h]
theorem configChan_chan_ne {c d : Nat} (h : d ≠ c) (u : Nat) : (configChan c u st).chan d = st.chan d := by
  simp [configChan, chan_setChan_ne h]

theorem finishTransfer_chan_self {c : Nat} (h : c < st.nChannels) :
    (finishTransfer c st).chan c = { st.chan c with armed := false } := by
  simp [finishTransfer, chan_setChan_self h]
theorem finishTransfer_chan_ne {c d : Nat} (h : d ≠ c) : (finishTransfer c st).chan d = st.chan d := by
  simp [finishTransfer, chan_setChan_ne h]

/-! ### The store. -/

theorem advInsert_slot_self {s : Nat} (h : s < st.nSlots) (n : Nat) :
    (advInsert s n st).slot s = { st.slot s with insert := advance (st.slot s).insert n } := slot_setSlot_self h _
theorem advInsert_slot_ne {s u : Nat} (h : u ≠ s) (n : Nat) : (advInsert s n st).slot u = st.slot u := slot_setSlot_ne h _

theorem advExtract_slot_self {s : Nat} (h : s < st.nSlots) (n : Nat) :
    (advExtract s n st).slot s = { st.slot s with extract := advance (st.slot s).extract n } := slot_setSlot_self h _
theorem advExtract_slot_ne {s u : Nat} (h : u ≠ s) (n : Nat) : (advExtract s n st).slot u = st.slot u := slot_setSlot_ne h _

theorem writeBuf_slot_self {s : Nat} (h : s < st.nSlots) (a : Nat) (b : Byte) :
    (writeBuf s a b st).slot s = { st.slot s with buf := memWrite (st.slot s).buf a b } := slot_setSlot_self h _
theorem writeBuf_slot_ne {s u : Nat} (h : u ≠ s) (a : Nat) (b : Byte) : (writeBuf s a b st).slot u = st.slot u :=
  slot_setSlot_ne h _

/-- Read after write of a ring buffer. -/
theorem bufByte_writeBuf_self {s : Nat} (h : s < st.nSlots) (a : Nat) (b : Byte) :
    (writeBuf s a b st).bufByte s a = some b := by
  simp [State.bufByte, writeBuf_slot_self h]

/-- A write of a ring buffer leaves every other byte of every buffer. -/
theorem bufByte_writeBuf_ne {s u a x : Nat} (h : u ≠ s ∨ x ≠ a) (b : Byte) :
    (writeBuf s a b st).bufByte u x = st.bufByte u x := by
  by_cases hu : u = s
  · subst hu
    have hx : x ≠ a := by simpa using h
    by_cases hs : u < st.nSlots
    · simp [State.bufByte, writeBuf_slot_self hs, memRead_memWrite_ne hx]
    · simp [State.bufByte, writeBuf, slot_setSlot, hs]
  · simp [State.bufByte, writeBuf_slot_ne hu]

/-- A number added to `insert` is added to the available bytes, as long as they stay below 2^64. -/
theorem avail_advInsert {s n : Nat} (hs : s < st.nSlots) (h : (st.avail s).toNat + n < 2 ^ 64) :
    ((advInsert s n st).avail s).toNat = (st.avail s).toNat + n := by
  simp only [State.avail, advInsert_slot_self hs, BitVec.toNat_sub, advance_toNat] at h ⊢
  have := (st.slot s).extract.isLt
  have := (st.slot s).insert.isLt
  omega

/-- A number of available bytes added to `extract` is taken from them. -/
theorem avail_advExtract {s n : Nat} (hs : s < st.nSlots) (h : n ≤ (st.avail s).toNat) :
    ((advExtract s n st).avail s).toNat = (st.avail s).toNat - n := by
  simp only [State.avail, advExtract_slot_self hs, BitVec.toNat_sub, advance_toNat] at h ⊢
  have := (st.slot s).extract.isLt
  have := (st.slot s).insert.isLt
  omega

/-! ### Who reads and who writes a ring buffer. -/

/-- With no scan open and nothing waiting, the scanner reads no buffer. -/
theorem reading_of_free (h1 : st.scan = none) (h2 : st.held = none) (s : Nat) : st.reading s = false := by
  simp [State.reading, State.scansInProgress, h1, h2]

theorem reading_iff {s : Nat} : st.reading s = true ↔
    (∃ r, st.scan = some r ∧ r.slot = s) ∨ ∃ h r, st.held = some h ∧ h.regs = some r ∧ r.slot = s := by
  simp only [State.reading, State.scansInProgress, List.any_append, Bool.or_eq_true, List.any_eq_true, Option.mem_toList,
    Option.bind_eq_some_iff, decide_eq_true_eq]
  refine or_congr Iff.rfl ⟨?_, ?_⟩
  · rintro ⟨r, ⟨h, h1, h2⟩, h3⟩
    exact ⟨h, r, h1, h2, h3⟩
  · rintro ⟨h, r, h1, h2, h3⟩
    exact ⟨r, ⟨h, h1, h2⟩, h3⟩

theorem writing_iff {s : Nat} : st.writing s = true ↔
    (st.slot s).valid = true ∧ (st.chan (st.slot s).chan).armed = true ∧ (st.chan (st.slot s).chan).remaining ≠ 0 ∧
      (st.chan (st.slot s).chan).cfg.slot = s ∧ st.reading s = false := by
  simp [State.writing, State.byteEnabled, and_assoc]

theorem inside_iff {r : ScanRegs} :
    r.inside st = true ↔ r.consumed ≤ r.available ∧ r.available ≤ (st.avail r.slot).toNat := by
  simp [ScanRegs.inside]

/-- A scan entered now lies in `[extract, insert)`. -/
theorem inside_scanEntry (s : Nat) : (scanEntry s st).inside st = true := by simp [inside_iff, scanEntry]

/-! ### The canonical form of the memories. -/

theorem memWf_iff : st.memWf = true ↔
    (∀ s, Memory.wf st.par.capacity (st.slot s).buf = true) ∧ Memory.wf st.par.frameSize st.scratch = true := by
  simp only [State.memWf, Bool.and_eq_true, List.all_eq_true]
  constructor
  · rintro ⟨h1, h2⟩
    refine ⟨fun s => ?_, h2⟩
    by_cases hs : s < st.slots.length
    · have := h1 _ (List.getElem_mem hs)
      simpa [State.slot, List.getD_eq_getElem?_getD, List.getElem?_eq_getElem hs] using this
    · rw [slot_absent (by simpa [State.nSlots] using Nat.le_of_not_lt hs)]
      rfl
  · rintro ⟨h1, h2⟩
    refine ⟨fun x hx => ?_, h2⟩
    obtain ⟨s, hs, rfl⟩ := List.mem_iff_getElem.mp hx
    have := h1 s
    simpa [State.slot, List.getD_eq_getElem?_getD, List.getElem?_eq_getElem hs] using this

/-- A write of a ring buffer keeps the canonical form. -/
theorem memWf_writeBuf (h : st.memWf = true) (s : Nat) {a : Nat} (ha : a < st.par.capacity) (b : Byte) :
    (writeBuf s a b st).memWf = true := by
  obtain ⟨h1, h2⟩ := memWf_iff.mp h
  refine memWf_iff.mpr ⟨fun u => ?_, h2⟩
  rw [writeBuf_par, writeBuf, slot_setSlot]
  split
  · exact memWrite_wf (h1 s) ha b
  · exact h1 u

/-- PUSH's stores keep the canonical form. -/
theorem memWf_pushBytes (h : st.memWf = true) (s : Nat) (c : Cursor) (bs : List Byte) :
    (pushBytes s c bs st).memWf = true := by
  induction bs generalizing c st with
  | nil => exact h
  | cons b bs ih => exact ih (memWf_writeBuf h s (phys_lt _ c) b) (advance c 1)

/-- A copy of at most a frame into scratch keeps the canonical form. -/
theorem memWf_withScratch (h : st.memWf = true) {f : List Byte} (hf : f.length ≤ st.par.frameSize) :
    (st.withScratch f).memWf = true := by
  obtain ⟨h1, h2⟩ := memWf_iff.mp h
  exact memWf_iff.mpr ⟨h1, memWriteAll_wf h2 (show 0 + f.length ≤ st.par.frameSize by omega)⟩

/-- The engine's store keeps the canonical form, the channel writing inside the buffer. -/
theorem memWf_storeByte (h : st.memWf = true) {c : Nat} (hc : (st.chan c).waddr < st.par.capacity) (b : Byte) :
    (storeByte c b st).memWf = true := memWf_writeBuf h (st.chan c).cfg.slot hc b

/-! ### One byte of a transfer. -/

/-- The engine's store writes its own channel's address and count and no other channel. -/
theorem storeByte_chan_self {c : Nat} (h : c < st.nChannels) (b : Byte) :
    (storeByte c b st).chan c =
      { st.chan c with waddr := ((st.chan c).waddr + 1) % st.par.capacity, remaining := (st.chan c).remaining - 1 } := by
  simp only [storeByte]
  exact chan_setChan_self (by simpa using h) _
theorem storeByte_chan_ne {c d : Nat} (h : d ≠ c) (b : Byte) : (storeByte c b st).chan d = st.chan d := by
  simp only [storeByte, chan_setChan_ne h, writeBuf_chan]

/-- The engine's store writes a slot only in its buffer. -/
theorem storeByte_slot (c u : Nat) (b : Byte) :
    (storeByte c b st).slot u = (writeBuf (st.chan c).cfg.slot (st.chan c).waddr b st).slot u := rfl

/-- The engine's store changes slots and channels only. -/
theorem storeByte_frame (c : Nat) (b : Byte) :
    { storeByte c b st with slots := st.slots, chans := st.chans } = st := rfl

/-- DMA.BYTE changes slots, channels and peripherals only. -/
theorem transferByte_frame (c : Nat) :
    { transferByte c st with slots := st.slots, chans := st.chans, uarts := st.uarts } = st := rfl

@[simp] theorem storeByte_nSlots (c : Nat) (b : Byte) : (storeByte c b st).nSlots = st.nSlots := by simp [storeByte]
@[simp] theorem storeByte_nChannels (c : Nat) (b : Byte) : (storeByte c b st).nChannels = st.nChannels := by simp [storeByte]
@[simp] theorem drawStream_slot (s u : Nat) (rx : List Byte) : (drawStream s rx st).slot u = st.slot u := rfl
@[simp] theorem drawStream_chan (s c : Nat) (rx : List Byte) : (drawStream s rx st).chan c = st.chan c := rfl
@[simp] theorem drawStream_par (s : Nat) (rx : List Byte) : (drawStream s rx st).par = st.par := rfl

/-! ### The registry. -/

theorem owns_iff {s c : Nat} : st.owns s c = true ↔ (st.slot s).valid = true ∧ (st.slot s).chan = c := by
  simp [State.owns]

/-- A slot that LOOKUP finds owns the channel. -/
theorem owns_of_lookup {c s : Nat} (h : st.lookup c = some s) : st.owns s c = true := by
  have := List.find?_some (p := fun s => st.owns s c) h
  simpa using this

theorem lookup_eq_none {c : Nat} : st.lookup c = none ↔ ∀ s, st.owns s c = false := by
  simp only [State.lookup, List.find?_eq_none, List.mem_range, Bool.not_eq_true]
  refine ⟨fun h s => ?_, fun h s _ => h s⟩
  by_cases hs : s < st.nSlots
  · exact h s hs
  · simp only [State.owns, slot_absent (Nat.le_of_not_lt hs)]
    rfl

/-- Where no channel is shared, the slot that owns a channel is the one LOOKUP finds. -/
theorem lookup_of_owns {c s : Nat} (hu : st.registryUnique) (h : st.owns s c = true) : st.lookup c = some s := by
  cases hl : st.lookup c with
  | none => rw [lookup_eq_none.mp hl s] at h; cases h
  | some u =>
    obtain ⟨h1, h2⟩ := owns_iff.mp h
    obtain ⟨h3, h4⟩ := owns_iff.mp (owns_of_lookup hl)
    rw [hu u (lt_of_valid h3) s (lt_of_valid h1) h3 h1 (h4.trans h2.symm)]

/-- LOOKUP depends on `valid` and `chan` only. -/
theorem lookup_congr {st' : State} (hn : st'.nSlots = st.nSlots) (h : ∀ s c, st'.owns s c = st.owns s c) (c : Nat) :
    st'.lookup c = st.lookup c := by
  simp [State.lookup, h, hn]

/-! ### A scan of a slot, a service, the dispatch of a bit. -/

/-- Everything a scan of a slot can answer. -/
theorem scanSlot_cases {s : Nat} {o : ScanOut} (hp : st.par.wf = true) (h : scanSlot s st = .next o) :
    (st.avail s).toNat ≤ st.par.capacity ∧
    ((∃ n m st', scanTouched s st st' ∧ o = .done n (advExtract s m st') ∧ 1 ≤ n ∧ n ≤ st.par.frameSize ∧
        m ≤ (st.avail s).toNat ∧ (st.avail s).toNat - m + n = st.par.frameSize) ∨
      (∃ r st', scanTouched s st st' ∧ o = .held r st' ∧ ¬ st.consumer.prompt ∧ r.slot = s ∧
        r.available = (st.avail s).toNat ∧ r.consumed + st.par.frameSize ≤ r.available)) := by
  obtain ⟨h1, h2⟩ := require_eq_next.mp h
  refine ⟨of_decide_eq_true h1, ?_⟩
  rcases scanRun_cases hp h2 with ⟨n, m, st', ht, ho, hn, hn', hm⟩ | ⟨r, st', ht, ho, hr, h3, h4, -, h6⟩
  · obtain ⟨-, a, b⟩ := hm (Nat.zero_le _) (by simp only [scanEntry]; omega)
    exact .inl ⟨n, m, st', ht, ho, hn, hn', a, b⟩
  · exact .inr ⟨r, st', ht, ho, hr, h3, h4, h6⟩

/-- A scan of written bytes that fit the buffer completes. -/
theorem scanSlot_completes {s : Nat} (hp : st.par.wf = true) (ha : (st.avail s).toNat ≤ st.par.capacity)
    (hw : st.written s (st.slot s).extract (st.avail s).toNat) : ∃ o, scanSlot s st = .next o := by
  obtain ⟨o, ho⟩ := scanRun_completes (k := (st.avail s).toNat + 1) (r := scanEntry s st) (st := st) hp hw
  exact ⟨o, require_eq_next.mpr ⟨decide_eq_true ha, ho⟩⟩

/-- The end of a service writes the slot's request, its channel, its bit of `INTS` and two port transactions. -/
theorem serviceEnd_eq (s n : Nat) :
    serviceEnd s n st =
      { (st.setSlot s { st.slot s with lastReq := n }).setChan (st.slot s).chan
          { armed := true, waddr := phys st.par (st.slot s).insert, remaining := n, cfg := (st.chan (st.slot s).chan).cfg } with
        ints := clearBit st.ints (st.slot s).chan
        out := st.out ++ [.ackReq (st.slot s).chan] ++ [.armReq (st.slot s).chan (phys st.par (st.slot s).insert) n] } := by
  have h : (((ackChan (st.slot s).chan st).setSlot s { (ackChan (st.slot s).chan st).slot s with lastReq := n }).slot s).insert =
      (st.slot s).insert := by
    rw [slot_setSlot]
    split <;> rfl
  simp only [serviceEnd, h]
  rfl

@[simp] theorem serviceEnd_par (s n : Nat) : (serviceEnd s n st).par = st.par := by rw [serviceEnd_eq]; rfl
@[simp] theorem serviceEnd_nSlots (s n : Nat) : (serviceEnd s n st).nSlots = st.nSlots := by
  rw [serviceEnd_eq]
  exact setSlot_nSlots st s _
@[simp] theorem serviceEnd_nChannels (s n : Nat) : (serviceEnd s n st).nChannels = st.nChannels := by
  rw [serviceEnd_eq]
  exact setChan_nChannels _ _ _

theorem serviceEnd_slot_self {s : Nat} (h : s < st.nSlots) (n : Nat) :
    (serviceEnd s n st).slot s = { st.slot s with lastReq := n } := by
  rw [serviceEnd_eq]
  exact slot_setSlot_self h _

theorem serviceEnd_slot_ne {s u : Nat} (h : u ≠ s) (n : Nat) : (serviceEnd s n st).slot u = st.slot u := by
  rw [serviceEnd_eq]
  exact slot_setSlot_ne h _

theorem serviceEnd_chan_self {s : Nat} (h : (st.slot s).chan < st.nChannels) (n : Nat) :
    (serviceEnd s n st).chan (st.slot s).chan =
      { armed := true, waddr := phys st.par (st.slot s).insert, remaining := n, cfg := (st.chan (st.slot s).chan).cfg } := by
  rw [serviceEnd_eq]
  exact chan_setChan_self (st := st.setSlot s _) h _

theorem serviceEnd_chan_ne {s c : Nat} (h : c ≠ (st.slot s).chan) (n : Nat) : (serviceEnd s n st).chan c = st.chan c := by
  rw [serviceEnd_eq]
  exact chan_setChan_ne h _

@[simp] theorem serviceEnd_ints (s n : Nat) : (serviceEnd s n st).ints = clearBit st.ints (st.slot s).chan := by
  rw [serviceEnd_eq]

@[simp] theorem serviceEnd_out (s n : Nat) :
    (serviceEnd s n st).out =
      st.out ++ [.ackReq (st.slot s).chan] ++ [.armReq (st.slot s).chan (phys st.par (st.slot s).insert) n] := by
  rw [serviceEnd_eq]

/-- The end of a service changes slots, channels, `INTS` and the port history only. -/
theorem serviceEnd_frame (s n : Nat) :
    { serviceEnd s n st with slots := st.slots, chans := st.chans, ints := st.ints, out := st.out } = st := by
  rw [serviceEnd_eq]
  rfl

/-- A service is the advance of `insert`, a scan, and its end. -/
theorem service_cases {s : Nat} {o : SvcOut} (h : service s st = .next o) :
    (∃ n st', scanSlot s (advInsert s (st.slot s).lastReq st) = .next (.done n st') ∧ o = .done (serviceEnd s n st')) ∨
    (∃ r st', scanSlot s (advInsert s (st.slot s).lastReq st) = .next (.held r st') ∧ o = .held r st') := by
  obtain ⟨a, ha, hk⟩ := andThen_eq_next.mp h
  cases a with
  | done n st' => exact .inl ⟨n, st', ha, (Host.Outcome.next.inj hk).symm⟩
  | held r st' => exact .inr ⟨r, st', ha, (Host.Outcome.next.inj hk).symm⟩

/-- The dispatch of a bit is the service of its owner, or the fatal stop. -/
theorem dispatchChan_cases {c : Nat} {o : DispatchOut} (h : dispatchChan c st = .next o) :
    (st.lookup c = none ∧ o = .fatal (raiseFatal unmatchedIrq c st)) ∨
    (∃ s st', st.lookup c = some s ∧ service s st = .next (.done st') ∧ o = .done st') ∨
    (∃ s r st', st.lookup c = some s ∧ service s st = .next (.held r st') ∧ o = .held r st') := by
  simp only [dispatchChan] at h
  split at h
  · rename_i hl
    exact .inl ⟨hl, (Host.Outcome.next.inj h).symm⟩
  · rename_i s hl
    obtain ⟨a, ha, hk⟩ := andThen_eq_next.mp h
    cases a with
    | done st' => exact .inr (.inl ⟨s, st', hl, ha, (Host.Outcome.next.inj hk).symm⟩)
    | held r st' => exact .inr (.inr ⟨s, r, st', hl, ha, (Host.Outcome.next.inj hk).symm⟩)

/-- What every run of the handler's loop keeps: a property of state and snapshot that a completed dispatch keeps and that a
wait and a fatal stop turn into the conclusion. -/
theorem irqRun_induction {P : Nat → State → Prop} {Q : State → Prop}
    (hnil : ∀ pending x, P pending x → Q x)
    (hdone : ∀ c pending x x', P pending x → bitSet pending c = true → dispatchChan c x = .next (.done x') →
      P (clearBit pending c) x')
    (hheld : ∀ c pending x r x', P pending x → bitSet pending c = true → dispatchChan c x = .next (.held r x') →
      Q { x' with held := some (.irq pending c r) })
    (hfatal : ∀ c pending x, P pending x → bitSet pending c = true → x.lookup c = none → Q (raiseFatal unmatchedIrq c x))
    {cs : List Nat} {pending : Nat} {x t : State} (h0 : P pending x)
    (h : irqRun cs pending x = .next t) : Q t := by
  induction cs generalizing pending x with
  | nil => cases h; exact hnil _ _ h0
  | cons c cs ih =>
    simp only [irqRun] at h
    split at h
    · rename_i hb
      obtain ⟨o, ho, hk⟩ := andThen_eq_next.mp h
      cases o with
      | done x' => exact ih (hdone c pending x x' h0 hb ho) hk
      | held r x' => cases hk; exact hheld c pending x r x' h0 hb ho
      | fatal x' =>
        cases hk
        rcases dispatchChan_cases ho with ⟨hl, he⟩ | ⟨_, _, _, _, he⟩ | ⟨_, _, _, _, _, he⟩
        · cases he; exact hfatal c pending x h0 hb hl
        · cases he
        · cases he
    · exact ih h0 h

/-! ### The step. -/

theorem turn_eq : st.turn = { st with consumer := st.turn.consumer } := by
  unfold State.turn
  split <;> rfl

/-- With nothing waiting, no answer of the consumer is taken. -/
theorem turn_of_free (h : st.held = none) : st.turn = st := by simp [State.turn, h]

/-- Everything a step can be: the waiting operation goes on, or an event of the trace is performed, or an open scan goes on by
itself, or the hardware moves by itself, or nothing happens. -/
theorem step_cases {t : State} (h : step st = .next t) :
    (st.resumes = true ∧ resume st.turn = .next t) ∨
    (st.resumes = false ∧ ∃ i st', fetch st.turn = .ok (i, st') ∧ (st.held = none ∨ othersStep i = true) ∧
      exec i st' = .next t) ∨
    (st.held = none ∧ st.trace = [] ∧ ∃ r i, st.scan = some r ∧ scanFetch r st = .next i ∧ exec i st = .next t) ∨
    (st.resumes = false ∧ st.trace = [] ∧ ∃ i, hardwareEvent st.turn = some i ∧ exec i st.turn = .next t) ∨
    (st.resumes = false ∧ st.trace = [] ∧ hardwareEvent st.turn = none ∧ t = st.turn) := by
  have htr : st.turn.trace = st.trace := by rw [turn_eq]
  have hhe : st.turn.held = st.held := by rw [turn_eq]
  simp only [step, nextStep] at h
  split at h
  · rename_i hr
    exact .inl ⟨hr, h⟩
  · rename_i hr
    have hr' : st.resumes = false := by simpa using hr
    simp only [agentStep] at h
    split at h
    · rename_i ht
      rw [htr] at ht
      have ht' : st.trace = [] := by simpa using ht
      have hw : hardwareStep st.turn = .next t →
          (∃ i, hardwareEvent st.turn = some i ∧ exec i st.turn = .next t) ∨ (hardwareEvent st.turn = none ∧ t = st.turn) := by
        intro h
        simp only [hardwareStep] at h
        split at h
        · rename_i i hi
          exact .inl ⟨i, hi, h⟩
        · rename_i hi
          exact .inr ⟨hi, (Host.Outcome.next.inj h).symm⟩
      simp only [idleStep] at h
      split at h
      · rename_i r hs
        split at h
        · rename_i hn
          rw [hhe] at hn
          have hn' : st.held = none := by simpa using hn
          rw [turn_of_free hn'] at hs h
          obtain ⟨i, hi, he⟩ := andThen_eq_next.mp h
          exact .inr (.inr (.inl ⟨hn', ht', r, i, hs, hi, he⟩))
        · rcases hw h with ⟨i, hi, he⟩ | ⟨hi, he⟩
          · exact .inr (.inr (.inr (.inl ⟨hr', ht', i, hi, he⟩)))
          · exact .inr (.inr (.inr (.inr ⟨hr', ht', hi, he⟩)))
      · rcases hw h with ⟨i, hi, he⟩ | ⟨hi, he⟩
        · exact .inr (.inr (.inr (.inl ⟨hr', ht', i, hi, he⟩)))
        · exact .inr (.inr (.inr (.inr ⟨hr', ht', hi, he⟩)))
    · simp only [traceStep] at h
      split at h
      · cases h
      · rename_i i st' hf
        obtain ⟨h1, h2⟩ := require_eq_next.mp h
        have hheld : st'.held = st.turn.held := by
          simp only [fetch] at hf
          split at hf
          · cases hf
          · cases hf; rfl
        refine .inr (.inl ⟨hr', i, st', hf, ?_, h2⟩)
        rw [hheld, hhe] at h1
        simpa using h1

/-- What the scanner can fetch. -/
theorem scanFetch_cases {r : ScanRegs} {i : Instr} (h : scanFetch r st = .next i) :
    i = .scnIdle r.slot ∨ i = .scnDrain r.slot ∨ i = .scnSkip r.slot ∨ i = .headerByte ∨ ∃ f, i = .frame f := by
  obtain ⟨bs, -, h⟩ := andThen_eq_next.mp h
  cases bs with
  | nil =>
    have h := Host.Outcome.next.inj h
    rw [← h]
    split
    · exact .inl rfl
    · exact .inr (.inl rfl)
  | cons b bs =>
    simp only [decodeStream] at h
    by_cases hb : b = st.par.header
    · simp only [hb, if_true, Host.Outcome.next.injEq] at h
      subst h
      simp only [decodeHeader]
      split
      · exact .inr (.inr (.inr (.inr ⟨_, rfl⟩)))
      · exact .inr (.inr (.inr (.inl rfl)))
    · simp only [hb, if_false, Host.Outcome.next.injEq] at h
      exact .inr (.inr (.inl h.symm))

/-- What the hardware does by itself. -/
theorem hardwareEvent_cases {i : Instr} (h : hardwareEvent st = some i) :
    (i = .irq ∧ st.irqLine = true ∧ st.busy = false) ∨ (∃ c, i = .dmaDone c ∧ st.doneEnabled c = true) ∨
    (∃ c, i = .dmaByte c ∧ st.byteReady c = true) := by
  simp only [hardwareEvent] at h
  split at h
  · rename_i hl
    simp only [Bool.and_eq_true, Bool.not_eq_true'] at hl
    exact .inl ⟨(Option.some.inj h).symm, hl.1, hl.2⟩
  · split at h
    · rename_i c hc
      exact .inr (.inl ⟨c, (Option.some.inj h).symm, List.find?_some hc⟩)
    · rw [Option.map_eq_some_iff] at h
      obtain ⟨c, hc, rfl⟩ := h
      exact .inr (.inr ⟨c, rfl, List.find?_some hc⟩)

/-- A fetch takes bytes from the trace and changes nothing else. -/
theorem fetch_cases {i : Instr} {st' : State} (h : fetch st = .ok (i, st')) :
    ∃ rest, decode st.par st.trace = .ok (i, rest) ∧ st' = { st with trace := rest } := by
  simp only [fetch] at h
  split at h
  · cases h
  · rename_i j rest hd
    cases h
    exact ⟨rest, hd, rfl⟩

end Sys2Proof.Machine
end

