-- ==== Sys2Proof/Laws/PerInstr.lean ====
section
/-! SUPPORT. One fact about every operation as syntax, one lemma per constructor: the encoding of a well-formed operation
starts with its code byte (30_encoding.md R103). -/

namespace Sys2Proof.Laws.Code

/-- The encoding of `i` starts with the code byte of `i`, for all parameters. -/
def Statement (i : Instr) : Prop := ∀ p, i.wf p = true → (encode p i).head? = some (i.code p)

theorem reset : Statement .reset := fun _ _ => rfl
theorem init (a b c) : Statement (.init a b c) := fun _ _ => rfl
theorem enable : Statement .enable := fun _ _ => rfl
theorem crcStep (a b) : Statement (.crcStep a b) := fun _ _ => rfl
theorem crcRange (a) : Statement (.crcRange a) := fun _ _ => rfl
theorem frameValid (a) : Statement (.frameValid a) := fun _ _ => rfl
theorem rbPhys (a) : Statement (.rbPhys a) := fun _ _ => rfl
theorem rbAvail (a) : Statement (.rbAvail a) := fun _ _ => rfl
theorem rbWindow (a b c) : Statement (.rbWindow a b c) := fun _ _ => rfl
theorem rbCopy (a b c) : Statement (.rbCopy a b c) := fun _ _ => rfl
theorem rbAdvi (a b) : Statement (.rbAdvi a b) := fun _ _ => rfl
theorem rbAdvx (a b) : Statement (.rbAdvx a b) := fun _ _ => rfl
theorem rbDmawr (a b c) : Statement (.rbDmawr a b c) := fun _ _ => rfl
theorem push (a b) : Statement (.push a b) := fun _ _ => rfl
theorem scan (a) : Statement (.scan a) := fun _ _ => rfl
theorem scnIdle (a) : Statement (.scnIdle a) := fun _ _ => rfl
theorem scnSkip (a) : Statement (.scnSkip a) := fun _ _ => rfl
theorem scnDefer (a) : Statement (.scnDefer a) := fun _ _ => rfl
theorem scnAccept (a) : Statement (.scnAccept a) := fun _ _ => rfl
theorem scnReject (a) : Statement (.scnReject a) := fun _ _ => rfl
theorem scnDrain (a) : Statement (.scnDrain a) := fun _ _ => rfl
theorem decode (a) : Statement (.decode a) := fun _ _ => rfl
theorem emit (a) : Statement (.emit a) := fun _ _ => rfl
theorem svc (a) : Statement (.svc a) := fun _ _ => rfl
theorem ack (a) : Statement (.ack a) := fun _ _ => rfl
theorem arm (a b c) : Statement (.arm a b c) := fun _ _ => rfl
theorem dma (a b) : Statement (.dma a b) := fun _ _ => rfl
theorem raise (a) : Statement (.raise a) := fun _ _ => rfl
theorem dmaConfig (a b) : Statement (.dmaConfig a b) := fun _ _ => rfl
theorem dmaByte (a) : Statement (.dmaByte a) := fun _ _ => rfl
theorem dmaDone (a) : Statement (.dmaDone a) := fun _ _ => rfl
theorem irq : Statement .irq := fun _ _ => rfl
theorem lookup (a) : Statement (.lookup a) := fun _ _ => rfl
theorem dispatch (a) : Statement (.dispatch a) := fun _ _ => rfl
theorem fatal (a b) : Statement (.fatal a b) := fun _ _ => rfl
theorem headerByte : Statement .headerByte := fun _ _ => rfl
theorem frame (a) : Statement (.frame a) := by
  intro p h
  simp only [Instr.wf, Machine.isFrame, Bool.and_eq_true, decide_eq_true_eq, beq_iff_eq] at h
  exact h.1.2

end Sys2Proof.Laws.Code
end

