-- ==== Sys2Proof/Tests/Slice0.lean ====
section
/-! SUPPORT. Tests: ill-formed terms refused, bytes of the spec decoded, one small step of each operation with the values of
95_test_vectors.md, and for the statements of Certificates/Slice0/Obligations.lean states that meet their hypotheses. -/

namespace Sys2Proof.Tests

set_option Elab.async false

open Sys2Proof.Machine

/-! ### Bytes and states. -/

/-- FA of 95_test_vectors.md section 0. -/
def frameA : List Byte :=
  [0x54, 0x2C, 0x68, 0x08, 0xAB, 0x7E, 0xE0, 0x00, 0xE4, 0xDC, 0x00, 0xE2] ++
  [0xD9, 0x00, 0xE5, 0xD5, 0x00, 0xE3, 0xD3, 0x00, 0xE4, 0xD0, 0x00, 0xE9] ++
  [0xCD, 0x00, 0xE4, 0xCA, 0x00, 0xE2, 0xC7, 0x00, 0xE9, 0xC5, 0x00, 0xE5] ++
  [0xC2, 0x00, 0xE5, 0xC0, 0x00, 0xE5, 0xBE, 0x82, 0x3A, 0x1A, 0x50]

/-- FC of 95_test_vectors.md section 0: a valid frame with header-valued bytes inside it. -/
def frameC : List Byte :=
  [0x54, 0x2C, 0x10, 0x0E, 0x28, 0x23, 0x54, 0x54, 0x00, 0xF5, 0x01, 0x0A] ++
  [0xF6, 0x01, 0x14, 0xF7, 0x01, 0x1E, 0x54, 0x54, 0x28, 0xF9, 0x01, 0x54] ++
  [0xFA, 0x01, 0x3C, 0xFB, 0x01, 0x46, 0x54, 0x54, 0x50, 0xFD, 0x01, 0x5A] ++
  [0xFE, 0x01, 0x64, 0xFF, 0x01, 0x6E, 0x48, 0x26, 0xFF, 0xFF, 0xFF]

/-- FA~10 of section 0: byte 10 changed from 00 to 80. -/
def badFrame : List Byte := frameA.set 10 0x80

/-- The value of an outcome that is no fault and no refusal. -/
def nextOf {α : Type} (o : Out α) : Option α :=
  match o with
  | .next a => some a
  | .fault _ => none
  | .refused _ => none

/-- The state of an outcome, the reset state where there is none. -/
def stateOf (o : Out State) : State := (nextOf o).getD State.reset

/-- What an operation leaves in the registers, the memories and at the ports. -/
structure Seen where
  slots   : List Slot
  scratch : List Host.Cell
  ints    : Nat
  chans   : List Channel
  scan    : Option ScanRegs
  held    : Option Held
  out     : List PortEvent
  deriving DecidableEq, Repr

/-- What can be seen of an outcome that is no fault and no refusal. -/
def seen (o : Out State) : Option Seen :=
  (nextOf o).map fun t =>
    { slots := t.slots, scratch := t.scratch, ints := t.ints, chans := t.chans, scan := t.scan, held := t.held, out := t.out }

/-- The reason of a refusal. -/
def refusalOf (o : Out State) : Option Refusal :=
  match o with
  | .refused r => some r
  | .next _ => none
  | .fault _ => none

/-- The reason of a fault. -/
def faultOf (o : Out State) : Option Fault :=
  match o with
  | .fault f => some f
  | .next _ => none
  | .refused _ => none

/-- After `INIT 0 3 0xCAFE0001` from reset. -/
def started : State := stateOf (exec (.init 0 3 0xCAFE0001) State.reset)

/-- After that and `PUSH 0 l`. -/
def pushed (l : List Byte) : State := stateOf (exec (.push 0 l) started)

/-- After the common start of the programs of section 8: one slot, phase RUN. -/
def running : State := stateOf (exec .enable started)

/-- After `DMA 3 l` from there. -/
def arrived (l : List Byte) : State := stateOf (exec (.dma 3 l) running)

/-- After the event `RAISE 5` from there. -/
def raised : State := stateOf (exec (.raise 5) running)

/-- The block halted by it (program P4). -/
def halted : State := stateOf (exec .irq raised)

/-- The consumer does not return. -/
def deaf (st : State) : State := { st with consumer := { replies := [], thereafter := false } }

/-- The consumer answers as listed, then returns always. -/
def answering (l : List Bool) (st : State) : State := { st with consumer := { replies := l, thereafter := true } }

/-- The run of IRQ on a frame, waiting for the consumer. -/
def waiting : State := stateOf (exec .irq (deaf (arrived frameA)))

/-- A scan left open after one SKIP of `00`, the bytes `l` ahead. -/
def opened (l : List Byte) : State := stateOf (exec (.scnSkip 0) (pushed (0x00 :: l)))

/-- The registers of that scan. -/
def openRegs (l : List Byte) : ScanRegs := { slot := 0, available := l.length + 1, consumed := 1 }

/-- The cursors of slot `s`. -/
def cursors (st : State) (s : Nat) : Nat × Nat := ((st.slot s).insert.toNat, (st.slot s).extract.toNat)

/-! ### WellFormed refuses an ill-formed term, one for each of its checks. -/

theorem test_wf_crcRange_too_long (l : List Byte) (h : l.length = 2 ^ 64) : (Instr.crcRange l).wf stdParams = false := by
  simp [Instr.wf, countOk, h]
theorem test_wf_push_too_long : (Instr.push 0 (List.replicate 256 0)).wf stdParams = false := by decide +kernel
theorem test_wf_dma_too_long : (Instr.dma 3 (List.replicate 256 0)).wf stdParams = false := by decide +kernel
theorem test_wf_frameValid_short : (Instr.frameValid (frameA.take 46)).wf stdParams = false := by decide +kernel
theorem test_wf_decode_long : (Instr.decode (frameA ++ [0])).wf stdParams = false := by decide +kernel
theorem test_wf_frame_bad_checksum : (Instr.frame badFrame).wf stdParams = false := by decide +kernel
theorem test_wf_frame_no_header : (Instr.frame (List.replicate 47 0)).wf stdParams = false := by decide +kernel
theorem test_wf_longest_list : (Instr.dma 3 (List.replicate 255 0)).wf stdParams = true := by decide +kernel

/-! ### The parameters meet the constraints of 00_scope.md R18. -/

theorem test_parameters : stdParams.wf = true ∧ stdParams.laidOut = true ∧ stdParams.capacity = 64 ∧ stdParams.reqWidth = 6 ∧
    chanWidth 12 = 4 ∧ stdParams.ctxBytes = 4 ∧ State.reset.nSlots = 2 ∧ State.reset.nChannels = 12 := by decide +kernel

/-- The other frame size of 90_conflicts.md C1, 57 bytes, as parameters. -/
def params57 : Params := { stdParams with frameSize := 57 }
theorem test_other_parameters : params57.wf = true ∧ params57.laidOut = false ∧ params57.reqWidth = 6 ∧ chanWidth 5 = 3 ∧
    (exec (.init 2 4 7) (State.resetWith params57 3 5) |> stateOf).slot 2 =
      { valid := true, chan := 4, ctx := 7, insert := 0, extract := 0, lastReq := 57, buf := [] } := by decide +kernel
theorem test_capacity_too_small : (stateOf (exec (.init 0 3 7)
    (State.resetWith { stdParams with log2Cap := 5 } 2 12))).fatalOutput = (true, 2, 3) := by decide +kernel

/-! ### Decoding: bytes written out from R103 and R104, one word of every operation. -/

theorem test_decode_sys : decode stdParams [0x00] = .ok (.reset, []) ∧
    decode stdParams [0x01, 0x01, 0x07, 0x02, 0x00, 0xFE, 0xCA] = .ok (.init 1 7 0xCAFE0002, []) ∧
    decode stdParams [0x02] = .ok (.enable, []) := by decide +kernel
theorem test_decode_chk : decode stdParams [0x10, 0xEE, 0x2C] = .ok (.crcStep 0xEE 0x2C, []) ∧
    decode stdParams [0x11, 0x02, 0x00, 0x00, 0x00, 0x00, 0x00, 0x00, 0x00, 0x54, 0x2C, 0x50] = .ok (.crcRange [0x54, 0x2C], [0x50]) ∧
    decode stdParams (0x12 :: frameA) = .ok (.frameValid frameA, []) := by decide +kernel
theorem test_decode_rbs : decode stdParams [0x20, 0x60, 0, 0, 0, 0, 0, 0, 0] = .ok (.rbPhys 96, []) ∧
    decode stdParams [0x21, 0x01] = .ok (.rbAvail 1, []) ∧
    decode stdParams [0x22, 0x00, 0x31, 0, 0, 0, 0, 0, 0, 0x80, 0x2F, 0, 0, 0, 0, 0, 0, 0] =
      .ok (.rbWindow 0 0x8000000000000031 47, []) ∧
    decode stdParams [0x23, 0x01, 0x02, 0, 0, 0, 0, 0, 0, 0, 0x2F, 0, 0, 0, 0, 0, 0, 0] = .ok (.rbCopy 1 2 47, []) := by decide +kernel
theorem test_decode_rbs_writes : decode stdParams [0x24, 0x00, 0x40, 0x01, 0, 0, 0, 0, 0, 0] = .ok (.rbAdvi 0 320, []) ∧
    decode stdParams [0x25, 0x01, 0x40, 0, 0, 0, 0, 0, 0, 0] = .ok (.rbAdvx 1 64, []) ∧
    decode stdParams [0x26, 0x01, 0x3F, 0, 0, 0, 0, 0, 0, 0, 0xAA] = .ok (.rbDmawr 1 63 0xAA, []) ∧
    decode stdParams [0x2F, 0x00, 0x01, 0x53, 0x30, 0x00] = .ok (.push 0 [0x53], [0x30, 0x00]) := by decide +kernel
theorem test_decode_scn : decode stdParams [0x30, 0x00] = .ok (.scan 0, []) ∧ decode stdParams [0x31, 0x01] = .ok (.scnIdle 1, []) ∧
    decode stdParams [0x32, 0x01] = .ok (.scnSkip 1, []) ∧ decode stdParams [0x33, 0x01] = .ok (.scnDefer 1, []) ∧
    decode stdParams [0x34, 0x01] = .ok (.scnAccept 1, []) ∧ decode stdParams [0x35, 0x01] = .ok (.scnReject 1, []) ∧
    decode stdParams [0x36, 0x01] = .ok (.scnDrain 1, []) := by decide +kernel
theorem test_decode_scn_frames : decode stdParams (0x37 :: frameC) = .ok (.decode frameC, []) ∧
    decode stdParams [0x38, 0x01] = .ok (.emit 1, []) := by decide +kernel
theorem test_decode_rrs : decode stdParams [0x40, 0x01] = .ok (.svc 1, []) ∧ decode stdParams [0x41, 0x0B] = .ok (.ack 11, []) ∧
    decode stdParams [0x42, 0x03, 0x31, 0, 0, 0, 0, 0, 0, 0, 0x2F, 0, 0, 0, 0, 0, 0, 0] = .ok (.arm 3 49 47, []) ∧
    decode stdParams [0x43, 0x03, 0x02, 0x1A, 0x50, 0x50] = .ok (.dma 3 [0x1A, 0x50], [0x50]) ∧
    decode stdParams [0x44, 0x05] = .ok (.raise 5, []) := by decide +kernel
theorem test_decode_dma : decode stdParams [0x45, 0x03, 0x01] = .ok (.dmaConfig 3 1, []) ∧ decode stdParams [0x46, 0x0B] = .ok (.dmaByte 11, []) ∧
    decode stdParams [0x47, 0x07] = .ok (.dmaDone 7, []) := by decide +kernel
theorem test_decode_dmx : decode stdParams [0x50] = .ok (.irq, []) ∧ decode stdParams [0x51, 0x05] = .ok (.lookup 5, []) ∧
    decode stdParams [0x52, 0x03] = .ok (.dispatch 3, []) ∧ decode stdParams [0x53, 0x01, 0x05] = .ok (.fatal 1 5, []) := by decide +kernel
theorem test_decode_wire : decodeStream stdParams 1 [0x54] = some (.headerByte, []) ∧
    decodeStream stdParams 1 (frameA ++ [0x50]) = some (.frame frameA, [0x50]) ∧
    decodeStream stdParams 1 badFrame = some (.headerByte, badFrame.drop 1) ∧
    decodeStream stdParams 1 [0x50, 0x54] = some (.scnSkip 1, [0x54]) := by decide +kernel
theorem test_decode_refuses : decode stdParams [] = .error .truncated ∧ decode stdParams [0x03] = .error (.unlistedCode 0x03) ∧
    decode stdParams [0x55] = .error (.unlistedCode 0x55) ∧ decode stdParams frameA = .error (.unlistedCode 0x54) ∧
    decode stdParams [0x43, 0x03, 0x02, 0x1A] = .error .truncated := by decide +kernel
/-- No operand value is refused by the decoder: slot 255, channel 12, a fatal code 4 are judged by their operations. -/
theorem test_decode_takes_any_operand : decode stdParams [0x30, 0xFF] = .ok (.scan 255, []) ∧
    decode stdParams [0x44, 0x0C] = .ok (.raise 12, []) ∧ decode stdParams [0x53, 0x04, 0x00] = .ok (.fatal 4 0, []) ∧
    refusalOf (exec (.scan 255) State.reset) = some .slotNotValid ∧
    refusalOf (exec (.raise 12) State.reset) = some .channelOutOfRange := by decide +kernel
theorem test_decode_table_word : decodeTableWord 8 0x50 = some .irq ∧ decodeTableWord 24 0x010144 = some (.raise 1) ∧
    decodeTableWord 8 0x54 = some .headerByte := by decide +kernel
/-- HEADER_BYTE placed where the scanner fetches it, one byte at the scan position: a header with 46 bytes missing. -/
theorem test_fetch_header : (nextOf (step (State.reset.withFetchWord 8 0x54))).map (fun t => (t.result, t.scan)) =
    some (.next 46, none) := by decide +kernel
theorem test_fetch_word : (nextOf (step (State.reset.withFetchWord 16 0x0544))).map (fun t => (t.ints, t.trace)) =
    some (0b000000100000, []) := by decide +kernel

/-! ### SYS and DMX: the registry of V-DMX-1, programs P4 and P5. -/

theorem test_init : started.slot 0 = { valid := true, chan := 3, ctx := 0xCAFE0001, insert := 0, extract := 0, lastReq := 47, buf := [] } ∧
    started.chan 3 = { armed := true, waddr := 0, remaining := 47, cfg := configFor stdParams 0 } := by decide +kernel
theorem test_init_refusals : refusalOf (exec (.init 0 4 2) started) = some .slotOccupied ∧
    refusalOf (exec (.init 1 3 2) started) = some .channelTaken ∧ refusalOf (exec (.init 2 4 2) started) = some .slotOutOfRange ∧
    refusalOf (exec (.init 1 12 2) started) = some .channelOutOfRange ∧ refusalOf (exec (.init 1 7 2) running) = some .notConfigPhase := by
  decide +kernel
theorem test_enable : running.phase = .run ∧ refusalOf (exec .enable running) = some .notConfigPhase := by decide +kernel
theorem test_reset_leaves_halted : (stateOf (exec .reset halted)).phase = .config ∧
    (stateOf (exec .reset halted)).ints = 0 ∧ (stateOf (exec .reset halted)).chan 3 = Channel.reset := by decide +kernel
theorem test_lookup : (stateOf (exec (.lookup 3) started)).result = .slot (some 0) ∧
    (stateOf (exec (.lookup 5) started)).result = .slot none := by decide +kernel
theorem test_raise : raised.ints = 0b000000100000 ∧ raised.irqLine = true := by decide +kernel
theorem test_irq_fatal : halted.fatalOutput = (true, 1, 5) ∧ halted.ints = 0b000000100000 ∧ halted.irqLine = false ∧
    halted.slot 0 = running.slot 0 ∧ halted.chan 3 = running.chan 3 ∧
    refusalOf (exec .irq halted) = some .irqNotEnabled := by decide +kernel
theorem test_irq_serves : (stateOf (exec .irq (arrived frameA))).ints = 0 ∧
    cursors (stateOf (exec .irq (arrived frameA))) 0 = (47, 47) ∧
    (stateOf (exec .irq (arrived frameA))).chan 3 = { armed := true, waddr := 47, remaining := 47, cfg := configFor stdParams 0 } := by
  decide +kernel
theorem test_dispatch : seen (exec (.dispatch 3) (arrived frameA)) = seen (exec (.svc 0) (arrived frameA)) ∧
    (stateOf (exec (.dispatch 5) raised)).fatalOutput = (true, 1, 5) := by decide +kernel
theorem test_fatal_first_only :
    (stateOf (exec (.fatal 2 7) State.reset)).fatalOutput = (true, 2, 7) ∧
    (stateOf (exec (.fatal 1 3) (stateOf (exec (.fatal 2 7) State.reset)))).fatalOutput = (true, 2, 7) ∧
    refusalOf (exec (.fatal 3 0) State.reset) = some .notACause := by decide +kernel
theorem test_diag_word : (halted.diag.word 12).toNat = 0b010101 := by decide +kernel

/-! ### CHK: V-CHK-1, V-CHK-2, V-G1. -/

theorem test_crcStep : (stateOf (exec (.crcStep 0xEE 0x2C) State.reset)).result = .byte 0xD8 := by decide +kernel
theorem test_crcRange : (stateOf (exec (.crcRange (frameA.take 46)) State.reset)).result = .byte 0x50 ∧
    (stateOf (exec (.crcRange [0x31, 0x32, 0x33, 0x34, 0x35, 0x36, 0x37, 0x38, 0x39]) State.reset)).result = .byte 0xC3 := by
  decide +kernel
theorem test_frameValid : (stateOf (exec (.frameValid frameA) State.reset)).result = .valid true ∧
    (stateOf (exec (.frameValid badFrame) State.reset)).result = .valid false ∧
    (stateOf (exec (.frameValid frameC) State.reset)).result = .valid true := by decide +kernel

/-! ### RBS: V-RBS-1 to V-RBS-6. -/

theorem test_rbPhys : (stateOf (exec (.rbPhys 141) State.reset)).result = .offset 13 ∧
    (stateOf (exec (.rbPhys (-1)) State.reset)).result = .offset 63 := by decide +kernel
/-- Slot 0 with cursors across the 2^64 wrap. -/
def wrapped : State := started.setSlot 0 { started.slot 0 with insert := 37, extract := -10 }
theorem test_rbAvail_across_the_wrap : (stateOf (exec (.rbAvail 0) wrapped)).result = .avail 47 := by decide +kernel
theorem test_rbWindow : (stateOf (exec (.rbWindow 0 49 47) State.reset)).result = .window ⟨49, 15⟩ ⟨0, 32⟩ ∧
    (stateOf (exec (.rbWindow 0 17 47) State.reset)).result = .window ⟨17, 47⟩ ⟨0, 0⟩ ∧
    (stateOf (exec (.rbWindow 0 (-10) 47) State.reset)).result = .window ⟨54, 10⟩ ⟨0, 37⟩ ∧
    (stateOf (exec (.rbWindow 0 5 0) State.reset)).result = .window ⟨5, 0⟩ ⟨0, 0⟩ := by decide +kernel
/-- Slot 0 with FA at logical 49..95. -/
def straddling : State :=
  stateOf (exec (.push 0 frameA) (stateOf (exec (.scan 0) (pushed (List.replicate 49 0)))))
theorem test_rbCopy_across_the_end : nextOf (readScratch (stateOf (exec (.rbCopy 0 49 47) straddling)) 0 47) = some frameA ∧
    straddling.bufByte 0 63 = some 0xE5 ∧ straddling.bufByte 0 0 = some 0xD5 := by decide +kernel
/-- A PUSH of `CAPACITY` bytes advances `insert` by 64 (R106, R126). -/
theorem test_rbAdvi : cursors (stateOf (exec (.rbAdvi 0 2) (pushed (List.replicate 47 0)))) 0 = (49, 0) ∧
    cursors (stateOf (exec (.rbAdvi 0 64) started)) 0 = (64, 0) ∧
    cursors (stateOf (exec (.rbAdvi 0 320) started)) 0 = (320, 0) := by decide +kernel
theorem test_rbAdvx : cursors (stateOf (exec (.rbAdvx 0 47) (pushed (List.replicate 49 0)))) 0 = (49, 47) ∧
    refusalOf (exec (.rbAdvx 0 2) (pushed [0])) = some .pastInsert ∧
    refusalOf (exec (.rbAdvx 0 1) (opened [0x54])) = some .sequencerBusy := by decide +kernel
theorem test_rbDmawr : (stateOf (exec (.rbDmawr 0 63 0xAA) started)).bufByte 0 63 = some 0xAA ∧
    (stateOf (exec (.rbDmawr 0 63 0xAA) started)).bufByte 0 62 = none := by decide +kernel
/-- One writer, the armed channel of the slot, and never while the scanner reads (R45, R67). -/
theorem test_rbDmawr_one_writer : refusalOf (exec (.rbDmawr 1 63 0xAA) started) = some .dmaNotEnabled ∧
    refusalOf (exec (.rbDmawr 0 63 0xAA) (arrived frameA)) = some .dmaNotEnabled ∧
    refusalOf (exec (.rbDmawr 0 63 0xAA) (opened [0x54])) = some .dmaNotEnabled := by decide +kernel
theorem test_push : cursors (pushed [0x00, 0x11]) 0 = (2, 0) ∧ (pushed [0x00, 0x11]).bufByte 0 1 = some 0x11 ∧
    refusalOf (exec (.push 1 [0x00]) started) = some .slotNotValid ∧
    refusalOf (exec (.push 0 (List.replicate 65 0)) started) = some .noRoom := by decide +kernel

/-! ### SCN: V-SCN-1 to V-SCN-15, V-DEC-1. -/

theorem test_scan_resync : (stateOf (exec (.scan 0) (pushed ([0x54, 0x11, 0x22] ++ frameA ++ List.replicate 14 0)))).result = .next 47 ∧
    cursors (stateOf (exec (.scan 0) (pushed ([0x54, 0x11, 0x22] ++ frameA ++ List.replicate 14 0)))) 0 = (64, 64) ∧
    (stateOf (exec (.scan 0) (pushed ([0x54, 0x11, 0x22] ++ frameA ++ List.replicate 14 0)))).out =
      started.out ++ [.frameOut 0xCAFE0001 frameA (decodeFields stdParams frameA)] := by decide +kernel
theorem test_scan_worst : (stateOf (exec (.scan 0) (pushed (List.replicate 64 0x54)))).result = .next 1 ∧
    cursors (stateOf (exec (.scan 0) (pushed (List.replicate 64 0x54)))) 0 = (64, 18) := by decide +kernel
theorem test_scnIdle : (stateOf (exec (.scnIdle 0) started)).result = .next 47 ∧
    refusalOf (exec (.scnIdle 0) (pushed [0x00])) = some .classNotTaken := by decide +kernel
theorem test_scnSkip : (opened [0x54]).scan = some (openRegs [0x54]) ∧ cursors (opened [0x54]) 0 = (2, 0) := by decide +kernel
theorem test_scnDefer : (stateOf (exec (.scnDefer 0) (opened [0x54]))).result = .next 46 ∧
    cursors (stateOf (exec (.scnDefer 0) (opened [0x54]))) 0 = (2, 1) ∧
    (stateOf (exec (.scnDefer 0) (opened [0x54]))).scan = none := by decide +kernel
theorem test_scnAccept : (stateOf (exec (.scnAccept 0) (opened frameA))).scan =
      some { slot := 0, available := 48, consumed := 48 } ∧
    (stateOf (exec (.scnAccept 0) (opened frameA))).out =
      started.out ++ [.frameOut 0xCAFE0001 frameA (decodeFields stdParams frameA)] := by decide +kernel
theorem test_scnReject : (stateOf (exec (.scnReject 0) (opened badFrame))).scan =
      some { slot := 0, available := 48, consumed := 2 } ∧
    (stateOf (exec (.scnReject 0) (opened badFrame))).out = started.out := by decide +kernel
theorem test_scnDrain : (stateOf (exec (.scnDrain 0) (opened []))).result = .next 47 ∧
    cursors (stateOf (exec (.scnDrain 0) (opened []))) 0 = (1, 1) := by decide +kernel
theorem test_decode_fields : (decodeFields stdParams frameA).speed = 2152 ∧ (decodeFields stdParams frameA).startAngle = 32427 ∧
    (decodeFields stdParams frameA).samples[11]? = some ⟨192, 229⟩ ∧ (decodeFields stdParams frameA).endAngle = 33470 ∧
    (decodeFields stdParams frameA).timestamp = 6714 ∧ (decodeFields stdParams frameA).checksum = 0x50 := by decide +kernel
theorem test_decode_op : (stateOf (exec (.decode frameC) State.reset)).result = .fields (decodeFields stdParams frameC) ∧
    (decodeFields stdParams frameC).timestamp = 65535 ∧ (decodeFields stdParams frameC).samples[5]? = some ⟨505, 84⟩ := by decide +kernel
theorem test_emit_waits : (stateOf (exec (.emit 0) (deaf (stateOf (exec (.scan 0) (pushed frameA)))))).held = some .emit ∧
    faultOf (exec (.emit 0) started) = some .unwrittenScratch := by decide +kernel
theorem test_headerByte : seen (exec .headerByte (opened frameA)) = seen (exec (.scnAccept 0) (opened frameA)) ∧
    seen (exec .headerByte (opened [0x54])) = seen (exec (.scnDefer 0) (opened [0x54])) ∧
    refusalOf (exec .headerByte started) = some .noScanInProgress := by decide +kernel
theorem test_frame : seen (exec (.frame frameA) (opened frameA)) = seen (exec (.scnAccept 0) (opened frameA)) ∧
    refusalOf (exec (.frame frameC) (opened frameA)) = some .classNotTaken := by decide +kernel

/-! ### RRS: V-RRS-1, V-RRS-4, V-RBS-6. -/

/-- The state before the second service of P2: two bytes of garbage, FA, the last two bytes just delivered. -/
def beforeSecondService : State :=
  stateOf (exec (.dma 3 [0x1A, 0x50]) (stateOf (exec .irq (arrived ([0x00, 0x11] ++ frameA.take 45)))))
theorem test_svc : cursors (stateOf (exec (.svc 0) beforeSecondService)) 0 = (49, 49) ∧
    (stateOf (exec (.svc 0) beforeSecondService)).out = beforeSecondService.out ++
      [.frameOut 0xCAFE0001 frameA (decodeFields stdParams frameA), .ackReq 3, .armReq 3 49 47] ∧
    (stateOf (exec (.svc 0) beforeSecondService)).ints = 0 := by decide +kernel
/-- After INIT the channel is armed: no service (R67, R175). -/
theorem test_svc_armed : refusalOf (exec (.svc 0) (pushed frameA)) = some .channelArmed := by decide +kernel
theorem test_ack : (stateOf (exec (.ack 3) { running with ints := 0b000010101000 })).ints = 0b000010100000 := by decide +kernel
theorem test_arm : (stateOf (exec (.arm 4 49 47) running)).chan 4 =
      { armed := true, waddr := 49, remaining := 47, cfg := ChanCfg.reset } ∧
    refusalOf (exec (.arm 4 0 0) running) = some .countOutOfRange ∧ refusalOf (exec (.arm 4 0 48) running) = some .countOutOfRange ∧
    refusalOf (exec (.arm 3 0 47) running) = some .channelArmed := by decide +kernel
theorem test_dma : (arrived frameA).ints = 0b000000001000 ∧ (arrived frameA).bufByte 0 46 = some 0x50 ∧
    refusalOf (exec (.dma 3 [0x00]) running) = some .dmaIllFormed ∧ refusalOf (exec (.dma 4 []) running) = some .dmaIllFormed := by
  decide +kernel
theorem test_dma_wraps : (stateOf (exec (.dma 3 frameA) (stateOf (exec .irq (arrived frameA))))).bufByte 0 29 = some 0x50 ∧
    ((stateOf (exec (.dma 3 frameA) (stateOf (exec .irq (arrived frameA))))).chan 3).waddr = 30 := by decide +kernel
theorem test_dmaConfig : (stateOf (exec (.dmaConfig 4 1) running)).chan 4 =
    { armed := false, waddr := 0, remaining := 0, cfg := configFor stdParams 1 } := by decide +kernel
/-- Channel 3 armed for one byte at the last offset, one byte waiting at peripheral 0. -/
def oneByteToGo : State :=
  (running.setUart 0 { rx := [0xAB], drawn := 0 }).setChan 3
    { armed := true, waddr := 63, remaining := 1, cfg := configFor stdParams 0 }
theorem test_dmaByte : (stateOf (exec (.dmaByte 3) oneByteToGo)).bufByte 0 63 = some 0xAB ∧
    (stateOf (exec (.dmaByte 3) oneByteToGo)).chan 3 = { armed := true, waddr := 0, remaining := 0, cfg := configFor stdParams 0 } ∧
    refusalOf (exec (.dmaByte 4) oneByteToGo) = some .dmaNotEnabled ∧
    refusalOf (exec (.dmaByte 3) (opened [0x54])) = some .bufferBeingRead := by decide +kernel
theorem test_dmaDone : (stateOf (exec (.dmaDone 3) (stateOf (exec (.dmaByte 3) oneByteToGo)))).ints = 0b000000001000 ∧
    ((stateOf (exec (.dmaDone 3) (stateOf (exec (.dmaByte 3) oneByteToGo)))).chan 3).armed = false ∧
    refusalOf (exec (.dmaDone 3) oneByteToGo) = some .dmaNotEnabled := by decide +kernel

/-! ### The step. -/

theorem test_waits_for_the_consumer : waiting.held = some (.irq 0b000000001000 3 { slot := 0, available := 47, consumed := 0 }) ∧
    waiting.ints = 0b000000001000 ∧ cursors waiting 0 = (47, 0) := by decide +kernel
theorem test_goes_on_when_it_returns : seen (step { waiting with consumer := Consumer.dutiful }) =
    seen (exec .irq (arrived frameA)) := by decide +kernel

/-- Two slots, a frame in each, both bits pending. -/
def both : State :=
  stateOf (exec (.dma 7 frameC) (stateOf (exec (.dma 3 frameA) (stateOf (exec .enable
    (stateOf (exec (.init 1 7 0xCAFE0002) started)))))))

/-- Its run of IRQ with a consumer that takes slot 0's frame and hangs in slot 1's (42_scanner.md R153). -/
def halfway : State := stateOf (exec .irq (answering [true, false] both))

theorem test_second_frame_waits : halfway.held = some (.irq 0b000010000000 7 { slot := 1, available := 47, consumed := 0 }) ∧
    halfway.ints = 0b000010000000 ∧ (halfway.chan 3).armed = true ∧ (halfway.chan 7).armed = false ∧
    cursors halfway 0 = (47, 47) ∧ cursors halfway 1 = (47, 0) ∧
    seen (step halfway) = seen (exec .irq both) := by decide +kernel
theorem test_reset_in_the_second_wait : (nextOf (step { deaf halfway with trace := [0x00] })).map
    (fun t => (t.held, t.ints, (t.slot 1).valid, t.phase)) = some (none, 0, false, .config) := by decide +kernel
theorem test_interrupt_is_taken : seen (step (arrived frameA)) = seen (exec .irq (arrived frameA)) := by decide +kernel
theorem test_open_scan_goes_on : seen (step (opened frameA)) = seen (exec (.scnAccept 0) (opened frameA)) ∧
    seen (step (opened [0x54])) = seen (exec (.scnDefer 0) (opened [0x54])) ∧
    seen (step (opened [0x00, 0x54])) = seen (exec (.scnSkip 0) (opened [0x00, 0x54])) ∧
    seen (step (opened [])) = seen (exec (.scnDrain 0) (opened [])) := by decide +kernel
theorem test_idle : seen (step State.reset) = seen (.next State.reset) := by decide +kernel
theorem test_run_of_program_P2 : cursors (stateOf (runBytes 3 ([0x00, 0x11] ++ frameA ++ [0x54]) running)) 0 = (49, 49) := by
  decide +kernel

end Sys2Proof.Tests
end

