-- ==== Sys2Proof/Tests/Witnesses.lean ====
section
/-! SUPPORT. For each statement of Certificates/Slice0/Obligations.lean that has hypotheses, concrete states and operands that
meet all of them together, clause by clause, at the ends of the ranges. The states are those of Tests/Slice0.lean. -/

namespace Sys2Proof.Tests

set_option Elab.async false

open Sys2Proof.Machine

/-- `st` with bytes of events to come. -/
def fed (st : State) (l : List Byte) : State := { st with trace := l }

/-! ### The step and the encoding. -/

theorem witness_StepRunsTheDecodedEvent_event : (fed started [0x02, 0x50]).resumes = false ∧
    (fed started [0x02, 0x50]).trace ≠ [] ∧
    decode (fed started [0x02, 0x50]).par (fed started [0x02, 0x50]).trace = .ok (.enable, [0x50]) ∧
    (fed started [0x02, 0x50]).held = none := by decide +kernel
theorem witness_StepRunsTheDecodedEvent_held : (fed waiting [0x44, 0x05]).resumes = false ∧
    decode (fed waiting [0x44, 0x05]).par (fed waiting [0x44, 0x05]).trace = .ok (.raise 5, []) ∧
    (fed waiting [0x44, 0x05]).held ≠ none ∧ othersStep (.raise 5) = true ∧ othersStep (.scan 0) = false ∧
    decode (fed waiting [0x30, 0x00]).par (fed waiting [0x30, 0x00]).trace = .ok (.scan 0, []) := by decide +kernel
theorem witness_StepRunsTheDecodedEvent_error : (fed started [0x03]).resumes = false ∧ (fed started [0x03]).trace ≠ [] ∧
    decode (fed started [0x03]).par (fed started [0x03]).trace = .error (.unlistedCode 0x03) := by decide +kernel
theorem witness_StepRunsTheDecodedEvent_resumes : State.resumes { waiting with consumer := Consumer.dutiful } = true := by
  decide +kernel
theorem witness_StepRunsTheDecodedEvent_hardware :
    (arrived frameA).resumes = false ∧ (arrived frameA).trace = [] ∧ (arrived frameA).irqLine = true ∧
    (arrived frameA).busy = false ∧ (arrived frameA).scan = none ∧ running.resumes = false ∧ running.trace = [] ∧
    running.irqLine = false ∧ running.scan = none := by decide +kernel
theorem witness_StepRunsTheDecodedEvent_scan : (opened frameA).held = none ∧ (opened frameA).trace = [] ∧
    (opened frameA).scan = some (openRegs frameA) ∧ (opened frameA).par.wf = true ∧
    (opened frameA).par.frameSize ≤ (openRegs frameA).remainder ∧ frameA.length = (opened frameA).par.frameSize ∧
    frameA[0]? = some (opened frameA).par.header ∧ (opened frameA).holds 0 ((openRegs frameA).pos (opened frameA)) frameA ∧
    decodeStream (opened frameA).par 0 frameA = some (.frame frameA, []) ∧
    (opened [0x54]).logicalByte 0 ((openRegs [0x54]).pos (opened [0x54])) = some 0x54 ∧
    (openRegs [0x54]).consumed < (openRegs [0x54]).available ∧
    (openRegs [0x54]).remainder < (opened [0x54]).par.frameSize ∧ (opened []).scan = some (openRegs []) ∧
    (openRegs []).available ≤ (openRegs []).consumed := by decide +kernel
theorem witness_StepRunsTheDecodedEvent_idle (c : Nat) : State.reset.doneEnabled c = false ∧ State.reset.byteReady c = false := by
  have h : State.reset.chan c = Channel.reset := by
    simp [State.reset, State.resetWith, State.chan, List.getD_eq_getElem?_getD, List.getElem?_replicate]
    split <;> rfl
  simp [State.doneEnabled, State.byteReady, State.byteEnabled, h, Channel.reset]

theorem witness_DecodeOfEncode : (Instr.frame frameC).wf stdParams = true ∧ stdParams.wf = true ∧
    (Instr.dma 11 (List.replicate 255 0xFF)).wf stdParams = true ∧ (Instr.dma 11 [0xFF]).onStream = false ∧
    (Instr.rbAdvi 255 (2 ^ 64 - 1)).wf params57 = true := by decide +kernel

theorem witness_EncodeOfDecode :
    decode stdParams (encode stdParams (.arm 11 63 63) ++ [0x54]) = .ok (.arm 11 63 63, [0x54]) ∧
    decodeStream stdParams 0 (frameC ++ [0x54]) = some (.frame frameC, [0x54]) ∧
    decodeStream stdParams 1 [0x54, 0xFF] = some (.headerByte, [0xFF]) ∧
    decodeStream stdParams 1 [0xFF, 0x54] = some (.scnSkip 1, [0x54]) := by decide +kernel

theorem witness_SpecBytesDecode :
    (0x55 : Byte) ≠ 0x54 ∧ (0x54 : Byte).toNat ∉ [0x00, 0x01, 0x02, 0x10, 0x11, 0x12, 0x20, 0x21, 0x22, 0x23, 0x24, 0x25, 0x26, 0x2F, 0x30, 0x31, 0x32,
      0x33, 0x34, 0x35, 0x36, 0x37, 0x38, 0x40, 0x41, 0x42, 0x43, 0x44, 0x45, 0x46, 0x47, 0x50, 0x51, 0x52, 0x53] := by
  decide

/-! ### Initialisation, phases, the fatal stop. -/

theorem witness_ResetMeetsTheInvariants : params57.wf = true ∧ 1 ≤ 3 ∧ (nextOf (exec .reset halfway)).isSome = true := by
  decide +kernel

/-- A channel that no slot holds, judged by the slots that exist. -/
theorem free_of_slots {st : State} {c : Nat} (h : ∀ u < st.nSlots, st.owns u c = false) (u : Nat) : st.owns u c = false := by
  by_cases hu : u < st.nSlots
  · exact h u hu
  · simp only [State.owns, State.slot, List.getD_eq_getElem?_getD]
    rw [List.getElem?_eq_none (by simpa [State.nSlots] using hu)]
    rfl

theorem witness_InitCompletesExactlyWhenAdmitted : (started.phase = .config ∧ 1 < started.nSlots ∧ 11 < started.nChannels ∧
    (started.slot 1).valid = false ∧ (nextOf (exec (.init 1 11 0) started)).isSome = true) ∧ ∀ u, started.owns u 11 = false :=
  ⟨by decide +kernel, free_of_slots (by decide +kernel)⟩

/-- A block whose buffer is smaller than a frame. -/
def cramped : State := State.resetWith { stdParams with log2Cap := 5 } 2 12

theorem witness_InitMakesTheInstance : (started.phase = .config ∧ 1 < started.nSlots ∧ 0 < started.nChannels ∧
    (started.slot 1).valid = false ∧ started.par.frameSize ≤ started.par.capacity ∧ ¬ (running.phase = .config) ∧
    cramped.phase = .config ∧ 1 < cramped.nSlots ∧ 11 < cramped.nChannels ∧ (cramped.slot 1).valid = false ∧
    cramped.par.capacity < cramped.par.frameSize) ∧ (∀ u, started.owns u 0 = false) ∧ ∀ u, cramped.owns u 11 = false :=
  ⟨by decide +kernel, free_of_slots (by decide +kernel), free_of_slots (by decide +kernel)⟩

theorem witness_EnableStartsRun : started.phase = .config ∧ running.phase ≠ .config ∧ halted.phase ≠ .config := by decide +kernel

theorem witness_FatalEntryRecordsTheFirst : running.fatal = false ∧ halted.fatal = true ∧ ((1 : Nat) = 1 ∨ (1 : Nat) = 2) ∧
    ((2 : Nat) = 1 ∨ (2 : Nat) = 2) ∧ 0 < running.nChannels ∧ 11 < halted.nChannels ∧ ¬ ((3 : Nat) = 1 ∨ (3 : Nat) = 2) ∧
    running.nChannels ≤ 12 := by decide +kernel

theorem witness_PhaseMovesOnlyForward : (nextOf (step (fed started [0x02]))).isSome = true ∧
    (nextOf (step (fed raised [0x50]))).map State.phase = some .halted := by decide +kernel

theorem witness_HaltedBlockStandsStill : halted.fatal = true ∧ halted.held = none ∧
    (nextOf (step (fed halted [0x2F, 0x00, 0x01, 0x54]))).isSome = true ∧
    (nextOf (step (fed halted [0x46, 0x03]))).isSome = true ∧
    decode stdParams [0x46, 0x03] ≠ .ok (.reset, []) := by decide +kernel

/-! ### The checksum. -/

theorem witness_ChecksumOperationsReturn : State.reset.par.wf = true ∧ frameA.length = State.reset.par.frameSize ∧
    (frameA.take 46).length ≠ State.reset.par.frameSize := by decide +kernel

/-- Parameters with the table that gives back its index. -/
def identityTable : Params := { stdParams with crcTable := Vector.ofFn fun i => BitVec.ofNat 8 i.val }

theorem tableAt_identity : ∀ i : Byte, tableAt identityTable i = i := by decide +kernel

theorem witness_OneChangedByteInvalidates : Function.Injective (tableAt identityTable) ∧
    ((List.replicate 47 (0 : Byte)).length = identityTable.frameSize ∧ 0 < identityTable.frameSize ∧
    46 < identityTable.frameSize ∧ (List.replicate 47 (0 : Byte))[0]? ≠ some 1 ∧ (List.replicate 47 (0 : Byte))[46]? ≠ some 1 ∧
    frameValid identityTable (List.replicate 47 0) = true) :=
  ⟨fun a b h => by rw [tableAt_identity, tableAt_identity] at h; exact h, by decide +kernel⟩

/-! ### The ring buffer. -/

/-- Slot 0 with a full buffer across the 2^64 wrap. -/
def fullAcrossTheWrap : State := wrapped.setSlot 0 { wrapped.slot 0 with insert := 54 }

theorem witness_CursorOperationsReturn : 1 < started.nSlots ∧ started.nSlots ≤ 2 ∧ fullAcrossTheWrap.par.wf = true ∧
    (2 ^ 64 - 10 : Nat) ≤ 2 ^ 64 + 54 ∧ (2 ^ 64 + 54) - (2 ^ 64 - 10) ≤ fullAcrossTheWrap.par.capacity ∧
    (fullAcrossTheWrap.slot 0).extract = BitVec.ofNat 64 (2 ^ 64 - 10) ∧
    (fullAcrossTheWrap.slot 0).insert = BitVec.ofNat 64 (2 ^ 64 + 54) := by decide +kernel

theorem witness_WindowCoversTheRange : started.par.wf = true ∧ 1 < started.nSlots ∧ 64 ≤ started.par.capacity ∧
    started.par.capacity < 65 ∧ started.nSlots ≤ 2 := by decide +kernel

/-- Slot 0 with `insert` moved by 47 and nothing stored. -/
def unwritten : State := stateOf (exec (.rbAdvi 0 47) started)

theorem witness_CopyReadsTheLogicalBytes : straddling.par.wf = true ∧ straddling.fatal = false ∧ 0 < straddling.nSlots ∧
    47 ≤ straddling.par.frameSize ∧ straddling.readable 0 49 47 = true ∧ straddling.written 0 49 47 ∧
    straddling.par.frameSize < 48 ∧ straddling.readable 0 50 47 = false ∧ straddling.readable 0 48 1 = false ∧
    unwritten.par.wf = true ∧ unwritten.fatal = false ∧ unwritten.readable 0 0 1 = true ∧ ¬ unwritten.written 0 0 1 := by
  decide +kernel

theorem witness_CursorsAdvance : started.fatal = false ∧ 0 < started.nSlots ∧ started.nSlots ≤ 2 ∧
    started.reading 0 = false ∧ (pushed (List.replicate 64 0)).reading 0 = false ∧ (opened []).reading 0 = true ∧
    64 ≤ ((pushed (List.replicate 64 0)).avail 0).toNat ∧ ((pushed (List.replicate 64 0)).avail 0).toNat < 65 := by decide +kernel

theorem witness_DmawrStoresOneByte : 0 < started.nSlots ∧ 63 < started.par.capacity ∧ (started.slot 0).valid = true ∧
    (started.chan (started.slot 0).chan).armed = true ∧ (started.chan (started.slot 0).chan).remaining ≠ 0 ∧
    (started.chan (started.slot 0).chan).cfg.slot = 0 ∧ started.reading 0 = false ∧ started.nSlots ≤ 2 ∧
    started.par.capacity ≤ 64 ∧ (started.slot 1).valid = false ∧
    ((arrived frameA).chan ((arrived frameA).slot 0).chan).armed = false ∧ (opened []).reading 0 = true := by decide +kernel

theorem witness_PushDelivers : started.par.wf = true ∧ (started.slot 0).valid = true ∧
    (started.avail 0).toNat + (List.replicate 64 (0 : Byte)).length ≤ started.par.capacity ∧ (started.slot 1).valid = false ∧
    started.par.capacity < ((pushed [0]).avail 0).toNat + (List.replicate 64 (0 : Byte)).length := by decide +kernel

theorem witness_BuffersAndBitsKeepTheirWriters : (nextOf (step (arrived frameA))).isSome = true ∧
    bitSet (arrived frameA).ints 3 = true ∧ bitSet (stateOf (step (arrived frameA))).ints 3 = false := by decide +kernel

theorem witness_StepKeepsMemoriesCanonical : (fed started [0x2F, 0x00, 0x01, 0x54]).par.wf = true ∧
    (fed started [0x2F, 0x00, 0x01, 0x54]).fits ∧ (fed started [0x2F, 0x00, 0x01, 0x54]).memWf = true ∧
    (nextOf (step (fed started [0x2F, 0x00, 0x01, 0x54]))).isSome = true ∧ straddling.memWf = true := by decide +kernel

theorem witness_StepKeepsTheShape : both.par.wf = true ∧ both.fits ∧ (nextOf (step both)).isSome = true ∧ halfway.fits := by
  decide +kernel

/-! ### The scanner. -/

theorem witness_IdleScanIsANoOp : started.ready ∧ (started.slot 0).valid = true ∧ started.avail 0 = 0 := by decide +kernel

theorem witness_SkipConsumesOneByte : State.scanning (pushed [0x53]) 0 { slot := 0, available := 1, consumed := 0 } ∧
    (pushed [0x53]).logicalByte 0 (ScanRegs.pos { slot := 0, available := 1, consumed := 0 } (pushed [0x53])) = some 0x53 ∧
    (0x53 : Byte) ≠ (pushed [0x53]).par.header ∧ (opened [0x00]).scanning 0 (openRegs [0x00]) := by decide +kernel

theorem witness_DeferRequestsTheMissingBytes : (opened [0x54]).scanning 0 (openRegs [0x54]) ∧
    (opened [0x54]).logicalByte 0 ((openRegs [0x54]).pos (opened [0x54])) = some (opened [0x54]).par.header ∧
    (openRegs [0x54]).available - (openRegs [0x54]).consumed < (opened [0x54]).par.frameSize ∧
    State.scanning (pushed (frameA.take 46)) 0 { slot := 0, available := 46, consumed := 0 } ∧
    (pushed (frameA.take 46)).logicalByte 0
      (ScanRegs.pos { slot := 0, available := 46, consumed := 0 } (pushed (frameA.take 46))) = some 0x54 := by decide +kernel

theorem witness_AcceptDeliversTheFrame : (opened frameA).par.wf = true ∧ (opened frameA).scanning 0 (openRegs frameA) ∧
    (opened frameA).par.frameSize ≤ (openRegs frameA).available - (openRegs frameA).consumed ∧
    (opened frameA).validFrame frameA ∧ (opened frameA).holds 0 ((openRegs frameA).pos (opened frameA)) frameA ∧
    (opened frameA).consumer.reply = true ∧ (deaf (opened frameA)).scanning 0 (openRegs frameA) ∧
    (deaf (opened frameA)).consumer.reply = false := by decide +kernel

theorem witness_RejectConsumesOneByte : (opened badFrame).par.wf = true ∧ (opened badFrame).scanning 0 (openRegs badFrame) ∧
    (opened badFrame).par.frameSize ≤ (openRegs badFrame).available - (openRegs badFrame).consumed ∧
    badFrame.length = (opened badFrame).par.frameSize ∧ badFrame[0]? = some (opened badFrame).par.header ∧
    frameValid (opened badFrame).par badFrame = false ∧
    (opened badFrame).holds 0 ((openRegs badFrame).pos (opened badFrame)) badFrame := by decide +kernel

theorem witness_DrainCommitsEverything : (opened []).scanning 0 (openRegs []) ∧
    (openRegs []).consumed = (openRegs []).available ∧ 0 < (openRegs []).available := by decide +kernel

/-- An open scan that counts one byte more than has arrived. -/
def beyond : State := { opened [0x54] with scan := some { slot := 0, available := 3, consumed := 1 } }

theorem witness_OnlyTheTakenClassRuns : (opened frameA).scanning 0 (openRegs frameA) ∧
    nextOf (classify (openRegs frameA) (opened frameA)) = some .accept ∧ ScanClass.reject ≠ .accept ∧
    beyond.scan = some { slot := 0, available := 3, consumed := 1 } ∧ (beyond.avail 0).toNat < 3 := by decide +kernel

theorem witness_ScanStaysInsideTheWindow : (opened [0x00]).par.wf = true ∧ (opened [0x00]).scanLegal ∧
    (opened [0x00]).scan.isSome = true ∧ (nextOf (step (opened [0x00]))).isSome = true ∧ waiting.scanLegal ∧
    waiting.held.isSome = true ∧ (nextOf (step { waiting with consumer := Consumer.dutiful })).isSome = true := by decide +kernel

theorem witness_HeaderByteIsTheCandidateArm : (opened frameA).par.wf = true ∧
    (opened frameA).scanning 0 (openRegs frameA) ∧ (opened frameA).held = none ∧ (opened frameA).trace = [] ∧
    (opened frameA).scan = some (openRegs frameA) ∧ nextOf (classify (openRegs frameA) (opened frameA)) = some .accept ∧ (openRegs frameA).consumed < (openRegs frameA).available ∧
    (opened frameA).logicalByte 0 ((openRegs frameA).pos (opened frameA)) = some 0x54 ∧
    (opened frameA).par.frameSize ≤ (openRegs frameA).available - (openRegs frameA).consumed ∧
    (opened frameA).holds 0 ((openRegs frameA).pos (opened frameA)) frameA ∧ frameValid (opened frameA).par frameA = true ∧
    (opened [0x54]).scan = some (openRegs [0x54]) ∧
    (opened [0x54]).logicalByte 0 ((openRegs [0x54]).pos (opened [0x54])) = some 0x54 ∧
    started.scan = none ∧ (opened badFrame).scan = some (openRegs badFrame) ∧
    (opened badFrame).holds 0 ((openRegs badFrame).pos (opened badFrame)) badFrame := by decide +kernel

theorem witness_DecodeReturnsTheRecord : frameA.length = State.reset.par.frameSize ∧ State.reset.par.nSamples = 12 ∧
    State.reset.par.laidOut = true ∧ (frameA ++ [0x00]).length ≠ State.reset.par.frameSize ∧
    frameA[44]? = some 0x3A ∧ frameA[45]? = some 0x1A ∧ (decodeFields State.reset.par frameA).samples[11]? = some ⟨192, 229⟩ ∧
    params57.laidOut = false := by decide +kernel

theorem witness_EmitSendsTheScratchFrame : (stateOf (exec (.scan 0) (pushed frameA))).fatal = false ∧
    (stateOf (exec (.scan 0) (pushed frameA))).held = none ∧
    ((stateOf (exec (.scan 0) (pushed frameA))).slot 0).valid = true ∧ frameA.length = 47 ∧
    (stateOf (exec (.scan 0) (pushed frameA))).par.frameSize = 47 ∧
    (∀ i < 47, (stateOf (exec (.scan 0) (pushed frameA))).scratchByte i = frameA[i]?) ∧
    frameValid stdParams frameA = true := by decide +kernel

/-- Slot 0 with 64 header bytes. -/
def headers : State := pushed (List.replicate 64 0x54)

theorem witness_ScanCompletes : headers.par.wf = true ∧ headers.ready ∧ (headers.slot 0).valid = true ∧
    (headers.avail 0).toNat ≤ headers.par.capacity ∧ headers.written 0 (headers.slot 0).extract (headers.avail 0).toNat ∧
    headers.consumer.prompt ∧ (stateOf (exec (.scan 0) (deaf (pushed frameA)))).held.isSome = true ∧
    (started.slot 1).valid = false ∧
    started.par.capacity < ((stateOf (exec (.rbAdvi 0 63) (pushed [0, 0]))).avail 0).toNat ∧
    (opened []).busy = true ∧ halted.fatal = true := by decide +kernel

theorem witness_ScanIsItsClasses : (pushed frameA).par.wf = true ∧ (pushed frameA).ready ∧
    ((pushed frameA).slot 0).valid = true ∧ ((pushed frameA).avail 0).toNat ≤ (pushed frameA).par.capacity ∧
    (pushed frameA).consumer.prompt := by decide +kernel

/-- FA at logical 47..93, across the physical end, nothing before it left. -/
def shifted : State := stateOf (exec (.push 0 frameA) (stateOf (exec (.scan 0) (pushed frameA))))

theorem witness_ScanIgnoresPhysicalAlignment : (pushed frameA).par.wf = true ∧ shifted.par = (pushed frameA).par ∧
    (pushed frameA).ready ∧ shifted.ready ∧ (pushed frameA).consumer.prompt ∧ shifted.consumer.prompt ∧
    (shifted.slot 0).valid = true ∧
    shifted.avail 0 = (pushed frameA).avail 0 ∧ (shifted.slot 0).ctx = ((pushed frameA).slot 0).ctx ∧
    (∀ i < ((pushed frameA).avail 0).toNat, shifted.logicalByte 0 (advance (shifted.slot 0).extract i) =
      (pushed frameA).logicalByte 0 (advance ((pushed frameA).slot 0).extract i)) ∧
    (nextOf (exec (.scan 0) (pushed frameA))).isSome = true := by decide +kernel

/-- Garbage with a false header in it. -/
def garbage : List Byte := [0x54, 0x11, 0x22]

/-- Slot 0 with the garbage and FA behind it. -/
def afterGarbage : State := pushed (garbage ++ frameA)

theorem witness_ScanFindsTheFrameAfterGarbage : afterGarbage.par.wf = true ∧ afterGarbage.ready ∧
    (afterGarbage.slot 0).valid = true ∧ afterGarbage.consumer.prompt ∧ afterGarbage.validFrame frameA ∧
    (afterGarbage.avail 0).toNat = garbage.length + afterGarbage.par.frameSize ∧
    garbage.length + afterGarbage.par.frameSize ≤ afterGarbage.par.capacity ∧
    afterGarbage.holds 0 (afterGarbage.slot 0).extract (garbage ++ frameA) ∧
    (∀ j < garbage.length, (garbage ++ frameA)[j]? = some 0x54 →
      frameValid stdParams (((garbage ++ frameA).drop j).take 47) = false) := by decide +kernel

theorem witness_RequestSizingIsExact : (pushed [0x54]).par.wf = true ∧
    (nextOf (exec (.scan 0) (pushed [0x54]))).isSome = true ∧ (stateOf (exec (.scan 0) (pushed [0x54]))).held = none ∧
    (stateOf (exec (.scan 0) (pushed [0x54]))).result = .next 46 ∧ 46 < (pushed [0x54]).par.frameSize ∧
    (stateOf (exec (.scan 0) headers)).result = .next 1 := by decide +kernel

theorem witness_OnlyValidFramesAreDelivered : (arrived frameA).par.wf = true ∧ (nextOf (step (arrived frameA))).isSome = true ∧
    (stateOf (step (arrived frameA))).out.length = (arrived frameA).out.length + 3 := by decide +kernel

theorem witness_WaitingChangesNothing_first : both.par.wf = true ∧ both.held = none ∧ (∀ b ∈ [true], b = true) ∧
    (answering [true, false] both).consumer.replies = [true] ++ false :: [] ∧
    (nextOf (exec .irq (answering [true, false] both))).isSome = true ∧ halfway.held ≠ none ∧
    (deaf both).consumer.replies = [] ∧ (deaf both).consumer.thereafter = false ∧
    (stateOf (exec .irq (deaf both))).held ≠ none := by decide +kernel

/-- A run of IRQ that waits at slot 0's frame. -/
def inFirstWait : State := stateOf (exec .irq (deaf both))

theorem witness_WaitingChangesNothing_again : inFirstWait.par.wf = true ∧ inFirstWait.held ≠ none ∧
    inFirstWait.consumer.replies = [] ∧ inFirstWait.consumer.thereafter = false ∧
    (nextOf (resume inFirstWait)).isSome = true ∧ (stateOf (resume inFirstWait)).held ≠ none ∧
    (answering [false] inFirstWait).consumer.replies = [] ++ false :: [] ∧
    (stateOf (resume (answering [false] inFirstWait))).held ≠ none := by decide +kernel

/-! ### The rearm sequencer and the DMA engine. -/

theorem witness_ServiceAdvancesScansAcknowledgesRearms : beforeSecondService.par.wf = true ∧ beforeSecondService.ready ∧
    beforeSecondService.serviceable 0 ∧ (beforeSecondService.chan (beforeSecondService.slot 0).chan).armed = false ∧
    beforeSecondService.consumer.prompt ∧ (started.chan (started.slot 0).chan).armed = true := by decide +kernel

theorem witness_AckAndArmDriveTheChannel : (arrived frameA).fatal = false ∧ 3 < (arrived frameA).nChannels ∧
    running.fatal = false ∧ 4 < running.nChannels ∧ 63 < running.par.capacity ∧ 47 ≤ running.par.frameSize ∧
    (running.chan 4).armed = false ∧ running.par.capacity ≤ 64 ∧ running.par.frameSize < 48 ∧ (running.chan 3).armed = true ∧
    running.nChannels ≤ 12 := by decide +kernel

theorem witness_DmaConfigPointsTheChannel : running.fatal = false ∧ 11 < running.nChannels ∧ 1 < running.nSlots ∧
    running.nChannels ≤ 12 ∧ running.nSlots ≤ 2 := by decide +kernel

theorem witness_DmaByteStoresAndDoneSetsTheBit_byte : oneByteToGo.fits ∧ oneByteToGo.reading 0 = false ∧
    (opened []).fits ∧ (opened []).reading ((opened []).chan 3).cfg.slot = true ∧ (oneByteToGo.chan 3).armed = true ∧
    (oneByteToGo.chan 3).remaining ≠ 0 ∧
    (oneByteToGo.uart (oneByteToGo.chan 3).cfg.slot).rx = [0xAB] ∧ (oneByteToGo.chan 4).armed = false ∧
    ((stateOf (exec (.dmaByte 3) oneByteToGo)).chan 3).remaining = 0 := by decide +kernel

theorem witness_DmaByteStoresAndDoneSetsTheBit_done : ((stateOf (exec (.dmaByte 3) oneByteToGo)).chan 3).armed = true ∧
    ((stateOf (exec (.dmaByte 3) oneByteToGo)).chan 3).remaining = 0 ∧ (oneByteToGo.chan 4).armed = false ∧
    (oneByteToGo.chan 3).remaining ≠ 0 := by decide +kernel

theorem witness_DmaTransfersTheWholeRequest : running.reading (running.chan 3).cfg.slot = false ∧
    (opened []).reading ((opened []).chan 3).cfg.slot = true ∧ running.fits ∧ (running.chan 3).armed = true ∧
    frameA.length = (running.chan 3).remaining ∧ frameA.length ≤ 0 + running.par.capacity ∧ (running.chan 4).armed = false ∧
    (frameA.take 46).length ≠ (running.chan 3).remaining := by decide +kernel

theorem witness_RaiseSetsTheBit : 11 < running.nChannels ∧ running.nChannels ≤ 12 := by decide +kernel

theorem witness_RequestsStayInRange : (pushed [0x54]).par.wf = true ∧ (nextOf (exec (.scan 0) (pushed [0x54]))).isSome = true ∧
    (stateOf (exec (.scan 0) (pushed [0x54]))).held = none ∧ (arrived frameA).par.wf = true ∧ (arrived frameA).requestsLegal ∧
    (nextOf (step (arrived frameA))).isSome = true := by decide +kernel

theorem witness_ProtocolIsKept : (arrived frameA).inProtocol ∧ ((arrived frameA).consumer.prompt ∧
    (arrived frameA).trace = [] ∧ (nextOf (step (arrived frameA))).isSome = true) :=
  ⟨⟨by decide +kernel, by decide +kernel, by decide +kernel, by decide +kernel, by decide +kernel, by decide +kernel⟩,
    by decide +kernel⟩

theorem witness_ProtocolIsKept_event : (fed (arrived frameA) [0x50]).inProtocol ∧
    ((fed (arrived frameA) [0x50]).consumer.prompt ∧ decode stdParams (fed (arrived frameA) [0x50]).trace = .ok (.irq, []) ∧
    protocolEvent .irq = true) :=
  ⟨⟨by decide +kernel, by decide +kernel, by decide +kernel, by decide +kernel, by decide +kernel, by decide +kernel⟩,
    by decide +kernel⟩

theorem witness_ProtocolNeverFaults : (fed beforeSecondService [0x50]).inProtocol ∧
    ((fed beforeSecondService [0x50]).consumer.prompt ∧
    decode stdParams (fed beforeSecondService [0x50]).trace = .ok (.irq, []) ∧ protocolEvent .irq = true) :=
  ⟨⟨by decide +kernel, by decide +kernel, by decide +kernel, by decide +kernel, by decide +kernel, by decide +kernel⟩,
    by decide +kernel⟩

theorem witness_LockStepDeliversEveryFrame : running.par.wf = true ∧ running.phase = .run ∧ running.ready ∧
    running.consumer.prompt ∧ running.ints = 0 ∧ running.lookup 3 = some 0 ∧
    (running.slot 0).extract = (running.slot 0).insert ∧ (running.slot 0).lastReq = running.par.frameSize ∧
    running.chan 3 = { armed := true, waddr := phys running.par (running.slot 0).insert, remaining := running.par.frameSize,
                       cfg := configFor running.par 0 } ∧
    running.validFrame frameA := by decide +kernel

/-! ### The registry and the interrupt. -/

theorem witness_LookupFindsTheOwner : 11 < running.nChannels ∧ running.nChannels ≤ 12 := by decide +kernel

theorem witness_RegistryIsWriteOnce : both.registryUnique ∧ ((nextOf (step both)).isSome = true ∧
    (both.slot 1).valid = true ∧ both.trace = []) := ⟨by decide +kernel, by decide +kernel⟩

theorem witness_StepKeepsDiagLegal : (fed raised [0x50]).diagLegal ∧ (nextOf (step (fed raised [0x50]))).isSome = true ∧
    halted.diagLegal := by decide +kernel

theorem witness_IrqServicesEveryPendingSlot : both.registryUnique ∧ (both.par.wf = true ∧ both.phase = .run ∧ both.ready ∧
    both.consumer.prompt ∧ both.ints < 2 ^ both.nChannels ∧ both.pendingChannels = [3, 7]) ∧
    (∀ c < both.nChannels, bitSet both.ints c = true → ∃ s < both.nSlots, both.owns s c = true ∧ both.serviceable s) ∧
    (running.phase = .run ∧ running.ready ∧ running.ints = 0 ∧ started.phase ≠ .run) :=
  ⟨by decide +kernel, by decide +kernel, by decide +kernel, by decide +kernel⟩

theorem witness_DispatchServesOrHalts : (((arrived frameA).chan 3).armed = false ∧ (arrived frameA).phase = .run ∧ (arrived frameA).ready ∧
    3 < (arrived frameA).nChannels ∧ bitSet (arrived frameA).ints 3 = true ∧ (arrived frameA).lookup 3 = some 0 ∧
    (arrived frameA).par.wf = true ∧ (arrived frameA).serviceable 0 ∧ (arrived frameA).consumer.prompt ∧
    raised.phase = .run ∧ raised.ready ∧ 5 < raised.nChannels ∧ bitSet raised.ints 5 = true ∧
    (∀ d, d < 5 → bitSet raised.ints d = false)) ∧ ∀ s, raised.owns s 5 = false :=
  ⟨by decide +kernel, free_of_slots (by decide +kernel)⟩

/-- A mask with a matched bit below an unmatched one (program P5). -/
def mixed : State := stateOf (exec (.raise 5) (arrived frameA))

theorem witness_FatalRunStopsAtTheUnmatchedBit : (nextOf (exec .irq mixed)).isSome = true ∧
    (stateOf (exec .irq mixed)).fatal = true := by decide +kernel

theorem witness_IrqClearsOnlyServicedBits : (nextOf (exec .irq mixed)).isSome = true ∧ bitSet mixed.ints 3 = true ∧
    bitSet (stateOf (exec .irq mixed)).ints 3 = false ∧ bitSet (stateOf (exec .irq mixed)).ints 5 = true := by decide +kernel

/-- The waiting run of IRQ, and bit 5 set meanwhile. -/
def waitingRaised : State := stateOf (exec (.raise 5) waiting)

theorem witness_BitsOutsideTheSnapshotWait :
    waitingRaised.held = some (.irq 0b000000001000 3 { slot := 0, available := 47, consumed := 0 }) ∧
    waitingRaised.owns 0 3 = true ∧ bitSet 0b000000001000 3 = true ∧ bitSet 0b000000001000 5 = false ∧
    bitSet waitingRaised.ints 5 = true ∧ (nextOf (resume waitingRaised)).isSome = true := by decide +kernel

end Sys2Proof.Tests
end

section
/-! Answers of an operation, and the shape of the machine: what every operation keeps of the parameters, the numbers of slots and
channels and the widths of the registers (00_scope.md R14, R15, R17), up to a whole step; and the state after reset. -/

namespace Sys2Proof.Machine

/-! ### What an operation answers when it completes. -/

/-- Where the operation answers next, the answer satisfies `P`. -/
def Ensures {α : Type} (P : α → Prop) (o : Out α) : Prop := ∀ a, o = .next a → P a

theorem ensures_next {α : Type} {P : α → Prop} {a : α} (h : P a) : Ensures P (.next a) := by
  rintro _ ⟨⟩
  exact h

theorem ensures_refused {α : Type} {P : α → Prop} (why : Refusal) : Ensures P (.refused why) := by
  rintro _ ⟨⟩

theorem ensures_require {α : Type} {P : α → Prop} {ok : Bool} {why : Refusal} {k : Out α}
    (h : ok = true → Ensures P k) : Ensures P (require ok why k) := fun a ha =>
  let ⟨hok, hk⟩ := require_eq_next.mp ha
  h hok a hk

theorem ensures_andThen {α β : Type} {Q : α → Prop} {P : β → Prop} {o : Out α} {k : α → Out β}
    (ho : Ensures Q o) (hk : ∀ a, Q a → Ensures P (k a)) : Ensures P (andThen o k) := fun b hb =>
  let ⟨a, ha, hkb⟩ := andThen_eq_next.mp hb
  hk a (ho a ha) b hkb

/-- The rule for a first part of which nothing needs to be known. -/
theorem ensures_andThen_any {α β : Type} {P : β → Prop} {o : Out α} {k : α → Out β}
    (hk : ∀ a, Ensures P (k a)) : Ensures P (andThen o k) :=
  ensures_andThen (Q := fun _ => True) (fun _ _ => trivial) fun a _ => hk a

/-! ### The widths. -/

theorem le_two_pow_bitsBelow (n : Nat) : n ≤ 2 ^ bitsBelow n := by
  unfold bitsBelow
  split
  · next h => simpa using h
  · have : n - 1 < 2 ^ ((n - 1).log2 + 1) := Nat.lt_log2_self
    omega

/-- A channel id is inside `CHAN_WIDTH` bits. -/
theorem lt_two_pow_chanWidth {c n : Nat} (h : c < n) : c < 2 ^ chanWidth n := Nat.lt_of_lt_of_le h (le_two_pow_bitsBelow n)

/-- A request of at most a frame is inside `REQ_WIDTH` bits. -/
theorem lt_two_pow_reqWidth {p : Params} {n : Nat} (h : n ≤ p.frameSize) : n < 2 ^ p.reqWidth :=
  Nat.lt_of_lt_of_le (Nat.lt_succ_of_le h) (le_two_pow_bitsBelow (p.frameSize + 1))

/-- The part of `State.fits` about one slot. -/
structure Slot.Fits (p : Params) (nChannels : Nat) (x : Slot) : Prop where
  chan : x.chan < 2 ^ chanWidth nChannels
  ctx : x.ctx < 2 ^ p.ctxWidth
  lastReq : x.lastReq < 2 ^ p.reqWidth
  chan_of_valid : x.valid = true → x.chan < nChannels

/-- The part of `State.fits` about one channel. -/
structure Channel.Fits (p : Params) (nSlots : Nat) (x : Channel) : Prop where
  waddr : x.waddr < p.capacity
  remaining : x.remaining < 2 ^ p.reqWidth
  cfg : x.cfg.slot < nSlots

theorem slotReset_fits (p : Params) (nChannels : Nat) : Slot.reset.Fits p nChannels :=
  ⟨Nat.two_pow_pos _, Nat.two_pow_pos _, Nat.two_pow_pos _, nofun⟩

theorem channelReset_fits (p : Params) {nSlots : Nat} (h : 0 < nSlots) : Channel.reset.Fits p nSlots :=
  ⟨capacity_pos p, Nat.two_pow_pos _, h⟩

variable {st t : State}

/-- `State.fits`, register by register; a slot that does not exist reads as an empty one, which fits. -/
theorem fits_iff : st.fits ↔ st.uarts.length = st.nSlots ∧ st.ints < 2 ^ st.nChannels ∧
    st.diag.chan < 2 ^ chanWidth st.nChannels ∧ (∀ s, (st.slot s).Fits st.par st.nChannels) ∧
    ∀ c < st.nChannels, (st.chan c).Fits st.par st.nSlots := by
  constructor
  · rintro ⟨hu, hi, hd, hs, hc⟩
    refine ⟨hu, hi, hd, fun s => ?_, fun c h => ?_⟩
    · by_cases h : s < st.nSlots
      · obtain ⟨h1, h2, h3, h4⟩ := hs s h
        exact ⟨h1, h2, h3, h4⟩
      · rw [slot_absent (Nat.le_of_not_lt h)]
        exact slotReset_fits _ _
    · obtain ⟨h1, h2, h3⟩ := hc c h
      exact ⟨h1, h2, h3⟩
  · rintro ⟨hu, hi, hd, hs, hc⟩
    exact ⟨hu, hi, hd, fun s _ => ⟨(hs s).chan, (hs s).ctx, (hs s).lastReq, (hs s).chan_of_valid⟩,
      fun c h => ⟨(hc c h).waddr, (hc c h).remaining, (hc c h).cfg⟩⟩

theorem ints_lt_of_fits (h : st.fits) : st.ints < 2 ^ st.nChannels :=
  let ⟨_, hi, _⟩ := h
  hi

theorem diagChan_lt_of_fits (h : st.fits) : st.diag.chan < 2 ^ chanWidth st.nChannels :=
  let ⟨_, _, hd, _⟩ := h
  hd

theorem slot_fits (h : st.fits) (s : Nat) : (st.slot s).Fits st.par st.nChannels :=
  let ⟨_, _, _, hs, _⟩ := fits_iff.mp h
  hs s

theorem chan_fits (h : st.fits) {c : Nat} (hc : c < st.nChannels) : (st.chan c).Fits st.par st.nSlots :=
  let ⟨_, _, _, _, hch⟩ := fits_iff.mp h
  hch c hc

/-! ### The shape, kept. -/

/-- From `st` to `t` the parameters and the numbers of slots and channels stay as they are, and registers inside their widths stay
inside them. -/
structure KeepsShape (st t : State) : Prop where
  par : t.par = st.par
  nSlots : t.nSlots = st.nSlots
  nChannels : t.nChannels = st.nChannels
  fits : st.par.wf = true → st.fits → t.fits

@[refl] theorem KeepsShape.refl (st : State) : KeepsShape st st := ⟨rfl, rfl, rfl, fun _ hf => hf⟩

theorem KeepsShape.trans {u : State} (h1 : KeepsShape st t) (h2 : KeepsShape t u) : KeepsShape st u where
  par := h2.par.trans h1.par
  nSlots := h2.nSlots.trans h1.nSlots
  nChannels := h2.nChannels.trans h1.nChannels
  fits hp hf := h2.fits (h1.par ▸ hp) (h1.fits hp hf)

/-- An update that writes no slot and no channel: only `INTS` and `DIAG` have widths to keep. -/
theorem keepsShape_of_same_lists (hp : t.par = st.par) (hs : t.slots = st.slots) (hc : t.chans = st.chans)
    (hu : t.uarts.length = st.uarts.length) (hi : st.fits → t.ints < 2 ^ st.nChannels)
    (hd : st.fits → t.diag.chan < 2 ^ chanWidth st.nChannels) : KeepsShape st t := by
  have hn : t.nSlots = st.nSlots := congrArg List.length hs
  have hm : t.nChannels = st.nChannels := congrArg List.length hc
  have hslot : ∀ s, t.slot s = st.slot s := fun s => congrArg (·.getD s Slot.reset) hs
  have hchan : ∀ c, t.chan c = st.chan c := fun c => congrArg (·.getD c Channel.reset) hc
  refine ⟨hp, hn, hm, fun _ hf => ?_⟩
  obtain ⟨hul, -, -, hsf, hcf⟩ := fits_iff.mp hf
  refine fits_iff.mpr ⟨hu.trans (hul.trans hn.symm), hm ▸ hi hf, hm ▸ hd hf, fun s => ?_, fun c h => ?_⟩
  · rw [hslot, hp, hm]
    exact hsf s
  · rw [hchan, hp, hn]
    exact hcf c (hm ▸ h)

/-- An update of none of the fields that `State.fits` speaks of. -/
theorem keepsShape_of_same_registers (hp : t.par = st.par := by rfl) (hs : t.slots = st.slots := by rfl)
    (hc : t.chans = st.chans := by rfl) (hu : t.uarts = st.uarts := by rfl) (hi : t.ints = st.ints := by rfl)
    (hd : t.diag = st.diag := by rfl) : KeepsShape st t :=
  keepsShape_of_same_lists hp hs hc (congrArg _ hu) (fun h => hi ▸ ints_lt_of_fits h) fun h => hd ▸ diagChan_lt_of_fits h

theorem keepsShape_setSlot {s : Nat} {x : Slot} (hx : st.par.wf = true → st.fits → x.Fits st.par st.nChannels) :
    KeepsShape st (st.setSlot s x) := by
  refine ⟨rfl, setSlot_nSlots st s x, rfl, fun hp hf => ?_⟩
  obtain ⟨hu, hi, hd, hs, hc⟩ := fits_iff.mp hf
  refine fits_iff.mpr ⟨by simpa using hu, hi, hd, fun u => ?_, by simpa using hc⟩
  rw [slot_setSlot]
  split
  · exact hx hp hf
  · exact hs u

theorem keepsShape_setChan {c : Nat} {x : Channel}
    (hx : st.par.wf = true → st.fits → c < st.nChannels → x.Fits st.par st.nSlots) : KeepsShape st (st.setChan c x) := by
  refine ⟨rfl, rfl, setChan_nChannels st c x, fun hp hf => ?_⟩
  obtain ⟨hu, hi, hd, hs, hc⟩ := fits_iff.mp hf
  refine fits_iff.mpr ⟨hu, by simpa using hi, by simpa using hd, by simpa using hs, fun d hdn => ?_⟩
  rw [chan_setChan]
  split
  · next h => exact hx hp hf h.2
  · exact hc d (by simpa using hdn)

theorem keepsShape_setUart (s : Nat) (x : Uart) : KeepsShape st (st.setUart s x) :=
  keepsShape_of_same_lists rfl rfl rfl (by simp) ints_lt_of_fits diagChan_lt_of_fits

theorem keepsShape_setResult (v : OpResult) : KeepsShape st (st.setResult v) := keepsShape_of_same_registers

theorem keepsShape_send (e : PortEvent) : KeepsShape st (st.send e) := keepsShape_of_same_registers

theorem keepsShape_with_scan (r : Option ScanRegs) : KeepsShape st { st with scan := r } := keepsShape_of_same_registers

theorem keepsShape_with_held (h : Option Held) : KeepsShape st { st with held := h } := keepsShape_of_same_registers

/-! ### The shared operations. -/

theorem keepsShape_ackChan (c : Nat) : KeepsShape st (ackChan c st) :=
  keepsShape_of_same_lists rfl rfl rfl rfl (fun h => clearBit_lt (ints_lt_of_fits h) c) diagChan_lt_of_fits

theorem keepsShape_raiseChan {c : Nat} (hc : c < st.nChannels) : KeepsShape st (raiseChan c st) :=
  keepsShape_of_same_lists rfl rfl rfl rfl (fun h => setBit_lt (ints_lt_of_fits h) hc) diagChan_lt_of_fits

theorem keepsShape_armChan {c waddr n : Nat} (hw : waddr < st.par.capacity) (hn : st.par.wf = true → n ≤ st.par.frameSize) :
    KeepsShape st (armChan c waddr n st) := by
  refine (keepsShape_setChan fun hp hf hc => ?_).trans (keepsShape_send _)
  exact ⟨hw, lt_two_pow_reqWidth (hn hp), (chan_fits hf hc).cfg⟩

theorem keepsShape_configChan {c s : Nat} (hs : s < st.nSlots) : KeepsShape st (configChan c s st) := by
  refine (keepsShape_setChan fun _ hf hc => ?_).trans (keepsShape_send _)
  exact { chan_fits hf hc with cfg := hs }

theorem keepsShape_advInsert (s n : Nat) : KeepsShape st (advInsert s n st) :=
  keepsShape_setSlot fun _ hf => { slot_fits hf s with }

theorem keepsShape_advExtract (s n : Nat) : KeepsShape st (advExtract s n st) :=
  keepsShape_setSlot fun _ hf => { slot_fits hf s with }

theorem keepsShape_writeBuf (s a : Nat) (b : Byte) : KeepsShape st (writeBuf s a b st) :=
  keepsShape_setSlot fun _ hf => { slot_fits hf s with }

theorem keepsShape_pushBytes (s : Nat) (c : Cursor) (bs : List Byte) : KeepsShape st (pushBytes s c bs st) := by
  induction bs generalizing c st with
  | nil => exact KeepsShape.refl st
  | cons b bs ih => exact (keepsShape_writeBuf s _ b).trans (ih _)

theorem keepsShape_storeByte (c : Nat) (b : Byte) : KeepsShape st (storeByte c b st) :=
  (keepsShape_writeBuf _ _ b).trans <| keepsShape_setChan fun _ hf hc =>
    have hch := chan_fits hf hc
    ⟨Nat.mod_lt _ (capacity_pos _), Nat.lt_of_le_of_lt (Nat.sub_le _ 1) hch.remaining, hch.cfg⟩

theorem keepsShape_transferByte (c : Nat) : KeepsShape st (transferByte c st) :=
  (keepsShape_setUart _ _).trans (keepsShape_storeByte c _)

theorem keepsShape_transferBytes (c : Nat) (bs : List Byte) : KeepsShape st (transferBytes c bs st) := by
  induction bs generalizing st with
  | nil => exact KeepsShape.refl st
  | cons b bs ih => exact ((keepsShape_setUart _ _).trans (keepsShape_storeByte c b)).trans ih

theorem keepsShape_finishTransfer {c : Nat} (hc : c < st.nChannels) : KeepsShape st (finishTransfer c st) := by
  refine (keepsShape_setChan fun _ hf hc => ?_).trans (keepsShape_raiseChan (by simpa using hc))
  exact { chan_fits hf hc with }

theorem keepsShape_raiseFatal (code : BitVec 2) {c : Nat} (hc : c < st.nChannels) : KeepsShape st (raiseFatal code c st) := by
  unfold raiseFatal
  split
  · exact keepsShape_of_same_registers
  · exact keepsShape_of_same_lists rfl rfl rfl rfl ints_lt_of_fits fun _ => lt_two_pow_chanWidth hc

theorem keepsShape_initSlot {s c : Nat} (h : Nat) (hs : s < st.nSlots) (hc : c < st.nChannels) :
    KeepsShape st (initSlot s c h st) := by
  unfold initSlot
  split
  · exact keepsShape_raiseFatal _ hc
  · have hslot := keepsShape_setSlot (st := st) (s := s) (x := { st.slot s with
      valid := true, chan := c, ctx := h % 2 ^ st.par.ctxWidth, insert := 0, extract := 0, lastReq := st.par.frameSize })
      fun _ _ => ⟨lt_two_pow_chanWidth hc, Nat.mod_lt _ (Nat.two_pow_pos _), lt_two_pow_reqWidth (Nat.le_refl _), fun _ => hc⟩
    exact (hslot.trans (keepsShape_configChan (by simpa using hs))).trans
      (keepsShape_armChan (capacity_pos _) fun _ => Nat.le_refl _)

/-! ### The state after reset. -/

@[simp] theorem resetWith_slot (p : Params) (n m s : Nat) : (State.resetWith p n m).slot s = Slot.reset :=
  List.getD_eq_getElem?_getD.trans (List.getElem?_getD_replicate_default_eq _ n s)

@[simp] theorem resetWith_chan (p : Params) (n m c : Nat) : (State.resetWith p n m).chan c = Channel.reset :=
  List.getD_eq_getElem?_getD.trans (List.getElem?_getD_replicate_default_eq _ m c)

@[simp] theorem resetWith_nSlots (p : Params) (n m : Nat) : (State.resetWith p n m).nSlots = n := List.length_replicate

@[simp] theorem resetWith_nChannels (p : Params) (n m : Nat) : (State.resetWith p n m).nChannels = m := List.length_replicate

/-- A machine as after reset fits, whatever its inputs, if a slot exists for its channels to point at. -/
theorem fits_of_emptied (hu : t.uarts.length = t.nSlots) (hi : t.ints = 0) (hd : t.diag.chan = 0)
    (hs : ∀ s, t.slot s = Slot.reset) (hc : ∀ c, t.chan c = Channel.reset) (hn : ∀ c < t.nChannels, 0 < t.nSlots) :
    t.fits := by
  refine fits_iff.mpr ⟨hu, hi ▸ Nat.two_pow_pos _, hd ▸ Nat.two_pow_pos _, fun s => ?_, fun c h => ?_⟩
  · rw [hs]
    exact slotReset_fits _ _
  · rw [hc]
    exact channelReset_fits _ (hn c h)

theorem resetWith_fits (p : Params) {n : Nat} (m : Nat) (hn : 1 ≤ n) : (State.resetWith p n m).fits :=
  fits_of_emptied (List.length_replicate.trans (resetWith_nSlots p n m).symm) rfl rfl (resetWith_slot p n m)
    (resetWith_chan p n m) fun _ _ => (resetWith_nSlots p n m).symm ▸ hn

@[simp] theorem resetBlock_nSlots : (resetBlock st).nSlots = st.nSlots := resetWith_nSlots st.par st.nSlots st.nChannels

@[simp] theorem resetBlock_nChannels : (resetBlock st).nChannels = st.nChannels :=
  resetWith_nChannels st.par st.nSlots st.nChannels

/-- RESET keeps the shape: a channel there was pointed at a slot, so there is a slot to point at. -/
theorem keepsShape_resetBlock : KeepsShape st (resetBlock st) := by
  refine ⟨rfl, resetBlock_nSlots, resetBlock_nChannels, fun _ hf => ?_⟩
  obtain ⟨hu, -⟩ := fits_iff.mp hf
  refine fits_of_emptied (hu.trans resetBlock_nSlots.symm) rfl rfl (resetWith_slot st.par st.nSlots st.nChannels)
    (resetWith_chan st.par st.nSlots st.nChannels) fun c hc => ?_
  rw [resetBlock_nChannels] at hc
  rw [resetBlock_nSlots]
  exact Nat.zero_lt_of_lt (chan_fits hf hc).cfg

theorem resetWith_memWf (p : Params) (n m : Nat) : (State.resetWith p n m).memWf = true :=
  memWf_iff.mpr ⟨fun s => by rw [resetWith_slot]; rfl, rfl⟩

theorem resetWith_registryUnique (p : Params) (n m : Nat) : (State.resetWith p n m).registryUnique := by
  intro s _ u _ hs
  rw [resetWith_slot] at hs
  cases hs

theorem resetWith_requestsLegal (p : Params) (n m : Nat) : (State.resetWith p n m).requestsLegal := by
  refine ⟨fun s _ h => ?_, fun c _ h => ?_⟩
  · rw [resetWith_slot] at h
    cases h
  · rw [resetWith_chan] at h
    cases h

theorem resetWith_inProtocol {p : Params} (hp : p.wf = true) (n m : Nat) : (State.resetWith p n m).inProtocol := by
  refine ⟨hp, rfl, rfl, resetWith_registryUnique p n m, fun s _ h => ?_, fun c _ h => ?_⟩
  · rw [resetWith_slot] at h
    cases h
  · rw [resetWith_chan] at h
    rcases h with h | h
    · cases h
    · rw [show (State.resetWith p n m).ints = 0 from rfl, bitSet_zero] at h
      cases h

theorem resetWith_diagLegal (p : Params) (n m : Nat) : (State.resetWith p n m).diagLegal := ⟨fun _ => rfl, nofun⟩

theorem resetWith_scanLegal (p : Params) (n m : Nat) : (State.resetWith p n m).scanLegal := ⟨Nat.zero_le 1, nofun, nofun⟩

/-- Settles O6: the slots and channels after reset are all `Slot.reset` and `Channel.reset`, which
meet each clause; so O6 is the `resetWith_` lemmas put together. -/
theorem resetMeetsTheInvariants : Obligations.ResetMeetsTheInvariants := by
  refine ⟨by decide, by decide, rfl, fun p n m hp hn => ?_, ?_⟩
  · exact ⟨resetWith_memWf p n m, resetWith_fits p m hn, resetWith_registryUnique p n m, resetWith_diagLegal p n m,
      resetWith_requestsLegal p n m, resetWith_inProtocol hp n m, resetWith_scanLegal p n m, rfl, rfl⟩
  · rintro st _ ⟨⟩
    exact ⟨rfl, rfl, rfl, rfl⟩

/-! ### Scans, services, the handler. -/

/-- A scan from `st` keeps the shape, and where it returns, it asks for at most a frame. -/
def ScanOut.Keeps (st : State) : ScanOut → Prop
  | .done n t => KeepsShape st t ∧ (st.par.wf = true → n ≤ st.par.frameSize)
  | .held _ t => KeepsShape st t

theorem keepsShape_of_scanMoved {s : Nat} (h : scanMoved s st t) : KeepsShape st t := by
  obtain ⟨sc, l, q, m, rfl⟩ := h
  exact (keepsShape_of_same_registers (t := st.shown sc l q)).trans (keepsShape_advExtract s m)

theorem scanRun_request_le {k n : Nat} {r : ScanRegs} (hp : st.par.wf = true) (h : scanRun k r st = .next (.done n t)) :
    n ≤ st.par.frameSize := by
  rcases scanRun_cases hp h with ⟨n', m, t', -, e, -, hn, -⟩ | ⟨r', t', -, e, -⟩
  · cases e
    exact hn
  · cases e

theorem scanRun_keeps (k : Nat) (r : ScanRegs) : Ensures (ScanOut.Keeps st) (scanRun k r st) := by
  intro o ho
  have hk : KeepsShape st o.state := keepsShape_of_scanMoved (scanRun_moves ho).1
  cases o with
  | done n t => exact ⟨hk, fun hp => scanRun_request_le hp ho⟩
  | held r' t => exact hk

theorem scanSlot_keeps (s : Nat) : Ensures (ScanOut.Keeps st) (scanSlot s st) := ensures_require fun _ => scanRun_keeps _ _

theorem keepsShape_serviceEnd (s : Nat) {n : Nat} (hn : st.par.wf = true → n ≤ st.par.frameSize) :
    KeepsShape st (serviceEnd s n st) := by
  unfold serviceEnd
  have hslot := keepsShape_setSlot (st := ackChan (st.slot s).chan st) (s := s)
    (x := { (ackChan (st.slot s).chan st).slot s with lastReq := n })
    fun hp hf => { slot_fits hf s with lastReq := lt_two_pow_reqWidth (hn hp) }
  exact ((keepsShape_ackChan _).trans hslot).trans (keepsShape_armChan (phys_lt _ _) hn)

/-- The end of a service after its scan has returned. -/
theorem ScanOut.Keeps.serviceEnd {n : Nat} (h : (ScanOut.done n t).Keeps st) (s : Nat) :
    KeepsShape st (serviceEnd s n t) :=
  h.1.trans (keepsShape_serviceEnd s fun hp => h.1.par ▸ h.2 (h.1.par ▸ hp))

/-- The state of an outcome of a service. -/
def SvcOut.state : SvcOut → State
  | .done t => t
  | .held _ t => t

theorem service_keepsShape (s : Nat) : Ensures (fun o => KeepsShape st o.state) (service s st) := by
  refine ensures_andThen (scanSlot_keeps s) fun o ho => ?_
  have hadv : KeepsShape st (advInsert s (st.slot s).lastReq st) := keepsShape_advInsert s _
  cases o with
  | done n t => exact ensures_next (hadv.trans (ho.serviceEnd s))
  | held r t => exact ensures_next (hadv.trans ho)

/-- The state of an outcome of the dispatch of a bit. -/
def DispatchOut.state : DispatchOut → State
  | .done t => t
  | .held _ t => t
  | .fatal t => t

theorem dispatchChan_keepsShape {c : Nat} (hc : c < st.nChannels) :
    Ensures (fun o => KeepsShape st o.state) (dispatchChan c st) := by
  intro o ho
  rcases dispatchChan_cases ho with ⟨-, rfl⟩ | ⟨s, t, -, h, rfl⟩ | ⟨s, r, t, -, h, rfl⟩
  · exact keepsShape_raiseFatal _ hc
  · exact service_keepsShape s _ h
  · exact service_keepsShape s _ h

theorem irqRun_keepsShape {cs : List Nat} {pending : Nat} (hcs : ∀ c ∈ cs, c < st.nChannels) :
    Ensures (KeepsShape st) (irqRun cs pending st) := by
  induction cs generalizing pending st with
  | nil => exact ensures_next (KeepsShape.refl st)
  | cons c cs ih =>
    obtain ⟨hc, hcs⟩ := List.forall_mem_cons.mp hcs
    unfold irqRun
    split
    · refine ensures_andThen (dispatchChan_keepsShape hc) fun o (ho : KeepsShape st o.state) => ?_
      cases o with
      | done t => exact fun u hu => ho.trans (ih (fun d hd => ho.nChannels ▸ hcs d hd) u hu)
      | held r t => exact ensures_next (ho.trans (keepsShape_with_held _))
      | fatal t => exact ensures_next ho
    · exact ih hcs

theorem mem_channels {c : Nat} : c ∈ st.channels ↔ c < st.nChannels := List.mem_range

theorem lt_of_mem_channelsAbove {c d : Nat} (h : d ∈ st.channelsAbove c) : d < st.nChannels :=
  mem_channels.mp (List.mem_of_mem_filter h)

theorem scanAgain_keeps (r : ScanRegs) : Ensures (ScanOut.Keeps st) (scanAgain r st) := scanRun_keeps _ _

theorem resume_keepsShape : Ensures (KeepsShape st) (resume st) := by
  have hfree : KeepsShape st { st with held := none } := keepsShape_with_held none
  unfold resume
  split
  · exact ensures_next (KeepsShape.refl st)
  · exact ensures_next hfree
  · exact ensures_next (hfree.trans (keepsShape_with_scan _))
  · refine ensures_andThen (scanAgain_keeps _) fun o ho => ?_
    cases o with
    | done n t => exact ensures_next (hfree.trans (ho.1.trans (keepsShape_setResult _)))
    | held r t => exact ensures_next (hfree.trans (ho.trans (keepsShape_with_held _)))
  · refine ensures_andThen (scanAgain_keeps _) fun o ho => ?_
    cases o with
    | done n t => exact ensures_next (hfree.trans (ho.serviceEnd _))
    | held r t => exact ensures_next (hfree.trans (ho.trans (keepsShape_with_held _)))
  · next pending c r _ =>
    refine ensures_andThen (scanAgain_keeps _) fun o ho => ?_
    cases o with
    | done n t =>
      have hcs : ∀ d ∈ t.channelsAbove c, d < (serviceEnd r.slot n t).nChannels := fun d hd => by
        rw [serviceEnd_nChannels]
        exact lt_of_mem_channelsAbove hd
      exact fun u hu => hfree.trans ((ho.serviceEnd r.slot).trans (irqRun_keepsShape hcs u hu))
    | held r t => exact ensures_next (hfree.trans (ho.trans (keepsShape_with_held _)))

/-! ### Classes of a scan performed alone. -/

/-- The state of an outcome of a class. -/
def ClassOut.state : ClassOut → State
  | .more _ t => t
  | .done _ t => t
  | .held _ t => t

theorem performClass_keepsShape (k : ScanClass) (r : ScanRegs) :
    Ensures (fun o => KeepsShape st o.state) (performClass k r st) := by
  intro o ho
  rcases performClass_moves ho with ⟨n, m, rfl⟩ | ⟨sc, l, q, n, rfl⟩ | ⟨sc, l, q, rfl⟩
  · exact keepsShape_advExtract _ m
  · exact keepsShape_of_same_registers
  · exact keepsShape_of_same_registers

theorem keepClass_keepsShape (o : ClassOut) : Ensures (KeepsShape o.state) (keepClass o) := by
  cases o <;> exact ensures_next keepsShape_of_same_registers

theorem performAndKeep_keepsShape (k : ScanClass) (r : ScanRegs) :
    Ensures (KeepsShape st) (andThen (performClass k r st) keepClass) :=
  ensures_andThen (performClass_keepsShape k r) fun o ho t ht => ho.trans (keepClass_keepsShape o t ht)

theorem ensures_classRegs {P : State → Prop} {s : Nat} {k : ScanRegs → Out State} (h : ∀ r, Ensures P (k r)) :
    Ensures P (classRegs s st k) := by
  refine ensures_require fun _ => ?_
  split
  · exact ensures_require fun _ => ensures_require fun _ => h _
  · exact ensures_require fun _ => h _

theorem ensures_openScan {P : State → Prop} {k : ScanRegs → Out State} (h : ∀ r, Ensures P (k r)) :
    Ensures P (openScan st k) := by
  refine ensures_require fun _ => ensures_require fun _ => ?_
  split
  · exact ensures_require fun _ => ensures_require fun _ => h _
  · exact ensures_refused _

theorem classAlone_keepsShape (k : ScanClass) (s : Nat) : Ensures (KeepsShape st) (classAlone k s st) :=
  ensures_require fun _ => ensures_require fun _ => ensures_classRegs fun r => ensures_andThen_any fun _ =>
    ensures_require fun _ => performAndKeep_keepsShape k r

theorem execHeaderByte_keepsShape : Ensures (KeepsShape st) (execHeaderByte st) :=
  ensures_openScan fun r => ensures_andThen_any fun k => ensures_require fun _ => performAndKeep_keepsShape k r

theorem execFrame_keepsShape (raw : List Byte) : Ensures (KeepsShape st) (execFrame raw st) :=
  ensures_openScan fun r => ensures_andThen_any fun _ => ensures_require fun _ => ensures_andThen_any fun _ =>
    ensures_require fun _ => performAndKeep_keepsShape .accept r

/-! ### The other operations with more than one outcome. -/

theorem execScan_keepsShape (s : Nat) : Ensures (KeepsShape st) (execScan s st) := by
  refine ensures_require fun _ => ensures_require fun _ => ensures_require fun _ =>
    ensures_andThen (scanSlot_keeps s) fun o ho => ?_
  cases o with
  | done n t => exact ensures_next (ho.1.trans (keepsShape_setResult _))
  | held r t => exact ensures_next (ho.trans (keepsShape_with_held _))

theorem execSvc_keepsShape (s : Nat) : Ensures (KeepsShape st) (execSvc s st) := by
  refine ensures_require fun _ => ensures_require fun _ => ensures_require fun _ => ensures_require fun _ =>
    ensures_andThen (service_keepsShape s) fun o (ho : KeepsShape st o.state) => ?_
  cases o with
  | done t => exact ensures_next ho
  | held r t => exact ensures_next (ho.trans (keepsShape_with_held _))

theorem execDispatch_keepsShape (c : Nat) : Ensures (KeepsShape st) (execDispatch c st) := by
  refine ensures_require fun _ => ensures_require fun _ => ensures_require fun hc => ensures_require fun _ =>
    ensures_andThen (dispatchChan_keepsShape (of_decide_eq_true hc)) fun o (ho : KeepsShape st o.state) => ?_
  cases o with
  | done t => exact ensures_next ho
  | held r t => exact ensures_next (ho.trans (keepsShape_with_held _))
  | fatal t => exact ensures_next ho

theorem execInit_keepsShape (s c h : Nat) : Ensures (KeepsShape st) (execInit s c h st) :=
  ensures_require fun _ => ensures_require fun hs => ensures_require fun hc => ensures_require fun _ =>
    ensures_require fun _ => ensures_next (keepsShape_initSlot h (of_decide_eq_true hs) (of_decide_eq_true hc))

theorem execRbCopy_keepsShape (s : Nat) (start : Cursor) (len : Nat) : Ensures (KeepsShape st) (execRbCopy s start len st) :=
  ensures_require fun _ => ensures_require fun _ => ensures_require fun _ => ensures_require fun _ =>
    ensures_andThen_any fun _ => ensures_next keepsShape_of_same_registers

theorem execEmit_keepsShape (s : Nat) : Ensures (KeepsShape st) (execEmit s st) :=
  ensures_require fun _ => ensures_require fun _ => ensures_require fun _ => ensures_andThen_any fun _ =>
    ensures_require fun _ => ensures_next keepsShape_of_same_registers

theorem execArm_keepsShape (c waddr n : Nat) : Ensures (KeepsShape st) (execArm c waddr n st) := by
  refine ensures_require fun _ => ensures_require fun _ => ensures_require fun hw => ensures_require fun hn =>
    ensures_require fun _ => ensures_next (keepsShape_armChan (of_decide_eq_true hw) fun _ => ?_)
  obtain ⟨-, hn⟩ := Bool.and_eq_true_iff.mp hn
  exact of_decide_eq_true hn

theorem execDmaDone_keepsShape (c : Nat) : Ensures (KeepsShape st) (execDmaDone c st) := by
  refine ensures_require fun h => ensures_next (keepsShape_finishTransfer ?_)
  obtain ⟨harmed, -⟩ := Bool.and_eq_true_iff.mp h
  exact lt_of_armed harmed

theorem execDma_keepsShape (c : Nat) (bs : List Byte) : Ensures (KeepsShape st) (execDma c bs st) := by
  refine ensures_require fun h => ensures_require fun _ => ensures_next ?_
  obtain ⟨harmed, -⟩ := Bool.and_eq_true_iff.mp h
  have hbytes : KeepsShape st (transferBytes c bs st) := keepsShape_transferBytes c bs
  exact hbytes.trans (keepsShape_finishTransfer (hbytes.nChannels ▸ lt_of_armed harmed))

/-! ### Every operation, and the step. -/

/-- Every operation keeps the shape. -/
theorem exec_keepsShape (i : Instr) : Ensures (KeepsShape st) (exec i st) := by
  cases i with
  | reset => exact ensures_next keepsShape_resetBlock
  | init s c h => exact execInit_keepsShape s c h
  | enable => exact ensures_require fun _ => ensures_next keepsShape_of_same_registers
  | crcStep c8 b => exact ensures_next (keepsShape_setResult _)
  | crcRange l => exact ensures_next (keepsShape_setResult _)
  | frameValid f => exact ensures_require fun _ => ensures_next (keepsShape_setResult _)
  | rbPhys c => exact ensures_next (keepsShape_setResult _)
  | rbAvail s => exact ensures_require fun _ => ensures_next (keepsShape_setResult _)
  | rbWindow s c n => exact ensures_require fun _ => ensures_require fun _ => ensures_next (keepsShape_setResult _)
  | rbCopy s c n => exact execRbCopy_keepsShape s c n
  | rbAdvi s n =>
    exact ensures_require fun _ => ensures_require fun _ => ensures_require fun _ => ensures_next (keepsShape_advInsert s n)
  | rbAdvx s n =>
    exact ensures_require fun _ => ensures_require fun _ => ensures_require fun _ => ensures_require fun _ =>
      ensures_next (keepsShape_advExtract s n)
  | rbDmawr s a b =>
    exact ensures_require fun _ => ensures_require fun _ => ensures_require fun _ => ensures_next (keepsShape_writeBuf s a b)
  | push s l =>
    exact ensures_require fun _ => ensures_require fun _ =>
      ensures_next ((keepsShape_pushBytes s _ l).trans (keepsShape_advInsert s _))
  | scan s => exact execScan_keepsShape s
  | scnIdle s => exact classAlone_keepsShape .idle s
  | scnSkip s => exact classAlone_keepsShape .skip s
  | scnDefer s => exact classAlone_keepsShape .defer s
  | scnAccept s => exact classAlone_keepsShape .accept s
  | scnReject s => exact classAlone_keepsShape .reject s
  | scnDrain s => exact classAlone_keepsShape .drain s
  | decode f => exact ensures_require fun _ => ensures_next (keepsShape_setResult _)
  | emit s => exact execEmit_keepsShape s
  | svc s => exact execSvc_keepsShape s
  | ack c => exact ensures_require fun _ => ensures_require fun _ => ensures_next (keepsShape_ackChan c)
  | arm c a n => exact execArm_keepsShape c a n
  | dma c l => exact execDma_keepsShape c l
  | raise c => exact ensures_require fun hc => ensures_next (keepsShape_raiseChan (of_decide_eq_true hc))
  | dmaConfig c s =>
    exact ensures_require fun _ => ensures_require fun _ => ensures_require fun hs =>
      ensures_next (keepsShape_configChan (of_decide_eq_true hs))
  | dmaByte c => exact ensures_require fun _ => ensures_require fun _ => ensures_next (keepsShape_transferByte c)
  | dmaDone c => exact execDmaDone_keepsShape c
  | irq => exact ensures_require fun _ => ensures_require fun _ => irqRun_keepsShape fun _ hc => mem_channels.mp hc
  | lookup c => exact ensures_require fun _ => ensures_next (keepsShape_setResult _)
  | dispatch c => exact execDispatch_keepsShape c
  | fatal code c =>
    exact ensures_require fun _ => ensures_require fun hc => ensures_next (keepsShape_raiseFatal _ (of_decide_eq_true hc))
  | headerByte => exact execHeaderByte_keepsShape
  | frame raw => exact execFrame_keepsShape raw

theorem keepsShape_turn : KeepsShape st st.turn := by
  rw [turn_eq]
  exact keepsShape_of_same_registers

/-- Every step keeps the shape. -/
theorem step_keepsShape : Ensures (KeepsShape st) (step st) := by
  intro t h
  rcases step_cases h with ⟨-, h⟩ | ⟨-, i, st', hf, -, h⟩ | ⟨-, -, r, i, -, -, h⟩ | ⟨-, -, i, -, h⟩ | ⟨-, -, -, rfl⟩
  · exact keepsShape_turn.trans (resume_keepsShape t h)
  · obtain ⟨rest, -, rfl⟩ := fetch_cases hf
    have htrace : KeepsShape st.turn { st.turn with trace := rest } := keepsShape_of_same_registers
    exact keepsShape_turn.trans (htrace.trans (exec_keepsShape i t h))
  · exact exec_keepsShape i t h
  · exact keepsShape_turn.trans (exec_keepsShape i t h)
  · exact keepsShape_turn

/-- Settles O24: every operation keeps the shape (`exec_keepsShape`), and so do the consumer's return and the fetch. -/
theorem stepKeepsTheShape : Obligations.StepKeepsTheShape :=
  ⟨fun _ t h => let hk := step_keepsShape t h
    ⟨hk.par, hk.nSlots, hk.nChannels⟩,
   fun _ t hp hf h => (step_keepsShape t h).fits hp hf⟩

end Sys2Proof.Machine
end

section
/-! Who writes what: how an operation, and so a step, treats `FATAL` and `DIAG` (60_exceptions.md R203), the ring buffers, the
canonical form of the memories (10_state.md R39, R40) and the bits of `INTS` (43_rearm.md R164). What the sequencer does short of a
fatal stop is `Ordinary`; `exec_effect` says of every operation what it may do beyond that. -/

namespace Sys2Proof.Machine

variable {st t u : State}

/-! ### Acknowledged bits. -/

/-- From `st` to `t` the port history only grows, and what was sent holds the acknowledge of every bit of `INTS` that was
cleared. -/
def Acknowledges (st t : State) : Prop :=
  ∃ l, t.out = st.out ++ l ∧ ∀ c, bitSet st.ints c = true → bitSet t.ints c = true ∨ .ackReq c ∈ l

theorem acknowledges_of_sent {l : List PortEvent} (ho : t.out = st.out ++ l)
    (hi : ∀ c, bitSet st.ints c = true → bitSet t.ints c = true) : Acknowledges st t :=
  ⟨l, ho, fun c hc => .inl (hi c hc)⟩

theorem acknowledges_of_silent (ho : t.out = st.out) (hi : ∀ c, bitSet st.ints c = true → bitSet t.ints c = true) :
    Acknowledges st t :=
  acknowledges_of_sent (ho.trans (List.append_nil _).symm) hi

theorem Acknowledges.trans (h1 : Acknowledges st t) (h2 : Acknowledges t u) : Acknowledges st u := by
  obtain ⟨l1, ho1, ha1⟩ := h1
  obtain ⟨l2, ho2, ha2⟩ := h2
  refine ⟨l1 ++ l2, by rw [ho2, ho1, List.append_assoc], fun c hc => ?_⟩
  rcases ha1 c hc with hbit | hack
  · exact (ha2 c hbit).imp_right (List.mem_append_right l1)
  · exact .inr (List.mem_append_left l2 hack)

theorem acknowledges_ackChan (c : Nat) : Acknowledges st (ackChan c st) := by
  refine ⟨[.ackReq c], rfl, fun d hd => ?_⟩
  by_cases hcd : c = d
  · exact .inr (by simp [hcd])
  · exact .inl (by simp [hcd, hd])

theorem bitSet_raiseChan {c d : Nat} (h : bitSet st.ints d = true) : bitSet (raiseChan c st).ints d = true := by simp [h]

/-! ### What the sequencer does short of a fatal stop. -/

/-- From `st` to `t` `FATAL`, `DIAG` and the ring buffers stay as they are, scratch stays in canonical form, and no bit is cleared
without its acknowledge. -/
structure Ordinary (st t : State) : Prop where
  par : t.par = st.par
  nChannels : t.nChannels = st.nChannels
  fatal : t.fatal = st.fatal
  diag : t.diag = st.diag
  buf : ∀ s, (t.slot s).buf = (st.slot s).buf
  scratch : Memory.wf st.par.frameSize st.scratch = true → Memory.wf st.par.frameSize t.scratch = true
  acks : Acknowledges st t

theorem Ordinary.trans (h1 : Ordinary st t) (h2 : Ordinary t u) : Ordinary st u where
  par := h2.par.trans h1.par
  nChannels := h2.nChannels.trans h1.nChannels
  fatal := h2.fatal.trans h1.fatal
  diag := h2.diag.trans h1.diag
  buf s := (h2.buf s).trans (h1.buf s)
  scratch h := h1.par ▸ h2.scratch (h1.par.symm ▸ h1.scratch h)
  acks := h1.acks.trans h2.acks

/-- An update of other fields than those `Ordinary` speaks of. -/
theorem ordinary_of_same_memories (hp : t.par = st.par := by rfl) (hn : t.nChannels = st.nChannels := by rfl)
    (hf : t.fatal = st.fatal := by rfl) (hd : t.diag = st.diag := by rfl) (hs : t.slots = st.slots := by rfl)
    (hsc : t.scratch = st.scratch := by rfl) (ho : t.out = st.out := by rfl) (hi : t.ints = st.ints := by rfl) :
    Ordinary st t where
  par := hp
  nChannels := hn
  fatal := hf
  diag := hd
  buf s := congrArg (fun l => (l.getD s Slot.reset).buf) hs
  scratch h := hsc.symm ▸ h
  acks := acknowledges_of_silent ho fun _ hc => hi.symm ▸ hc

@[refl] theorem Ordinary.refl (st : State) : Ordinary st st := ordinary_of_same_memories

theorem ordinary_setResult (v : OpResult) : Ordinary st (st.setResult v) := ordinary_of_same_memories

theorem ordinary_with_held (h : Option Held) : Ordinary st { st with held := h } := ordinary_of_same_memories

theorem ordinary_setChan (c : Nat) (x : Channel) : Ordinary st (st.setChan c x) :=
  ordinary_of_same_memories (hn := setChan_nChannels st c x)

theorem ordinary_setSlot {s : Nat} {x : Slot} (hx : x.buf = (st.slot s).buf := by rfl) :
    Ordinary st (st.setSlot s x) where
  par := rfl
  nChannels := rfl
  fatal := rfl
  diag := rfl
  buf u := by
    rw [slot_setSlot]
    split
    · next h => rw [hx, h.1]
    · rfl
  scratch := id
  acks := acknowledges_of_silent rfl fun _ => id

theorem ordinary_send (e : PortEvent) : Ordinary st (st.send e) :=
  { Ordinary.refl st with acks := acknowledges_of_sent (send_out st e) fun _ => id }

theorem ordinary_ackChan (c : Nat) : Ordinary st (ackChan c st) :=
  { Ordinary.refl st with acks := acknowledges_ackChan c }

theorem ordinary_raiseChan (c : Nat) : Ordinary st (raiseChan c st) :=
  { Ordinary.refl st with acks := acknowledges_of_silent rfl fun _ => bitSet_raiseChan }

theorem ordinary_armChan (c waddr n : Nat) : Ordinary st (armChan c waddr n st) :=
  (ordinary_setChan c _).trans (ordinary_send _)

theorem ordinary_configChan (c s : Nat) : Ordinary st (configChan c s st) :=
  (ordinary_setChan c _).trans (ordinary_send _)

theorem ordinary_finishTransfer (c : Nat) : Ordinary st (finishTransfer c st) :=
  (ordinary_setChan c _).trans (ordinary_raiseChan c)

theorem ordinary_advInsert (s n : Nat) : Ordinary st (advInsert s n st) := ordinary_setSlot

theorem ordinary_advExtract (s n : Nat) : Ordinary st (advExtract s n st) := ordinary_setSlot

/-! ### Scans and services. -/

theorem windowOffsets_length (p : Params) (start : Cursor) (len : Nat) : (windowOffsets p start len).length = len := by
  have := phys_lt p start
  unfold windowOffsets window
  split
  · simp [Segment.offsets]
  · simp only [Segment.offsets, List.length_append, List.length_map, List.length_range]
    omega

theorem readRange_length {s : Nat} {start : Cursor} {len : Nat} {bs : List Byte} (h : readRange s start len st = .next bs) :
    bs.length = len := by
  have := congrArg List.length (readBufAll_eq_next.mp h)
  rw [List.length_map, List.length_map, windowOffsets_length] at this
  exact this.symm

theorem copyRange_ordinary (s : Nat) (start : Cursor) {len : Nat} (hlen : len ≤ st.par.frameSize) :
    Ensures (Ordinary st) (copyRange s start len st) := by
  refine ensures_andThen (fun _ => readRange_length) fun bs hbs => ensures_next ?_
  exact { Ordinary.refl st with scratch := fun h => memWriteAll_wf h (by omega) }

theorem emitFrame_ordinary (s : Nat) : Ensures (Ordinary st) (emitFrame s st) :=
  ensures_andThen_any fun _ => ensures_next (ordinary_send _)

theorem scnAccept_ordinary (r : ScanRegs) : Ensures (fun o => Ordinary st o.state) (scnAccept r st) := by
  refine ensures_andThen (copyRange_ordinary _ _ (Nat.le_refl _)) fun st1 h1 =>
    ensures_andThen (emitFrame_ordinary _) fun st2 h2 => ?_
  have hreply : Ordinary st st2.afterReply := (h1.trans h2).trans ordinary_of_same_memories
  split <;> exact ensures_next hreply

theorem performClass_ordinary (k : ScanClass) (r : ScanRegs) :
    Ensures (fun o => Ordinary st o.state) (performClass k r st) := by
  cases k with
  | idle => exact ensures_next (Ordinary.refl st)
  | drain => exact ensures_next (ordinary_advExtract _ _)
  | skip => exact ensures_next (Ordinary.refl st)
  | defer => exact ensures_next (ordinary_advExtract _ _)
  | accept => exact scnAccept_ordinary r
  | reject => exact ensures_andThen (copyRange_ordinary _ _ (Nat.le_refl _)) fun _ h => ensures_next h

theorem scanRun_ordinary (k : Nat) (r : ScanRegs) : Ensures (fun o => Ordinary st o.state) (scanRun k r st) := by
  induction k generalizing r st with
  | zero => exact ensures_next (ordinary_advExtract _ _)
  | succ k ih =>
    refine ensures_andThen (ensures_andThen_any fun cls => performClass_ordinary cls r) fun o ho => ?_
    cases o with
    | more r' st' => exact fun a ha => Ordinary.trans ho (ih r' a ha)
    | done n st' => exact ensures_next ho
    | held r' st' => exact ensures_next ho

theorem scanSlot_ordinary (s : Nat) : Ensures (fun o => Ordinary st o.state) (scanSlot s st) :=
  ensures_require fun _ => scanRun_ordinary _ _

theorem serviceEnd_ordinary (s n : Nat) : Ordinary st (serviceEnd s n st) :=
  ((ordinary_ackChan _).trans ordinary_setSlot).trans (ordinary_armChan _ _ _)

theorem service_ordinary (s : Nat) : Ensures (fun o => Ordinary st o.state) (service s st) := by
  refine ensures_andThen (scanSlot_ordinary s) fun o ho => ?_
  have hscan : Ordinary st o.state := (ordinary_advInsert s _).trans ho
  cases o with
  | done n t => exact ensures_next (hscan.trans (serviceEnd_ordinary s n))
  | held r t => exact ensures_next hscan

/-! ### What an operation may do. -/

/-- From `st` to `t` the agreement of `FATAL`, `DIAG` and what is in progress is kept, and so is the canonical form of the
memories; ring buffers are written only where `stores`, bits cleared without their acknowledge only where `clears`. -/
structure Effect (stores clears : Prop) (st t : State) : Prop where
  diagLegal : st.diagLegal → t.diagLegal
  buf : stores ∨ ∀ s, (t.slot s).buf = (st.slot s).buf
  acks : clears ∨ Acknowledges st t
  memWf : st.par.wf = true → st.fits → st.memWf = true → t.memWf = true

variable {stores clears stores' clears' : Prop}

theorem Effect.mono (h : Effect stores clears st t) (hs : stores → stores') (hc : clears → clears') :
    Effect stores' clears' st t :=
  ⟨h.diagLegal, h.buf.imp_left hs, h.acks.imp_left hc, h.memWf⟩

theorem Ordinary.memWf (h : Ordinary st t) (hm : st.memWf = true) : t.memWf = true := by
  obtain ⟨hbuf, hscratch⟩ := memWf_iff.mp hm
  refine memWf_iff.mpr ⟨fun s => ?_, ?_⟩
  · rw [h.par, h.buf]
    exact hbuf s
  · rw [h.par]
    exact h.scratch hscratch

/-- While `DIAG` stays as it is, it stays legal if the block runs or what is in progress stays as it is. -/
theorem diagLegal_of_same (hf : t.fatal = st.fatal) (hd : t.diag = st.diag) (hn : t.nChannels = st.nChannels)
    (hp : st.fatal = false ∨ t.scan = st.scan ∧ t.held = st.held) (h : st.diagLegal) : t.diagLegal := by
  obtain ⟨hrun, hhalt⟩ := h
  refine ⟨fun ht => hd.trans (hrun (hf ▸ ht)), fun ht => ?_⟩
  rw [hf] at ht
  rcases hp with hp | ⟨hs, hh⟩
  · rw [hp] at ht
    cases ht
  · rw [hd, hn, hs, hh]
    exact hhalt ht

theorem Ordinary.effect (h : Ordinary st t) (hp : st.diagLegal → st.fatal = false ∨ t.scan = st.scan ∧ t.held = st.held) :
    Effect stores clears st t where
  diagLegal hd := diagLegal_of_same h.fatal h.diag h.nChannels (hp hd) hd
  buf := .inr h.buf
  acks := .inr h.acks
  memWf _ _ := h.memWf

theorem Ordinary.effect_of_running (h : Ordinary st t) (hrun : st.diagLegal → st.fatal = false) :
    Effect stores clears st t :=
  h.effect fun hd => .inl (hrun hd)

theorem Ordinary.effect_of_same_progress (h : Ordinary st t) (hs : t.scan = st.scan := by rfl)
    (hh : t.held = st.held := by rfl) : Effect stores clears st t :=
  h.effect fun _ => .inr ⟨hs, hh⟩

/-- An operation that returns a value and writes nothing else. -/
theorem effect_setResult (v : OpResult) : Effect stores clears st (st.setResult v) :=
  (ordinary_setResult v).effect_of_same_progress

/-- The fatal stop writes `FATAL`, `DIAG` and what is in progress only. -/
theorem raiseFatal_frame (code : BitVec 2) (c : Nat) (st : State) :
    { raiseFatal code c st with fatal := st.fatal, diag := st.diag, scan := st.scan, held := st.held } = st := by
  unfold raiseFatal
  split <;> rfl

theorem raiseFatal_buf (code : BitVec 2) (c : Nat) (st : State) (s : Nat) :
    ((raiseFatal code c st).slot s).buf = (st.slot s).buf :=
  congrArg (fun x => (x.slot s).buf) (raiseFatal_frame code c st)

theorem raiseFatal_memWf (code : BitVec 2) (c : Nat) (st : State) : (raiseFatal code c st).memWf = st.memWf :=
  (congrArg State.memWf (raiseFatal_frame code c st) :)

theorem acknowledges_raiseFatal (code : BitVec 2) (c : Nat) : Acknowledges st (raiseFatal code c st) :=
  have hints : (raiseFatal code c st).ints = st.ints := (congrArg State.ints (raiseFatal_frame code c st) :)
  acknowledges_of_silent (congrArg State.out (raiseFatal_frame code c st) :) fun _ h => hints.symm ▸ h

/-- The fatal stop records one of the two causes and a channel that exists, unless a cause is recorded already, and abandons what
is in progress. -/
theorem diagLegal_raiseFatal {code : BitVec 2} {c : Nat} (hcode : code = unmatchedIrq ∨ code = capacityTooSmall)
    (hc : c < st.nChannels) (h : st.diagLegal) : (raiseFatal code c st).diagLegal := by
  obtain ⟨hrun, hhalt⟩ := h
  unfold raiseFatal
  split
  · next hf =>
    obtain ⟨hcode', hc', -, -⟩ := hhalt hf
    exact ⟨hrun, fun _ => ⟨hcode', hc', rfl, rfl⟩⟩
  · exact ⟨nofun, fun _ => ⟨hcode, hc, rfl, rfl⟩⟩

/-- A fatal stop after something ordinary. -/
theorem Ordinary.effect_raiseFatal {code : BitVec 2} {c : Nat} (h : Ordinary st t)
    (hp : st.diagLegal → st.fatal = false ∨ t.scan = st.scan ∧ t.held = st.held)
    (hcode : code = unmatchedIrq ∨ code = capacityTooSmall) (hc : c < st.nChannels) :
    Effect stores clears st (raiseFatal code c t) where
  diagLegal hd := diagLegal_raiseFatal hcode (h.nChannels.symm ▸ hc)
    (diagLegal_of_same h.fatal h.diag h.nChannels (hp hd) hd)
  buf := .inr fun s => (raiseFatal_buf code c t s).trans (h.buf s)
  acks := .inr (h.acks.trans (acknowledges_raiseFatal code c))
  memWf _ _ hm := (raiseFatal_memWf code c t).trans (h.memWf hm)

theorem effect_raiseFatal {code : BitVec 2} {c : Nat} (hcode : code = unmatchedIrq ∨ code = capacityTooSmall)
    (hc : c < st.nChannels) : Effect stores clears st (raiseFatal code c st) :=
  (Ordinary.refl st).effect_raiseFatal (fun _ => .inr ⟨rfl, rfl⟩) hcode hc

/-! ### Operations of the engine, of PUSH and of RESET. -/

/-- An update of slots, channels, peripherals and `INTS` that clears no bit. -/
theorem effect_of_store (hstores : stores)
    (hframe : { t with slots := st.slots, chans := st.chans, uarts := st.uarts, ints := st.ints } = st)
    (hn : t.nChannels = st.nChannels) (hi : ∀ c, bitSet st.ints c = true → bitSet t.ints c = true)
    (hm : st.par.wf = true → st.fits → st.memWf = true → t.memWf = true) : Effect stores clears st t where
  diagLegal := diagLegal_of_same (congrArg State.fatal hframe :) (congrArg State.diag hframe :) hn
    (.inr ⟨(congrArg State.scan hframe :), (congrArg State.held hframe :)⟩)
  buf := .inl hstores
  acks := .inr (acknowledges_of_silent (congrArg State.out hframe :) hi)
  memWf := hm

theorem pushBytes_frame (s : Nat) (c : Cursor) (bs : List Byte) (st : State) :
    { pushBytes s c bs st with slots := st.slots } = st := by
  induction bs generalizing c st with
  | nil => rfl
  | cons b bs ih => exact congrArg (fun x : State => { x with slots := st.slots }) (ih (advance c 1) (writeBuf s _ b st))

theorem transferBytes_frame (c : Nat) (bs : List Byte) (st : State) :
    { transferBytes c bs st with slots := st.slots, chans := st.chans, uarts := st.uarts } = st := by
  induction bs generalizing st with
  | nil => rfl
  | cons b bs ih =>
    exact congrArg (fun x : State => { x with slots := st.slots, chans := st.chans, uarts := st.uarts })
      (ih (storeByte c b (drawStream _ _ st)))

theorem keepsShape_drawnStore (c : Nat) (b : Byte) (s : Nat) (rx : List Byte) :
    KeepsShape st (storeByte c b (drawStream s rx st)) :=
  (keepsShape_setUart s _).trans (keepsShape_storeByte c b)

theorem memWf_drawnStore {c : Nat} (hc : c < st.nChannels) (b : Byte) (s : Nat) (rx : List Byte) (hf : st.fits)
    (h : st.memWf = true) : (storeByte c b (drawStream s rx st)).memWf = true :=
  memWf_storeByte (st := drawStream s rx st) h (chan_fits hf hc).waddr b

theorem memWf_transferBytes {c : Nat} (hc : c < st.nChannels) (bs : List Byte) (hp : st.par.wf = true) (hf : st.fits)
    (h : st.memWf = true) : (transferBytes c bs st).memWf = true := by
  induction bs generalizing st with
  | nil => exact h
  | cons b bs ih =>
    have hk := keepsShape_drawnStore (st := st) c b (st.chan c).cfg.slot (st.uart (st.chan c).cfg.slot).rx
    exact ih (hk.nChannels.symm ▸ hc) hp (hk.fits hp hf) (memWf_drawnStore hc _ _ _ hf h)

theorem resetBlock_diagLegal : (resetBlock st).diagLegal := resetWith_diagLegal st.par st.nSlots st.nChannels

theorem resetBlock_memWf : (resetBlock st).memWf = true := resetWith_memWf st.par st.nSlots st.nChannels

theorem effect_resetBlock (hs : stores) (hc : clears) : Effect stores clears st (resetBlock st) :=
  ⟨fun _ => resetBlock_diagLegal, .inl hs, .inl hc, fun _ _ _ => resetBlock_memWf⟩

theorem execRbDmawr_effect (hs : stores) (s a : Nat) (b : Byte) :
    Ensures (Effect stores clears st) (execRbDmawr s a b st) :=
  ensures_require fun _ => ensures_require fun ha => ensures_require fun _ => ensures_next <|
    effect_of_store hs rfl rfl (fun _ => id) fun _ _ hm => memWf_writeBuf hm s (of_decide_eq_true ha) b

theorem execPush_effect (hs : stores) (s : Nat) (bs : List Byte) : Ensures (Effect stores clears st) (execPush s bs st) := by
  refine ensures_require fun _ => ensures_require fun _ => ensures_next ?_
  have hframe := pushBytes_frame s (st.slot s).insert bs st
  refine effect_of_store hs ?_ ?_ (fun c hc => ?_) fun _ _ hm => ?_
  · exact congrArg (fun x : State => { x with chans := st.chans, uarts := st.uarts, ints := st.ints }) hframe
  · exact (congrArg State.nChannels hframe :)
  · exact (congrArg State.ints hframe :).symm ▸ hc
  · exact (ordinary_advInsert s _).memWf (memWf_pushBytes hm s _ bs)

theorem execDmaByte_effect (hs : stores) (c : Nat) : Ensures (Effect stores clears st) (execDmaByte c st) := by
  refine ensures_require fun hen => ensures_require fun _ => ensures_next ?_
  obtain ⟨harmed, -⟩ := Bool.and_eq_true_iff.mp hen
  exact effect_of_store hs rfl (keepsShape_transferByte c).nChannels (fun _ => id) fun _ hf hm =>
    memWf_drawnStore (lt_of_armed harmed) _ _ _ hf hm

theorem execDma_effect (hs : stores) (c : Nat) (bs : List Byte) : Ensures (Effect stores clears st) (execDma c bs st) := by
  refine ensures_require fun h => ensures_require fun _ => ensures_next ?_
  obtain ⟨harmed, -⟩ := Bool.and_eq_true_iff.mp h
  have hframe := transferBytes_frame c bs st
  have hints : (transferBytes c bs st).ints = st.ints := (congrArg State.ints hframe :)
  refine effect_of_store hs ?_ ?_ (fun d hd => ?_) fun hp hf hm => ?_
  · exact congrArg (fun x : State => { x with ints := st.ints }) hframe
  · exact (finishTransfer_nChannels _ c).trans (keepsShape_transferBytes c bs).nChannels
  · simp [hints, hd]
  · exact (ordinary_finishTransfer c).memWf (memWf_transferBytes (lt_of_armed harmed) bs hp hf hm)

/-! ### Operations of the sequencer. -/

theorem fatal_of_phase_config (h : decide (st.phase = .config) = true) : st.fatal = false := by
  simp only [State.phase] at h
  split at h
  · cases h
  · next hf => simpa using hf

theorem fatal_of_phase_run (h : decide (st.phase = .run) = true) : st.fatal = false := by
  simp only [State.phase] at h
  split at h
  · cases h
  · next hf => simpa using hf

theorem execFatal_effect (code c : Nat) : Ensures (Effect stores clears st) (execFatal code c st) := by
  refine ensures_require fun hcode => ensures_require fun hc => ensures_next ?_
  have hcause : BitVec.ofNat 2 code = unmatchedIrq ∨ BitVec.ofNat 2 code = capacityTooSmall := by
    rcases of_decide_eq_true hcode with rfl | rfl
    · exact .inl rfl
    · exact .inr rfl
  exact effect_raiseFatal hcause (of_decide_eq_true hc)

/-- The rule for the guard that refuses in phase HALTED. -/
theorem ensures_running {P : State → Prop} {k : Out State} (h : st.fatal = false → Ensures P k) :
    Ensures P (require (!st.fatal) .halted k) :=
  ensures_require fun hf => h (by simpa using hf)

theorem Ordinary.ensures_effect (h : Ordinary st t) (hrun : st.fatal = false) :
    Ensures (Effect stores clears st) (.next t) :=
  ensures_next (h.effect_of_running fun _ => hrun)

theorem initSlot_effect (s h : Nat) {c : Nat} (hc : c < st.nChannels) (hrun : st.fatal = false) :
    Effect stores clears st (initSlot s c h st) := by
  unfold initSlot
  split
  · exact effect_raiseFatal (.inr rfl) hc
  · exact Ordinary.effect_of_running
      (.trans (.trans ordinary_setSlot (ordinary_configChan c s)) (ordinary_armChan c 0 _)) fun _ => hrun

theorem execInit_effect (s c h : Nat) : Ensures (Effect stores clears st) (execInit s c h st) :=
  ensures_require fun hphase => ensures_require fun _ => ensures_require fun hc => ensures_require fun _ =>
    ensures_require fun _ =>
      ensures_next (initSlot_effect s h (of_decide_eq_true hc) (fatal_of_phase_config hphase))

theorem execScan_effect (s : Nat) : Ensures (Effect stores clears st) (execScan s st) := by
  refine ensures_running fun hrun => ensures_require fun _ => ensures_require fun _ =>
    ensures_andThen (scanSlot_ordinary s) fun o (ho : Ordinary st o.state) => ?_
  cases o with
  | done n t => exact (ho.trans (ordinary_setResult _)).ensures_effect hrun
  | held r t => exact (ho.trans (ordinary_with_held _)).ensures_effect hrun

theorem keepClass_ordinary (o : ClassOut) : Ensures (Ordinary o.state) (keepClass o) := by
  cases o <;> exact ensures_next ordinary_of_same_memories

theorem performAndKeep_effect (k : ScanClass) (r : ScanRegs) (hrun : st.fatal = false) :
    Ensures (Effect stores clears st) (andThen (performClass k r st) keepClass) :=
  ensures_andThen (performClass_ordinary k r) fun o (ho : Ordinary st o.state) t ht =>
    (ho.trans (keepClass_ordinary o t ht)).effect_of_running fun _ => hrun

theorem classAlone_effect (k : ScanClass) (s : Nat) : Ensures (Effect stores clears st) (classAlone k s st) :=
  ensures_running fun hrun => ensures_require fun _ => ensures_classRegs fun r => ensures_andThen_any fun _ =>
    ensures_require fun _ => performAndKeep_effect k r hrun

/-- The open scan is one of a block that runs. -/
theorem ensures_openScan_running {P : State → Prop} {k : ScanRegs → Out State}
    (h : st.fatal = false → ∀ r, Ensures P (k r)) : Ensures P (openScan st k) := by
  intro t ht
  obtain ⟨hrun, -⟩ := require_eq_next.mp ht
  exact ensures_openScan (h (by simpa using hrun)) t ht

theorem execHeaderByte_effect : Ensures (Effect stores clears st) (execHeaderByte st) :=
  ensures_openScan_running fun hrun r => ensures_andThen_any fun k => ensures_require fun _ =>
    performAndKeep_effect k r hrun

theorem execFrame_effect (raw : List Byte) : Ensures (Effect stores clears st) (execFrame raw st) :=
  ensures_openScan_running fun hrun r => ensures_andThen_any fun _ => ensures_require fun _ => ensures_andThen_any fun _ =>
    ensures_require fun _ => performAndKeep_effect .accept r hrun

theorem execRbCopy_effect (s : Nat) (start : Cursor) (len : Nat) :
    Ensures (Effect stores clears st) (execRbCopy s start len st) := by
  refine ensures_running fun hrun => ensures_require fun _ => ensures_require fun hlen => ensures_require fun _ => ?_
  obtain ⟨hlen, -⟩ := Bool.and_eq_true_iff.mp hlen
  exact fun t ht => (copyRange_ordinary s start (of_decide_eq_true hlen) t ht).effect_of_running fun _ => hrun

theorem execEmit_effect (s : Nat) : Ensures (Effect stores clears st) (execEmit s st) :=
  ensures_running fun hrun => ensures_require fun _ => ensures_require fun _ => ensures_andThen_any fun _ =>
    ensures_require fun _ => ((ordinary_send _).trans ordinary_of_same_memories).ensures_effect hrun

theorem execSvc_effect (s : Nat) : Ensures (Effect stores clears st) (execSvc s st) := by
  refine ensures_running fun hrun => ensures_require fun _ => ensures_require fun _ => ensures_require fun _ =>
    ensures_andThen (service_ordinary s) fun o (ho : Ordinary st o.state) => ?_
  cases o with
  | done t => exact ho.ensures_effect hrun
  | held r t => exact (ho.trans (ordinary_with_held _)).ensures_effect hrun

/-- The dispatch of a bit is ordinary, or the fatal stop of a bit that no slot owns. -/
theorem dispatchChan_ordinary (c : Nat) :
    Ensures (fun o => Ordinary st o.state ∨ o = .fatal (raiseFatal unmatchedIrq c st)) (dispatchChan c st) := by
  intro o ho
  rcases dispatchChan_cases ho with ⟨-, rfl⟩ | ⟨s, t, -, h, rfl⟩ | ⟨s, r, t, -, h, rfl⟩
  · exact .inr rfl
  · exact .inl (service_ordinary s _ h)
  · exact .inl (service_ordinary s _ h)

/-- The handler's loop, entered in `x` after an ordinary part of the same step. -/
theorem irqRun_effect {cs : List Nat} {pending : Nat} {x : State} (hrun : st.diagLegal → st.fatal = false)
    (hx : Ordinary st x) (hcs : ∀ c ∈ cs, c < st.nChannels) : Ensures (Effect stores clears st) (irqRun cs pending x) := by
  induction cs generalizing pending x with
  | nil => exact ensures_next (hx.effect_of_running hrun)
  | cons c cs ih =>
    obtain ⟨hc, hcs⟩ := List.forall_mem_cons.mp hcs
    unfold irqRun
    split
    · refine ensures_andThen (dispatchChan_ordinary c) fun o ho => ?_
      rcases ho with ho | rfl
      · have ho : Ordinary st o.state := hx.trans ho
        cases o with
        | done t => exact ih ho hcs
        | held r t => exact ensures_next ((ho.trans (ordinary_with_held _)).effect_of_running hrun)
        | fatal t => exact ensures_next (ho.effect_of_running hrun)
      · exact ensures_next (hx.effect_raiseFatal (fun hd => .inl (hrun hd)) (.inl rfl) hc)
    · exact ih hx hcs

theorem execIrq_effect : Ensures (Effect stores clears st) (execIrq st) :=
  ensures_require fun hphase => ensures_require fun _ =>
    irqRun_effect (fun _ => fatal_of_phase_run hphase) (Ordinary.refl st) fun _ hc => mem_channels.mp hc

theorem execDispatch_effect (c : Nat) : Ensures (Effect stores clears st) (execDispatch c st) := by
  refine ensures_require fun hphase => ensures_require fun _ => ensures_require fun hc => ensures_require fun _ =>
    ensures_andThen (dispatchChan_ordinary c) fun o ho => ?_
  have hrun := fatal_of_phase_run hphase
  rcases ho with ho | rfl
  · cases o with
    | done t => exact ho.ensures_effect hrun
    | held r t => exact (ho.trans (ordinary_with_held _)).ensures_effect hrun
    | fatal t => exact ho.ensures_effect hrun
  · exact ensures_next (effect_raiseFatal (.inl rfl) (of_decide_eq_true hc))

theorem scanAgain_ordinary (r : ScanRegs) : Ensures (fun o => Ordinary st o.state) (scanAgain r st) :=
  scanRun_ordinary _ _

/-- An operation goes on after the consumer's return; a block where one waits runs. -/
theorem resume_effect (hheld : st.held ≠ none) : Ensures (Effect stores clears st) (resume st) := by
  have hrun : st.diagLegal → st.fatal = false := fun ⟨_, hhalt⟩ => by
    by_contra hf
    obtain ⟨-, -, -, hnone⟩ := hhalt (by simpa using hf)
    exact hheld hnone
  have hfree : Ordinary st { st with held := none } := ordinary_with_held none
  unfold resume
  split
  · next h => exact absurd h hheld
  · exact ensures_next (hfree.effect_of_running hrun)
  · exact ensures_next ((hfree.trans ordinary_of_same_memories).effect_of_running hrun)
  · refine ensures_andThen (scanAgain_ordinary _) fun o ho => ?_
    have ho : Ordinary st o.state := hfree.trans ho
    cases o with
    | done n t => exact ensures_next ((ho.trans (ordinary_setResult _)).effect_of_running hrun)
    | held r t => exact ensures_next ((ho.trans (ordinary_with_held _)).effect_of_running hrun)
  · refine ensures_andThen (scanAgain_ordinary _) fun o ho => ?_
    have ho : Ordinary st o.state := hfree.trans ho
    cases o with
    | done n t => exact ensures_next ((ho.trans (serviceEnd_ordinary _ n)).effect_of_running hrun)
    | held r t => exact ensures_next ((ho.trans (ordinary_with_held _)).effect_of_running hrun)
  · next pending c r _ =>
    refine ensures_andThen (scanAgain_ordinary _) fun o ho => ?_
    have ho : Ordinary st o.state := hfree.trans ho
    cases o with
    | done n t =>
      have hcs : ∀ d ∈ t.channelsAbove c, d < st.nChannels := fun d hd => ho.nChannels ▸ lt_of_mem_channelsAbove hd
      exact irqRun_effect hrun (ho.trans (serviceEnd_ordinary _ n)) hcs
    | held r t => exact ensures_next ((ho.trans (ordinary_with_held _)).effect_of_running hrun)

/-! ### Every operation, and the step. -/

/-- The operations that may write a ring buffer. -/
def BufferWriter (i : Instr) : Prop :=
  i = .reset ∨ (∃ s a b, i = .rbDmawr s a b) ∨ (∃ s l, i = .push s l) ∨ (∃ c l, i = .dma c l) ∨ ∃ c, i = .dmaByte c

/-- What every operation may do. -/
theorem exec_effect (i : Instr) : Ensures (Effect (BufferWriter i) (i = .reset) st) (exec i st) := by
  cases i with
  | reset => exact ensures_next (effect_resetBlock (.inl rfl) rfl)
  | init s c h => exact execInit_effect s c h
  | enable =>
    exact ensures_require fun hphase => Ordinary.ensures_effect ordinary_of_same_memories (fatal_of_phase_config hphase)
  | crcStep c8 b => exact ensures_next (effect_setResult _)
  | crcRange l => exact ensures_next (effect_setResult _)
  | frameValid f => exact ensures_require fun _ => ensures_next (effect_setResult _)
  | rbPhys c => exact ensures_next (effect_setResult _)
  | rbAvail s => exact ensures_require fun _ => ensures_next (effect_setResult _)
  | rbWindow s c n => exact ensures_require fun _ => ensures_require fun _ => ensures_next (effect_setResult _)
  | rbCopy s c n => exact execRbCopy_effect s c n
  | rbAdvi s n =>
    exact ensures_running fun hrun => ensures_require fun _ => ensures_require fun _ =>
      (ordinary_advInsert s n).ensures_effect hrun
  | rbAdvx s n =>
    exact ensures_running fun hrun => ensures_require fun _ => ensures_require fun _ => ensures_require fun _ =>
      (ordinary_advExtract s n).ensures_effect hrun
  | rbDmawr s a b => exact execRbDmawr_effect (.inr (.inl ⟨s, a, b, rfl⟩)) s a b
  | push s l => exact execPush_effect (.inr (.inr (.inl ⟨s, l, rfl⟩))) s l
  | scan s => exact execScan_effect s
  | scnIdle s => exact classAlone_effect .idle s
  | scnSkip s => exact classAlone_effect .skip s
  | scnDefer s => exact classAlone_effect .defer s
  | scnAccept s => exact classAlone_effect .accept s
  | scnReject s => exact classAlone_effect .reject s
  | scnDrain s => exact classAlone_effect .drain s
  | decode f => exact ensures_require fun _ => ensures_next (effect_setResult _)
  | emit s => exact execEmit_effect s
  | svc s => exact execSvc_effect s
  | ack c => exact ensures_running fun hrun => ensures_require fun _ => (ordinary_ackChan c).ensures_effect hrun
  | arm c a n =>
    exact ensures_running fun hrun => ensures_require fun _ => ensures_require fun _ => ensures_require fun _ =>
      ensures_require fun _ => (ordinary_armChan c a n).ensures_effect hrun
  | dma c l => exact execDma_effect (.inr (.inr (.inr (.inl ⟨c, l, rfl⟩)))) c l
  | raise c => exact ensures_require fun _ => ensures_next (ordinary_raiseChan c).effect_of_same_progress
  | dmaConfig c s =>
    exact ensures_running fun hrun => ensures_require fun _ => ensures_require fun _ =>
      (ordinary_configChan c s).ensures_effect hrun
  | dmaByte c => exact execDmaByte_effect (.inr (.inr (.inr (.inr ⟨c, rfl⟩)))) c
  | dmaDone c => exact ensures_require fun _ => ensures_next (ordinary_finishTransfer c).effect_of_same_progress
  | irq => exact execIrq_effect
  | lookup c => exact ensures_require fun _ => ensures_next (effect_setResult _)
  | dispatch c => exact execDispatch_effect c
  | fatal code c => exact execFatal_effect code c
  | headerByte => exact execHeaderByte_effect
  | frame raw => exact execFrame_effect raw

/-- The next step may write a ring buffer: the event of the trace that it takes is one that may, or, with no event, the hardware's
own is a byte of a transfer. -/
def State.storesNext (st : State) : Prop :=
  st.resumes = false ∧ ((∃ i st', fetch st = .ok (i, st') ∧ BufferWriter i) ∨
    (st.trace = [] ∧ ∃ c, hardwareEvent st = some (.dmaByte c)))

/-- The inputs `consumer` and `trace` have no part in what an operation may do. -/
theorem Effect.of_inputs {q : Consumer} {tr : List Byte}
    (h : Effect stores clears { st with consumer := q, trace := tr } t) : Effect stores clears st t :=
  ⟨h.diagLegal, h.buf, h.acks, h.memWf⟩

theorem fetch_of_turn {i : Instr} {st' : State} (h : fetch st.turn = .ok (i, st')) :
    ∃ rest, st' = { st with consumer := st.turn.consumer, trace := rest } ∧ fetch st = .ok (i, { st with trace := rest }) := by
  obtain ⟨rest, hd, rfl⟩ := fetch_cases h
  rw [turn_eq] at hd ⊢
  exact ⟨rest, rfl, by simp only [fetch, show decode st.par st.trace = .ok (i, rest) from hd]⟩

theorem hardwareEvent_turn (st : State) : hardwareEvent st.turn = hardwareEvent st := by
  rw [turn_eq]
  rfl

/-- The scanner fetches no operation that writes a ring buffer. -/
theorem not_bufferWriter_of_scanFetch {r : ScanRegs} {i : Instr} (h : scanFetch r st = .next i) : ¬ BufferWriter i := by
  rcases scanFetch_cases h with rfl | rfl | rfl | rfl | ⟨f, rfl⟩ <;> simp [BufferWriter]

/-- By itself the hardware writes a ring buffer with DMA.BYTE only. -/
theorem eq_dmaByte_of_hardwareEvent {i : Instr} (h : hardwareEvent st = some i) (hw : BufferWriter i) :
    ∃ c, i = .dmaByte c := by
  rcases hardwareEvent_cases h with ⟨rfl, -⟩ | ⟨c, rfl, -⟩ | ⟨c, rfl, -⟩
  · simp [BufferWriter] at hw
  · simp [BufferWriter] at hw
  · exact ⟨c, rfl⟩

/-- What every step may do. -/
theorem step_effect : Ensures (Effect st.storesNext st.takesReset st) (step st) := by
  intro t h
  have hturn : Ordinary st st.turn := by
    rw [turn_eq]
    exact ordinary_of_same_memories
  rcases step_cases h with ⟨hr, h⟩ | ⟨hr, i, st', hf, -, h⟩ | ⟨-, -, r, i, -, hi, h⟩ | ⟨hr, htr, i, hi, h⟩ | ⟨-, -, -, rfl⟩
  · have hheld : st.held ≠ none := by
      rintro hn
      simp [State.resumes, hn] at hr
    rw [turn_eq] at h
    exact (resume_effect (st := { st with consumer := st.turn.consumer }) hheld t h).of_inputs
  · obtain ⟨rest, rfl, hfetch⟩ := fetch_of_turn hf
    exact (exec_effect i t h).of_inputs.mono (fun hw => ⟨hr, .inl ⟨i, _, hfetch, hw⟩⟩)
      (by rintro rfl; exact ⟨hr, _, hfetch⟩)
  · have hw := not_bufferWriter_of_scanFetch hi
    exact (exec_effect i t h).mono (absurd · hw) fun hc => absurd (.inl hc) hw
  · rw [turn_eq] at h
    rw [hardwareEvent_turn] at hi
    refine (exec_effect i t h).of_inputs.mono (fun hw => ⟨hr, .inr ⟨htr, ?_⟩⟩) fun hc => ?_
    · obtain ⟨c, rfl⟩ := eq_dmaByte_of_hardwareEvent hi hw
      exact ⟨c, hi⟩
    · obtain ⟨c, rfl⟩ := eq_dmaByte_of_hardwareEvent hi (.inl hc)
      cases hc
  · exact hturn.effect_of_same_progress (by rw [turn_eq]) (by rw [turn_eq])

/-- Settles O55: of the effect of a step (`step_effect`) the part about `FATAL` and `DIAG`. -/
theorem stepKeepsDiagLegal : Obligations.StepKeepsDiagLegal := fun _ t hd h => (step_effect t h).diagLegal hd

/-- Settles O22: of the effect of a step (`step_effect`) the parts about ring buffers and about bits of `INTS`. -/
theorem buffersAndBitsKeepTheirWriters : Obligations.BuffersAndBitsKeepTheirWriters := by
  refine ⟨fun st t h => (step_effect t h).buf.symm, fun st t c h hset hclear => ?_⟩
  refine (step_effect t h).acks.imp_right fun ⟨l, hout, hack⟩ => ⟨l, hout, ?_⟩
  rcases hack c hset with hbit | hmem
  · rw [hclear] at hbit
    cases hbit
  · exact hmem

/-- Settles O23: of the effect of a step (`step_effect`) the part about the memories. -/
theorem stepKeepsMemoriesCanonical : Obligations.StepKeepsMemoriesCanonical := fun _ t hp hf hm h =>
  (step_effect t h).memWf hp hf hm

end Sys2Proof.Machine
end

section
/-! No protocol event faults (70_reset_and_hazards.md R232): under the rearm protocol (43_rearm.md R177) each pending bit is that
of a slot whose service reads written bytes only, and a service leaves the other slots as they are. -/

namespace Sys2Proof.Machine

variable {st t : State}

/-! ### Outcomes that are no fault. -/

theorem safe_next (t : State) : safeOutcome (.next t) := nofun

theorem safe_require {ok : Bool} {why : Refusal} {k : Out State} (h : ok = true → safeOutcome k) :
    safeOutcome (require ok why k) := fun f hf =>
  let ⟨hok, hk⟩ := require_eq_fault.mp hf
  h hok f hk

/-! ### One service. -/

/-- The bytes that the service of a serviceable slot accounts for, once `insert` is advanced over its request. -/
theorem avail_of_serviceable {s : Nat} (hp : st.par.wf = true) (h : st.serviceable s) :
    ((advInsert s (st.slot s).lastReq st).avail s).toNat = (st.avail s).toNat + (st.slot s).lastReq := by
  obtain ⟨hv, -, hfit, -⟩ := h
  obtain ⟨-, -, hlog⟩ := wf_iff.mp hp
  exact avail_advInsert (lt_of_valid hv) (Nat.lt_of_le_of_lt hfit (capacity_lt hlog))

/-- A write of `insert` leaves the bytes of the buffer and where reading starts. -/
theorem written_advInsert {s m n : Nat} (h : st.written s (st.slot s).extract m) :
    (advInsert s n st).written s ((advInsert s n st).slot s).extract m := by
  have hslot : ((advInsert s n st).slot s).extract = (st.slot s).extract ∧
      ((advInsert s n st).slot s).buf = (st.slot s).buf := by
    unfold advInsert
    rw [slot_setSlot]
    split <;> exact ⟨rfl, rfl⟩
  intro i hi
  rw [State.logicalByte, State.bufByte, hslot.1, hslot.2]
  exact h i hi

/-- The service of a serviceable slot completes. -/
theorem service_completes {s : Nat} (hp : st.par.wf = true) (h : st.serviceable s) : ∃ o, service s st = .next o := by
  have havail := avail_of_serviceable hp h
  obtain ⟨-, -, hfit, hw⟩ := h
  obtain ⟨o, ho⟩ := scanSlot_completes (st := advInsert s (st.slot s).lastReq st) (s := s) hp
    (havail.symm ▸ hfit) (havail.symm ▸ written_advInsert hw)
  rw [service, ho]
  cases o with
  | done n t => exact ⟨_, rfl⟩
  | held r t => exact ⟨_, rfl⟩

/-- From `st` to `t` the parameters, the number of channels, the slots other than `s`, and the channel of `s` stay as they are. -/
structure OnlySlot (s : Nat) (st t : State) : Prop where
  par : t.par = st.par
  nChannels : t.nChannels = st.nChannels
  slot : ∀ u, u ≠ s → t.slot u = st.slot u
  chan : (t.slot s).chan = (st.slot s).chan

variable {s : Nat}

theorem OnlySlot.trans {u : State} (h1 : OnlySlot s st t) (h2 : OnlySlot s t u) : OnlySlot s st u where
  par := h2.par.trans h1.par
  nChannels := h2.nChannels.trans h1.nChannels
  slot v hv := (h2.slot v hv).trans (h1.slot v hv)
  chan := h2.chan.trans h1.chan

theorem onlySlot_setSlot {x : Slot} (hx : x.chan = (st.slot s).chan := by rfl) : OnlySlot s st (st.setSlot s x) where
  par := rfl
  nChannels := rfl
  slot _ hu := slot_setSlot_ne hu x
  chan := by
    rw [slot_setSlot]
    split
    · exact hx
    · rfl

theorem onlySlot_of_scanMoved (h : scanMoved s st t) : OnlySlot s st t := by
  obtain ⟨sc, l, q, m, rfl⟩ := h
  have hshown : OnlySlot s st (st.shown sc l q) := ⟨rfl, rfl, fun _ _ => rfl, rfl⟩
  exact hshown.trans onlySlot_setSlot

theorem onlySlot_serviceEnd (n : Nat) : OnlySlot s st (serviceEnd s n st) where
  par := serviceEnd_par s n
  nChannels := serviceEnd_nChannels s n
  slot _ hu := serviceEnd_slot_ne hu n
  chan := by
    rw [serviceEnd_eq]
    exact (onlySlot_setSlot (st := st)).chan

theorem service_onlySlot (h : service s st = .next (.done t)) : OnlySlot s st t := by
  rcases service_cases h with ⟨n, x, hscan, e⟩ | ⟨r, x, -, e⟩
  · cases e
    obtain ⟨-, hrun⟩ := require_eq_next.mp hscan
    have hadv : OnlySlot s st (advInsert s (st.slot s).lastReq st) := onlySlot_setSlot
    exact (hadv.trans (onlySlot_of_scanMoved (scanRun_moves hrun).1)).trans (onlySlot_serviceEnd n)
  · cases e

/-! ### The handler. -/

/-- Every slot that owns a channel of the mask can be serviced. -/
def State.ownersServiceable (pending : Nat) (st : State) : Prop :=
  ∀ c s, bitSet pending c = true → st.owns s c = true → st.serviceable s

/-- Whether a slot can be serviced depends on its own registers and buffer. -/
theorem serviceable_congr (hp : t.par = st.par) (hn : t.nChannels = st.nChannels) (hs : t.slot s = st.slot s)
    (h : st.serviceable s) : t.serviceable s := by
  simpa only [State.serviceable, State.written, State.logicalByte, State.bufByte, State.avail, hp, hn, hs] using h

/-- Once the bit of channel `c` is handled by the service of its owner, the owners of the other bits can be serviced as before. -/
theorem ownersServiceable_of_onlySlot {pending c : Nat} (h : st.ownersServiceable pending) (hc : (st.slot s).chan = c)
    (ht : OnlySlot s st t) : t.ownersServiceable (clearBit pending c) := by
  intro d u hd hown
  simp only [bitSet_clearBit, Bool.and_eq_true, Bool.not_eq_true', decide_eq_false_iff_not] at hd
  obtain ⟨hd, hcd⟩ := hd
  have hus : u ≠ s := by
    rintro rfl
    exact hcd (by rw [← hc, ← ht.chan, (owns_iff.mp hown).2])
  have hslot := ht.slot u hus
  rw [owns_iff, hslot, ← owns_iff] at hown
  exact serviceable_congr ht.par ht.nChannels hslot (h d u hd hown)

/-- A run of the handler in which every owner of a pending bit can be serviced does not fault. -/
theorem irqRun_safe {cs : List Nat} {pending : Nat} (hp : st.par.wf = true) (h : st.ownersServiceable pending) :
    safeOutcome (irqRun cs pending st) := by
  induction cs generalizing pending st with
  | nil => exact safe_next st
  | cons c cs ih =>
    unfold irqRun
    split
    · next hbit =>
      cases hl : st.lookup c with
      | none =>
        simp only [dispatchChan, hl, andThen_next]
        exact safe_next _
      | some s =>
        have hown := owns_of_lookup hl
        obtain ⟨o, ho⟩ := service_completes hp (h c s hbit hown)
        simp only [dispatchChan, hl, ho, andThen_next]
        cases o with
        | done t =>
          have ht := service_onlySlot ho
          exact ih (ht.par.symm ▸ hp) (ownersServiceable_of_onlySlot h (owns_iff.mp hown).2 ht)
        | held r t => exact safe_next _
    · exact ih hp h

/-- Under the protocol a slot whose channel has its bit set can be serviced: its transfer is complete, and backlog and request make up
one frame of written bytes. -/
theorem serviceable_of_inProtocol (h : st.inProtocol) {c : Nat} (hc : bitSet st.ints c = true) (hown : st.owns s c = true) :
    st.serviceable s := by
  obtain ⟨hp, -, -, -, hslots, -⟩ := h
  obtain ⟨hv, rfl⟩ := owns_iff.mp hown
  obtain ⟨hchan, -, hsum, -, -, hw, -, hidle, hbit⟩ := hslots s (lt_of_valid hv) hv
  obtain ⟨-, hcap, -⟩ := wf_iff.mp hp
  rw [hidle (hbit hc), Nat.sub_zero] at hw
  exact ⟨hv, hchan, hsum.symm ▸ hcap, hw⟩

theorem execIrq_safe (h : st.inProtocol) : safeOutcome (execIrq st) :=
  have ⟨hp, _⟩ := h
  safe_require fun _ => safe_require fun _ => irqRun_safe hp fun _ _ => serviceable_of_inProtocol h

/-! ### Every protocol event, and the step. -/

/-- Of the protocol events only IRQ reads a memory. -/
theorem exec_safe_of_protocolEvent (h : st.inProtocol) {i : Instr} (hi : protocolEvent i = true) : safeOutcome (exec i st) := by
  cases i with
  | reset => exact safe_next _
  | init s c h =>
    exact safe_require fun _ => safe_require fun _ => safe_require fun _ => safe_require fun _ => safe_require fun _ =>
      safe_next _
  | enable => exact safe_require fun _ => safe_next _
  | dma c l => exact safe_require fun _ => safe_require fun _ => safe_next _
  | dmaByte c => exact safe_require fun _ => safe_require fun _ => safe_next _
  | dmaDone c => exact safe_require fun _ => safe_next _
  | irq => exact execIrq_safe h
  | _ => cases hi

/-- What the hardware does by itself is a protocol event. -/
theorem protocolEvent_of_hardwareEvent {i : Instr} (h : hardwareEvent st = some i) : protocolEvent i = true := by
  rcases hardwareEvent_cases h with ⟨rfl, -⟩ | ⟨c, rfl, -⟩ | ⟨c, rfl, -⟩ <;> rfl

theorem hardwareStep_safe (h : st.inProtocol) : safeOutcome (hardwareStep st) := by
  unfold hardwareStep
  split
  · next i hi => exact exec_safe_of_protocolEvent h (protocolEvent_of_hardwareEvent hi)
  · exact safe_next st

theorem traceStep_safe (h : st.inProtocol) {i : Instr} {st' : State} (hf : fetch st = .ok (i, st'))
    (hi : protocolEvent i = true) : safeOutcome (traceStep st) := by
  obtain ⟨rest, -, rfl⟩ := fetch_cases hf
  rw [traceStep, hf]
  exact safe_require fun _ => exec_safe_of_protocolEvent (st := { st with trace := rest }) h hi

/-- Settles O51: nothing waits and no scan is open, so the step is an event of the trace or of the hardware, and each is a protocol
event. -/
theorem protocolNeverFaults : Obligations.ProtocolNeverFaults := by
  intro st h _ hnext
  have ⟨_, hscan, hheld, _⟩ := h
  have hresumes : st.resumes = false := by simp [State.resumes, hheld]
  simp only [step, nextStep, turn_of_free hheld, hresumes, Bool.false_eq_true, if_false, agentStep]
  split
  · simp only [idleStep, hscan]
    exact hardwareStep_safe h
  · next htrace =>
    rcases hnext with hnil | ⟨i, st', hf, hi⟩
    · exact absurd (by simp [hnil]) htrace
    · exact traceStep_safe h hf hi

end Sys2Proof.Machine
end

section
/-! The two directions of the round trip between operations and bytes (30_encoding.md R103, R104): an encoding followed by any bytes
decodes to its operation, and what decodes is the encoding that was read. Each arm of the decoder is a chain of operand readers, so
each constructor's proof is the chain of the readers' laws. -/

namespace Sys2Proof

open Machine

variable {p : Params}

/-! ### Decode of encode. -/

/-- What the well-formedness of an operation with two checked operands says. -/
theorem of_byteOk_and {n : Nat} {ok : Bool} (h : (byteOk n && ok) = true) : n < 256 ∧ ok = true := by
  simpa [byteOk] using h

/-- A count is a number of eight bytes. -/
theorem countOk_iff {v : Nat} : countOk v = true ↔ v < 256 ^ 8 := by
  simp only [countOk, decide_eq_true_eq]
  omega

/-- An offset or a count reads back from its eight bytes. -/
theorem withCount_append {v : Nat} (h : countOk v = true) (bs : List Byte) (k : Nat → List Byte → DecodeResult) :
    withNat 8 (leBytes 8 v ++ bs) k = k v bs := withNat_append (countOk_iff.mp h) bs k

/-- The trace's decoder reads an operation back from its encoding and leaves the bytes after it. -/
theorem decode_encode_append {i : Instr} (hwf : i.wf p = true) (hs : i.onStream = false) (rest : List Byte) :
    decode p (encode p i ++ rest) = .ok (i, rest) := by
  cases i with
  | headerByte | frame raw => cases hs
  | reset | enable | irq | crcStep c8 b => rfl
  | rbAvail n | scan n | scnIdle n | scnSkip n | scnDefer n | scnAccept n | scnReject n | scnDrain n | emit n | svc n | ack n
  | raise n | dmaByte n | dmaDone n | lookup n | dispatch n =>
    have hn : n < 256 := of_decide_eq_true hwf
    simp [encode, decode, decodeOperands, withSmall_byteOf hn]
  | dmaConfig n m | fatal n m =>
    obtain ⟨hn, hm⟩ := of_byteOk_and hwf
    simp [encode, decode, decodeOperands, withSmall_byteOf hn, withSmall_byteOf (of_decide_eq_true hm)]
  | frameValid f | decode f =>
    have hf : f.length = p.frameSize := of_decide_eq_true hwf
    simp [encode, decode, decodeOperands, withBytes_append hf]
  | rbPhys c => simp [encode, decode, decodeOperands, withCursor_append]
  | rbAdvi s n | rbAdvx s n =>
    obtain ⟨hs, hn⟩ := of_byteOk_and hwf
    simp [encode, decode, decodeOperands, withSmall_byteOf hs, withCount_append hn]
  | push n l | dma n l =>
    obtain ⟨hn, hl⟩ := of_byteOk_and hwf
    simp [encode, decode, decodeOperands, withSmall_byteOf hn, withCounted_append (of_decide_eq_true hl)]
  | crcRange l => simp [encode, decode, decodeOperands, withLongCounted_append (countOk_iff.mp hwf)]
  | rbWindow s c n | rbCopy s c n =>
    obtain ⟨hs, hn⟩ := of_byteOk_and hwf
    simp [encode, decode, decodeOperands, withSmall_byteOf hs, withCursor_append, withCount_append hn]
  | rbDmawr s a b =>
    obtain ⟨hs, ha⟩ := of_byteOk_and hwf
    simp [encode, decode, decodeOperands, withSmall_byteOf hs, withCount_append ha]
  | init s c h =>
    obtain ⟨hsc, hh⟩ := Bool.and_eq_true_iff.mp hwf
    obtain ⟨hs, hc⟩ := of_byteOk_and hsc
    simp [encode, decode, decodeOperands, withSmall_byteOf hs, withSmall_byteOf (of_decide_eq_true hc),
      withNat_append (of_decide_eq_true hh)]
  | arm c a n =>
    obtain ⟨hca, hn⟩ := Bool.and_eq_true_iff.mp hwf
    obtain ⟨hc, ha⟩ := of_byteOk_and hca
    simp [encode, decode, decodeOperands, withSmall_byteOf hc, withCount_append ha, withCount_append hn]

/-- The scanner's decoder reads a whole valid frame as FRAME and leaves the bytes after it. -/
theorem decodeStream_frame_append {f : List Byte} (hf : isFrame p f = true) (s : Nat) (rest : List Byte) :
    decodeStream p s (f ++ rest) = some (.frame f, rest) := by
  obtain ⟨hl, hhead, -⟩ := frameValid_of_isFrame hf
  cases f with
  | nil => cases hhead
  | cons b tl =>
    obtain rfl : b = p.header := by simpa using hhead
    have htake : (p.header :: tl ++ rest).take p.frameSize = p.header :: tl := by rw [← hl, List.take_left]
    have hdrop : (p.header :: tl ++ rest).drop p.frameSize = rest := by rw [← hl, List.drop_left]
    rw [List.cons_append] at htake hdrop ⊢
    simp only [decodeStream, if_true, decodeHeader, htake, hdrop, hf]

/-- A header byte that no whole valid frame starts with is HEADER_BYTE. -/
theorem decodeStream_headerByte {tl : List Byte} (h : isFrame p ((p.header :: tl).take p.frameSize) = false) (s : Nat) :
    decodeStream p s (p.header :: tl) = some (.headerByte, tl) := by
  simp [decodeStream, decodeHeader, h]

/-- A header byte with nothing after it is HEADER_BYTE: a frame has at least two bytes (00_scope.md R18). -/
theorem decodeStream_lone_header (hp : p.wf = true) (s : Nat) : decodeStream p s [p.header] = some (.headerByte, []) := by
  obtain ⟨h2, -, -⟩ := wf_iff.mp hp
  refine decodeStream_headerByte ?_ s
  have hlen : ([p.header].take p.frameSize).length ≠ p.frameSize := by
    simp only [List.length_take, List.length_singleton]
    omega
  simp only [isFrame, decide_eq_false hlen, Bool.false_and]

/-- A byte that is no header is a seeking byte. -/
theorem decodeStream_seeking {b : Byte} (h : b ≠ p.header) (s : Nat) (rest : List Byte) :
    decodeStream p s (b :: rest) = some (.scnSkip s, rest) := by
  simp [decodeStream, h]

/-- Settles O2: an operation of a trace by its operands in order, a frame by its length and its valid checksum, a lone header byte
by the length of a frame. -/
theorem decodeOfEncode : Obligations.DecodeOfEncode :=
  ⟨fun _ _ rest hwf hs => decode_encode_append hwf hs rest, fun _ s _ rest hf => decodeStream_frame_append hf s rest,
    fun _ s hp => decodeStream_lone_header hp s⟩

/-! ### Encode of decode. -/

/-- Where the reader `o` of the bytes `bs`, which follow the bytes `pre` already read, answers an operation, it is well-formed, of
a trace, and encoded as the bytes read. -/
def Inverts (p : Params) (pre bs : List Byte) (o : DecodeResult) : Prop :=
  ∀ i rest, o = .ok (i, rest) → i.wf p = true ∧ i.onStream = false ∧ encode p i ++ rest = pre ++ bs

variable {pre bs : List Byte}

/-- All operands are read. -/
theorem inverts_ok {i : Instr} (hwf : i.wf p = true) (hs : i.onStream = false := by rfl) (he : encode p i = pre := by rfl) :
    Inverts p pre bs (.ok (i, bs)) := by
  rintro _ _ ⟨⟩
  exact ⟨hwf, hs, by rw [he]⟩

theorem inverts_error (e : DecodeError) : Inverts p pre bs (.error e) := nofun

theorem inverts_withByte {k : Byte → List Byte → DecodeResult} (h : ∀ b rest, Inverts p (pre ++ [b]) rest (k b rest)) :
    Inverts p pre bs (withByte bs k) := by
  intro i rest ho
  obtain ⟨b, tl, rfl, hk⟩ := withByte_ok ho
  simpa using h b tl i rest hk

theorem inverts_withSmall {k : Nat → List Byte → DecodeResult}
    (h : ∀ n rest, byteOk n = true → Inverts p (pre ++ [byteOf n]) rest (k n rest)) : Inverts p pre bs (withSmall bs k) := by
  intro i rest ho
  obtain ⟨n, tl, rfl, hn, hk⟩ := withSmall_ok ho
  simpa using h n tl (decide_eq_true hn) i rest hk

theorem inverts_withBytes {n : Nat} {k : List Byte → List Byte → DecodeResult}
    (h : ∀ l rest, l.length = n → Inverts p (pre ++ l) rest (k l rest)) : Inverts p pre bs (withBytes n bs k) := by
  intro i rest ho
  obtain ⟨l, tl, rfl, hl, hk⟩ := withBytes_ok ho
  simpa using h l tl hl i rest hk

theorem inverts_withCounted {k : List Byte → List Byte → DecodeResult}
    (h : ∀ l rest, countedOk l = true → Inverts p (pre ++ byteOf l.length :: l) rest (k l rest)) :
    Inverts p pre bs (withCounted bs k) := by
  intro i rest ho
  obtain ⟨l, tl, rfl, hl, hk⟩ := withCounted_ok ho
  simpa using h l tl (decide_eq_true hl) i rest hk

theorem inverts_withNat {n : Nat} {k : Nat → List Byte → DecodeResult}
    (h : ∀ v rest, v < 256 ^ n → Inverts p (pre ++ leBytes n v) rest (k v rest)) : Inverts p pre bs (withNat n bs k) := by
  intro i rest ho
  obtain ⟨v, tl, rfl, hv, hk⟩ := withNat_ok ho
  simpa using h v tl hv i rest hk

theorem inverts_withCount {k : Nat → List Byte → DecodeResult}
    (h : ∀ v rest, countOk v = true → Inverts p (pre ++ leBytes 8 v) rest (k v rest)) : Inverts p pre bs (withNat 8 bs k) :=
  inverts_withNat fun v rest hv => h v rest (countOk_iff.mpr hv)

theorem inverts_withLongCounted {k : List Byte → List Byte → DecodeResult}
    (h : ∀ l rest, countOk l.length = true → Inverts p (pre ++ leBytes 8 l.length ++ l) rest (k l rest)) :
    Inverts p pre bs (withLongCounted bs k) :=
  inverts_withCount fun _ _ hn => inverts_withBytes fun l rest hl => by subst hl; exact h l rest hn

theorem inverts_withCursor {k : Cursor → List Byte → DecodeResult}
    (h : ∀ c rest, Inverts p (pre ++ leBytes 8 c.toNat) rest (k c rest)) : Inverts p pre bs (withCursor bs k) := by
  intro i rest ho
  obtain ⟨c, tl, rfl, hk⟩ := withCursor_ok ho
  simpa using h c tl i rest hk

/-- The arm of an operation with one operand, a slot or a channel. -/
theorem inverts_small (f : Nat → Instr) (hwf : ∀ n, (f n).wf p = byteOk n := by intro; rfl)
    (hs : ∀ n, (f n).onStream = false := by intro; rfl) (he : ∀ n, encode p (f n) = pre ++ [byteOf n] := by intro; rfl) :
    Inverts p pre bs (withSmall bs fun n bs => .ok (f n, bs)) :=
  inverts_withSmall fun n _ hn => inverts_ok ((hwf n).trans hn) (hs n) (he n)

/-- Every arm of the decoder, in the order of R103's table. -/
theorem decodeOperands_inverts (code : Byte) : Inverts p [byteOf code.toNat] bs (decodeOperands p code bs) := by
  unfold decodeOperands
  generalize code.toNat = n
  split
  · exact inverts_ok (i := .reset) rfl
  · exact inverts_withSmall fun s _ hs => inverts_withSmall fun c _ hc => inverts_withNat fun h _ hh =>
      inverts_ok (i := .init s c h) (by simp [Instr.wf, handleOk, hs, hc, hh])
  · exact inverts_ok (i := .enable) rfl
  · exact inverts_withByte fun c8 _ => inverts_withByte fun b _ => inverts_ok (i := .crcStep c8 b) rfl
  · exact inverts_withLongCounted fun l _ hl => inverts_ok (i := .crcRange l) hl
  · exact inverts_withBytes fun f _ hf => inverts_ok (i := .frameValid f) (decide_eq_true hf)
  · exact inverts_withCursor fun c _ => inverts_ok (i := .rbPhys c) rfl
  · exact inverts_small .rbAvail
  · exact inverts_withSmall fun s _ hs => inverts_withCursor fun c _ => inverts_withCount fun n _ hn =>
      inverts_ok (i := .rbWindow s c n) (by simp [Instr.wf, hs, hn])
  · exact inverts_withSmall fun s _ hs => inverts_withCursor fun c _ => inverts_withCount fun n _ hn =>
      inverts_ok (i := .rbCopy s c n) (by simp [Instr.wf, hs, hn])
  · exact inverts_withSmall fun s _ hs => inverts_withCount fun n _ hn =>
      inverts_ok (i := .rbAdvi s n) (by simp [Instr.wf, hs, hn])
  · exact inverts_withSmall fun s _ hs => inverts_withCount fun n _ hn =>
      inverts_ok (i := .rbAdvx s n) (by simp [Instr.wf, hs, hn])
  · exact inverts_withSmall fun s _ hs => inverts_withCount fun a _ ha => inverts_withByte fun b _ =>
      inverts_ok (i := .rbDmawr s a b) (by simp [Instr.wf, hs, ha])
  · exact inverts_withSmall fun s _ hs => inverts_withCounted fun l _ hl =>
      inverts_ok (i := .push s l) (by simp [Instr.wf, hs, hl])
  · exact inverts_small .scan
  · exact inverts_small .scnIdle
  · exact inverts_small .scnSkip
  · exact inverts_small .scnDefer
  · exact inverts_small .scnAccept
  · exact inverts_small .scnReject
  · exact inverts_small .scnDrain
  · exact inverts_withBytes fun f _ hf => inverts_ok (i := .decode f) (decide_eq_true hf)
  · exact inverts_small .emit
  · exact inverts_small .svc
  · exact inverts_small .ack
  · exact inverts_withSmall fun c _ hc => inverts_withCount fun a _ ha => inverts_withCount fun n _ hn =>
      inverts_ok (i := .arm c a n) (by simp [Instr.wf, hc, ha, hn])
  · exact inverts_withSmall fun c _ hc => inverts_withCounted fun l _ hl =>
      inverts_ok (i := .dma c l) (by simp [Instr.wf, hc, hl])
  · exact inverts_small .raise
  · exact inverts_withSmall fun c _ hc => inverts_withSmall fun s _ hs =>
      inverts_ok (i := .dmaConfig c s) (by simp [Instr.wf, hc, hs])
  · exact inverts_small .dmaByte
  · exact inverts_small .dmaDone
  · exact inverts_ok (i := .irq) rfl
  · exact inverts_small .lookup
  · exact inverts_small .dispatch
  · exact inverts_withSmall fun d _ hd => inverts_withSmall fun c _ hc =>
      inverts_ok (i := .fatal d c) (by simp [Instr.wf, hd, hc])
  · exact inverts_error _

/-- What the trace's decoder reads is a well-formed operation of a trace, and the bytes read are its encoding. -/
theorem decode_inverts : Inverts p [] bs (decode p bs) := by
  cases bs with
  | nil => exact inverts_error _
  | cons b bs =>
    intro i rest h
    simpa using decodeOperands_inverts b i rest h

/-- What the scanner's decoder reads at a header is a whole valid frame or the header byte. -/
theorem decodeHeader_inverts {bs rest : List Byte} {i : Instr} (h : decodeHeader p (p.header :: bs) = (i, rest)) :
    i.onStream = true ∧ i.wf p = true ∧ encode p i ++ rest = p.header :: bs := by
  unfold decodeHeader at h
  split at h
  · next hf =>
    cases h
    exact ⟨rfl, hf, List.take_append_drop _ _⟩
  · cases h
    exact ⟨rfl, rfl, rfl⟩

/-- Settles O3: every operand reader reads the bytes its operand is encoded in, so every arm of the decoder does. -/
theorem encodeOfDecode : Obligations.EncodeOfDecode := by
  refine ⟨fun p bs i rest h => decode_inverts i rest h, fun p s bs i rest h => ?_⟩
  cases bs with
  | nil => cases h
  | cons b tl =>
    by_cases hb : b = p.header
    · subst hb
      simp only [decodeStream, if_true, Option.some.injEq] at h
      exact .inr (decodeHeader_inverts h)
    · rw [decodeStream_seeking hb] at h
      cases h
      exact .inl ⟨b, hb, rfl, rfl⟩

/-! ### Bytes of the spec. -/

/-- The code bytes of R103's table. -/
def listedCodes : List Nat :=
  [0x00, 0x01, 0x02, 0x10, 0x11, 0x12, 0x20, 0x21, 0x22, 0x23, 0x24, 0x25, 0x26, 0x2F, 0x30, 0x31, 0x32, 0x33, 0x34, 0x35, 0x36,
    0x37, 0x38, 0x40, 0x41, 0x42, 0x43, 0x44, 0x45, 0x46, 0x47, 0x50, 0x51, 0x52, 0x53]

/-- A byte that is no code of R103 is refused by name, whatever follows it. -/
theorem decode_unlisted {b : Byte} (h : b.toNat ∉ listedCodes) (rest : List Byte) :
    decode p (b :: rest) = .error (.unlistedCode b) := by
  simp only [decode, decodeOperands]
  revert h
  generalize b.toNat = n
  intro h
  split
  case h_36 => rfl
  all_goals exact absurd h (by decide)

/-- Settles O4: the lines of the spec by evaluation; an unlisted code is in no arm of the decoder; at a scan position a header byte
needs a whole frame after it to be more than HEADER_BYTE. -/
theorem specBytesDecode : Obligations.SpecBytesDecode := by
  refine ⟨rfl, rfl, rfl, rfl, rfl, rfl, fun s => ⟨?_, fun b rest hb => decodeStream_seeking hb s rest⟩,
    fun b rest hb => decode_unlisted hb rest⟩
  exact decodeStream_headerByte (p := stdParams) (tl := [0x2C]) (by decide) s

end Sys2Proof
end

section
/-! Test operations of 30_encoding.md as exact next states: PUSH (R106), DMA (R105) and RAISE (R107). PUSH and DMA write a ring buffer
at offsets that rise by one around its end, which `ringWrite` says once for both. -/

namespace Sys2Proof.Machine

/-! ### Refusals. -/

/-- A guarded operation is refused where the guard fails or the operation is refused. -/
theorem require_refuses {α : Type} {ok : Bool} {why : Refusal} {k : Out α} (h : ok = true → ∃ w, k = .refused w) :
    ∃ w, require ok why k = .refused w := by
  cases ok with
  | false => exact ⟨why, rfl⟩
  | true => exact h rfl

/-- A guard that fails refuses. -/
theorem require_refuses_of_false {α : Type} {ok : Bool} (h : ok = false) (why : Refusal) (k : Out α) :
    ∃ w, require ok why k = .refused w := ⟨why, by rw [h]; rfl⟩

/-! ### Writes around the end of a ring buffer. -/

/-- Store bytes at `a` and the offsets after it, modulo `cap`, in this order. -/
def ringWrite (cap : Nat) : List Host.Cell → Nat → List Byte → List Host.Cell
  | m, _, [] => m
  | m, a, b :: bs => ringWrite cap (memWrite m a b) ((a + 1) % cap) bs

/-- The offset of the byte `i + 1` on from `a` is that of the byte `i` on from the next offset. -/
theorem ringOffset_succ (cap a i : Nat) : ((a + 1) % cap + i) % cap = (a + (i + 1)) % cap := by
  rw [Nat.mod_add_mod, Nat.add_assoc, Nat.add_comm 1]

/-- Less than a turn on from an offset is another offset. -/
theorem ringOffset_ne {cap a i : Nat} (ha : a < cap) (h0 : 0 < i) (hi : i < cap) : (a + i) % cap ≠ a := by
  by_cases h : a + i < cap
  · rw [Nat.mod_eq_of_lt h]
    omega
  · rw [Nat.mod_eq_sub_mod (by omega), Nat.mod_eq_of_lt (by omega)]
    omega

theorem memRead_ringWrite_outside {cap a x : Nat} {m : List Host.Cell} {bs : List Byte} (ha : a < cap)
    (h : ∀ i < bs.length, x ≠ (a + i) % cap) : memRead (ringWrite cap m a bs) x = memRead m x := by
  induction bs generalizing m a with
  | nil => rfl
  | cons b bs ih =>
    have hx : x ≠ a := by simpa [Nat.mod_eq_of_lt ha] using h 0 (by simp)
    have htail : ∀ i < bs.length, x ≠ ((a + 1) % cap + i) % cap := fun i hi => by
      rw [ringOffset_succ]
      exact h (i + 1) (by simpa using hi)
    rw [ringWrite, ih (Nat.mod_lt _ (by omega)) htail, memRead_memWrite_ne hx]

/-- Of bytes stored around the buffer those of the last turn stay. -/
theorem memRead_ringWrite_inside {cap a i : Nat} {m : List Host.Cell} {bs : List Byte} (ha : a < cap) (hi : i < bs.length)
    (hturn : bs.length ≤ i + cap) : memRead (ringWrite cap m a bs) ((a + i) % cap) = bs[i]? := by
  induction bs generalizing m a i with
  | nil => cases hi
  | cons b bs ih =>
    have hnext : (a + 1) % cap < cap := Nat.mod_lt _ (by omega)
    rw [List.length_cons] at hi hturn
    cases i with
    | zero =>
      have hrest : ∀ j < bs.length, a ≠ ((a + 1) % cap + j) % cap := fun j hj => by
        rw [ringOffset_succ]
        exact (ringOffset_ne ha (by omega) (by omega)).symm
      rw [Nat.add_zero, Nat.mod_eq_of_lt ha, ringWrite, memRead_ringWrite_outside hnext hrest]
      simp
    | succ i =>
      rw [← ringOffset_succ, ringWrite, ih hnext (by omega) (by omega)]
      simp

variable {st : State} {s c : Nat} {bs : List Byte}

/-- Of two writes of a slot the second stays. -/
theorem setSlot_setSlot (st : State) (s : Nat) (x y : Slot) : (st.setSlot s x).setSlot s y = st.setSlot s y := by
  simp [State.setSlot]

/-- A list whose element at `i` is written again is the same list. -/
theorem set_getD_same {α : Type} (l : List α) (i : Nat) (d : α) : l.set i (l.getD i d) = l := by
  by_cases h : i < l.length
  · simp [List.getD_eq_getElem?_getD, List.getElem?_eq_getElem h]
  · exact List.set_eq_of_length_le (by omega)

theorem setChan_same (st : State) (c : Nat) : st.setChan c (st.chan c) = st := by
  rw [State.setChan, State.chan, set_getD_same]

theorem setUart_same (st : State) (s : Nat) : st.setUart s (st.uart s) = st := by
  rw [State.setUart, State.uart, set_getD_same]

/-- The slot `s` with `bs` stored around its buffer from offset `a` on. -/
def State.ringWritten (st : State) (s a : Nat) (bs : List Byte) : Slot :=
  { st.slot s with buf := ringWrite st.par.capacity (st.slot s).buf a bs }

/-! ### PUSH. -/

/-- PUSH's stores write the slot's buffer, from the offset of the first position on. -/
theorem pushBytes_eq (hp : st.par.log2Cap ≤ 64) (hs : s < st.nSlots) (pos : Cursor) :
    pushBytes s pos bs st = st.setSlot s (st.ringWritten s (phys st.par pos) bs) := by
  induction bs generalizing st pos with
  | nil => exact (setSlot_same st s).symm
  | cons b bs ih =>
    have hphys : phys st.par (advance pos 1) = (phys st.par pos + 1) % st.par.capacity := phys_advance_phys hp pos 1
    rw [pushBytes, ih (by exact hp) (by simpa using hs)]
    simp only [State.ringWritten, writeBuf_par, writeBuf_slot_self hs, hphys, ringWrite]
    exact setSlot_setSlot st s _ _

/-- PUSH with room writes its slot only: the bytes from the offset of `insert` on, and `insert`. -/
theorem execPush_eq (hp : st.par.log2Cap ≤ 64) (hv : (st.slot s).valid = true)
    (hroom : (st.avail s).toNat + bs.length ≤ st.par.capacity) :
    execPush s bs st = .next (st.setSlot s { st.ringWritten s (phys st.par (st.slot s).insert) bs with
      insert := advance (st.slot s).insert bs.length }) := by
  have hs := lt_of_valid hv
  simp only [execPush, hv, decide_eq_true hroom, require_true, pushBytes_eq hp hs, advInsert, slot_setSlot_self hs,
    setSlot_setSlot]
  rfl

/-- Settles O21: the next state is the one of `execPush_eq`, and the bytes fit the buffer, so none overwrites another. -/
theorem pushDelivers : Obligations.PushDelivers := by
  intro s bytes st hp
  obtain ⟨-, -, hcap⟩ := wf_iff.mp hp
  have hlog : st.par.log2Cap ≤ 64 := by omega
  refine ⟨fun hv hroom => ⟨_, execPush_eq hlog hv hroom, ?_⟩, fun h => ?_⟩
  · have hs := lt_of_valid hv
    have hstart := phys_lt st.par (st.slot s).insert
    refine ⟨fun i hi => ?_, ?_, fun u x hx => ?_, ?_, fun u hu => slot_setSlot_ne hu _, rfl⟩
    · simp only [State.logicalByte, State.bufByte, slot_setSlot_self hs, setSlot_par, phys_advance_phys hlog]
      exact memRead_ringWrite_inside hstart hi (by omega)
    · rw [slot_setSlot_self hs]
    · by_cases hu : u = s
      · subst hu
        have hx : ∀ i < bytes.length, x ≠ phys st.par (advance (st.slot u).insert i) := by simpa using hx
        simp only [phys_advance_phys hlog] at hx
        simp only [State.bufByte, slot_setSlot_self hs]
        exact memRead_ringWrite_outside hstart hx
      · simp only [State.bufByte, slot_setSlot_ne hu]
    · rw [slot_setSlot_self hs]
      rfl
  · refine require_refuses fun hv => require_refuses_of_false (decide_eq_false fun hroom => ?_) _ _
    rcases h with hv' | hfull
    · rw [hv] at hv'
      cases hv'
    · omega

/-! ### DMA and RAISE. -/

/-- The state after the engine has moved `bs` on channel `c` (43_rearm.md R173, byte by byte): the buffer of the channel's slot, the
channel's address and count, and the count of bytes read at the peripheral. -/
def State.transferred (st : State) (c : Nat) (bs : List Byte) : State :=
  let ch := st.chan c
  let u := st.uart ch.cfg.slot
  ((st.setSlot ch.cfg.slot (st.ringWritten ch.cfg.slot ch.waddr bs)).setChan c
      { ch with waddr := (ch.waddr + bs.length) % st.par.capacity, remaining := ch.remaining - bs.length }).setUart
    ch.cfg.slot { u with drawn := u.drawn + bs.length }

/-- The state after the engine has read the byte `b` on channel `c` and stored it. -/
def State.storedNext (st : State) (c : Nat) (b : Byte) : State :=
  storeByte c b (drawStream (st.chan c).cfg.slot (st.uart (st.chan c).cfg.slot).rx st)

/-- It writes the slot, the channel and the peripheral. -/
theorem storedNext_eq (st : State) (c : Nat) (b : Byte) : st.storedNext c b =
    ((st.setSlot (st.chan c).cfg.slot { st.slot (st.chan c).cfg.slot with
          buf := memWrite (st.slot (st.chan c).cfg.slot).buf (st.chan c).waddr b }).setChan c
        { st.chan c with
          waddr := ((st.chan c).waddr + 1) % st.par.capacity, remaining := (st.chan c).remaining - 1 }).setUart
      (st.chan c).cfg.slot { st.uart (st.chan c).cfg.slot with drawn := (st.uart (st.chan c).cfg.slot).drawn + 1 } := rfl

theorem storedNext_chan (hc : c < st.nChannels) (b : Byte) : (st.storedNext c b).chan c =
    { st.chan c with waddr := ((st.chan c).waddr + 1) % st.par.capacity, remaining := (st.chan c).remaining - 1 } := by
  rw [storedNext_eq, setUart_chan, chan_setChan_self (by exact hc)]

theorem storedNext_slot (hs : (st.chan c).cfg.slot < st.nSlots) (b : Byte) : (st.storedNext c b).slot (st.chan c).cfg.slot =
    { st.slot (st.chan c).cfg.slot with buf := memWrite (st.slot (st.chan c).cfg.slot).buf (st.chan c).waddr b } :=
  slot_setSlot_self hs _

theorem storedNext_uart (hu : (st.chan c).cfg.slot < st.uarts.length) (b : Byte) :
    (st.storedNext c b).uart (st.chan c).cfg.slot =
      { st.uart (st.chan c).cfg.slot with drawn := (st.uart (st.chan c).cfg.slot).drawn + 1 } :=
  uart_setUart_self hu _

/-- The first byte of a transfer and then the others is all of them. -/
theorem storedNext_transferred {b : Byte} (hc : c < st.nChannels) (hs : (st.chan c).cfg.slot < st.nSlots)
    (hu : (st.chan c).cfg.slot < st.uarts.length) : (st.storedNext c b).transferred c bs = st.transferred c (b :: bs) := by
  have hpar : (st.storedNext c b).par = st.par := rfl
  simp only [State.transferred, storedNext_chan hc, State.ringWritten, storedNext_slot hs, storedNext_uart hu, hpar,
    ringWrite, List.length_cons, ringOffset_succ, Nat.sub_sub, Nat.add_assoc, Nat.add_comm 1 bs.length]
  simp only [storedNext_eq, State.setSlot, State.setChan, State.setUart, List.set_set]

/-- A transfer of no bytes changes nothing. -/
theorem transferred_nil (hw : (st.chan c).waddr < st.par.capacity) : st.transferred c [] = st := by
  simp only [State.transferred, State.ringWritten, ringWrite, List.length_nil, Nat.add_zero, Nat.sub_zero,
    Nat.mod_eq_of_lt hw]
  rw [setSlot_same, setChan_same, setUart_same]

/-- The bytes of DMA, one at a time, are one transfer. -/
theorem transferBytes_eq (hc : c < st.nChannels) (hs : (st.chan c).cfg.slot < st.nSlots)
    (hu : (st.chan c).cfg.slot < st.uarts.length) (hw : (st.chan c).waddr < st.par.capacity) :
    transferBytes c bs st = st.transferred c bs := by
  induction bs generalizing st with
  | nil => exact (transferred_nil hw).symm
  | cons b bs ih =>
    have hch := storedNext_chan hc b
    have hcfg : ((st.storedNext c b).chan c).cfg = (st.chan c).cfg := by rw [hch]
    rw [← storedNext_transferred hc hs hu]
    refine ih (st := st.storedNext c b) ?_ ?_ ?_ ?_
    · simpa [storedNext_eq] using hc
    · rw [hcfg]
      simpa [storedNext_eq] using hs
    · rw [hcfg]
      simpa [storedNext_eq] using hu
    · rw [hch]
      exact Nat.mod_lt _ (capacity_pos _)

theorem transferred_slot_self (hs : (st.chan c).cfg.slot < st.nSlots) :
    (st.transferred c bs).slot (st.chan c).cfg.slot = st.ringWritten (st.chan c).cfg.slot (st.chan c).waddr bs :=
  slot_setSlot_self hs _

theorem transferred_slot_ne {u : Nat} (hu : u ≠ (st.chan c).cfg.slot) : (st.transferred c bs).slot u = st.slot u :=
  slot_setSlot_ne hu _

theorem transferred_chan_self (hc : c < st.nChannels) : (st.transferred c bs).chan c =
    { st.chan c with
      waddr := ((st.chan c).waddr + bs.length) % st.par.capacity, remaining := (st.chan c).remaining - bs.length } := by
  rw [State.transferred, setUart_chan, chan_setChan_self (by exact hc)]

theorem transferred_chan_ne {d : Nat} (hd : d ≠ c) : (st.transferred c bs).chan d = st.chan d := by
  rw [State.transferred, setUart_chan, chan_setChan_ne hd, setSlot_chan]

/-- What waits at the peripherals is not read. -/
theorem transferred_rx (u : Nat) : ((st.transferred c bs).uart u).rx = (st.uart u).rx := by
  rw [State.transferred, uart_setUart]
  split
  · next h => rw [h.1]
  · rfl

/-- The channel after a transfer and its completion. -/
theorem finishTransfer_transferred_chan (hc : c < st.nChannels) : (finishTransfer c (st.transferred c bs)).chan c =
    { armed := false
      waddr := ((st.chan c).waddr + bs.length) % st.par.capacity
      remaining := (st.chan c).remaining - bs.length
      cfg := (st.chan c).cfg } := by
  rw [finishTransfer_chan_self (by simpa [State.transferred] using hc), transferred_chan_self hc]

/-- DMA of the whole request is one transfer and its completion. -/
theorem execDma_eq (hf : st.fits) (ha : (st.chan c).armed = true) (hl : bs.length = (st.chan c).remaining)
    (hr : st.reading (st.chan c).cfg.slot = false) : execDma c bs st = .next (finishTransfer c (st.transferred c bs)) := by
  have hc := lt_of_armed ha
  obtain ⟨hu, -⟩ := fits_iff.mp hf
  have hch := chan_fits hf hc
  rw [execDma, ha, decide_eq_true hl, hr, transferBytes_eq hc hch.cfg (hu ▸ hch.cfg) hch.waddr]
  rfl

/-- RAISE of a channel that exists sets its bit. -/
theorem execRaise_eq (hc : c < st.nChannels) : execRaise c st = .next (raiseChan c st) := by
  rw [execRaise, State.isChan, decide_eq_true hc, require_true]

/-- Settles O47: the next state is the one of `execDma_eq`; of what was stored around the buffer the last turn stays. -/
theorem dmaTransfersTheWholeRequest : Obligations.DmaTransfersTheWholeRequest := by
  intro c bytes st hf
  refine ⟨fun ha hl hr => ⟨_, execDma_eq hf ha hl hr, ?_⟩, fun h => ?_, fun hr => ?_⟩
  · have hc := lt_of_armed ha
    have hch := chan_fits hf hc
    have hslot := transferred_slot_self (bs := bytes) hch.cfg
    have hchan := finishTransfer_transferred_chan (bs := bytes) hc
    refine ⟨fun i hi hturn => ?_, fun u a h => ?_, ?_, ?_, ?_, ?_, fun d hd => ?_, fun d => ?_, fun u => ?_, fun u => ?_, rfl⟩
    · simp only [State.bufByte, finishTransfer_slot, hslot]
      exact memRead_ringWrite_inside hch.waddr hi hturn
    · by_cases hu : u = (st.chan c).cfg.slot
      · simp only [State.bufByte, finishTransfer_slot, hu, hslot]
        exact memRead_ringWrite_outside hch.waddr (h.resolve_left (by simpa using hu))
      · simp only [State.bufByte, finishTransfer_slot, transferred_slot_ne hu]
    · rw [hchan]
    · simp [hchan, hl]
    · rw [hchan]
    · rw [hchan]
    · rw [finishTransfer_chan_ne hd, transferred_chan_ne hd]
    · have hints : (st.transferred c bytes).ints = st.ints := rfl
      simp only [finishTransfer_ints, bitSet_setBit, hints, eq_comm (a := c) (b := d)]
    · by_cases hu : u = (st.chan c).cfg.slot
      · rw [finishTransfer_slot, hu, hslot]
        rfl
      · rw [finishTransfer_slot, transferred_slot_ne hu]
    · exact transferred_rx u
  · have hguard : ((st.chan c).armed && decide (bytes.length = (st.chan c).remaining)) = false := by
      rcases h with ha | hl
      · rw [ha, Bool.false_and]
      · rw [decide_eq_false hl, Bool.and_false]
    simp only [exec, execDma, hguard, require_false]
  · exact require_refuses fun _ => require_refuses_of_false (by rw [hr]; rfl) _ _

/-- Settles O48: RAISE is `setBit` of a channel that exists. -/
theorem raiseSetsTheBit : Obligations.RaiseSetsTheBit := by
  refine ⟨fun c st hc => ⟨_, execRaise_eq hc, by simp, fun d hd => ?_, rfl⟩, fun c st hc => ?_⟩
  · simp [Ne.symm hd]
  · simp only [exec, execRaise, State.isChan, decide_eq_false (Nat.not_lt.mpr hc), require_false]

end Sys2Proof.Machine
end

section
/-! What a step performs (70_reset_and_hazards.md R233; 42_scanner.md R153; 20_memory.md R72), one lemma for each way it can go; what
the scanner fetches at its position, and that it is the class R136's tests select there; the guards of a class performed alone. -/

namespace Sys2Proof.Machine

variable {st : State} {r : ScanRegs}

/-! ### Which agent moves. -/

@[simp] theorem turn_par (st : State) : st.turn.par = st.par := by rw [turn_eq]
@[simp] theorem turn_scan (st : State) : st.turn.scan = st.scan := by rw [turn_eq]
@[simp] theorem turn_held (st : State) : st.turn.held = st.held := by rw [turn_eq]
@[simp] theorem turn_trace (st : State) : st.turn.trace = st.trace := by rw [turn_eq]

theorem resumes_of_free (h : st.held = none) : st.resumes = false := by simp [State.resumes, h]

theorem turn_of_waiting (h : st.held ≠ none) : st.turn = { st with consumer := st.consumer.drop 1 } := by
  rw [State.turn, if_pos (Option.isSome_iff_ne_none.mpr h)]
  rfl

theorem resumes_of_waiting (h : st.held ≠ none) : st.resumes = st.consumer.reply := by
  rw [State.resumes, Option.isSome_iff_ne_none.mpr h, Bool.true_and]
  rfl

/-- The consumer returns. -/
theorem step_of_resumes (h : st.resumes = true) : step st = resume st.turn := by
  rw [step, nextStep, if_pos h]

/-- The trace holds an event. -/
theorem step_of_trace (h : st.resumes = false) (ht : st.trace ≠ []) : step st = traceStep st.turn := by
  have hne : st.turn.trace.isEmpty = false := by simpa using ht
  rw [step, nextStep, h, agentStep, hne]
  rfl

/-- The trace holds no event. -/
theorem step_of_idle (h : st.resumes = false) (ht : st.trace = []) : step st = idleStep st.turn := by
  have hempty : st.turn.trace.isEmpty = true := by simp [ht]
  rw [step, nextStep, h, agentStep, hempty]
  rfl

/-- An event of the trace is performed with its bytes taken. -/
theorem traceStep_of_ok {i : Instr} {rest : List Byte} (h : decode st.par st.trace = .ok (i, rest)) :
    traceStep st = performEvent i { st with trace := rest } := by
  simp only [traceStep, fetch, h]

theorem traceStep_of_error {e : DecodeError} (h : decode st.par st.trace = .error e) :
    traceStep st = .refused (.badTrace e) := by
  simp only [traceStep, fetch, h]

theorem performEvent_admitted {i : Instr} (h : st.held = none ∨ othersStep i = true) : performEvent i st = exec i st := by
  have hok : (st.held.isNone || othersStep i) = true := by simpa using h
  rw [performEvent, hok, require_true]

theorem performEvent_barred {i : Instr} (h : st.held ≠ none) (hi : othersStep i = false) :
    performEvent i st = .refused .sequencerBusy := by
  have hok : (st.held.isNone || othersStep i) = false := by
    simpa [hi] using Option.isSome_iff_ne_none.mpr h
  rw [performEvent, hok, require_false]

/-- With no event and nothing waiting an open scan goes on by itself. -/
theorem step_of_openScan (hh : st.held = none) (ht : st.trace = []) (hs : st.scan = some r) :
    step st = andThen (scanFetch r st) fun i => exec i st := by
  rw [step_of_idle (resumes_of_free hh) ht, turn_of_free hh, idleStep, hs]
  simp only [hh, Option.isNone_none, if_true]

/-- With no event and no scan that can go on the hardware moves. -/
theorem step_of_hardware (h : st.resumes = false) (ht : st.trace = []) (hs : st.scan = none ∨ st.held ≠ none) :
    step st = hardwareStep st.turn := by
  rw [step_of_idle h ht, idleStep, turn_scan]
  cases hscan : st.scan with
  | none => rfl
  | some r =>
    have hne : st.held ≠ none := hs.resolve_left (by simp [hscan])
    have hheld : st.turn.held.isNone = false := by simpa using Option.isSome_iff_ne_none.mpr hne
    simp only [hheld, Bool.false_eq_true, if_false]

/-- The interrupt is taken when its line is asserted and the sequencer is free. -/
theorem hardwareStep_of_irqLine (hl : st.irqLine = true) (hb : st.busy = false) : hardwareStep st = exec .irq st := by
  simp [hardwareStep, hardwareEvent, hl, hb]

/-- No interrupt, no completion, no byte. -/
theorem hardwareEvent_eq_none (h : st.irqLine = false ∨ st.busy = true)
    (hc : ∀ c, st.doneEnabled c = false ∧ st.byteReady c = false) : hardwareEvent st = none := by
  have hirq : (st.irqLine && !st.busy) = false := by rcases h with h | h <;> simp [h]
  have hdone : (st.channels.find? fun c => st.doneEnabled c) = none := by simp [hc]
  have hbyte : (st.channels.find? fun c => st.byteReady c) = none := by simp [hc]
  simp [hardwareEvent, hirq, hdone, hbyte]

/-! ### What the scanner fetches. -/

/-- Where every available byte is consumed the fetch is the end of the scan. -/
theorem scanFetch_end (h : r.available ≤ r.consumed) :
    scanFetch r st = .next (if r.available = 0 then .scnIdle r.slot else .scnDrain r.slot) := by
  rw [scanFetch, scanBytes, if_pos h]
  rfl

/-- The fetch is what the scanner's decoder reads from the bytes looked at. -/
theorem scanFetch_of_bytes {bs rest : List Byte} {i : Instr} (hb : scanBytes r st = .next bs)
    (hd : decodeStream st.par r.slot bs = some (i, rest)) : scanFetch r st = .next i := by
  rw [scanFetch, hb, andThen_next, hd]

theorem readBuf_of_logicalByte {s : Nat} {c : Cursor} {b : Byte} (h : st.logicalByte s c = some b) :
    readBuf s (phys st.par c) st = .next b := by
  simp only [State.logicalByte] at h
  rw [readBuf, h]

/-- One position is one offset, whatever the parameters. -/
theorem readRange_one {s : Nat} {c : Cursor} {b : Byte} (h : st.logicalByte s c = some b) : readRange s c 1 st = .next [b] := by
  have hoff : windowOffsets st.par c 1 = [phys st.par c] := by
    have := phys_lt st.par c
    simp [windowOffsets, window, Segment.offsets, show phys st.par c + 1 ≤ st.par.capacity by omega]
  rw [readRange, hoff]
  simp only [readBufAll, readBuf_of_logicalByte h, andThen_next]

/-- A seeking byte, or a header too near the end for a frame, is looked at alone. -/
theorem scanBytes_one {b : Byte} (hc : r.consumed < r.available) (hb : st.logicalByte r.slot (r.pos st) = some b)
    (h : b ≠ st.par.header ∨ r.remainder < st.par.frameSize) : scanBytes r st = .next [b] := by
  have hlen : fetchLength r b st = 1 := if_neg fun ⟨h1, h2⟩ => h.elim (· h1) (Nat.not_lt.mpr h2)
  rw [scanBytes, if_neg (Nat.not_le.mpr hc), readBuf_of_logicalByte hb, andThen_next, hlen, readRange_one hb]

/-- A candidate that lies in the buffer is read whole. -/
theorem readRange_of_holds {f : List Byte} (hp : st.par.wf = true) (hl : f.length = st.par.frameSize)
    (h : st.holds r.slot (r.pos st) f) : readRange r.slot (r.pos st) st.par.frameSize st = .next f := by
  obtain ⟨-, h2, h3⟩ := wf_iff.mp hp
  exact (readRange_eq_next (Nat.le_of_lt h3) h2).mpr ⟨hl, fun i hi => h i (hl.symm ▸ hi)⟩

/-- At a header with a frame's bytes left the whole candidate is looked at. -/
theorem scanBytes_candidate {f : List Byte} (hp : st.par.wf = true) (hr : st.par.frameSize ≤ r.remainder)
    (hl : f.length = st.par.frameSize) (h0 : f[0]? = some st.par.header) (h : st.holds r.slot (r.pos st) f) :
    scanBytes r st = .next f := by
  obtain ⟨h2, -, -⟩ := wf_iff.mp hp
  have hc : r.consumed < r.available := by simp only [ScanRegs.remainder] at hr; omega
  have hb : st.logicalByte r.slot (r.pos st) = some st.par.header := by
    have := h 0 (by omega)
    rwa [advance_zero, h0] at this
  rw [scanBytes, if_neg (Nat.not_le.mpr hc), readBuf_of_logicalByte hb, andThen_next, fetchLength, if_pos ⟨rfl, hr⟩,
    readRange_of_holds hp hl h]

/-- Settles O1: each clause is the lemma about one way a step can go. -/
theorem stepRunsTheDecodedEvent : Obligations.StepRunsTheDecodedEvent := by
  refine ⟨fun st => ⟨fun h => ⟨turn_of_free h, resumes_of_free h⟩, fun h => ⟨turn_of_waiting h, resumes_of_waiting h⟩⟩,
    fun st i rest hr ht hd => ?_, fun st e hr ht hd => ?_, fun st => step_of_resumes, fun st r hh ht hs => ?_,
    fun st hr ht hs => ?_⟩
  · rw [step_of_trace hr ht, traceStep_of_ok (by simpa using hd)]
    exact ⟨fun h => performEvent_admitted (by simpa using h), fun h => performEvent_barred (by simpa using h)⟩
  · rw [step_of_trace hr ht, traceStep_of_error (by simpa using hd)]
  · rw [step_of_openScan hh ht hs]
    refine ⟨fun he => ?_, fun b i rest hc hb h hd => ?_, fun f i rest hp hrem hl h0 h hd => ?_⟩
    · rw [scanFetch_end he, andThen_next]
    · rw [scanFetch_of_bytes (scanBytes_one hc hb h) hd, andThen_next]
    · rw [scanFetch_of_bytes (scanBytes_candidate hp hrem hl h0 h) hd, andThen_next]
  · rw [step_of_hardware hr ht hs]
    refine ⟨fun hl hb => ?_, fun h hc => ?_⟩
    · have hheld : st.held = none := by
        simp only [State.busy, Bool.or_eq_false_iff] at hb
        simpa using hb.2
      rw [turn_of_free hheld]
      exact hardwareStep_of_irqLine hl hb
    · rw [hardwareStep, hardwareEvent_turn, hardwareEvent_eq_none h hc]

/-! ### The guards of a class performed alone. -/

theorem exec_classInstr (k : ScanClass) (s : Nat) (st : State) : exec (classInstr k s) st = classAlone k s st := by
  cases k <;> rfl

/-- On the scan of slot `s` a class performed alone is performed where it is the class taken. -/
theorem classAlone_of_scanning {s : Nat} (h : st.scanning s r) (k : ScanClass) :
    classAlone k s st = andThen (classify r st) fun k' =>
      require (decide (k' = k)) .classNotTaken (andThen (performClass k r st) keepClass) := by
  obtain ⟨hf, hh, hv, hslot, hin, hs | ⟨hs, ha, rfl⟩⟩ := h
  · simp [classAlone, classRegs, hf, hh, hv, hslot, hin, hs]
  · simp [classAlone, classRegs, hf, hh, hv, hs, ha]

/-- A class performed alone on the scan of slot `s` where it is the class taken. -/
theorem classAlone_of_classify {s : Nat} (h : st.scanning s r) {k : ScanClass} (hk : classify r st = .next k) :
    classAlone k s st = andThen (performClass k r st) keepClass := by
  rw [classAlone_of_scanning h, hk, andThen_next, decide_eq_true rfl, require_true]

/-- A class of an open scan with a byte to examine outside `[extract, insert)` is refused. -/
theorem classAlone_refuses_outside (hs : st.scan = some r) (hin : r.inside st = false) (k : ScanClass) (s : Nat) :
    ∃ why, classAlone k s st = .refused why := by
  refine require_refuses fun _ => require_refuses fun _ => require_refuses fun _ => ?_
  rw [hs]
  exact require_refuses fun _ => require_refuses_of_false hin _ _

/-- HEADER_BYTE and FRAME likewise. -/
theorem openScan_refuses_outside (hs : st.scan = some r) (hin : r.inside st = false) (k : ScanRegs → Out State) :
    ∃ why, openScan st k = .refused why := by
  refine require_refuses fun _ => require_refuses fun _ => ?_
  rw [hs]
  exact require_refuses fun _ => require_refuses_of_false hin _ _

/-- Settles O31: the class performed must be the one `classify` answers; and bytes outside the window fail the guard before it. -/
theorem onlyTheTakenClassRuns : Obligations.OnlyTheTakenClassRuns := by
  refine ⟨fun s r k k' st h hk hne => ?_, fun r st i hs hout hi => ?_⟩
  · rw [exec_classInstr, classAlone_of_scanning h, hk, andThen_next, decide_eq_false hne.symm, require_false]
  · have hin : r.inside st = false := by
      rw [← Bool.not_eq_true, inside_iff]
      omega
    rcases hi with ⟨k, s, rfl⟩ | rfl | ⟨f, rfl⟩
    · rw [exec_classInstr]
      exact classAlone_refuses_outside hs hin k s
    · exact openScan_refuses_outside hs hin _
    · exact openScan_refuses_outside hs hin _

/-! ### HEADER_BYTE and FRAME. -/

/-- The guards of an operation of the open scan `r` besides that nothing waits. -/
def ScanRegs.guarded (r : ScanRegs) (st : State) (k : Out State) : Out State :=
  require (!st.fatal) .halted <| require (st.slot r.slot).valid .slotNotValid <| require (r.inside st) .notReadable k

theorem openScan_eq (hh : st.held = none) (hs : st.scan = some r) (k : ScanRegs → Out State) :
    openScan st k = r.guarded st (k r) := by
  simp [openScan, ScanRegs.guarded, hh, hs]

theorem classAlone_eq (hh : st.held = none) (hs : st.scan = some r) {k : ScanClass} (hk : classify r st = .next k) :
    classAlone k r.slot st = r.guarded st (andThen (performClass k r st) keepClass) := by
  simp [classAlone, classRegs, ScanRegs.guarded, hh, hs, hk]

/-- HEADER_BYTE is the class of the candidate arm that is taken. -/
theorem execHeaderByte_eq (hh : st.held = none) (hs : st.scan = some r) {k : ScanClass} (hk : classify r st = .next k)
    (hcand : k.isCandidate = true) : execHeaderByte st = classAlone k r.slot st := by
  rw [execHeaderByte, openScan_eq hh hs, classAlone_eq hh hs hk, hk, andThen_next, hcand, require_true]

/-- FRAME of the bytes at the scan position is SCN.ACCEPT. -/
theorem execFrame_eq {f : List Byte} (hh : st.held = none) (hs : st.scan = some r) (hk : classify r st = .next .accept)
    (hf : readRange r.slot (r.pos st) st.par.frameSize st = .next f) : execFrame f st = classAlone .accept r.slot st := by
  rw [execFrame, openScan_eq hh hs, classAlone_eq hh hs hk, hk, hf]
  simp

/-- Everything R136's tests can answer. -/
theorem classify_cases {k : ScanClass} (hp : st.par.wf = true) (h : classify r st = .next k) :
    (r.available ≤ r.consumed ∧ k = if r.available = 0 then .idle else .drain) ∨
    (∃ b, r.consumed < r.available ∧ st.logicalByte r.slot (r.pos st) = some b ∧ b ≠ st.par.header ∧ k = .skip) ∨
    (r.consumed < r.available ∧ st.logicalByte r.slot (r.pos st) = some st.par.header ∧ r.remainder < st.par.frameSize ∧
      k = .defer) ∨
    (∃ f, st.par.frameSize ≤ r.remainder ∧ f.length = st.par.frameSize ∧ f[0]? = some st.par.header ∧
      st.holds r.slot (r.pos st) f ∧ k = if frameValid st.par f then .accept else .reject) := by
  obtain ⟨h2, h3, h4⟩ := wf_iff.mp hp
  by_cases hc : r.available ≤ r.consumed
  · refine .inl ⟨hc, ?_⟩
    simp only [classify, hc, if_true] at h
    split at h <;> (cases h; simp [*])
  have hlt := Nat.lt_of_not_le hc
  cases hb : st.logicalByte r.slot (r.pos st) with
  | none =>
    have h0 : ¬ r.available = 0 := by omega
    simp only [State.logicalByte] at hb
    simp [classify, h0, hc, readBuf, hb] at h
  | some b =>
    rw [classify_of_byte hlt hb] at h
    by_cases hbh : b = st.par.header
    · subst hbh
      by_cases hr : r.remainder < st.par.frameSize
      · simp only [ne_eq, not_true_eq_false, if_false, hr, if_true, Host.Outcome.next.injEq] at h
        exact .inr (.inr (.inl ⟨hlt, rfl, hr, h.symm⟩))
      · simp only [ne_eq, not_true_eq_false, if_false, hr] at h
        obtain ⟨f, hf, hk⟩ := andThen_eq_next.mp h
        obtain ⟨hl, hh⟩ := (readRange_eq_next (Nat.le_of_lt h4) h3).mp hf
        have hhead := hh 0 (by omega)
        rw [advance_zero] at hhead
        refine .inr (.inr (.inr ⟨f, Nat.le_of_not_lt hr, hl, hhead.symm.trans hb, fun i hi => hh i (hl ▸ hi), ?_⟩))
        split at hk <;> (cases hk; simp [*])
    · simp only [ne_eq, hbh, not_false_eq_true, if_true, Host.Outcome.next.injEq] at h
      exact .inr (.inl ⟨b, hlt, rfl, hbh, h.symm⟩)

/-- At a candidate that lies in the buffer the scanner's fetch is performed as the class that the checksum selects. -/
theorem exec_scanFetch_candidate {f : List Byte} (hp : st.par.wf = true) (hh : st.held = none) (hs : st.scan = some r)
    (hr : st.par.frameSize ≤ r.remainder) (hl : f.length = st.par.frameSize) (h0 : f[0]? = some st.par.header)
    (h : st.holds r.slot (r.pos st) f) :
    (andThen (scanFetch r st) fun i => exec i st) =
      classAlone (if frameValid st.par f then .accept else .reject) r.slot st := by
  have hbytes := scanBytes_candidate hp hr hl h0 h
  have hk := classify_of_holds hp hl h0 hr h
  cases hv : frameValid st.par f with
  | true =>
    have hd := decodeStream_frame_append (isFrame_of hl h0 hv) r.slot []
    rw [List.append_nil] at hd
    rw [scanFetch_of_bytes hbytes hd, andThen_next]
    simp only [hv, if_true] at hk ⊢
    exact execFrame_eq hh hs hk (readRange_of_holds hp hl h)
  | false =>
    obtain ⟨tl, rfl⟩ : ∃ tl, f = st.par.header :: tl := by
      cases f with
      | nil => cases h0
      | cons b tl => exact ⟨tl, by simpa using h0⟩
    have hno : isFrame st.par ((st.par.header :: tl).take st.par.frameSize) = false := by
      rw [← hl, List.take_length, isFrame, hv, Bool.and_false]
    rw [scanFetch_of_bytes hbytes (decodeStream_headerByte hno r.slot), andThen_next]
    simp only [hv, Bool.false_eq_true, if_false] at hk ⊢
    exact execHeaderByte_eq hh hs hk rfl

/-- What an open scan fetches is performed as the class the state is in. -/
theorem exec_scanFetch {k : ScanClass} (hp : st.par.wf = true) (hh : st.held = none) (hs : st.scan = some r)
    (hk : classify r st = .next k) : (andThen (scanFetch r st) fun i => exec i st) = classAlone k r.slot st := by
  rcases classify_cases hp hk with ⟨hend, rfl⟩ | ⟨b, hc, hb, hne, rfl⟩ | ⟨hc, hb, hr, rfl⟩ | ⟨f, hr, hl, h0, h, rfl⟩
  · rw [scanFetch_end hend, andThen_next]
    split <;> rfl
  · rw [scanFetch_of_bytes (scanBytes_one hc hb (.inl hne)) (decodeStream_seeking hne r.slot []), andThen_next]
    rfl
  · rw [scanFetch_of_bytes (scanBytes_one hc hb (.inr hr)) (decodeStream_lone_header hp r.slot), andThen_next]
    exact execHeaderByte_eq hh hs hk rfl
  · exact exec_scanFetch_candidate hp hh hs hr hl h0 h

/-- Whatever a class leaves is kept. -/
theorem keepClass_completes (o : ClassOut) : ∃ t, keepClass o = .next t := by
  cases o <;> exact ⟨_, rfl⟩

/-- The class taken completes, performed alone, where its effect does. -/
theorem classAlone_completes {s : Nat} (h : st.scanning s r) {k : ScanClass} (hk : classify r st = .next k) {o : ClassOut}
    (ho : performClass k r st = .next o) : ∃ t, classAlone k s st = .next t := by
  rw [classAlone_of_classify h hk, ho]
  exact keepClass_completes o

/-- HEADER_BYTE and the class of the candidate arm that is taken complete alike. -/
theorem execHeaderByte_completes (h : st.scanning r.slot r) (hs : st.scan = some r) {k : ScanClass}
    (hk : classify r st = .next k) (hcand : k.isCandidate = true) {o : ClassOut} (ho : performClass k r st = .next o) :
    ∃ t, execHeaderByte st = .next t ∧ classAlone k r.slot st = .next t := by
  have ⟨_, hh, _⟩ := h
  obtain ⟨t, ht⟩ := classAlone_completes h hk ho
  exact ⟨t, (execHeaderByte_eq hh hs hk hcand).trans ht, ht⟩

/-- FRAME of other bytes than those at the scan position is refused. -/
theorem execFrame_refuses {f g : List Byte} (hs : st.scan = some r)
    (hf : readRange r.slot (r.pos st) st.par.frameSize st = .next f) {k : ScanClass} (hk : classify r st = .next k)
    (hne : g ≠ f) : ∃ why, execFrame g st = .refused why := by
  refine require_refuses fun _ => require_refuses fun _ => ?_
  rw [hs]
  refine require_refuses fun _ => require_refuses fun _ => ?_
  beta_reduce
  rw [hk, hf]
  exact require_refuses fun _ => require_refuses_of_false (decide_eq_false hne.symm) _ _

/-- With no scan open there is no position to look at. -/
theorem openScan_refuses_without_scan (hs : st.scan = none) (k : ScanRegs → Out State) : ∃ why, openScan st k = .refused why := by
  refine require_refuses fun _ => require_refuses fun _ => ?_
  rw [hs]
  exact ⟨_, rfl⟩

/-- Settles O33: HEADER_BYTE and FRAME are the class taken (`execHeaderByte_eq`, `execFrame_eq`), and so is what the scanner
fetches (`exec_scanFetch`). -/
theorem headerByteIsTheCandidateArm : Obligations.HeaderByteIsTheCandidateArm := by
  refine ⟨fun st f hs => ⟨openScan_refuses_without_scan hs _, openScan_refuses_without_scan hs _⟩,
    fun r st k hp hh ht hs hk => ?_, fun r st hp h hs hc hb => ⟨fun hr => ?_, fun f hr hl hholds => ?_⟩⟩
  · rw [step_of_openScan hh ht hs, exec_classInstr]
    exact exec_scanFetch hp hh hs hk
  · have hk : classify r st = .next .defer := by
      have hr' : r.remainder < st.par.frameSize := hr
      simp [classify_of_byte hc hb, hr']
    exact execHeaderByte_completes h hs hk rfl rfl
  · have h0 : f[0]? = some st.par.header := by
      have := hholds 0 (by obtain ⟨h2, -, -⟩ := wf_iff.mp hp; omega)
      rw [advance_zero, hb] at this
      exact this.symm
    have ⟨_, hh, _⟩ := h
    have hk := classify_of_holds hp hl h0 hr hholds
    have hread := readRange_of_holds hp hl hholds
    refine ⟨fun hv => ?_, fun hv => ?_, fun g hne => execFrame_refuses hs hread hk hne⟩
    · rw [hv, if_pos rfl] at hk
      have hdone := execHeaderByte_completes h hs hk rfl (scnAccept_of_holds hp hl hholds)
      have ⟨t, _, ht⟩ := hdone
      exact ⟨hdone, t, (execFrame_eq hh hs hk hread).trans ht, ht⟩
    · rw [hv, if_neg Bool.false_ne_true] at hk
      exact execHeaderByte_completes h hs hk rfl (scnReject_of_holds hp hl hholds)

end Sys2Proof.Machine
end

section
/-! The checksum (40_checksum.md). A checksum is a left fold, and over a table that is a permutation each of its steps is injective in
the running value and in the byte: so a changed byte changes the checksum, and R116 follows. -/

namespace Sys2Proof.Machine

/-- A left fold whose steps are all injective is injective in its initial value. -/
theorem foldl_injective {α β : Type} {g : α → β → α} (hg : ∀ b, Function.Injective (g · b)) :
    ∀ l : List β, Function.Injective (l.foldl g ·)
  | [] => fun _ _ h => h
  | b :: l => (foldl_injective hg l).comp (hg b)

/-! ### The checksum of a sequence. -/

section
variable {table : Byte → Byte}

@[simp] theorem crcRange_nil : crcRange table [] = 0 := rfl

theorem crcRange_append (xs ys : List Byte) :
    crcRange table (xs ++ ys) = ys.foldl (crcStep table) (crcRange table xs) := List.foldl_append

/-- One more byte at the end is one more table step (R112). -/
theorem crcRange_concat (xs : List Byte) (b : Byte) : crcRange table (xs ++ [b]) = table (crcRange table xs ^^^ b) :=
  crcRange_append xs [b]

theorem crcStep_injective_running (ht : Function.Injective table) (b : Byte) : Function.Injective (crcStep table · b) :=
  fun _ _ h => (BitVec.xor_left_inj b).mp (ht h)

theorem crcStep_injective_byte (ht : Function.Injective table) (c8 : Byte) : Function.Injective (crcStep table c8) :=
  fun _ _ h => (BitVec.xor_right_inj c8).mp (ht h)

/-- Between the same bytes, different bytes have different checksums. -/
theorem crcRange_middle_injective (ht : Function.Injective table) (xs ys : List Byte) :
    Function.Injective fun b => crcRange table (xs ++ b :: ys) := fun a b h => by
  simp only [crcRange_append, List.foldl_cons] at h
  exact crcStep_injective_byte ht _ (foldl_injective (crcStep_injective_running ht) ys h)

/-- Over a permutation, replacing one byte by another changes the checksum. -/
theorem crcRange_set_ne (ht : Function.Injective table) {xs : List Byte} {i : Nat} {b : Byte} (hi : i < xs.length)
    (hb : xs[i]? ≠ some b) : crcRange table (xs.set i b) ≠ crcRange table xs := fun h => by
  have hsplit : xs = xs.take i ++ xs[i] :: xs.drop (i + 1) := by simp
  rw [List.set_eq_take_append_cons_drop, if_pos hi] at h
  have heq : b = xs[i] := crcRange_middle_injective ht _ _ (h.trans (congrArg _ hsplit))
  exact hb (heq ▸ List.getElem?_eq_getElem hi)

end

/-! ### The validity of a frame. -/

/-- A sequence that has a last byte is valid exactly when that byte is the checksum of those before it (R114). -/
theorem frameValid_iff {p : Params} {f : List Byte} (hlast : p.frameSize - 1 < f.length) :
    frameValid p f = true ↔
      f[p.frameSize - 1]? = some (crcRange (tableAt p) (f.take (p.frameSize - 1))) := by
  rw [frameValid, beq_iff_eq, List.getD_eq_getElem?_getD, List.getElem?_eq_getElem hlast, Option.getD_some,
    Option.some_inj, eq_comm]

/-- FRAME.VALID of `FRAME_SIZE` bytes returns the validity. -/
theorem exec_frameValid {f : List Byte} {st : State} (h : f.length = st.par.frameSize) :
    exec (.frameValid f) st = .next (st.setResult (.valid (frameValid st.par f))) :=
  if_pos (decide_eq_true h)

/-- FRAME.VALID of another number of bytes is refused. -/
theorem exec_frameValid_refused {f : List Byte} {st : State} (h : f.length ≠ st.par.frameSize) :
    exec (.frameValid f) st = .refused .frameLength :=
  if_neg (by simp [h])

/-- Settles O13: CRC.RANGE is a fold from 0x00, FRAME.VALID is the comparison of `frameValid_iff`; a frame has at least two bytes. -/
theorem checksumOperationsReturn : Obligations.ChecksumOperationsReturn := by
  refine ⟨fun _ _ _ => rfl, fun _ _ => rfl, fun _ => crcRange_nil, fun _ => crcRange_concat, fun f st hp =>
    ⟨fun hl => ⟨frameValid st.par f, exec_frameValid hl, frameValid_iff ?_⟩, exec_frameValid_refused⟩⟩
  obtain ⟨h2, -, -⟩ := wf_iff.mp hp
  omega

/-! ### The default table. -/

/-- One bit of the CRC with polynomial 0x4D, most significant bit first. -/
def polynomialRound (c : Byte) : Byte := if c.getLsbD 7 then (c <<< 1) ^^^ (0x4D : Byte) else c <<< 1

/-- The round undone: the polynomial is odd, so the low bit tells whether it was added. -/
def polynomialRoundBack (c : Byte) : Byte := if c.getLsbD 0 then ((c ^^^ (0x4D : Byte)) >>> 1) ||| (0x80 : Byte) else c >>> 1

theorem polynomialRound_injective : Function.Injective polynomialRound :=
  Function.LeftInverse.injective (g := polynomialRoundBack) (by unfold Function.LeftInverse; decide +kernel)

/-- Settles O14: each of the 256 entries R113 prints is the one the eight rounds compute. -/
theorem tableIsPolynomial4D : Obligations.TableIsPolynomial4D := by
  unfold Obligations.TableIsPolynomial4D
  decide +kernel

/-- The default table is a permutation: it is eight rounds, each of which can be undone. -/
theorem tableAt_stdParams_injective : Function.Injective (tableAt stdParams) := by
  have hrounds : tableAt stdParams = ((List.range 8).foldl (fun c _ => polynomialRound c) ·) :=
    funext tableIsPolynomial4D
  rw [hrounds]
  exact foldl_injective (fun _ => polynomialRound_injective) _

/-! ### One changed byte. -/

/-- R116: a changed checksum byte is no longer the checksum; a changed byte before it makes another checksum. -/
theorem frameValid_set {p : Params} (ht : Function.Injective (tableAt p)) {f : List Byte} {i : Nat} {b : Byte}
    (hl : f.length = p.frameSize) (hi : i < p.frameSize) (hb : f[i]? ≠ some b) (hv : frameValid p f = true) :
    frameValid p (f.set i b) = false := by
  rw [frameValid_iff (by omega)] at hv
  refine Bool.eq_false_iff.mpr fun hv' => ?_
  rw [frameValid_iff (by rw [List.length_set]; omega), List.take_set] at hv'
  rcases Nat.lt_or_eq_of_le (Nat.le_sub_one_of_lt hi) with hbefore | rfl
  · rw [List.getElem?_set_ne hbefore.ne, hv, Option.some_inj] at hv'
    refine crcRange_set_ne ht ?_ ?_ hv'.symm
    · rw [List.length_take]; omega
    · rwa [List.getElem?_take_of_lt hbefore]
  · rw [List.getElem?_set_self (by omega), List.set_eq_of_length_le (by simp), ← hv] at hv'
    exact hb hv'.symm

/-- Settles O15: R116 is `frameValid_set`; the default table is a permutation because the rounds of O14 are. -/
theorem oneChangedByteInvalidates : Obligations.OneChangedByteInvalidates :=
  ⟨fun _ ht _ _ _ hl hi hb hv => frameValid_set ht hl hi hb hv, tableAt_stdParams_injective⟩

end Sys2Proof.Machine
end

section
/-! The ring buffer (41_ring_buffer.md R121 to R131): what a cursor held modulo 2^64 says of an unbounded one, the two segments of
a window, a copy into scratch, and the three operations that write a slot. -/

namespace Sys2Proof.Machine

variable {p : Params} {st : State} {s : Nat} {start : Cursor} {len : Nat}

theorem isSlot_iff : st.isSlot s = true ↔ s < st.nSlots := decide_eq_true_iff

/-! ### Cursors through the 2^64 wrap. -/

theorem avail_toNat (st : State) (s : Nat) :
    (st.avail s).toNat = ((st.slot s).insert.toNat + 2 ^ 64 - (st.slot s).extract.toNat) % 2 ^ 64 := by
  have := (st.slot s).extract.isLt
  rw [State.avail, BitVec.toNat_sub]
  congr 1
  omega

/-- Two unbounded cursors less than 2^64 apart have their true distance, held modulo 2^64 or not (R131). -/
theorem avail_of_unbounded {e i : Nat} (hei : e ≤ i) (hdist : i - e < 2 ^ 64)
    (he : (st.slot s).extract = BitVec.ofNat 64 e) (hi : (st.slot s).insert = BitVec.ofNat 64 i) :
    (st.avail s).toNat = i - e := by
  rw [avail_toNat, he, hi, BitVec.toNat_ofNat, BitVec.toNat_ofNat]
  omega

/-- The capacity divides 2^64, so an unbounded cursor has the offset of the one held modulo 2^64 (R131). -/
theorem phys_ofNat (h : p.log2Cap ≤ 64) (n : Nat) : phys p (BitVec.ofNat 64 n) = n % p.capacity := by
  rw [phys, BitVec.toNat_ofNat, Nat.mod_mod_of_dvd _ (capacity_dvd h)]

theorem exec_rbAvail (hs : s < st.nSlots) : exec (.rbAvail s) st = .next (st.setResult (.avail (st.avail s))) :=
  if_pos (isSlot_iff.mpr hs)

theorem exec_rbAvail_refused (hs : st.nSlots ≤ s) : exec (.rbAvail s) st = .refused .slotOutOfRange :=
  if_neg (by rw [isSlot_iff]; omega)

/-- Settles O16: `avail_toNat` is the returned count; `avail_of_unbounded` and `phys_ofNat` are the two exactness claims. -/
theorem cursorOperationsReturn : Obligations.CursorOperationsReturn := by
  refine ⟨fun c st => ⟨_, rfl, rfl⟩, fun s st hs => ⟨_, exec_rbAvail hs, avail_toNat st s⟩, fun s st => exec_rbAvail_refused,
    fun s st e i hp hei hdist he hi => ?_⟩
  obtain ⟨-, -, hlog⟩ := wf_iff.mp hp
  exact ⟨avail_of_unbounded hei (Nat.lt_of_le_of_lt hdist (capacity_lt hlog)) he hi, by rw [hi, phys_ofNat (Nat.le_of_lt hlog)]⟩

/-! ### The window. -/

/-- Segment a is what fits before the physical end of the buffer. -/
theorem window_fst (p : Params) (start : Cursor) (len : Nat) :
    (window p start len).1 = ⟨phys p start, min len (p.capacity - phys p start)⟩ := by
  have := phys_lt p start
  unfold window
  split
  · rw [Nat.min_eq_left (by omega)]
  · rw [Nat.min_eq_right (by omega)]

/-- Segment b is the rest. -/
theorem window_snd (p : Params) (start : Cursor) (len : Nat) :
    (window p start len).2 = ⟨0, len - (p.capacity - phys p start)⟩ := by
  have := phys_lt p start
  unfold window
  split
  · rw [Nat.sub_eq_zero_of_le (by omega)]
  · rfl

/-- Before the physical end of the buffer offsets rise with the positions. -/
theorem phys_advance_before_end (h : p.log2Cap ≤ 64) {i : Nat} (hi : phys p start + i < p.capacity) :
    phys p (advance start i) = phys p start + i := by
  rw [phys_advance_phys h, Nat.mod_eq_of_lt hi]

/-- From the physical end on they start again at 0. -/
theorem phys_advance_past_end (h : p.log2Cap ≤ 64) {i : Nat} (hi : i < p.capacity) :
    phys p (advance start (p.capacity - phys p start + i)) = i := by
  have := phys_lt p start
  rw [phys_advance_phys h, show phys p start + (p.capacity - phys p start + i) = p.capacity + i by omega,
    Nat.add_mod_left, Nat.mod_eq_of_lt hi]

theorem exec_rbWindow (hs : s < st.nSlots) (hlen : len ≤ st.par.capacity) : exec (.rbWindow s start len) st =
    .next (st.setResult (.window (window st.par start len).1 (window st.par start len).2)) := by
  change execRbWindow s start len st = _
  rw [execRbWindow, isSlot_iff.mpr hs, decide_eq_true hlen, require_true, require_true]

theorem exec_rbWindow_refuses (h : st.nSlots ≤ s ∨ st.par.capacity < len) :
    ∃ why, exec (.rbWindow s start len) st = .refused why := by
  refine require_refuses fun hs => require_refuses_of_false (decide_eq_false ?_) _ _
  have := isSlot_iff.mp hs
  omega

/-- Settles O17: the segments are those of `window_fst` and `window_snd`; a position lies before or past the physical end. -/
theorem windowCoversTheRange : Obligations.WindowCoversTheRange := by
  intro s start len st hp
  obtain ⟨-, -, hlog⟩ := wf_iff.mp hp
  have hlog := Nat.le_of_lt hlog
  have hstart := phys_lt st.par start
  refine ⟨fun hs hlen => ⟨_, _, exec_rbWindow hs hlen, ?_⟩, exec_rbWindow_refuses⟩
  rw [window_fst, window_snd]
  refine ⟨rfl, by dsimp only; omega, rfl, by dsimp only; omega, by dsimp only; omega, fun i hi => ?_, fun i hi => ?_⟩
  · exact phys_advance_before_end hlog (by dsimp only at hi; omega)
  · dsimp only at hi ⊢
    rw [Nat.min_eq_right (by omega)]
    exact phys_advance_past_end hlog (by omega)

/-! ### The copy. -/

/-- Written positions hold some bytes. -/
theorem exists_holds_of_written (h : st.written s start len) : ∃ f, f.length = len ∧ st.holds s start f := by
  refine ⟨(List.range len).map fun i => (st.logicalByte s (advance start i)).getD 0, by simp, fun i hi => ?_⟩
  simp only [List.length_map, List.length_range] at hi
  obtain ⟨b, hb⟩ := Option.isSome_iff_exists.mp (h i hi)
  simp [List.getElem?_range hi, hb]

theorem withScratch_inside {f : List Byte} {i : Nat} (h : i < f.length) : (st.withScratch f).scratchByte i = f[i]? := by
  have := memRead_memWriteAll_inside (m := st.scratch) (a := 0) h
  rwa [Nat.zero_add] at this

theorem withScratch_outside {f : List Byte} {i : Nat} (h : f.length ≤ i) :
    (st.withScratch f).scratchByte i = st.scratchByte i :=
  memRead_memWriteAll_outside (.inr (by omega))

/-- A read of offsets one of which nothing has written faults. -/
theorem readBufAll_unwritten {as : List Nat} (h : ∃ a ∈ as, st.bufByte s a = none) :
    readBufAll s st as = .fault .unwrittenBuf := by
  induction as with
  | nil => simp at h
  | cons a as ih =>
    cases hb : st.bufByte s a with
    | none => rw [readBufAll, readBuf, hb, andThen_fault]
    | some b =>
      have htail : ∃ a ∈ as, st.bufByte s a = none := by simpa [hb] using h
      rw [readBufAll, readBuf, hb, andThen_next, ih htail, andThen_fault]

theorem copyRange_unwritten (hp : st.par.log2Cap ≤ 64) (hlen : len ≤ st.par.capacity) (h : ¬ st.written s start len) :
    copyRange s start len st = .fault .unwrittenBuf := by
  obtain ⟨i, hi, hnone⟩ : ∃ i < len, st.logicalByte s (advance start i) = none := by simpa [State.written] using h
  rw [copyRange, readRange, windowOffsets_eq hp start hlen, readBufAll_unwritten, andThen_fault]
  exact ⟨_, List.mem_map_of_mem (List.mem_range.mpr hi), hnone⟩

theorem copies_iff (hp : p.wf = true) : Params.copies p len = true ↔ len ≤ p.frameSize := by
  obtain ⟨-, hframe, -⟩ := wf_iff.mp hp
  simp only [Params.copies, Bool.and_eq_true, decide_eq_true_eq]
  omega

theorem exec_rbCopy (hf : st.fatal = false) (hs : s < st.nSlots) : exec (.rbCopy s start len) st =
    require (Params.copies st.par len) .lenTooLong (require (st.readable s start len) .notReadable (copyRange s start len st)) := by
  change execRbCopy s start len st = _
  rw [execRbCopy, hf, isSlot_iff.mpr hs, Bool.not_false, require_true, require_true]

/-- Settles O18: past its guards (`exec_rbCopy`) RB.COPY is `copyRange`, which is `withScratch` or the fault. -/
theorem copyReadsTheLogicalBytes : Obligations.CopyReadsTheLogicalBytes := by
  intro s start len st hp hf hs
  obtain ⟨-, hframe, hlog⟩ := wf_iff.mp hp
  have hlog := Nat.le_of_lt hlog
  rw [exec_rbCopy hf hs]
  refine ⟨fun hlen hr hw => ?_, fun hlen => ?_, fun hlen hr => ?_, fun hlen hr hw => ?_⟩
  · obtain ⟨f, rfl, hholds⟩ := exists_holds_of_written hw
    have hcopy : copyRange s start f.length st = .next (st.withScratch f) :=
      (copyRange_eq_next hlog (hlen.trans hframe)).mpr ⟨f, rfl, hholds, rfl⟩
    rw [(copies_iff hp).mpr hlen, hr, require_true, require_true, hcopy]
    exact ⟨_, rfl, fun i hi => (withScratch_inside hi).trans (hholds i hi).symm, fun i => withScratch_outside, rfl⟩
  · rw [Bool.eq_false_iff.mpr ((copies_iff hp).not.mpr (Nat.not_le.mpr hlen)), require_false]
  · rw [(copies_iff hp).mpr hlen, hr, require_true, require_false]
  · rw [(copies_iff hp).mpr hlen, hr, require_true, require_true, copyRange_unwritten hlog (hlen.trans hframe) hw]

/-! ### The cursors. -/

/-- The guards that RB.ADVI and RB.ADVX share. -/
def State.cursorGuarded (st : State) (s : Nat) (k : Out State) : Out State :=
  require (!st.fatal) .halted <| require (st.isSlot s) .slotOutOfRange <| require (!st.reading s) .sequencerBusy k

theorem cursorGuarded_of_unscanned (hf : st.fatal = false) (hs : s < st.nSlots) (hr : st.reading s = false) (k : Out State) :
    st.cursorGuarded s k = k := by
  rw [State.cursorGuarded, hf, isSlot_iff.mpr hs, hr, Bool.not_false, require_true, require_true, require_true]

theorem cursorGuarded_refuses (h : st.nSlots ≤ s ∨ st.reading s = true) (k : Out State) :
    ∃ why, st.cursorGuarded s k = .refused why := by
  refine require_refuses fun _ => require_refuses fun hs => require_refuses_of_false ?_ _ _
  have hr : st.reading s = true := h.resolve_left (Nat.not_le.mpr (isSlot_iff.mp hs))
  rw [hr, Bool.not_true]

theorem exec_rbAdvi (s n : Nat) (st : State) : exec (.rbAdvi s n) st = st.cursorGuarded s (.next (advInsert s n st)) := rfl

theorem exec_rbAdvx (s n : Nat) (st : State) : exec (.rbAdvx s n) st =
    st.cursorGuarded s (require (decide (n ≤ (st.avail s).toNat)) .pastInsert (.next (advExtract s n st))) := rfl

/-- Settles O19: past the shared guards the next states are `advInsert` and `advExtract`, which write one cursor of one slot. -/
theorem cursorsAdvance : Obligations.CursorsAdvance := by
  refine ⟨fun s n st hf hs hr => ?_, fun s n st hf hs hr => ?_, fun s n st h => ?_⟩
  · rw [exec_rbAdvi, cursorGuarded_of_unscanned hf hs hr]
    refine ⟨_, rfl, ?_, ?_, fun u hu => advInsert_slot_ne hu n, rfl⟩ <;> rw [advInsert_slot_self hs]
    exact advance_toNat _ n
  · rw [exec_rbAdvx, cursorGuarded_of_unscanned hf hs hr]
    refine ⟨fun hn => ?_, fun hn => ?_⟩
    · rw [decide_eq_true hn, require_true]
      refine ⟨_, rfl, ?_, avail_advExtract hs hn, ?_, fun u hu => advExtract_slot_ne hu n, rfl⟩ <;>
        rw [advExtract_slot_self hs]
      exact advance_toNat _ n
    · rw [decide_eq_false (Nat.not_le.mpr hn), require_false]
  · rw [exec_rbAdvi, exec_rbAdvx]
    exact ⟨cursorGuarded_refuses h _, cursorGuarded_refuses h _⟩

/-! ### The engine's store. -/

/-- A write of a ring buffer changes no register of any slot. -/
theorem writeBuf_slot_frame (st : State) (s a : Nat) (b : Byte) (u : Nat) :
    { (writeBuf s a b st).slot u with buf := (st.slot u).buf } = st.slot u := by
  rw [writeBuf, slot_setSlot]
  split
  · next h => rw [h.1]
  · rfl

theorem exec_rbDmawr {a : Nat} (hs : s < st.nSlots) (ha : a < st.par.capacity) (hw : st.writing s = true) (b : Byte) :
    exec (.rbDmawr s a b) st = .next (writeBuf s a b st) := by
  change execRbDmawr s a b st = _
  rw [execRbDmawr, isSlot_iff.mpr hs, decide_eq_true ha, hw, require_true, require_true, require_true]

theorem exec_rbDmawr_refuses {a : Nat} (h : st.nSlots ≤ s ∨ st.par.capacity ≤ a ∨ st.writing s = false) (b : Byte) :
    ∃ why, exec (.rbDmawr s a b) st = .refused why := by
  refine require_refuses fun hs => require_refuses fun ha => require_refuses_of_false ?_ _ _
  exact (h.resolve_left (Nat.not_le.mpr (isSlot_iff.mp hs))).resolve_left (Nat.not_le.mpr (of_decide_eq_true ha))

/-- Settles O20: the store is `writeBuf`, and the conditions on the channel and the scan are those of `State.writing`. -/
theorem dmawrStoresOneByte : Obligations.DmawrStoresOneByte := by
  refine ⟨fun s a b st hs ha hv harm hrem hcfg hr => ?_, fun s a b st h => exec_rbDmawr_refuses ?_ b⟩
  · exact ⟨_, exec_rbDmawr hs ha (writing_iff.mpr ⟨hv, harm, hrem, hcfg, hr⟩) b, bufByte_writeBuf_self hs a b,
      fun u x hux => bufByte_writeBuf_ne hux b, writeBuf_slot_frame st s a b, rfl⟩
  · refine h.imp_right fun h => h.imp_right fun h => Bool.eq_false_iff.mpr fun hw => ?_
    obtain ⟨hv, harm, hrem, hcfg, hr⟩ := writing_iff.mp hw
    simp [hv, harm, hrem, hcfg, hr] at h

end Sys2Proof.Machine
end

section
/-! What a step leaves legal and what it sends (42_scanner.md R149, R140, R152): every request stays within 1..`FRAME_SIZE`, every
armed transfer within `FRAME_SIZE`, and every frame sent is valid, with its own record, under the handle of a slot. Both are said
of every operation at once (`exec_sound`). -/

namespace Sys2Proof.Machine

variable {st t u : State}

/-! ### Requests, register by register. -/

/-- The part of `State.requestsLegal` about one slot. -/
def Slot.RequestLegal (p : Params) (x : Slot) : Prop := x.valid = true → 1 ≤ x.lastReq ∧ x.lastReq ≤ p.frameSize

/-- The part of `State.requestsLegal` about one channel. -/
def Channel.RequestLegal (p : Params) (x : Channel) : Prop := x.armed = true → x.remaining ≤ p.frameSize

/-- A slot that does not exist is not valid, and a channel that does not exist is not armed. -/
theorem requestsLegal_iff : st.requestsLegal ↔
    (∀ s, (st.slot s).RequestLegal st.par) ∧ ∀ c, (st.chan c).RequestLegal st.par :=
  ⟨fun ⟨hs, hc⟩ => ⟨fun s hv => hs s (lt_of_valid hv) hv, fun c ha => hc c (lt_of_armed ha) ha⟩,
    fun ⟨hs, hc⟩ => ⟨fun s _ => hs s, fun c _ => hc c⟩⟩

theorem slot_requestLegal (h : st.requestsLegal) (s : Nat) : (st.slot s).RequestLegal st.par :=
  (requestsLegal_iff.mp h).1 s

theorem chan_requestLegal (h : st.requestsLegal) (c : Nat) : (st.chan c).RequestLegal st.par :=
  (requestsLegal_iff.mp h).2 c

theorem requestsLegal_setSlot {s : Nat} {x : Slot} (h : st.requestsLegal) (hx : x.RequestLegal st.par) :
    (st.setSlot s x).requestsLegal := by
  refine requestsLegal_iff.mpr ⟨fun v => ?_, fun c => chan_requestLegal h c⟩
  rw [slot_setSlot]
  split
  · exact hx
  · exact slot_requestLegal h v

theorem requestsLegal_setChan {c : Nat} {x : Channel} (h : st.requestsLegal) (hx : x.RequestLegal st.par) :
    (st.setChan c x).requestsLegal := by
  refine requestsLegal_iff.mpr ⟨fun s => slot_requestLegal h s, fun d => ?_⟩
  rw [chan_setChan]
  split
  · exact hx
  · exact chan_requestLegal h d

theorem requestsLegal_of_same_lists (hp : t.par = st.par) (hs : t.slots = st.slots) (hc : t.chans = st.chans)
    (h : st.requestsLegal) : t.requestsLegal := by
  refine requestsLegal_iff.mpr ⟨fun s => ?_, fun c => ?_⟩
  · rw [hp, show t.slot s = st.slot s from congrArg (·.getD s Slot.reset) hs]
    exact slot_requestLegal h s
  · rw [hp, show t.chan c = st.chan c from congrArg (·.getD c Channel.reset) hc]
    exact chan_requestLegal h c

/-! ### Frames. -/

/-- Every frame among `l` is valid and carries its own record, under the handle of a slot. -/
def State.FramesValid (st : State) (l : List PortEvent) : Prop :=
  ∀ ctx raw v, PortEvent.frameOut ctx raw v ∈ l →
    raw.length = st.par.frameSize ∧ frameValid st.par raw = true ∧ v = decodeFields st.par raw ∧ ∃ s, ctx = (st.slot s).ctx

theorem framesValid_nil : st.FramesValid [] := nofun

theorem framesValid_append {l l' : List PortEvent} (h : st.FramesValid l) (h' : st.FramesValid l') :
    st.FramesValid (l ++ l') := fun ctx raw v hm =>
  (List.mem_append.mp hm).elim (h ctx raw v) (h' ctx raw v)

theorem framesValid_delivery {f : List Byte} (s : Nat) (hl : f.length = st.par.frameSize) (hv : frameValid st.par f = true) :
    st.FramesValid [st.delivery s f] := by
  rintro _ _ _ hm
  cases List.mem_singleton.mp hm
  exact ⟨hl, hv, rfl, s, rfl⟩

theorem framesValid_of_deliveries {s : Nat} {l : List PortEvent} (h : st.deliveries s l) : st.FramesValid l := by
  intro ctx raw v hm
  obtain ⟨f, hf, he⟩ := h _ hm
  obtain ⟨hl, -, hv⟩ := frameValid_of_isFrame hf
  exact framesValid_delivery s hl hv ctx raw v (he ▸ List.mem_singleton_self _)

/-! ### One operation, and several in a row. -/

/-- From `st` to `t` legal requests stay legal, and the port history grows by valid frames of `st` and other transactions. -/
structure Sound (st t : State) : Prop where
  requests : st.requestsLegal → t.requestsLegal
  sent : ∃ l, t.out = st.out ++ l ∧ st.FramesValid l

/-- Sound, and the handles stay as they are, so that another part of the operation may follow. -/
structure Sequenced (st t : State) : Prop extends Sound st t where
  par : t.par = st.par
  handles : ∀ s, (t.slot s).ctx = (st.slot s).ctx

theorem sound_of_silent (ho : t.out = st.out) (h : st.requestsLegal → t.requestsLegal) : Sound st t :=
  ⟨h, [], by rw [ho, List.append_nil], framesValid_nil⟩

theorem Sequenced.trans (h1 : Sequenced st t) (h2 : Sequenced t u) : Sequenced st u where
  par := h2.par.trans h1.par
  handles s := (h2.handles s).trans (h1.handles s)
  requests h := h2.requests (h1.requests h)
  sent := by
    obtain ⟨l1, ho1, hl1⟩ := h1.sent
    obtain ⟨l2, ho2, hl2⟩ := h2.sent
    refine ⟨l1 ++ l2, by rw [ho2, ho1, List.append_assoc], framesValid_append hl1 ?_⟩
    simpa only [State.FramesValid, h1.par, h1.handles] using hl2

/-- An update of fields that hold no request, no handle and no transaction. -/
theorem sequenced_of_same_registers (hp : t.par = st.par := by rfl) (hs : t.slots = st.slots := by rfl)
    (hc : t.chans = st.chans := by rfl) (ho : t.out = st.out := by rfl) : Sequenced st t where
  toSound := sound_of_silent ho (requestsLegal_of_same_lists hp hs hc)
  par := hp
  handles s := congrArg (fun l => (l.getD s Slot.reset).ctx) hs

@[refl] theorem Sequenced.refl (st : State) : Sequenced st st := sequenced_of_same_registers

theorem sequenced_setSlot {s : Nat} {x : Slot} (hx : st.requestsLegal → x.RequestLegal st.par)
    (hctx : x.ctx = (st.slot s).ctx := by rfl) : Sequenced st (st.setSlot s x) where
  toSound := sound_of_silent rfl fun h => requestsLegal_setSlot h (hx h)
  par := rfl
  handles v := by
    rw [slot_setSlot]
    split
    · next h => rw [hctx, h.1]
    · rfl

theorem sequenced_setChan {c : Nat} {x : Channel} (hx : st.requestsLegal → x.RequestLegal st.par) :
    Sequenced st (st.setChan c x) where
  toSound := sound_of_silent rfl fun h => requestsLegal_setChan h (hx h)
  par := rfl
  handles _ := rfl

theorem sequenced_send {e : PortEvent} (h : st.FramesValid [e]) : Sequenced st (st.send e) where
  toSound := ⟨id, [e], rfl, h⟩
  par := rfl
  handles _ := rfl

/-! ### The shared operations. -/

theorem sequenced_ackChan (c : Nat) : Sequenced st (ackChan c st) :=
  (sequenced_of_same_registers (t := { st with ints := clearBit st.ints c })).trans
    (sequenced_send (e := .ackReq c) (by simp [State.FramesValid]))

theorem sequenced_armChan (c waddr : Nat) {n : Nat} (hn : n ≤ st.par.frameSize) : Sequenced st (armChan c waddr n st) :=
  (sequenced_setChan fun _ _ => hn).trans (sequenced_send (by simp [State.FramesValid]))

theorem sequenced_configChan (c s : Nat) : Sequenced st (configChan c s st) :=
  (sequenced_setChan (x := { st.chan c with cfg := configFor st.par s }) fun h => chan_requestLegal h c).trans
    (sequenced_send (e := .cfgReq c (configFor st.par s)) (by simp [State.FramesValid]))

theorem sequenced_advInsert (s n : Nat) : Sequenced st (advInsert s n st) := sequenced_setSlot fun h => slot_requestLegal h s

theorem sequenced_advExtract (s n : Nat) : Sequenced st (advExtract s n st) := sequenced_setSlot fun h => slot_requestLegal h s

theorem sequenced_writeBuf (s a : Nat) (b : Byte) : Sequenced st (writeBuf s a b st) :=
  sequenced_setSlot fun h => slot_requestLegal h s

theorem sequenced_pushBytes (s : Nat) (c : Cursor) (bs : List Byte) : Sequenced st (pushBytes s c bs st) := by
  induction bs generalizing c st with
  | nil => exact Sequenced.refl st
  | cons b bs ih => exact (sequenced_writeBuf s _ b).trans (ih _)

theorem sequenced_storeByte (c : Nat) (b : Byte) : Sequenced st (storeByte c b st) :=
  (sequenced_writeBuf _ _ b).trans <| sequenced_setChan fun h ha =>
    Nat.le_trans (Nat.sub_le _ 1) (chan_requestLegal h c ha)

theorem sequenced_drawnStore (c : Nat) (b : Byte) (s : Nat) (rx : List Byte) :
    Sequenced st (storeByte c b (drawStream s rx st)) :=
  (sequenced_of_same_registers (t := drawStream s rx st)).trans (sequenced_storeByte c b)

theorem sequenced_transferBytes (c : Nat) (bs : List Byte) : Sequenced st (transferBytes c bs st) := by
  induction bs generalizing st with
  | nil => exact Sequenced.refl st
  | cons b bs ih => exact (sequenced_drawnStore c b _ _).trans ih

theorem sequenced_finishTransfer (c : Nat) : Sequenced st (finishTransfer c st) :=
  (sequenced_setChan fun _ ha => Bool.noConfusion ha).trans sequenced_of_same_registers

theorem sequenced_raiseFatal (code : BitVec 2) (c : Nat) : Sequenced st (raiseFatal code c st) :=
  have hframe := raiseFatal_frame code c st
  sequenced_of_same_registers (congrArg State.par hframe :) (congrArg State.slots hframe :) (congrArg State.chans hframe :)
    (congrArg State.out hframe :)

/-- INIT sets a handle, and sends no frame. -/
theorem sound_initSlot (s c h : Nat) (hp : st.par.wf = true) : Sound st (initSlot s c h st) := by
  unfold initSlot
  split
  · exact (sequenced_raiseFatal _ c).toSound
  · have hpos : 1 ≤ st.par.frameSize := Nat.le_of_succ_le (wf_iff.mp hp).1
    have harm := (sequenced_configChan c s).trans (sequenced_armChan (st := configChan c s (st.setSlot s { st.slot s with
      valid := true, chan := c, ctx := h % 2 ^ st.par.ctxWidth, insert := 0, extract := 0, lastReq := st.par.frameSize }))
      c 0 (Nat.le_refl _))
    exact ⟨fun hl => harm.requests (requestsLegal_setSlot hl fun _ => ⟨hpos, Nat.le_refl _⟩), _,
      List.append_assoc _ _ _, by simp [State.FramesValid]⟩

theorem sound_resetBlock : Sound st (resetBlock st) :=
  sound_of_silent rfl fun _ => resetWith_requestsLegal st.par st.nSlots st.nChannels

/-! ### Scans and services. -/

theorem sequenced_of_scanTouched {s : Nat} (h : scanTouched s st t) : Sequenced st t := by
  obtain ⟨sc, l, rfl, hl⟩ := h
  exact { toSound := ⟨id, l, rfl, framesValid_of_deliveries hl⟩, par := rfl, handles := fun _ => rfl }

/-- A scan from `st` is sound, and where it returns, it asks for 1..`FRAME_SIZE` bytes (R149). -/
def ScanOut.Sound (st : State) : ScanOut → Prop
  | .done n t => Sequenced st t ∧ 1 ≤ n ∧ n ≤ st.par.frameSize
  | .held _ t => Sequenced st t

theorem scanRun_sound (k : Nat) (r : ScanRegs) (hp : st.par.wf = true) : Ensures (ScanOut.Sound st) (scanRun k r st) := by
  intro o ho
  rcases scanRun_cases hp ho with ⟨n, m, t, ht, rfl, h1, h2, -⟩ | ⟨r', t, ht, rfl, -⟩
  · exact ⟨(sequenced_of_scanTouched ht).trans (sequenced_advExtract _ m), h1, h2⟩
  · exact sequenced_of_scanTouched ht

theorem scanSlot_sound (s : Nat) (hp : st.par.wf = true) : Ensures (ScanOut.Sound st) (scanSlot s st) :=
  ensures_require fun _ => scanRun_sound _ _ hp

/-- The end of a service after its scan has returned. -/
theorem ScanOut.Sound.serviceEnd {n : Nat} (h : (ScanOut.done n t).Sound st) (s : Nat) :
    Sequenced st (serviceEnd s n t) := by
  obtain ⟨hscan, h1, h2⟩ := h
  have hslot := sequenced_setSlot (st := ackChan (t.slot s).chan t) (s := s)
    (x := { (ackChan (t.slot s).chan t).slot s with lastReq := n }) fun _ _ => ⟨h1, hscan.par.symm ▸ h2⟩
  exact ((hscan.trans (sequenced_ackChan _)).trans hslot).trans (sequenced_armChan _ _ (hscan.par.symm ▸ h2))

theorem service_sequenced (s : Nat) (hp : st.par.wf = true) : Ensures (fun o => Sequenced st o.state) (service s st) := by
  refine ensures_andThen (scanSlot_sound s hp) fun o ho => ?_
  have hadv : Sequenced st (advInsert s (st.slot s).lastReq st) := sequenced_advInsert s _
  cases o with
  | done n t => exact ensures_next (hadv.trans (ho.serviceEnd s))
  | held r t => exact ensures_next (hadv.trans ho)

theorem dispatchChan_sequenced (c : Nat) (hp : st.par.wf = true) :
    Ensures (fun o => Sequenced st o.state) (dispatchChan c st) := by
  intro o ho
  rcases dispatchChan_cases ho with ⟨-, rfl⟩ | ⟨s, t, -, h, rfl⟩ | ⟨s, r, t, -, h, rfl⟩
  · exact sequenced_raiseFatal _ c
  · exact service_sequenced s hp _ h
  · exact service_sequenced s hp _ h

theorem irqRun_sequenced (cs : List Nat) (pending : Nat) (hp : st.par.wf = true) :
    Ensures (Sequenced st) (irqRun cs pending st) := fun _ ht =>
  irqRun_induction (P := fun _ x => Sequenced st x) (fun _ _ h => h)
    (fun c _ _ _ h _ hd => h.trans (dispatchChan_sequenced c (h.par.symm ▸ hp) _ hd))
    (fun c _ _ _ _ h _ hd =>
      (h.trans (dispatchChan_sequenced c (h.par.symm ▸ hp) _ hd)).trans sequenced_of_same_registers)
    (fun c _ _ h _ _ => h.trans (sequenced_raiseFatal _ c)) (Sequenced.refl st) ht

theorem scanAgain_sound (r : ScanRegs) (hp : st.par.wf = true) : Ensures (ScanOut.Sound st) (scanAgain r st) :=
  scanRun_sound _ _ hp

theorem resume_sequenced (hp : st.par.wf = true) : Ensures (Sequenced st) (resume st) := by
  have hfree : Sequenced st { st with held := none } := sequenced_of_same_registers
  unfold resume
  split
  · exact ensures_next (Sequenced.refl st)
  · exact ensures_next hfree
  · exact ensures_next sequenced_of_same_registers
  · refine ensures_andThen (scanAgain_sound _ hp) fun o ho => ?_
    cases o with
    | done n t => exact ensures_next (hfree.trans (ho.1.trans sequenced_of_same_registers))
    | held r t => exact ensures_next (hfree.trans (Sequenced.trans ho sequenced_of_same_registers))
  · refine ensures_andThen (scanAgain_sound _ hp) fun o ho => ?_
    cases o with
    | done n t => exact ensures_next (hfree.trans (ho.serviceEnd _))
    | held r t => exact ensures_next (hfree.trans (Sequenced.trans ho sequenced_of_same_registers))
  · next r _ =>
    refine ensures_andThen (scanAgain_sound _ hp) fun o ho => ?_
    cases o with
    | done n t =>
      have hend := hfree.trans (ho.serviceEnd r.slot)
      exact fun v hv => hend.trans (irqRun_sequenced _ _ (hend.par.symm ▸ hp) v hv)
    | held r t => exact ensures_next (hfree.trans (Sequenced.trans ho sequenced_of_same_registers))

/-! ### Classes of a scan performed alone. -/

theorem scanIter_sequenced (r : ScanRegs) (hp : st.par.wf = true) :
    Ensures (fun o => Sequenced st o.state) (scanIter r st) := by
  intro o ho
  rcases scanIter_cases hp ho with ⟨-, -, rfl⟩ | ⟨-, -, -, rfl⟩ | ⟨-, -, -, rfl⟩ | ⟨-, -, -, -, rfl⟩ |
    ⟨f, -, hf, -, -, rfl⟩ | ⟨f, -, -, -, -, -, -, rfl⟩
  · exact Sequenced.refl st
  · exact sequenced_advExtract _ _
  · exact Sequenced.refl st
  · exact sequenced_advExtract _ _
  · have hsent := sequenced_of_scanTouched (scanTouched_delivered r.slot st hf)
    split <;> exact hsent
  · exact sequenced_of_same_registers

/-- The class taken, performed and kept. -/
theorem performAndKeep_sequenced {k : ScanClass} {r : ScanRegs} (hp : st.par.wf = true) (hk : classify r st = .next k) :
    Ensures (Sequenced st) (andThen (performClass k r st) keepClass) := by
  refine ensures_andThen (Q := fun o => Sequenced st o.state) (fun o ho => ?_) fun o ho => ?_
  · exact scanIter_sequenced r hp o (by rw [scanIter, hk, andThen_next, ho])
  · cases o <;> exact ensures_next (Sequenced.trans ho sequenced_of_same_registers)

theorem classAlone_sequenced (k : ScanClass) (s : Nat) (hp : st.par.wf = true) : Ensures (Sequenced st) (classAlone k s st) :=
  ensures_require fun _ => ensures_require fun _ => ensures_classRegs fun _ =>
    ensures_andThen (fun _ hk => hk) fun _ hk => ensures_require fun hkk =>
      performAndKeep_sequenced hp ((of_decide_eq_true hkk) ▸ hk)

theorem execHeaderByte_sequenced (hp : st.par.wf = true) : Ensures (Sequenced st) (execHeaderByte st) :=
  ensures_openScan fun _ => ensures_andThen (fun _ hk => hk) fun _ hk => ensures_require fun _ =>
    performAndKeep_sequenced hp hk

theorem execFrame_sequenced (raw : List Byte) (hp : st.par.wf = true) : Ensures (Sequenced st) (execFrame raw st) :=
  ensures_openScan fun _ => ensures_andThen (fun _ hk => hk) fun _ hk => ensures_require fun hkk =>
    ensures_andThen_any fun _ => ensures_require fun _ => performAndKeep_sequenced hp ((of_decide_eq_true hkk) ▸ hk)

/-! ### The other operations with more than one outcome. -/

theorem execScan_sequenced (s : Nat) (hp : st.par.wf = true) : Ensures (Sequenced st) (execScan s st) := by
  refine ensures_require fun _ => ensures_require fun _ => ensures_require fun _ =>
    ensures_andThen (scanSlot_sound s hp) fun o ho => ?_
  cases o with
  | done n t => exact ensures_next (ho.1.trans sequenced_of_same_registers)
  | held r t => exact ensures_next (Sequenced.trans ho sequenced_of_same_registers)

theorem execSvc_sequenced (s : Nat) (hp : st.par.wf = true) : Ensures (Sequenced st) (execSvc s st) := by
  refine ensures_require fun _ => ensures_require fun _ => ensures_require fun _ => ensures_require fun _ =>
    ensures_andThen (service_sequenced s hp) fun o (ho : Sequenced st o.state) => ?_
  cases o with
  | done t => exact ensures_next ho
  | held r t => exact ensures_next (ho.trans sequenced_of_same_registers)

theorem execDispatch_sequenced (c : Nat) (hp : st.par.wf = true) : Ensures (Sequenced st) (execDispatch c st) := by
  refine ensures_require fun _ => ensures_require fun _ => ensures_require fun _ => ensures_require fun _ =>
    ensures_andThen (dispatchChan_sequenced c hp) fun o (ho : Sequenced st o.state) => ?_
  cases o with
  | done t => exact ensures_next ho
  | held r t => exact ensures_next (ho.trans sequenced_of_same_registers)
  | fatal t => exact ensures_next ho

theorem execEmit_sequenced (s : Nat) : Ensures (Sequenced st) (execEmit s st) :=
  ensures_require fun _ => ensures_require fun _ => ensures_require fun _ =>
    ensures_andThen (Q := fun f => f.length = st.par.frameSize) (fun _ hf => (readScratch_eq_next.mp hf).1) fun _ hl =>
      ensures_require fun hv => ensures_next
        ((sequenced_send (framesValid_delivery s hl hv)).trans sequenced_of_same_registers)

theorem execArm_sequenced (c waddr n : Nat) : Ensures (Sequenced st) (execArm c waddr n st) := by
  refine ensures_require fun _ => ensures_require fun _ => ensures_require fun _ => ensures_require fun hn =>
    ensures_require fun _ => ensures_next (sequenced_armChan c waddr ?_)
  obtain ⟨-, hn⟩ := Bool.and_eq_true_iff.mp hn
  exact of_decide_eq_true hn

/-! ### Every operation, and the step. -/

theorem sequenced_setResult (v : OpResult) : Sequenced st (st.setResult v) := sequenced_of_same_registers

/-- Every operation but RESET and INIT leaves the handles as they are, and is sound. -/
theorem exec_sequenced {i : Instr} (hp : st.par.wf = true) (hreset : i ≠ .reset) (hinit : ∀ s c h, i ≠ .init s c h) :
    Ensures (Sequenced st) (exec i st) := by
  cases i with
  | reset => exact absurd rfl hreset
  | init s c h => exact absurd rfl (hinit s c h)
  | enable => exact ensures_require fun _ => ensures_next sequenced_of_same_registers
  | crcStep c8 b => exact ensures_next (sequenced_setResult _)
  | crcRange l => exact ensures_next (sequenced_setResult _)
  | frameValid f => exact ensures_require fun _ => ensures_next (sequenced_setResult _)
  | rbPhys c => exact ensures_next (sequenced_setResult _)
  | rbAvail s => exact ensures_require fun _ => ensures_next (sequenced_setResult _)
  | rbWindow s c n => exact ensures_require fun _ => ensures_require fun _ => ensures_next (sequenced_setResult _)
  | rbCopy s c n =>
    exact ensures_require fun _ => ensures_require fun _ => ensures_require fun _ => ensures_require fun _ =>
      ensures_andThen_any fun _ => ensures_next sequenced_of_same_registers
  | rbAdvi s n =>
    exact ensures_require fun _ => ensures_require fun _ => ensures_require fun _ => ensures_next (sequenced_advInsert s n)
  | rbAdvx s n =>
    exact ensures_require fun _ => ensures_require fun _ => ensures_require fun _ => ensures_require fun _ =>
      ensures_next (sequenced_advExtract s n)
  | rbDmawr s a b =>
    exact ensures_require fun _ => ensures_require fun _ => ensures_require fun _ => ensures_next (sequenced_writeBuf s a b)
  | push s l =>
    exact ensures_require fun _ => ensures_require fun _ =>
      ensures_next ((sequenced_pushBytes s _ l).trans (sequenced_advInsert s _))
  | scan s => exact execScan_sequenced s hp
  | scnIdle s => exact classAlone_sequenced .idle s hp
  | scnSkip s => exact classAlone_sequenced .skip s hp
  | scnDefer s => exact classAlone_sequenced .defer s hp
  | scnAccept s => exact classAlone_sequenced .accept s hp
  | scnReject s => exact classAlone_sequenced .reject s hp
  | scnDrain s => exact classAlone_sequenced .drain s hp
  | decode f => exact ensures_require fun _ => ensures_next (sequenced_setResult _)
  | emit s => exact execEmit_sequenced s
  | svc s => exact execSvc_sequenced s hp
  | ack c => exact ensures_require fun _ => ensures_require fun _ => ensures_next (sequenced_ackChan c)
  | arm c a n => exact execArm_sequenced c a n
  | dma c l =>
    exact ensures_require fun _ => ensures_require fun _ =>
      ensures_next ((sequenced_transferBytes c l).trans (sequenced_finishTransfer c))
  | raise c => exact ensures_require fun _ => ensures_next sequenced_of_same_registers
  | dmaConfig c s =>
    exact ensures_require fun _ => ensures_require fun _ => ensures_require fun _ => ensures_next (sequenced_configChan c s)
  | dmaByte c => exact ensures_require fun _ => ensures_require fun _ => ensures_next (sequenced_drawnStore c _ _ _)
  | dmaDone c => exact ensures_require fun _ => ensures_next (sequenced_finishTransfer c)
  | irq => exact ensures_require fun _ => ensures_require fun _ => irqRun_sequenced _ _ hp
  | lookup c => exact ensures_require fun _ => ensures_next (sequenced_setResult _)
  | dispatch c => exact execDispatch_sequenced c hp
  | fatal code c => exact ensures_require fun _ => ensures_require fun _ => ensures_next (sequenced_raiseFatal _ c)
  | headerByte => exact execHeaderByte_sequenced hp
  | frame raw => exact execFrame_sequenced raw hp

/-- Every operation is sound. -/
theorem exec_sound (i : Instr) (hp : st.par.wf = true) : Ensures (Sound st) (exec i st) := by
  by_cases hreset : i = .reset
  · subst hreset
    exact ensures_next sound_resetBlock
  by_cases hinit : ∃ s c h, i = .init s c h
  · obtain ⟨s, c, h, rfl⟩ := hinit
    exact ensures_require fun _ => ensures_require fun _ => ensures_require fun _ => ensures_require fun _ =>
      ensures_require fun _ => ensures_next (sound_initSlot s c h hp)
  · simp only [not_exists] at hinit
    exact fun t ht => (exec_sequenced hp hreset hinit t ht).toSound

/-- The inputs `consumer` and `trace` have no part in it. -/
theorem Sound.of_inputs {q : Consumer} {tr : List Byte} (h : Sound { st with consumer := q, trace := tr } t) : Sound st t :=
  ⟨h.requests, h.sent⟩

/-- Every step is sound. -/
theorem step_sound (hp : st.par.wf = true) : Ensures (Sound st) (step st) := by
  intro t h
  rcases step_cases h with ⟨-, h⟩ | ⟨-, i, st', hf, -, h⟩ | ⟨-, -, r, i, -, -, h⟩ | ⟨-, -, i, -, h⟩ | ⟨-, -, -, rfl⟩
  · rw [turn_eq] at h
    exact (resume_sequenced (by exact hp) t h).toSound.of_inputs
  · obtain ⟨rest, rfl, -⟩ := fetch_of_turn hf
    exact (exec_sound i (by exact hp) t h).of_inputs
  · exact exec_sound i hp t h
  · rw [turn_eq] at h
    exact (exec_sound i (by exact hp) t h).of_inputs
  · rw [turn_eq]
    exact Sequenced.toSound sequenced_of_same_registers

/-- Settles O41: of a sound step (`step_sound`) the part about what was sent. -/
theorem onlyValidFramesAreDelivered : Obligations.OnlyValidFramesAreDelivered := fun _ t hp h => (step_sound hp t h).sent

/-- SCAN performed alone, where nothing waits after it. -/
theorem execScan_returns {s : Nat} (h : execScan s st = .next t) (hheld : t.held = none) :
    ∃ n x, scanSlot s st = .next (.done n x) ∧ t = x.setResult (.next n) := by
  obtain ⟨-, h⟩ := require_eq_next.mp h
  obtain ⟨-, h⟩ := require_eq_next.mp h
  obtain ⟨-, h⟩ := require_eq_next.mp h
  obtain ⟨o, ho, h⟩ := andThen_eq_next.mp h
  cases o with
  | done n x => exact ⟨n, x, ho, (Host.Outcome.next.inj h).symm⟩
  | held r x =>
    cases h
    cases hheld

/-- Settles O49: the range is that of every scan (`scanRun_sound`), and it is what a sound step (`step_sound`) puts on record. -/
theorem requestsStayInRange : Obligations.RequestsStayInRange := by
  refine ⟨fun s st t hp h hheld => ?_, fun st t hp hl h => (step_sound hp t h).requests hl⟩
  obtain ⟨n, x, hscan, rfl⟩ := execScan_returns h hheld
  obtain ⟨-, h1, h2⟩ := scanSlot_sound s hp _ hscan
  exact ⟨n, rfl, h1, h2⟩

end Sys2Proof.Machine
end

section
/-! The six classes of a scan (42_scanner.md R137 to R142), DECODE (R151) and EMIT (R152) performed alone, as exact next states; and
a SCAN of written bytes (R136). -/

namespace Sys2Proof.Machine

variable {st : State} {s : Nat} {r : ScanRegs}

/-! ### The guards. -/

/-- The class taken, performed alone, keeps what its effect leaves. -/
theorem exec_class_eq (h : st.scanning s r) {k : ScanClass} (hk : classify r st = .next k) {o : ClassOut}
    (ho : performClass k r st = .next o) : exec (classInstr k s) st = keepClass o := by
  rw [exec_classInstr, classAlone_of_classify h hk, ho, andThen_next]

theorem scanning_scanEntry (h : st.ready) (hv : (st.slot s).valid = true) (ha : (st.avail s).toNat ≤ st.par.capacity) :
    st.scanning s (scanEntry s st) :=
  have ⟨hf, hs, hh⟩ := h
  ⟨hf, hh, hv, rfl, inside_scanEntry s, .inr ⟨hs, ha, rfl⟩⟩

/-- What SCAN performed alone keeps of its scan: the value returned, or the wait. -/
def ScanOut.keep : ScanOut → Out State
  | .done n t => .next (t.setResult (.next n))
  | .held r t => .next { t with held := some (.scan r) }

theorem execScan_eq (s : Nat) (st : State) : execScan s st =
    require (!st.fatal) .halted (require (!st.busy) .sequencerBusy (require (st.slot s).valid .slotNotValid
      (andThen (scanSlot s st) ScanOut.keep))) := by
  rw [execScan]
  exact congrArg (fun j => require (!st.fatal) .halted (require (!st.busy) .sequencerBusy
    (require (st.slot s).valid .slotNotValid (andThen (scanSlot s st) j)))) (funext fun o => by cases o <;> rfl)

theorem exec_scan_eq (h : st.ready) (hv : (st.slot s).valid = true) :
    exec (.scan s) st = andThen (scanSlot s st) ScanOut.keep := by
  obtain ⟨hf, hs, hh⟩ := h
  change execScan s st = _
  have hbusy : st.busy = false := by simp [State.busy, hs, hh]
  rw [execScan_eq, hf, hbusy, hv, Bool.not_false, require_true, require_true, require_true]

/-- SCAN completes on a valid slot only. -/
theorem valid_of_exec_scan {t : State} (h : exec (.scan s) st = .next t) : (st.slot s).valid = true := by
  obtain ⟨-, h⟩ := require_eq_next.mp h
  obtain ⟨-, h⟩ := require_eq_next.mp h
  exact (require_eq_next.mp h).1

/-- A scan of at most a buffer is the loop from its entry. -/
theorem scanSlot_eq (ha : (st.avail s).toNat ≤ st.par.capacity) :
    scanSlot s st = scanRun ((st.avail s).toNat + 1) (scanEntry s st) st := by
  rw [scanSlot, decide_eq_true ha, require_true]

/-! ### The classes that copy nothing. -/

/-- Settles O25: with nothing available the class is IDLE, which is also the whole scan. -/
theorem idleScanIsANoOp : Obligations.IdleScanIsANoOp := by
  intro s st hready hv havail
  have ⟨_, hscan, _⟩ := hready
  have hzero : (st.avail s).toNat = 0 := by simp [havail]
  have hfits : (st.avail s).toNat ≤ st.par.capacity := hzero ▸ Nat.zero_le _
  have hidle : classify (scanEntry s st) st = .next .idle := by simp [classify, scanEntry, hzero]
  have hsame : { st with scan := none } = st := by rw [← hscan]
  refine ⟨?_, ?_⟩
  · have h := exec_class_eq (scanning_scanEntry hready hv hfits) hidle rfl
    rw [keepClass, hsame] at h
    exact h
  · rw [exec_scan_eq hready hv, scanSlot_eq hfits, hzero, scanRun, scanIter, hidle]
    rfl

/-- Settles O26. -/
theorem skipConsumesOneByte : Obligations.SkipConsumesOneByte := by
  intro s r b st h hc hb hne
  have ⟨_, _, _, hslot, _⟩ := h
  have hk : classify r st = .next .skip := by rw [classify_of_byte hc (hslot ▸ hb), if_pos hne]
  exact exec_class_eq h hk rfl

/-- Settles O27: fewer bytes than a frame are left, and at least the header. -/
theorem deferRequestsTheMissingBytes : Obligations.DeferRequestsTheMissingBytes := by
  intro s r st h hc hb hrem
  have ⟨_, _, hv, hslot, _⟩ := h
  subst hslot
  have hrem' : r.remainder < st.par.frameSize := hrem
  have hpos : 0 < r.remainder := Nat.sub_pos_of_lt hc
  have hk : classify r st = .next .defer := by simp [classify_of_byte hc hb, hrem']
  exact ⟨_, _, exec_class_eq h hk rfl, rfl, rfl, by omega, by omega, rfl, advExtract_slot_self (lt_of_valid hv) _,
    fun u hu => advExtract_slot_ne hu _, rfl⟩

/-- Settles O30. -/
theorem drainCommitsEverything : Obligations.DrainCommitsEverything := by
  intro s r st h hc hpos
  have ⟨_, _, hv, hslot, _⟩ := h
  subst hslot
  have hk : classify r st = .next .drain := by simp [classify, hc, Nat.ne_of_gt hpos]
  exact ⟨_, exec_class_eq h hk rfl, rfl, rfl, hc ▸ advExtract_slot_self (lt_of_valid hv) _,
    fun u hu => advExtract_slot_ne hu _, rfl⟩

/-! ### The classes that copy the candidate. -/

/-- Settles O28: the class is ACCEPT (`classify_of_holds`), and its effect is that of `scnAccept_of_holds`. -/
theorem acceptDeliversTheFrame : Obligations.AcceptDeliversTheFrame := by
  intro s r f st hp h hrem hf hholds
  have ⟨_, hheld, _, hslot, _⟩ := h
  subst hslot
  obtain ⟨hl, h0, hv⟩ := frameValid_of_isFrame hf
  have hk : classify r st = .next .accept := by rw [classify_of_holds hp hl h0 hrem hholds, hv, if_pos rfl]
  have hexec := exec_class_eq h hk (scnAccept_of_holds hp hl hholds)
  have hscratch : ∀ i < st.par.frameSize, (st.withScratch f).scratchByte i = f[i]? :=
    fun i hi => withScratch_inside (hl.symm ▸ hi)
  cases hr : st.reply with
  | true =>
    rw [hr, if_pos rfl] at hexec
    exact ⟨_, hexec, hscratch, rfl, rfl, fun _ => ⟨rfl, hheld⟩, fun hr' => Bool.noConfusion (hr.symm.trans hr'), rfl⟩
  | false =>
    rw [hr, if_neg Bool.false_ne_true] at hexec
    exact ⟨_, hexec, hscratch, rfl, rfl, fun hr' => Bool.noConfusion (hr.symm.trans hr'), fun _ => ⟨rfl, rfl⟩, rfl⟩

/-- Settles O29: the class is REJECT (`classify_of_holds`), and its effect is that of `scnReject_of_holds`. -/
theorem rejectConsumesOneByte : Obligations.RejectConsumesOneByte := by
  intro s r f st hp h hrem hl h0 hv hholds
  have ⟨_, _, _, hslot, _⟩ := h
  subst hslot
  have hk : classify r st = .next .reject := by
    rw [classify_of_holds hp hl h0 hrem hholds, hv, if_neg Bool.false_ne_true]
  exact ⟨_, exec_class_eq h hk (scnReject_of_holds hp hl hholds), fun i hi => withScratch_inside (hl.symm ▸ hi), rfl, rfl⟩

/-! ### DECODE. -/

variable {f : List Byte}

theorem getElem?_eq_byteAt {o : Nat} (h : o < f.length) : f[o]? = some (byteAt f o) := by
  rw [byteAt, List.getD_eq_getElem?_getD, List.getElem?_eq_getElem h, Option.getD_some]

/-- A field of two bytes is its low byte and 256 times its high byte. -/
theorem halfAt_toNat {o o' : Nat} {lo hi : Byte} (ho : o' = o + 1) (hlo : f[o]? = some lo) (hhi : f[o']? = some hi) :
    (halfAt (byteAt f) o).toNat = hi.toNat * 256 + lo.toNat := by
  have hbyte : ∀ {i b}, f[i]? = some b → byteAt f i = b := fun h => by rw [byteAt, List.getD_eq_getElem?_getD, h]; rfl
  rw [halfAt, hbyte (ho ▸ hhi), hbyte hlo, BitVec.toNat_append, ← Nat.shiftLeft_add_eq_or_of_lt lo.isLt, Nat.shiftLeft_eq]

theorem exec_decode_eq (h : f.length = st.par.frameSize) :
    exec (.decode f) st = .next (st.setResult (.fields (decodeFields st.par f))) := by
  change execDecode f st = _
  rw [execDecode, decide_eq_true h, require_true]

/-- Settles O34: the record is read field by field at fixed offsets, all inside the frame. -/
theorem decodeReturnsTheRecord : Obligations.DecodeReturnsTheRecord := by
  rintro f st n rfl
  refine ⟨fun hl => ⟨_, exec_decode_eq hl, ?_, fun hlaid => ?_⟩, fun hl => ?_⟩
  · unfold decodeFields
    split <;> exact (List.length_map _).trans List.length_range
  · have hsize : st.par.frameSize = 11 + 3 * st.par.nSamples := of_decide_eq_true hlaid
    rw [decodeFields, hlaid, if_pos rfl]
    refine ⟨getElem?_eq_byteAt (by omega), getElem?_eq_byteAt (by omega), getElem?_eq_byteAt (by omega),
      fun _ _ => halfAt_toNat rfl, fun _ _ => halfAt_toNat rfl, fun k x hx => ?_,
      fun _ _ => halfAt_toNat (by omega), fun _ _ => halfAt_toNat (by omega)⟩
    have hk : k < st.par.nSamples := by
      have := (List.getElem?_eq_some_iff.mp hx).1
      simpa [recordOf] using this
    obtain rfl : sampleAt (byteAt f) k = x := by simpa [recordOf, List.getElem?_range hk] using hx
    exact ⟨fun _ _ => halfAt_toNat (by omega), getElem?_eq_byteAt (by omega)⟩
  · change execDecode f st = _
    rw [execDecode, decide_eq_false hl, require_false]

/-! ### EMIT. -/

/-- Settles O35: scratch reads as the frame (`readScratch_eq_next`), which is then sent. -/
theorem emitSendsTheScratchFrame : Obligations.EmitSendsTheScratchFrame := by
  intro s f st hf hh hv hl hscratch hvalid
  have hread : readScratch st 0 st.par.frameSize = .next f :=
    readScratch_eq_next.mpr ⟨hl, fun k hk => by rw [Nat.zero_add]; exact hscratch k hk⟩
  exact require_eq_next.mpr ⟨by rw [hf]; rfl, require_eq_next.mpr ⟨by rw [hh]; rfl, require_eq_next.mpr ⟨hv,
    andThen_eq_next.mpr ⟨f, hread, require_eq_next.mpr ⟨hvalid, rfl⟩⟩⟩⟩⟩

/-! ### SCAN. -/

/-- SCAN is refused on a slot that is not valid or holds more than the buffer, while something is in progress, and halted. -/
theorem exec_scan_refuses (h : (st.slot s).valid = false ∨ st.par.capacity < (st.avail s).toNat ∨ st.busy = true ∨
    st.fatal = true) : ∃ why, exec (.scan s) st = .refused why := by
  refine require_refuses fun hrun => require_refuses fun hfree => require_refuses fun hv => ?_
  have hcap : decide ((st.avail s).toNat ≤ st.par.capacity) = false := by
    simp only [Bool.not_eq_true'] at hrun hfree
    simpa [hrun, hfree, hv] using h
  rw [scanSlot, hcap]
  exact ⟨_, rfl⟩

/-- Settles O36: of everything a scan can answer (`scanSlot_cases`) it answers one (`scanSlot_completes`). -/
theorem scanCompletes : Obligations.ScanCompletes := by
  refine ⟨fun s st hp hready hv ha hw => ?_, fun s st => exec_scan_refuses⟩
  have ⟨_, _, hheld⟩ := hready
  have hs := lt_of_valid hv
  obtain ⟨o, ho⟩ := scanSlot_completes hp ha hw
  rw [exec_scan_eq hready hv, ho, andThen_next]
  obtain ⟨-, ⟨n, m, x, ⟨sc, l, rfl, hl⟩, rfl, h1, -, hm, hsum⟩ | ⟨r, x, ⟨sc, l, rfl, hl⟩, rfl, hslow, hr, -⟩⟩ :=
    scanSlot_cases hp ho
  · refine ⟨_, rfl, ⟨l, rfl, hl, rfl⟩, ⟨m, hm, advExtract_slot_self hs m⟩, fun u hu => advExtract_slot_ne hu m, ?_,
      fun _ => hheld, fun _ => ⟨n, rfl, h1, ?_⟩, fun h => absurd hheld h⟩
    · rw [← hheld]
      rfl
    · change ((advExtract s m (st.scanned sc l)).avail s).toNat + n = _
      rw [avail_advExtract (st := st.scanned sc l) hs hm]
      exact hsum
  · refine ⟨_, rfl, ⟨l, rfl, hl, rfl⟩, ⟨0, Nat.zero_le _, by rw [advance_zero]; rfl⟩, fun u _ => rfl, ?_,
      fun h => absurd h hslow, nofun, fun _ => ⟨⟨r, hr, rfl⟩, rfl, rfl⟩⟩
    rw [← hheld]
    rfl

end Sys2Proof.Machine
end

section
/-! What the scanner sees (42_scanner.md R136) and what it does there, apart: an iteration is its sight of the bytes still available,
which no other part of the state has a share in, and then a total function of that sight. So SCAN is its classes (R89), and does
not depend on where the buffer wraps (R143, R155). -/

namespace Sys2Proof.Machine

variable {st st' : State} {s k : Nat} {r r' : ScanRegs}

/-! ### Sight and reaction. -/

/-- What one iteration finds: the class taken and, where the class copies its candidate, the candidate. -/
inductive Sight where
  | idle
  | drain
  | skip
  | defer
  | accept (f : List Byte)
  | reject (f : List Byte)

/-- R136's tests, with the candidate they read. -/
def sight (r : ScanRegs) (st : State) : Out Sight :=
  if r.available = 0 then .next .idle
  else if r.available ≤ r.consumed then .next .drain
  else andThen (readBuf r.slot (phys st.par (r.pos st)) st) fun b =>
    if b ≠ st.par.header then .next .skip
    else if r.remainder < st.par.frameSize then .next .defer
    else andThen (readRange r.slot (r.pos st) st.par.frameSize st) fun f =>
      .next (if frameValid st.par f then .accept f else .reject f)

/-- What an iteration leaves, by what it finds. -/
def Sight.leaves (r : ScanRegs) (st : State) : Sight → ClassOut
  | .idle => .done st.par.frameSize st
  | .drain => .done st.par.frameSize (advExtract r.slot r.consumed st)
  | .skip => .more (r.consume 1) st
  | .defer => .done (st.par.frameSize - r.remainder) (advExtract r.slot r.consumed st)
  | .accept f =>
    if st.reply then .more (r.consume st.par.frameSize) (st.delivered r.slot f) else .held r (st.delivered r.slot f)
  | .reject f => .more (r.consume 1) (st.withScratch f)

theorem leaves_accept_of_reply {f : List Byte} (h : st.reply = true) :
    (Sight.accept f).leaves r st = .more (r.consume st.par.frameSize) (st.delivered r.slot f) := if_pos h

theorem leaves_accept_of_no_reply {f : List Byte} (h : st.reply = false) :
    (Sight.accept f).leaves r st = .held r (st.delivered r.slot f) :=
  if_neg (Bool.not_eq_true _ ▸ h)

/-- An iteration is its sight and its reaction: a copy of the candidate reads the bytes the tests have read. -/
theorem scanIter_eq (hp : st.par.wf = true) (r : ScanRegs) :
    scanIter r st = andThen (sight r st) fun v => .next (v.leaves r st) := by
  obtain ⟨-, h2, h3⟩ := wf_iff.mp hp
  by_cases h0 : r.available = 0
  · simp [scanIter, classify, sight, h0, performClass, scnIdle, Sight.leaves]
  by_cases h1 : r.available ≤ r.consumed
  · simp [scanIter, classify, sight, h0, h1, performClass, scnDrain, Sight.leaves]
  cases hb : readBuf r.slot (phys st.par (r.pos st)) st with
  | fault e => simp [scanIter, classify, sight, h0, h1, hb]
  | refused e => simp [scanIter, classify, sight, h0, h1, hb]
  | next b =>
    by_cases hbh : b = st.par.header
    · by_cases hr : r.remainder < st.par.frameSize
      · simp [scanIter, classify, sight, h0, h1, hb, hbh, hr, performClass, scnDefer, Sight.leaves]
      · cases hf : readRange r.slot (r.pos st) st.par.frameSize st with
        | fault e => simp [scanIter, classify, sight, h0, h1, hb, hbh, hr, hf]
        | refused e => simp [scanIter, classify, sight, h0, h1, hb, hbh, hr, hf]
        | next f =>
          obtain ⟨hl, hread⟩ := (readRange_eq_next (Nat.le_of_lt h3) h2).mp hf
          have hholds : st.holds r.slot (r.pos st) f := fun i hi => hread i (hl ▸ hi)
          cases hv : frameValid st.par f <;>
            simp [scanIter, classify, sight, h0, h1, hb, hbh, hr, hf, hv, performClass, scnAccept_of_holds hp hl hholds,
              scnReject_of_holds hp hl hholds, Sight.leaves]
    · simp [scanIter, classify, sight, h0, h1, hb, hbh, performClass, scnSkip, Sight.leaves]

/-- The class of what an iteration finds. -/
def Sight.cls : Sight → ScanClass
  | .idle => .idle
  | .drain => .drain
  | .skip => .skip
  | .defer => .defer
  | .accept _ => .accept
  | .reject _ => .reject

/-- R136's tests answer the class of what the iteration finds. -/
theorem classify_eq (r : ScanRegs) (st : State) : classify r st = andThen (sight r st) fun v => .next v.cls := by
  rw [classify, sight]
  split
  · rfl
  split
  · rfl
  cases readBuf r.slot (phys st.par (r.pos st)) st with
  | fault e => rfl
  | refused e => rfl
  | next b =>
    simp only [andThen_next]
    split
    · rfl
    split
    · rfl
    cases readRange r.slot (r.pos st) st.par.frameSize st with
    | fault e => rfl
    | refused e => rfl
    | next f =>
      simp only [andThen_next]
      split <;> rfl

/-- What the rest of the scan does with what an iteration leaves. -/
def ClassOut.goOn (k : Nat) : ClassOut → Out ScanOut
  | .more r st => scanRun k r st
  | .done n st => .next (.done n st)
  | .held r st => .next (.held r st)

theorem scanRun_succ (hp : st.par.wf = true) (k : Nat) (r : ScanRegs) :
    scanRun (k + 1) r st = andThen (sight r st) fun v => (v.leaves r st).goOn k := by
  rw [scanRun, scanIter_eq hp]
  cases sight r st with
  | next v =>
    simp only [andThen_next]
    cases v.leaves r st <;> rfl
  | fault e => rfl
  | refused e => rfl

/-- An iteration after which the scan goes on has consumed available bytes, and touched what a scan touches. -/
theorem scanIter_more (hp : st.par.wf = true) (h : scanIter r st = .next (.more r' st')) :
    ∃ n, 1 ≤ n ∧ r' = r.consume n ∧ r.consumed + n ≤ r.available ∧ scanTouched r.slot st st' := by
  have hf2 := (wf_iff.mp hp).1
  rcases scanIter_cases hp h with ⟨-, -, e⟩ | ⟨-, -, -, e⟩ | ⟨h0, -, -, e⟩ | ⟨-, -, -, -, e⟩ | ⟨f, h0, hf, -, -, e⟩ |
      ⟨f, h0, -, -, -, -, -, e⟩
  · cases e
  · cases e
  · cases e
    exact ⟨1, Nat.le_refl 1, rfl, h0, scanTouched_refl _ _⟩
  · cases e
  · split at e
    · cases e
      exact ⟨_, by omega, rfl, h0, scanTouched_delivered _ _ hf⟩
    · cases e
  · cases e
    exact ⟨1, Nat.le_refl 1, rfl, by omega, scanTouched_withScratch _ _ f⟩

theorem scanIter_of_sight {v : Sight} (hp : st.par.wf = true) (h : sight r st = .next v) :
    scanIter r st = .next (v.leaves r st) := by
  rw [scanIter_eq hp, h, andThen_next]

/-! ### The bytes in sight. -/

theorem readBuf_congr {a a' : Nat} (h : st'.bufByte s a' = st.bufByte s a) : readBuf s a' st' = readBuf s a st := by
  rw [readBuf, readBuf, h]

theorem readBufAll_congr {as as' : List Nat} (h : as'.map (st'.bufByte s) = as.map (st.bufByte s)) :
    readBufAll s st' as' = readBufAll s st as := by
  induction as generalizing as' with
  | nil =>
    obtain rfl := List.map_eq_nil_iff.mp h
    rfl
  | cons a as ih =>
    cases as' with
    | nil => cases h
    | cons a' as' =>
      obtain ⟨hhead, htail⟩ := List.cons.inj h
      rw [readBufAll, readBufAll, readBuf_congr hhead, ih htail]

theorem readRange_congr {c c' : Cursor} {len : Nat} (hp : st.par.log2Cap ≤ 64) (hpar : st'.par = st.par)
    (hlen : len ≤ st.par.capacity)
    (h : ∀ i < len, st'.logicalByte s (advance c' i) = st.logicalByte s (advance c i)) :
    readRange s c' len st' = readRange s c len st := by
  rw [readRange, readRange, hpar, windowOffsets_eq hp c hlen, windowOffsets_eq hp c' hlen]
  refine readBufAll_congr ?_
  rw [List.map_map, List.map_map]
  refine List.map_congr_left fun i hi => ?_
  have hi := h i (List.mem_range.mp hi)
  rwa [State.logicalByte, hpar] at hi

/-- The logical bytes of slot `s` from `extract` on, `n` of them, are the same in both states (20_memory.md R61). -/
def SameBytes (s n : Nat) (st st' : State) : Prop :=
  ∀ i < n, st'.logicalByte s (advance (st'.slot s).extract i) = st.logicalByte s (advance (st.slot s).extract i)

/-- What an iteration finds depends on the available bytes only. -/
theorem sight_congr (hp : st.par.wf = true) (hpar : st'.par = st.par) (h : SameBytes r.slot r.available st st') :
    sight r st' = sight r st := by
  obtain ⟨-, h2, h3⟩ := wf_iff.mp hp
  have hpos : ∀ i < r.remainder,
      st'.logicalByte r.slot (advance (r.pos st') i) = st.logicalByte r.slot (advance (r.pos st) i) := by
    intro i hi
    simp only [ScanRegs.remainder] at hi
    simp only [ScanRegs.pos, advance_advance]
    exact h (r.consumed + i) (by omega)
  rw [sight, sight, hpar]
  split
  · rfl
  split
  · rfl
  next hc =>
    have hbyte := hpos 0 (Nat.sub_pos_of_lt (Nat.lt_of_not_le hc))
    rw [advance_zero, advance_zero, State.logicalByte, hpar] at hbyte
    rw [readBuf_congr hbyte]
    congr 1
    funext b
    split
    · rfl
    split
    · rfl
    next hr =>
      rw [readRange_congr (Nat.le_of_lt h3) hpar h2 fun i hi => hpos i (Nat.lt_of_lt_of_le hi (Nat.le_of_not_lt hr))]

theorem sight_of_same_slots (hp : st.par.wf = true) (hpar : st'.par = st.par := by rfl)
    (hs : st'.slot r.slot = st.slot r.slot := by rfl) : sight r st' = sight r st :=
  sight_congr hp hpar fun i _ => by
    simp only [State.logicalByte, State.bufByte, hpar, hs]

theorem classify_of_same_slots (hp : st.par.wf = true) (hpar : st'.par = st.par := by rfl)
    (hs : st'.slot r.slot = st.slot r.slot := by rfl) : classify r st' = classify r st := by
  rw [classify_eq, classify_eq, sight_of_same_slots hp hpar hs]

/-! ### A scan class by class. -/

theorem scanRegsNow_of_scanning (h : st.scanning s r) : scanRegsNow s st = r := by
  obtain ⟨-, -, -, -, -, hs | ⟨hs, -, rfl⟩⟩ := h <;> rw [scanRegsNow, hs] <;> rfl

/-- After a class that lets the scan go on, the next class works on the registers it leaves. -/
theorem scanning_more (hp : st.par.wf = true) (h : st.scanning s r) (ho : scanIter r st = .next (.more r' st')) :
    State.scanning { st' with scan := some r' } s r' := by
  obtain ⟨hf, hh, hv, hslot, hin, -⟩ := h
  obtain ⟨n, -, rfl, hn, sc, l, rfl, -⟩ := scanIter_more hp ho
  obtain ⟨-, hav⟩ := inside_iff.mp hin
  exact ⟨hf, hh, hv, hslot, inside_iff.mpr ⟨hn, hav⟩, .inl rfl⟩

/-- One class performed alone: the iteration, kept. -/
theorem scanByClasses_succ (h : st.scanning s r) (k : Nat) :
    scanByClasses (k + 1) s st = andThen (scanIter r st) fun o => andThen (keepClass o) fun t =>
      if t.scan.isSome then scanByClasses k s t else .next t := by
  rw [scanByClasses, scanRegsNow_of_scanning h, scanIter]
  cases hk : classify r st with
  | fault e => rfl
  | refused e => rfl
  | next c =>
    simp only [andThen_next, exec_classInstr, classAlone_of_classify h hk]
    cases performClass c r st <;> rfl

/-- Classes performed one after another leave what the loop leaves, the open scan closed. -/
theorem scanByClasses_eq (hp : st.par.wf = true) (h : st.scanning s r) (hq : st.consumer.prompt)
    (hk : r.available < r.consumed + k) :
    scanByClasses k s st = andThen (scanRun k r { st with scan := none }) ScanOut.keep := by
  induction k generalizing r st with
  | zero =>
    obtain ⟨-, -, -, -, hin, -⟩ := h
    obtain ⟨hle, -⟩ := inside_iff.mp hin
    omega
  | succ k ih =>
    have hsight : sight r { st with scan := none } = sight r st := sight_of_same_slots hp
    rw [scanByClasses_succ h, scanIter_eq hp, scanRun_succ (st := { st with scan := none }) hp, hsight]
    cases hv : sight r st with
    | fault e => rfl
    | refused e => rfl
    | next v =>
      have hreply : st.reply = true := reply_of_prompt hq
      have hmore : ∀ {r' : ScanRegs} {st' : State}, v.leaves r st = .more r' st' →
          r'.available < r'.consumed + k ∧ st'.par = st.par ∧ st'.consumer.prompt ∧ State.scanning { st' with scan := some r' } s r' := by
        intro r' st' hv'
        have ho := (scanIter_of_sight hp hv).trans (congrArg _ hv')
        obtain ⟨n, hn, rfl, -, ht⟩ := scanIter_more hp ho
        refine ⟨?_, scanTouched_par ht, scanTouched_prompt ht hq, scanning_more hp h ho⟩
        simp only [ScanRegs.consume]
        omega
      cases v with
      | idle | drain | defer => rfl
      | skip =>
        obtain ⟨hk', hp', hq', hs'⟩ := hmore rfl
        exact ih (st := { st with scan := some (r.consume 1) }) hp hs' hq' hk'
      | reject f =>
        obtain ⟨hk', hp', hq', hs'⟩ := hmore rfl
        exact ih (st := { st.withScratch f with scan := some (r.consume 1) }) hp hs' hq' hk'
      | accept f =>
        obtain ⟨hk', hp', hq', hs'⟩ := hmore (leaves_accept_of_reply hreply)
        simp only [andThen_next, leaves_accept_of_reply hreply,
          leaves_accept_of_reply (st := { st with scan := none }) hreply]
        exact ih (st := { st.delivered r.slot f with scan := some (r.consume st.par.frameSize) }) hp hs' hq' hk'

/-- Settles O37: the classes are the loop's iterations (`scanByClasses_eq`), from the entry on. -/
theorem scanIsItsClasses : Obligations.ScanIsItsClasses := by
  intro s st hp hready hv ha hq
  have ⟨_, hscan, _⟩ := hready
  have hsame : { st with scan := none } = st := by rw [← hscan]
  rw [scanByClasses_eq hp (scanning_scanEntry hready hv ha) hq (by simp only [scanEntry]; omega), hsame,
    exec_scan_eq hready hv, scanSlot_eq ha]

/-! ### A scan of the same bytes elsewhere in the buffer. -/

theorem scanned_nil (st : State) : st.scanned st.scratch [] = st := by
  rw [State.scanned, List.append_nil]
  rfl

theorem scanned_scanned (st : State) (sc sc' : List Host.Cell) (l l' : List PortEvent) :
    (st.scanned sc l).scanned sc' l' = st.scanned sc' (l ++ l') := by
  simp [State.scanned]

/-- The two states hold the same bytes and the same handle, and their consumers are prompt. -/
structure SameStream (s n : Nat) (st st' : State) : Prop where
  par : st'.par = st.par
  bytes : SameBytes s n st st'
  handle : (st'.slot s).ctx = (st.slot s).ctx
  prompt : st.consumer.prompt
  prompt' : st'.consumer.prompt

variable {n : Nat}

theorem SameStream.scanned (h : SameStream s n st st') (sc sc' : List Host.Cell) (l : List PortEvent) :
    SameStream s n (st.scanned sc l) (st'.scanned sc' l) :=
  ⟨h.par, h.bytes, h.handle, prompt_drop h.prompt _, prompt_drop h.prompt' _⟩

theorem SameStream.delivery (h : SameStream s n st st') (f : List Byte) : st'.delivery s f = st.delivery s f := by
  rw [State.delivery, State.delivery, h.par, h.handle]

/-- The two scans of the same stream send the same, return the same and move `extract` equally far. -/
def SameScan (s : Nat) (st st' : State) (o o' : Out ScanOut) : Prop :=
  ∃ n m l sc sc', o = .next (.done n (advExtract s m (st.scanned sc l))) ∧
    o' = .next (.done n (advExtract s m (st'.scanned sc' l)))

theorem sameScan_done (m n : Nat) :
    SameScan s st st' (.next (.done n (advExtract s m st))) (.next (.done n (advExtract s m st'))) :=
  ⟨n, m, [], st.scratch, st'.scratch, by rw [scanned_nil], by rw [scanned_nil]⟩

theorem SameScan.after {sc sc' : List Host.Cell} {l : List PortEvent} {o o' : Out ScanOut}
    (h : SameScan s (st.scanned sc l) (st'.scanned sc' l) o o') : SameScan s st st' o o' := by
  obtain ⟨n, m, l', sc1, sc2, rfl, rfl⟩ := h
  exact ⟨n, m, l ++ l', sc1, sc2, by rw [scanned_scanned], by rw [scanned_scanned]⟩

theorem scanRun_sameStream (hp : st.par.wf = true) (h : SameStream r.slot r.available st st') {o : ScanOut}
    (ho : scanRun k r st = .next o) : SameScan r.slot st st' (scanRun k r st) (scanRun k r st') := by
  induction k generalizing r st st' o with
  | zero =>
    rw [scanRun, scanRun, h.par]
    exact sameScan_done _ _
  | succ k ih =>
    rw [scanRun_succ hp] at ho ⊢
    rw [scanRun_succ (h.par.symm ▸ hp), sight_congr hp h.par h.bytes]
    obtain ⟨v, hv, ho⟩ := andThen_eq_next.mp ho
    simp only [hv, andThen_next]
    cases v with
    | idle =>
      simp only [Sight.leaves, ClassOut.goOn, h.par]
      simpa using sameScan_done (s := r.slot) (st := st) (st' := st') 0 st.par.frameSize
    | drain =>
      simp only [Sight.leaves, ClassOut.goOn, h.par]
      exact sameScan_done _ _
    | defer =>
      simp only [Sight.leaves, ClassOut.goOn, h.par]
      exact sameScan_done _ _
    | skip => exact ih hp h ho
    | reject f =>
      have hst : ∀ x : State, x.withScratch f = x.scanned (memWriteAll x.scratch 0 f) [] := fun x => by
        rw [State.withScratch, State.scanned, List.append_nil]
        rfl
      simp only [Sight.leaves, ClassOut.goOn, hst] at ho ⊢
      exact (ih (st := st.scanned _ []) (r := r.consume 1) hp (h.scanned _ _ []) ho).after
    | accept f =>
      have hreply : st.reply = true := reply_of_prompt h.prompt
      have hreply' : st'.reply = true := reply_of_prompt h.prompt'
      have hst : ∀ x : State, x.delivered r.slot f = x.scanned (memWriteAll x.scratch 0 f) [x.delivery r.slot f] :=
        fun x => delivered_eq x r.slot f
      simp only [Sight.leaves, hreply, hreply', if_true, ClassOut.goOn, hst, h.delivery, h.par] at ho ⊢
      exact (ih (st := st.scanned _ _) (r := r.consume st.par.frameSize) hp (h.scanned _ _ _) ho).after

/-- Settles O38: the two scans see the same bytes at every iteration (`scanRun_sameStream`). -/
theorem scanIgnoresPhysicalAlignment : Obligations.ScanIgnoresPhysicalAlignment := by
  intro s st1 st2 t1 hp hpar hready1 hready2 hq1 hq2 hv2 havail hctx hbytes h1
  have hv1 := valid_of_exec_scan h1
  rw [exec_scan_eq hready1 hv1] at h1
  obtain ⟨o, ho, hkeep⟩ := andThen_eq_next.mp h1
  obtain ⟨ha, -⟩ := scanSlot_cases hp ho
  have hentry : scanEntry s st2 = scanEntry s st1 := by rw [scanEntry, scanEntry, havail]
  rw [scanSlot_eq ha] at ho
  obtain ⟨n, m, l, sc, sc', e1, e2⟩ := scanRun_sameStream hp
    (st' := st2) (r := scanEntry s st1) ⟨hpar, hbytes, hctx, hq1, hq2⟩ ho
  rw [e1] at ho
  cases ho
  cases hkeep
  have hs1 : s < (st1.scanned sc l).nSlots := lt_of_valid hv1
  have hs2 : s < (st2.scanned sc' l).nSlots := lt_of_valid hv2
  refine ⟨(advExtract s m (st2.scanned sc' l)).setResult (.next n), l, ?_, rfl, rfl, rfl, ?_⟩
  · rw [exec_scan_eq hready2 hv2, scanSlot_eq (by rw [havail, hpar]; exact ha), hentry, havail, e2]
    rfl
  · change ((advExtract s m (st2.scanned sc' l)).slot s).extract - _ = ((advExtract s m (st1.scanned sc l)).slot s).extract - _
    rw [advExtract_slot_self hs1, advExtract_slot_self hs2]
    simp [advance]

end Sys2Proof.Machine
end

section
/-! Resynchronisation and the size of a request (42_scanner.md R155): a scan over garbage comes to the frame behind it, and a scan that
returns a short request leaves `extract` at the header it deferred. -/

namespace Sys2Proof.Machine

variable {st : State} {s k : Nat} {r : ScanRegs} {g f : List Byte}

/-! ### One iteration of the loop. -/

theorem scanRun_of_more {r' : ScanRegs} {x : State} (h : scanIter r st = .next (.more r' x)) :
    scanRun (k + 1) r st = scanRun k r' x := by
  rw [scanRun, h]
  rfl

theorem scanRun_of_done {n : Nat} {x : State} (h : scanIter r st = .next (.done n x)) :
    scanRun (k + 1) r st = .next (.done n x) := by
  rw [scanRun, h]
  rfl

/-! ### A frame behind garbage. -/

/-- From `extract` on slot `s` holds garbage `g` in which no candidate is valid, then the valid frame `f`. -/
structure State.Garbled (st : State) (s : Nat) (g f : List Byte) : Prop where
  frame : st.validFrame f
  bytes : st.holds s (st.slot s).extract (g ++ f)
  noCandidate : ∀ j < g.length, (g ++ f)[j]? = some st.par.header →
    frameValid st.par (((g ++ f).drop j).take st.par.frameSize) = false

theorem State.Garbled.scanned (h : st.Garbled s g f) (sc : List Host.Cell) (l : List PortEvent) :
    (st.scanned sc l).Garbled s g f := ⟨h.frame, h.bytes, h.noCandidate⟩

theorem holds_drop {c : Cursor} {l : List Byte} (h : st.holds s c l) (j : Nat) : st.holds s (advance c j) (l.drop j) := by
  intro i hi
  rw [List.length_drop] at hi
  rw [advance_advance, List.getElem?_drop]
  exact h (j + i) (by omega)

theorem holds_take {c : Cursor} {l : List Byte} (h : st.holds s c l) (m : Nat) : st.holds s c (l.take m) := by
  intro i hi
  rw [List.length_take] at hi
  rw [List.getElem?_take_of_lt (by omega)]
  exact h i (by omega)

/-- In garbage an iteration skips a byte or rejects a candidate: it consumes one byte and sends nothing. -/
theorem scanIter_garbage (hp : st.par.wf = true) (h : st.Garbled r.slot g f)
    (ha : r.available = g.length + st.par.frameSize) (hj : r.consumed < g.length) :
    ∃ sc, scanIter r st = .next (.more (r.consume 1) (st.scanned sc [])) := by
  obtain ⟨hl, -, -⟩ := frameValid_of_isFrame h.frame
  have hlen : (g ++ f).length = g.length + st.par.frameSize := by rw [List.length_append, hl]
  have hc : r.consumed < r.available := by omega
  have hbyte := h.bytes r.consumed (by omega)
  rw [List.getElem?_eq_getElem (by omega)] at hbyte
  by_cases hhead : (g ++ f)[r.consumed] = st.par.header
  · have hholds := holds_take (holds_drop h.bytes r.consumed) st.par.frameSize
    have hrem : st.par.frameSize ≤ r.remainder := by simp only [ScanRegs.remainder]; omega
    have hcl : (((g ++ f).drop r.consumed).take st.par.frameSize).length = st.par.frameSize := by
      rw [List.length_take, List.length_drop]
      omega
    have hget : (g ++ f)[r.consumed]? = some st.par.header := by rw [List.getElem?_eq_getElem (by omega), hhead]
    have h0 : (((g ++ f).drop r.consumed).take st.par.frameSize)[0]? = some st.par.header := by
      have hpos := (wf_iff.mp hp).1
      rw [List.getElem?_take_of_lt (by omega), List.getElem?_drop, Nat.add_zero, hget]
    refine ⟨memWriteAll st.scratch 0 (((g ++ f).drop r.consumed).take st.par.frameSize), ?_⟩
    rw [scanIter, classify_of_holds hp hcl h0 hrem hholds, h.noCandidate _ hj hget, if_neg Bool.false_ne_true, andThen_next,
      performClass, scnReject_of_holds hp hcl hholds, State.withScratch, State.scanned, List.append_nil]
    rfl
  · refine ⟨st.scratch, ?_⟩
    rw [scanIter, classify_of_byte hc hbyte, if_pos hhead, andThen_next, scanned_nil]
    rfl

/-- At the frame the scan accepts, and then drains. -/
theorem scanRun_frame (hp : st.par.wf = true) (h : st.Garbled r.slot g f) (hq : st.consumer.prompt)
    (ha : r.available = g.length + st.par.frameSize) (hc : r.consumed = g.length) :
    scanRun (k + 2) r st =
      .next (.done st.par.frameSize (advExtract r.slot r.available (st.delivered r.slot f))) := by
  obtain ⟨hl, h0, hv⟩ := frameValid_of_isFrame h.frame
  have hpos := (wf_iff.mp hp).1
  have hholds : st.holds r.slot (r.pos st) f := by
    have := holds_drop h.bytes r.consumed
    rwa [hc, List.drop_left, ← hc] at this
  have haccept : scanIter r st = .next (.more (r.consume st.par.frameSize) (st.delivered r.slot f)) := by
    rw [scanIter, classify_of_holds hp hl h0 (by simp only [ScanRegs.remainder]; omega) hholds, hv, if_pos rfl, andThen_next,
      performClass, scnAccept_of_holds hp hl hholds, State.reply, reply_of_prompt hq, if_pos rfl]
  have hall : (r.consume st.par.frameSize).consumed = r.available := by simp only [ScanRegs.consume]; omega
  have hdrain : classify (r.consume st.par.frameSize) (st.delivered r.slot f) = .next .drain := by
    have hne : ¬ r.available = 0 := by omega
    rw [classify, hall]
    simp [ScanRegs.consume, hne]
  rw [scanRun_of_more haccept, scanRun_of_done (n := st.par.frameSize)]
  rw [scanIter, hdrain, andThen_next, performClass, scnDrain, hall]
  rfl

/-- From any byte of the garbage on the scan comes to the frame, delivers it and consumes everything. -/
theorem scanRun_garbled (hp : st.par.wf = true) (h : st.Garbled r.slot g f) (hq : st.consumer.prompt)
    (ha : r.available = g.length + st.par.frameSize) (hc : r.consumed ≤ g.length) (hk : r.available < r.consumed + k) :
    ∃ sc, scanRun k r st =
      .next (.done st.par.frameSize (advExtract r.slot r.available (st.scanned sc [st.delivery r.slot f]))) := by
  have hpos := (wf_iff.mp hp).1
  induction k generalizing r st with
  | zero => omega
  | succ k ih =>
    rcases Nat.eq_or_lt_of_le hc with hc | hc
    · obtain ⟨k, rfl⟩ : ∃ j, k = j + 1 := ⟨k - 1, by omega⟩
      exact ⟨_, scanRun_frame hp h hq ha hc⟩
    · obtain ⟨sc, hiter⟩ := scanIter_garbage hp h ha hc
      obtain ⟨sc', hrun⟩ := ih (st := st.scanned sc []) (r := r.consume 1) hp (h.scanned sc []) hq ha hc
        (by simp only [ScanRegs.consume]; omega) hpos
      rw [scanRun_of_more hiter, hrun, scanned_scanned]
      exact ⟨sc', rfl⟩

theorem advance_avail (st : State) (s : Nat) : advance (st.slot s).extract (st.avail s).toNat = (st.slot s).insert := by
  rw [advance, State.avail, BitVec.ofNat_toNat, BitVec.setWidth_eq, BitVec.add_comm, BitVec.sub_add_cancel]

/-- Settles O39: the whole scan is `scanRun_garbled` from its entry, which consumes up to `insert`. -/
theorem scanFindsTheFrameAfterGarbage : Obligations.ScanFindsTheFrameAfterGarbage := by
  intro s g f st hp hready hv hq hf ha hcap hholds hno
  have ⟨_, _, hheld⟩ := hready
  obtain ⟨sc, hrun⟩ := scanRun_garbled (k := (st.avail s).toNat + 1) (r := scanEntry s st) hp ⟨hf, hholds, hno⟩ hq ha
    (Nat.zero_le _) (by simp only [scanEntry]; omega)
  refine ⟨(advExtract s (st.avail s).toNat (st.scanned sc [st.delivery s f])).setResult (.next st.par.frameSize),
    ?_, rfl, rfl, ?_, hheld⟩
  · rw [exec_scan_eq hready hv, scanSlot_eq (ha.symm ▸ hcap), hrun]
    rfl
  · rw [setResult_slot, advExtract_slot_self (by exact lt_of_valid hv)]
    exact advance_avail st s

/-! ### A short request. -/

theorem logicalByte_advExtract (n u : Nat) (c : Cursor) : (advExtract s n st).logicalByte u c = st.logicalByte u c := by
  have hbuf : ((advExtract s n st).slot u).buf = (st.slot u).buf := (ordinary_advExtract s n).buf u
  rw [State.logicalByte, State.bufByte, hbuf]
  rfl

/-- A scan that asks for less than a frame has deferred, and stands at the header. -/
theorem header_at_extract {n : Nat} {x : State} (hp : st.par.wf = true) (hs : r.slot < st.nSlots)
    (h : scanRun k r st = .next (.done n x)) (hn : n < st.par.frameSize) :
    x.logicalByte r.slot (x.slot r.slot).extract = some st.par.header := by
  induction k generalizing r st with
  | zero =>
    cases h
    omega
  | succ k ih =>
    obtain ⟨o, ho, hk⟩ := andThen_eq_next.mp h
    cases o with
    | more r' st' =>
      obtain ⟨m, -, rfl, -, sc, l, rfl, -⟩ := scanIter_more hp ho
      exact ih (r := r.consume m) (st := st.scanned sc l) hp hs hk hn
    | held r' st' => cases hk
    | done m y =>
      cases hk
      rcases scanIter_cases hp ho with ⟨-, -, e⟩ | ⟨-, -, -, e⟩ | ⟨-, -, -, e⟩ | ⟨-, -, -, hb, e⟩ | ⟨f, -, -, -, -, e⟩ |
        ⟨f, -, -, -, -, -, -, e⟩
      · cases e
        omega
      · cases e
        omega
      · cases e
      · cases e
        rw [logicalByte_advExtract, advExtract_slot_self hs]
        exact hb
      · split at e <;> cases e
      · cases e

/-- PUSH with room appends its bytes: they are available too, and the byte at `extract`, if there was one, stays. -/
theorem push_appends {bytes : List Byte} (hp : st.par.wf = true) (hv : (st.slot s).valid = true)
    (hpos : 1 ≤ (st.avail s).toNat) (hroom : (st.avail s).toNat + bytes.length ≤ st.par.capacity) :
    ∃ u, exec (.push s bytes) st = .next u ∧ (u.avail s).toNat = (st.avail s).toNat + bytes.length ∧
      u.logicalByte s (u.slot s).extract = st.logicalByte s (st.slot s).extract := by
  obtain ⟨-, -, hlog⟩ := wf_iff.mp hp
  have hcap := capacity_lt hlog
  obtain ⟨hpush, -⟩ := pushDelivers s bytes st hp
  obtain ⟨u, hu, -, hins, hkept, hslot, -, hframe⟩ := hpush hv hroom
  have hext : (u.slot s).extract = (st.slot s).extract := (congrArg Slot.extract hslot :)
  have hpar : u.par = st.par := (congrArg State.par hframe :)
  refine ⟨u, hu, ?_, ?_⟩
  · rw [← avail_advInsert (lt_of_valid hv) (by omega), State.avail, State.avail, hins, hext,
      advInsert_slot_self (lt_of_valid hv)]
  · rw [State.logicalByte, State.logicalByte, hext, hpar]
    refine hkept s _ (.inr fun i hi => ?_)
    rw [← advance_avail, advance_advance]
    simpa using phys_advance_ne (Nat.le_of_lt hlog) (st.slot s).extract (i := 0) (j := (st.avail s).toNat + i)
      (by omega) (by omega)

/-- Settles O40: `extract` stands at the header (`header_at_extract`), request and rest make up one frame (`scanSlot_cases`), and
PUSH appends to the rest (`push_appends`). -/
theorem requestSizingIsExact : Obligations.RequestSizingIsExact := by
  intro s st t n bytes hp hscan hheld hresult hn hlen
  have hv := valid_of_exec_scan hscan
  have hs := lt_of_valid hv
  obtain ⟨-, hcap, -⟩ := wf_iff.mp hp
  obtain ⟨n', x, hrun, rfl⟩ := execScan_returns hscan hheld
  obtain rfl : n' = n := OpResult.next.inj hresult
  have hhead := header_at_extract hp (by exact hs) (require_eq_next.mp hrun).2 hn
  obtain ⟨-, ⟨_, m, y, ⟨sc, l, rfl, -⟩, e, -, -, hm, hsum⟩ | ⟨_, _, -, e, -⟩⟩ := scanSlot_cases hp hrun
  · cases e
    have hsum : (((advExtract s m (st.scanned sc l)).setResult (.next n')).avail s).toNat + n' = st.par.frameSize := by
      have havail := avail_advExtract (st := st.scanned sc l) hs hm
      exact havail.symm ▸ hsum
    have hvx : ((advExtract s m (st.scanned sc l)).slot s).valid = true := by
      rw [advExtract_slot_self (by exact hs)]
      exact hv
    obtain ⟨u, hu, hua, hub⟩ := push_appends (st := (advExtract s m (st.scanned sc l)).setResult (.next n')) (bytes := bytes)
      hp hvx (by omega) (by rw [hlen, hsum]; exact hcap)
    exact ⟨u, hu, by rw [hua, hlen, hsum], hub.trans hhead⟩
  · cases e

end Sys2Proof.Machine
end

section
/-! The wait for the consumer (42_scanner.md R152): an operation that waits and then goes on ends as it does where the consumer has
returned at once. Every operation that can wait is a scan with something after it (SCAN, the service, the handler's run), and
what is said of the loop of the scan (`scanRun_answered`) carries over to each. -/

namespace Sys2Proof.Machine

variable {st t x : State} {s k c : Nat} {r : ScanRegs} {pre : List Bool} {q : Consumer}

/-! ### The consumer. -/

/-- The consumer returns at once from as many frames as `pre` lists, and not from the next. -/
structure Consumer.Balks (d : Consumer) (pre : List Bool) : Prop where
  yes : ∀ b ∈ pre, b = true
  no : (∃ later, d.replies = pre ++ false :: later) ∨ (d.replies = pre ∧ d.thereafter = false)

/-- The consumer that gives the answers `pre`, returns at once once more, and then is `q`. -/
def Consumer.after (pre : List Bool) (q : Consumer) : Consumer :=
  { replies := pre ++ true :: q.replies, thereafter := q.thereafter }

theorem Consumer.Balks.reply_nil {d : Consumer} (h : d.Balks []) : d.reply = false := by
  obtain ⟨-, ⟨later, e⟩ | ⟨e, e'⟩⟩ := h
  · rw [Consumer.reply, e]
    rfl
  · rw [Consumer.reply, e]
    exact e'

theorem Consumer.Balks.of_cons {d : Consumer} {b : Bool} (h : d.Balks (b :: pre)) :
    b = true ∧ d.reply = true ∧ (d.drop 1).Balks pre := by
  obtain ⟨hyes, hno⟩ := h
  obtain ⟨rfl, hrest⟩ := List.forall_mem_cons.mp hyes
  refine ⟨rfl, ?_, hrest, ?_⟩
  · rcases hno with ⟨later, e⟩ | ⟨e, -⟩ <;> rw [Consumer.reply, e] <;> rfl
  · rcases hno with ⟨later, e⟩ | ⟨e, e'⟩
    · exact .inl ⟨later, by rw [Consumer.drop, e]; rfl⟩
    · exact .inr ⟨by rw [Consumer.drop, e]; rfl, e'⟩

/-- The state whose consumer returns where that of `st` balks, and then is `q`. -/
def State.answered (st : State) (pre : List Bool) (q : Consumer) : State := { st with consumer := Consumer.after pre q }

/-! ### The loop of the scan. -/

/-- What the loop answers to the consumer that returns, `o` being what it answers to the one that balks: where `o` waits, the scan as
it goes on. -/
def ScanOut.Answered (q : Consumer) (a : Out ScanOut) : ScanOut → Prop
  | .done n x => ∃ pre, x.consumer.Balks pre ∧ a = .next (.done n (x.answered pre q))
  | .held r x => a = scanAgain r { x with consumer := q }

theorem scanRun_answered (hp : st.par.wf = true) (hc : st.consumer.Balks pre) (hk : r.available < r.consumed + k)
    {o : ScanOut} (ho : scanRun k r st = .next o) : o.Answered q (scanRun k r (st.answered pre q)) := by
  induction k generalizing r st pre with
  | zero =>
    cases ho
    exact ⟨pre, hc, rfl⟩
  | succ k ih =>
    have hsight : sight r (st.answered pre q) = sight r st := sight_of_same_slots hp
    rw [scanRun_succ hp] at ho
    rw [scanRun_succ (st := st.answered pre q) hp, hsight]
    obtain ⟨v, hv, ho⟩ := andThen_eq_next.mp ho
    rw [hv, andThen_next]
    cases v with
    | idle | drain | defer =>
      cases ho
      exact ⟨pre, hc, rfl⟩
    | skip => exact ih (r := r.consume 1) hp hc (by simp only [ScanRegs.consume]; omega) ho
    | reject f =>
      exact ih (st := st.withScratch f) (r := r.consume 1) hp hc (by simp only [ScanRegs.consume]; omega) ho
    | accept f =>
      have hanswer : (st.answered pre q).reply = true := by
        cases pre with
        | nil => rfl
        | cons b pre => exact hc.of_cons.1
      have hmore : (Sight.accept f).leaves r (st.answered pre q) =
          .more (r.consume st.par.frameSize) ((st.answered pre q).delivered r.slot f) := leaves_accept_of_reply hanswer
      have hframe : r.consumed + st.par.frameSize ≤ r.available ∧ 2 ≤ st.par.frameSize := by
        have hiter := scanIter_of_sight (st := st.answered pre q) hp (hsight.trans hv)
        rw [hmore] at hiter
        obtain ⟨n, -, e, hn, -⟩ := scanIter_more (st := st.answered pre q) hp hiter
        have : r.consumed + st.par.frameSize = r.consumed + n := congrArg ScanRegs.consumed e
        exact ⟨by omega, (wf_iff.mp hp).1⟩
      rw [hmore]
      cases pre with
      | nil =>
        rw [leaves_accept_of_no_reply hc.reply_nil] at ho
        cases ho
        obtain ⟨k, rfl⟩ : ∃ j, k = j + 1 := ⟨k - 1, by omega⟩
        have hpar : (st.delivered r.slot f).par = st.par := rfl
        exact scanRun_bound hp (by simp only [ScanRegs.consume]; omega) (by simp only [ScanRegs.consume, hpar]; omega)
      | cons b pre =>
        obtain ⟨rfl, hreply, hc⟩ := hc.of_cons
        rw [leaves_accept_of_reply hreply] at ho
        exact ih (st := st.delivered r.slot f) (r := r.consume st.par.frameSize) hp hc
          (by simp only [ScanRegs.consume]; omega) ho

/-! ### A scan with something after it. -/

/-- Where `a` completes in a wait, `b` is what it goes on to once the consumer has returned and is `q`. -/
def Catches (q : Consumer) (a b : Out State) : Prop :=
  ∀ t, a = .next t → t.held ≠ none → resume { t with consumer := q } = b

theorem catches_of_free {a b : Out State} (h : Ensures (fun t => t.held = none) a) : Catches q a b :=
  fun t ht hne => absurd (h t ht) hne

theorem catches_require {ok : Bool} {why : Refusal} {a b : Out State} (h : Catches q a b) :
    Catches q (require ok why a) (require ok why b) := fun t ht hne => by
  obtain ⟨rfl, ha⟩ := require_eq_next.mp ht
  exact h t ha hne

theorem catches_andThen {α : Type} {o : Out α} {j j' : α → Out State} (h : ∀ a, o = .next a → Catches q (j a) (j' a)) :
    Catches q (andThen o j) (andThen o j') := fun t ht hne => by
  obtain ⟨a, rfl, ha⟩ := andThen_eq_next.mp ht
  exact h a rfl t ha hne

/-- What comes after a scan of slot `s`: a scan that waits is kept with `h`, from which it resumes and is followed by the same. -/
structure Follows (s : Nat) (h : ScanRegs → Held) (j : ScanOut → Out State) : Prop where
  held : ∀ (r : ScanRegs) (x : State), j (.held r x) = .next { x with held := some (h r) }
  resume : ∀ (r : ScanRegs) (x : State), r.slot = s →
    resume { x with held := some (h r) } = andThen (scanAgain r { x with held := none }) j

variable {h : ScanRegs → Held} {j : ScanOut → Out State}

theorem catches_scanRun (hj : Follows r.slot h j) (hp : st.par.wf = true) (hh : st.held = none)
    (hc : st.consumer.Balks pre) (hk : r.available < r.consumed + k)
    (hdone : ∀ n x pre, scanMoved r.slot st x → x.consumer.Balks pre →
      Catches q (j (.done n x)) (j (.done n (x.answered pre q)))) :
    Catches q (andThen (scanRun k r st) j) (andThen (scanRun k r (st.answered pre q)) j) := by
  intro t ht hne
  obtain ⟨o, ho, ht⟩ := andThen_eq_next.mp ht
  obtain ⟨hmoved, hheld⟩ := scanRun_moves ho
  have ha := scanRun_answered (q := q) hp hc hk ho
  cases o with
  | done n x =>
    obtain ⟨pre', hc', e⟩ := ha
    rw [e]
    exact hdone n x pre' hmoved hc' t ht hne
  | held r' x =>
    obtain ⟨hslot, sc, l, q', e⟩ := hheld r' x rfl
    have hx : x.held = none := by rw [e]; exact hh
    have hfree : { x with consumer := q, held := none } = { x with consumer := q } := by rw [← hx]
    rw [hj.held] at ht
    cases ht
    rw [ha]
    exact (hj.resume r' { x with consumer := q } hslot).trans (congrArg (fun y => andThen (scanAgain r' y) j) hfree)

/-- A scan of a slot from its entry. -/
theorem catches_scanSlot (hj : Follows s h j) (hp : st.par.wf = true) (hh : st.held = none) (hc : st.consumer.Balks pre)
    (hdone : ∀ n x pre, scanMoved s st x → x.consumer.Balks pre →
      Catches q (j (.done n x)) (j (.done n (x.answered pre q)))) :
    Catches q (andThen (scanSlot s st) j) (andThen (scanSlot s (st.answered pre q)) j) := by
  intro t ht
  obtain ⟨o, ho, -⟩ := andThen_eq_next.mp ht
  obtain ⟨ha, -⟩ := scanSlot_cases hp ho
  rw [scanSlot_eq ha] at ht
  rw [scanSlot_eq (st := st.answered pre q) ha]
  exact catches_scanRun hj hp hh hc (by simp only [scanEntry]; omega) hdone t ht

/-! ### What comes after a scan. -/

/-- The rest of a service of slot `s` performed alone (43_rearm.md R161). -/
def ScanOut.keepSvc (s : Nat) : ScanOut → Out State
  | .done n t => .next (serviceEnd s n t)
  | .held r t => .next { t with held := some (.svc r) }

/-- The rest of a run of the handler that dispatches channel `c`, whose slot is `s` (44_demux.md R187). -/
def ScanOut.keepIrq (pending c s : Nat) : ScanOut → Out State
  | .done n t => irqRun (t.channelsAbove c) (clearBit pending c) (serviceEnd s n t)
  | .held r t => .next { t with held := some (.irq pending c r) }

theorem follows_keep (s : Nat) : Follows s .scan ScanOut.keep where
  held _ _ := rfl
  resume r x _ := by
    change andThen (scanAgain r { x with held := none }) _ = _
    exact congrArg _ (funext fun o => by cases o <;> rfl)

theorem follows_keepSvc (s : Nat) : Follows s .svc (ScanOut.keepSvc s) where
  held _ _ := rfl
  resume r x hr := by
    subst hr
    change andThen (scanAgain r { x with held := none }) _ = _
    exact congrArg _ (funext fun o => by cases o <;> rfl)

theorem follows_keepIrq (pending c s : Nat) : Follows s (.irq pending c) (ScanOut.keepIrq pending c s) where
  held _ _ := rfl
  resume r x hr := by
    subst hr
    change andThen (scanAgain r { x with held := none }) _ = _
    exact congrArg _ (funext fun o => by cases o <;> rfl)

theorem execSvc_eq (s : Nat) (st : State) : execSvc s st =
    require (!st.fatal) .halted (require (!st.busy) .sequencerBusy (require (st.slot s).valid .slotNotValid
      (require (!(st.chan (st.slot s).chan).armed) .channelArmed
        (andThen (scanSlot s (advInsert s (st.slot s).lastReq st)) (ScanOut.keepSvc s))))) := by
  rw [execSvc, service]
  congr 4
  cases scanSlot s (advInsert s (st.slot s).lastReq st) with
  | next o => cases o <;> rfl
  | fault e => rfl
  | refused e => rfl

/-- DISPATCH past its guards. -/
def State.dispatched (st : State) (c : Nat) : Out State :=
  (st.lookup c).elim (.next (raiseFatal unmatchedIrq c st)) fun s =>
    andThen (scanSlot s (advInsert s (st.slot s).lastReq st)) (ScanOut.keepSvc s)

theorem execDispatch_eq (c : Nat) (st : State) : execDispatch c st =
    require (decide (st.phase = .run)) .irqNotEnabled (require (!st.busy) .sequencerBusy
      (require (st.isChan c) .channelOutOfRange (require (bitSet st.ints c) .bitNotPending (st.dispatched c)))) := by
  rw [execDispatch, dispatchChan, State.dispatched]
  congr 4
  cases st.lookup c with
  | none => rfl
  | some s =>
    simp only [service, Option.elim_some]
    cases scanSlot s (advInsert s (st.slot s).lastReq st) with
    | next o => cases o <;> rfl
    | fault e => rfl
    | refused e => rfl

/-! ### The handler's run. -/

/-- Of channels in ascending order those behind `c` are the channels above it. -/
theorem tail_eq_channelsAbove {a : Nat} {cs : List Nat} (hcs : c :: cs = st.channels.filter (a ≤ ·)) :
    cs = st.channelsAbove c := by
  have hsorted : (c :: cs).Pairwise (· < ·) := by
    rw [hcs]
    exact List.Pairwise.filter _ List.pairwise_lt_range
  obtain ⟨habove, -⟩ := List.pairwise_cons.mp hsorted
  have ha : a ≤ c := by
    have hmem : c ∈ st.channels.filter (a ≤ ·) := hcs ▸ List.mem_cons_self
    simpa using (List.mem_filter.mp hmem).2
  calc cs = (c :: cs).filter (c < ·) := by
        rw [List.filter_cons_of_neg (by simp), List.filter_eq_self.mpr fun d hd => decide_eq_true (habove d hd)]
    _ = st.channelsAbove c := by
        rw [hcs, List.filter_filter, State.channelsAbove]
        refine List.filter_congr fun d _ => ?_
        simp only [Bool.and_eq_left_iff_imp, decide_eq_true_eq]
        omega

/-- A pending bit that a slot owns: the scan of that slot, and what comes after it. -/
theorem irqRun_cons {a pending : Nat} {cs : List Nat} (hcs : c :: cs = st.channels.filter (a ≤ ·))
    (hb : bitSet pending c = true) (hl : st.lookup c = some s) : irqRun (c :: cs) pending st =
      andThen (scanSlot s (advInsert s (st.slot s).lastReq st)) (ScanOut.keepIrq pending c s) := by
  rw [irqRun, if_pos hb, dispatchChan, hl]
  simp only [service]
  cases ho : scanSlot s (advInsert s (st.slot s).lastReq st) with
  | next o =>
    cases o with
    | done n x =>
      have hn := (scanSlot_keeps s _ ho).1.nChannels
      simp only [andThen_next, ScanOut.keepIrq]
      rw [tail_eq_channelsAbove hcs, State.channelsAbove, State.channels, State.channelsAbove, State.channels, hn]
      rfl
    | held r x => rfl
  | fault e => rfl
  | refused e => rfl

theorem serviceEnd_held (s n : Nat) (st : State) : (serviceEnd s n st).held = st.held := by rw [serviceEnd_eq]; rfl

theorem serviceEnd_consumer (s n : Nat) (st : State) : (serviceEnd s n st).consumer = st.consumer := by
  rw [serviceEnd_eq]
  rfl

theorem serviceEnd_channels (s n : Nat) (st : State) : (serviceEnd s n st).channels = st.channels := by
  rw [State.channels, State.channels, serviceEnd_nChannels]

theorem held_of_scanMoved (h : scanMoved s st x) : x.held = st.held := by
  obtain ⟨sc, l, q', m, rfl⟩ := h
  rfl

theorem raiseFatal_held (code : BitVec 2) (c : Nat) (st : State) : (raiseFatal code c st).held = none := by
  unfold raiseFatal
  split <;> rfl

/-- The handler's run over ascending channels. -/
theorem catches_irqRun {a pending : Nat} {cs : List Nat} (hcs : cs = st.channels.filter (a ≤ ·)) (hp : st.par.wf = true)
    (hh : st.held = none) (hc : st.consumer.Balks pre) :
    Catches q (irqRun cs pending st) (irqRun cs pending (st.answered pre q)) := by
  induction cs generalizing st pre a pending with
  | nil => exact catches_of_free (ensures_next hh)
  | cons c cs ih =>
    have habove := tail_eq_channelsAbove hcs
    cases hb : bitSet pending c with
    | false =>
      rw [irqRun, irqRun, hb, if_neg Bool.false_ne_true, if_neg Bool.false_ne_true]
      exact ih habove hp hh hc
    | true =>
      cases hl : st.lookup c with
      | none =>
        have hfatal : irqRun (c :: cs) pending st = .next (raiseFatal unmatchedIrq c st) := by
          rw [irqRun, if_pos hb, dispatchChan, hl]
          rfl
        rw [hfatal]
        exact catches_of_free (ensures_next (raiseFatal_held _ c st))
      | some s =>
        rw [irqRun_cons hcs hb hl, irqRun_cons (st := st.answered pre q) hcs hb hl]
        refine catches_scanSlot (st := advInsert s (st.slot s).lastReq st) (follows_keepIrq pending c s) hp hh hc
          fun n x pre' hmoved hc' => ?_
        have hshape : KeepsShape st x := (keepsShape_advInsert s _).trans (keepsShape_of_scanMoved hmoved)
        have hheld : x.held = none := (held_of_scanMoved hmoved).trans hh
        have hcs' : cs = x.channelsAbove c := by
          rw [habove, State.channelsAbove, State.channels, State.channelsAbove, State.channels, hshape.nChannels]
        have hend : (serviceEnd s n x).par = st.par := (serviceEnd_par s n).trans hshape.par
        simp only [ScanOut.keepIrq]
        rw [show (x.answered pre' q).channelsAbove c = x.channelsAbove c from rfl, ← hcs']
        refine ih (st := serviceEnd s n x) (a := c + 1) ?_ (hend ▸ hp) ((serviceEnd_held s n x).trans hheld)
          ((serviceEnd_consumer s n x).symm ▸ hc')
        rw [hcs', serviceEnd_channels]
        rfl

/-! ### The other operations that can wait. -/

/-- What an iteration leaves waits where it is ACCEPT and the consumer does not return. -/
theorem catches_keepClass (hh : st.held = none) (hc : st.consumer.Balks pre) (v : Sight) :
    Catches q (keepClass (v.leaves r st)) (keepClass (v.leaves r (st.answered pre q))) := by
  cases v with
  | idle | drain | skip | defer | reject f => exact catches_of_free (ensures_next hh)
  | accept f =>
    cases pre with
    | nil =>
      rw [leaves_accept_of_no_reply hc.reply_nil]
      rintro _ ⟨⟩ -
      exact congrArg (fun w => Host.Outcome.next
        { st.delivered r.slot f with scan := some (r.consume st.par.frameSize), consumer := q, held := w }) hh.symm
    | cons b pre =>
      obtain ⟨rfl, hreply, -⟩ := hc.of_cons
      rw [leaves_accept_of_reply hreply]
      exact catches_of_free (ensures_next hh)

/-- The class taken, performed and kept. -/
theorem catches_performAndKeep {cls : ScanClass} (hp : st.par.wf = true) (hh : st.held = none)
    (hc : st.consumer.Balks pre) (hk : classify r st = .next cls) :
    Catches q (andThen (performClass cls r st) keepClass)
      (andThen (performClass cls r (st.answered pre q)) keepClass) := by
  have hiter : ∀ x : State, classify r x = .next cls → performClass cls r x = scanIter r x := fun x hx => by
    rw [scanIter, hx, andThen_next]
  have hk' : classify r (st.answered pre q) = .next cls := (classify_of_same_slots hp).trans hk
  have hsight : sight r (st.answered pre q) = sight r st := sight_of_same_slots hp
  rw [hiter st hk, hiter _ hk', scanIter_eq hp, scanIter_eq (st := st.answered pre q) hp, hsight]
  cases sight r st with
  | next v => exact catches_keepClass hh hc v
  | fault e => exact catches_of_free nofun
  | refused e => exact catches_of_free nofun

theorem catches_classAlone (cls : ScanClass) (s : Nat) (hp : st.par.wf = true) (hh : st.held = none)
    (hc : st.consumer.Balks pre) : Catches q (classAlone cls s st) (classAlone cls s (st.answered pre q)) := by
  have hclass : ∀ r, Catches q
      (andThen (classify r st) fun k => require (decide (k = cls)) .classNotTaken (andThen (performClass cls r st) keepClass))
      (andThen (classify r (st.answered pre q)) fun k => require (decide (k = cls)) .classNotTaken
        (andThen (performClass cls r (st.answered pre q)) keepClass)) := by
    intro r
    rw [show classify r (st.answered pre q) = classify r st from classify_of_same_slots hp]
    refine catches_andThen fun k hk => ?_
    by_cases hkc : k = cls
    · exact catches_require (catches_performAndKeep hp hh hc (hkc ▸ hk))
    · rw [decide_eq_false hkc]
      exact catches_of_free nofun
  refine catches_require (catches_require (catches_require ?_))
  have hs : (st.answered pre q).scan = st.scan := rfl
  rw [hs]
  cases st.scan with
  | none => exact catches_require (hclass _)
  | some r => exact catches_require (catches_require (hclass r))

/-- HEADER_BYTE and FRAME, which work on the open scan. -/
theorem catches_openScan {j j' : ScanRegs → Out State} (h : ∀ r, Catches q (j r) (j' r)) :
    Catches q (openScan st j) (openScan (st.answered pre q) j') := by
  refine catches_require (catches_require ?_)
  have hs : (st.answered pre q).scan = st.scan := rfl
  rw [hs]
  cases st.scan with
  | none => exact catches_of_free nofun
  | some r => exact catches_require (catches_require (h r))

theorem readScratch_answered (i n : Nat) : readScratch (st.answered pre q) i n = readScratch st i n := by
  induction n generalizing i with
  | zero => rfl
  | succ n ih =>
    have hbyte : (st.answered pre q).scratchByte i = st.scratchByte i := rfl
    rw [readScratch, readScratch, hbyte, ih]

theorem catches_execEmit (s : Nat) (hc : st.consumer.Balks pre) :
    Catches q (execEmit s st) (execEmit s (st.answered pre q)) := by
  refine catches_require (catches_require (catches_require ?_))
  have hread : readScratch (st.answered pre q) 0 (st.answered pre q).par.frameSize = readScratch st 0 st.par.frameSize :=
    readScratch_answered 0 _
  rw [hread]
  refine catches_andThen fun f _ => catches_require ?_
  cases pre with
  | nil =>
    have hreply : st.reply = false := hc.reply_nil
    rw [hreply]
    rintro _ ⟨⟩ -
    rfl
  | cons b pre =>
    obtain ⟨rfl, hreply, -⟩ := hc.of_cons
    rw [State.reply, hreply]
    exact catches_of_free (ensures_next rfl)

theorem catches_execScan (s : Nat) (hp : st.par.wf = true) (hh : st.held = none) (hc : st.consumer.Balks pre) :
    Catches q (execScan s st) (execScan s (st.answered pre q)) := by
  rw [execScan_eq, execScan_eq]
  exact catches_require (catches_require (catches_require (catches_scanSlot (follows_keep s) hp hh hc
    fun _ _ _ hmoved _ => catches_of_free (ensures_next ((held_of_scanMoved hmoved).trans hh)))))

theorem catches_execHeaderByte (hp : st.par.wf = true) (hh : st.held = none) (hc : st.consumer.Balks pre) :
    Catches q (execHeaderByte st) (execHeaderByte (st.answered pre q)) :=
  catches_openScan fun r => by
    rw [show classify r (st.answered pre q) = classify r st from classify_of_same_slots hp]
    exact catches_andThen fun k hk => catches_require (catches_performAndKeep hp hh hc hk)

theorem catches_execFrame (raw : List Byte) (hp : st.par.wf = true) (hh : st.held = none) (hc : st.consumer.Balks pre) :
    Catches q (execFrame raw st) (execFrame raw (st.answered pre q)) :=
  catches_openScan fun r => by
    obtain ⟨-, hcap, h64⟩ := wf_iff.mp hp
    have hread : readRange r.slot (r.pos (st.answered pre q)) (st.answered pre q).par.frameSize (st.answered pre q) =
        readRange r.slot (r.pos st) st.par.frameSize st := readRange_congr (Nat.le_of_lt h64) rfl hcap fun _ _ => rfl
    rw [show classify r (st.answered pre q) = classify r st from classify_of_same_slots hp, hread]
    refine catches_andThen fun k hk => ?_
    by_cases hka : k = .accept
    · exact catches_require (catches_andThen fun f _ => catches_require (catches_performAndKeep hp hh hc (hka ▸ hk)))
    · rw [decide_eq_false hka]
      exact catches_of_free nofun

/-- A service past its guards (43_rearm.md R161). -/
theorem catches_service (s : Nat) (hp : st.par.wf = true) (hh : st.held = none) (hc : st.consumer.Balks pre) :
    Catches q (andThen (scanSlot s (advInsert s (st.slot s).lastReq st)) (ScanOut.keepSvc s))
      (andThen (scanSlot s (advInsert s ((st.answered pre q).slot s).lastReq (st.answered pre q))) (ScanOut.keepSvc s)) :=
  catches_scanSlot (st := advInsert s (st.slot s).lastReq st) (follows_keepSvc s) hp hh hc fun n x _ hmoved _ =>
    catches_of_free (ensures_next ((serviceEnd_held s n x).trans ((held_of_scanMoved hmoved).trans hh)))

theorem catches_dispatched (c : Nat) (hp : st.par.wf = true) (hh : st.held = none) (hc : st.consumer.Balks pre) :
    Catches q (st.dispatched c) ((st.answered pre q).dispatched c) := by
  rw [State.dispatched, State.dispatched, show (st.answered pre q).lookup c = st.lookup c from rfl]
  cases st.lookup c with
  | none => exact catches_of_free (ensures_next (raiseFatal_held _ c st))
  | some s => exact catches_service s hp hh hc

/-! ### Every operation. -/

/-- The operations that can wait for the consumer. -/
def Instr.waits : Instr → Bool
  | .emit _ | .scan _ | .scnIdle _ | .scnSkip _ | .scnDefer _ | .scnAccept _ | .scnReject _ | .scnDrain _ | .headerByte
  | .frame _ | .svc _ | .irq | .dispatch _ => true
  | _ => false

/-- The others leave nothing waiting. -/
theorem exec_free {i : Instr} (hi : Instr.waits i = false) (hh : st.held = none) :
    Ensures (fun t => t.held = none) (exec i st) := by
  cases i with
  | reset => exact ensures_next rfl
  | init s c h =>
    refine ensures_require fun _ => ensures_require fun _ => ensures_require fun _ => ensures_require fun _ =>
      ensures_require fun _ => ensures_next ?_
    unfold initSlot
    split
    · exact raiseFatal_held _ c st
    · exact hh
  | enable => exact ensures_require fun _ => ensures_next hh
  | crcStep c8 b => exact ensures_next hh
  | crcRange l => exact ensures_next hh
  | frameValid f => exact ensures_require fun _ => ensures_next hh
  | rbPhys c => exact ensures_next hh
  | rbAvail s => exact ensures_require fun _ => ensures_next hh
  | rbWindow s c n => exact ensures_require fun _ => ensures_require fun _ => ensures_next hh
  | rbCopy s c n =>
    exact ensures_require fun _ => ensures_require fun _ => ensures_require fun _ => ensures_require fun _ =>
      ensures_andThen_any fun _ => ensures_next hh
  | rbAdvi s n => exact ensures_require fun _ => ensures_require fun _ => ensures_require fun _ => ensures_next hh
  | rbAdvx s n =>
    exact ensures_require fun _ => ensures_require fun _ => ensures_require fun _ => ensures_require fun _ => ensures_next hh
  | rbDmawr s a b => exact ensures_require fun _ => ensures_require fun _ => ensures_require fun _ => ensures_next hh
  | push s l =>
    exact ensures_require fun _ => ensures_require fun _ =>
      ensures_next ((congrArg State.held (pushBytes_frame s _ l st) :).trans hh)
  | decode f => exact ensures_require fun _ => ensures_next hh
  | ack c => exact ensures_require fun _ => ensures_require fun _ => ensures_next hh
  | arm c a n =>
    exact ensures_require fun _ => ensures_require fun _ => ensures_require fun _ => ensures_require fun _ =>
      ensures_require fun _ => ensures_next hh
  | dma c l =>
    exact ensures_require fun _ => ensures_require fun _ =>
      ensures_next ((congrArg State.held (transferBytes_frame c l st) :).trans hh)
  | raise c => exact ensures_require fun _ => ensures_next hh
  | dmaConfig c s => exact ensures_require fun _ => ensures_require fun _ => ensures_require fun _ => ensures_next hh
  | dmaByte c => exact ensures_require fun _ => ensures_require fun _ => ensures_next hh
  | dmaDone c => exact ensures_require fun _ => ensures_next hh
  | lookup c => exact ensures_require fun _ => ensures_next hh
  | fatal code c => exact ensures_require fun _ => ensures_require fun _ => ensures_next (raiseFatal_held _ c st)
  | _ => cases hi

theorem exec_catches (i : Instr) (hp : st.par.wf = true) (hh : st.held = none) (hc : st.consumer.Balks pre) :
    Catches q (exec i st) (exec i (st.answered pre q)) := by
  cases i with
  | emit s => exact catches_execEmit s hc
  | scan s => exact catches_execScan s hp hh hc
  | scnIdle s => exact catches_classAlone .idle s hp hh hc
  | scnSkip s => exact catches_classAlone .skip s hp hh hc
  | scnDefer s => exact catches_classAlone .defer s hp hh hc
  | scnAccept s => exact catches_classAlone .accept s hp hh hc
  | scnReject s => exact catches_classAlone .reject s hp hh hc
  | scnDrain s => exact catches_classAlone .drain s hp hh hc
  | headerByte => exact catches_execHeaderByte hp hh hc
  | frame raw => exact catches_execFrame raw hp hh hc
  | svc s =>
    change Catches q (execSvc s st) (execSvc s (st.answered pre q))
    rw [execSvc_eq, execSvc_eq]
    exact catches_require (catches_require (catches_require (catches_require (catches_service s hp hh hc))))
  | irq => exact catches_require (catches_require (catches_irqRun (a := 0) (by simp) hp hh hc))
  | dispatch c =>
    change Catches q (execDispatch c st) (execDispatch c (st.answered pre q))
    rw [execDispatch_eq, execDispatch_eq]
    exact catches_require (catches_require (catches_require (catches_require (catches_dispatched c hp hh hc))))
  | _ => exact catches_of_free (exec_free rfl hh)

/-! ### An operation that waited goes on. -/

/-- The scan of an operation that waited, past the frame the consumer has taken, with what comes after it. -/
theorem catches_scanAgain (hj : Follows r.slot h j) (hp : st.par.wf = true) (hc : st.consumer.Balks pre)
    (hheld : st.held = some (h r))
    (hdone : ∀ n x pre, KeepsShape st x → x.held = none → x.consumer.Balks pre →
      Catches q (j (.done n x)) (j (.done n (x.answered pre q)))) :
    Catches q (resume st) (resume (st.answered pre q)) := by
  have hst : st = { st with held := some (h r) } := by rw [← hheld]
  have hst' : st.answered pre q = { st.answered pre q with held := some (h r) } := by
    rw [← show (st.answered pre q).held = some (h r) from hheld]
  rw [hst', hj.resume r _ rfl, hst, hj.resume r _ rfl]
  refine catches_scanRun (st := { st with held := none }) (r := r.consume st.par.frameSize) hj hp rfl hc ?_
    fun n x pre hmoved => hdone n x pre (KeepsShape.trans keepsShape_of_same_registers (keepsShape_of_scanMoved hmoved))
      (held_of_scanMoved hmoved)
  simp only [ScanRegs.consume]
  omega

theorem resume_catches (hp : st.par.wf = true) (hc : st.consumer.Balks pre) (hheld : st.held ≠ none) :
    Catches q (resume st) (resume (st.answered pre q)) := by
  cases hw : st.held with
  | none => exact absurd hw hheld
  | some w =>
    cases w with
    | emit | accept r =>
      refine catches_of_free ?_
      rw [resume, hw]
      exact ensures_next rfl
    | scan r =>
      exact catches_scanAgain (follows_keep r.slot) hp hc hw fun n x _ _ hx _ => catches_of_free (ensures_next hx)
    | svc r =>
      exact catches_scanAgain (follows_keepSvc r.slot) hp hc hw fun n x _ _ hx _ =>
        catches_of_free (ensures_next ((serviceEnd_held r.slot n x).trans hx))
    | irq pending c r =>
      refine catches_scanAgain (follows_keepIrq pending c r.slot) hp hc hw fun n x pre' hshape hx hc' => ?_
      have hpar : (serviceEnd r.slot n x).par = st.par := (serviceEnd_par r.slot n).trans hshape.par
      have hcs : x.channelsAbove c = (serviceEnd r.slot n x).channels.filter (c + 1 ≤ ·) := by
        rw [serviceEnd_channels]
        rfl
      exact catches_irqRun hcs (hpar ▸ hp) ((serviceEnd_held r.slot n x).trans hx)
        ((serviceEnd_consumer r.slot n x).symm ▸ hc')

/-- Settles O42: what an operation waits in catches up with it, from its start (`exec_catches`) or from an earlier wait
(`resume_catches`). -/
theorem waitingChangesNothing : Obligations.WaitingChangesNothing :=
  ⟨fun i _ t _ _ hp hh hyes hno ht hne => exec_catches i hp hh ⟨hyes, hno⟩ t ht hne,
    fun _ t _ _ hp hheld hyes hno ht hne => resume_catches hp ⟨hyes, hno⟩ hheld t ht hne⟩

end Sys2Proof.Machine
end

section
/-! The DMA engine and its control port, one operation at a time: ACK (43_rearm.md R164), ARM (R165), DMA.CONFIG (R171), DMA.BYTE
(R173) and DMA.DONE (R174), each as its exact next state or its refusal. -/

namespace Sys2Proof.Machine

variable {st : State} {c s a n : Nat}

/-! ### The control port. -/

theorem isChan_iff : st.isChan c = true ↔ c < st.nChannels := decide_eq_true_iff

/-- The guards that ACK, ARM and DMA.CONFIG share. -/
def State.portGuarded (st : State) (c : Nat) (k : Out State) : Out State :=
  require (!st.fatal) .halted <| require (st.isChan c) .channelOutOfRange k

theorem portGuarded_of_running (hf : st.fatal = false) (hc : c < st.nChannels) (k : Out State) : st.portGuarded c k = k := by
  rw [State.portGuarded, hf, isChan_iff.mpr hc, Bool.not_false, require_true, require_true]

theorem portGuarded_refuses {k : Out State} (h : c < st.nChannels → ∃ why, k = .refused why) :
    ∃ why, st.portGuarded c k = .refused why :=
  require_refuses fun _ => require_refuses fun hc => h (isChan_iff.mp hc)

theorem exec_ack (c : Nat) (st : State) : exec (.ack c) st = st.portGuarded c (.next (ackChan c st)) := rfl

theorem exec_arm (c a n : Nat) (st : State) : exec (.arm c a n) st = st.portGuarded c
    (require (decide (a < st.par.capacity)) .offsetOutOfRange <|
      require (decide (1 ≤ n) && decide (n ≤ st.par.frameSize)) .countOutOfRange <|
        require (!(st.chan c).armed) .channelArmed (.next (armChan c a n st))) := rfl

theorem exec_dmaConfig (c s : Nat) (st : State) : exec (.dmaConfig c s) st = st.portGuarded c
    (require (st.isSlot s) .slotOutOfRange (.next (configChan c s st))) := rfl

/-- ARM inside its precondition. -/
theorem exec_arm_eq (hf : st.fatal = false) (hc : c < st.nChannels) (ha : a < st.par.capacity) (h1 : 1 ≤ n)
    (hn : n ≤ st.par.frameSize) (hidle : (st.chan c).armed = false) :
    exec (.arm c a n) st = .next (armChan c a n st) := by
  rw [exec_arm, portGuarded_of_running hf hc, decide_eq_true ha, decide_eq_true h1, decide_eq_true hn, hidle]
  rfl

/-- ARM outside it. -/
theorem exec_arm_refuses (h : st.par.capacity ≤ a ∨ n = 0 ∨ st.par.frameSize < n ∨ (st.chan c).armed = true) :
    ∃ why, exec (.arm c a n) st = .refused why := by
  rw [exec_arm]
  refine portGuarded_refuses fun _ => require_refuses fun ha => require_refuses fun hn => require_refuses_of_false ?_ _ _
  obtain ⟨h1, h2⟩ : 1 ≤ n ∧ n ≤ st.par.frameSize := by simpa using hn
  have ha : a < st.par.capacity := of_decide_eq_true ha
  have harmed := ((h.resolve_left (by omega)).resolve_left (by omega)).resolve_left (by omega)
  rw [harmed, Bool.not_true]

/-- Settles O44: past the shared guards the next states are `ackChan` and `armChan`. -/
theorem ackAndArmDriveTheChannel : Obligations.AckAndArmDriveTheChannel := by
  refine ⟨fun c st hf hc => ?_, fun c a n st hf hc => ⟨fun ha h1 hn hidle => ?_, exec_arm_refuses⟩, fun c a n st hc => ?_⟩
  · rw [exec_ack, portGuarded_of_running hf hc]
    exact ⟨_, rfl, by simp, fun d hd => by simp [Ne.symm hd], rfl, ackChan_frame st c⟩
  · exact ⟨_, exec_arm_eq hf hc ha h1 hn hidle, armChan_chan_self hc a n, fun d hd => armChan_chan_ne hd a n, rfl,
      armChan_frame st c a n⟩
  · rw [exec_ack, exec_arm]
    exact ⟨portGuarded_refuses fun h => absurd h (Nat.not_lt.mpr hc), portGuarded_refuses fun h => absurd h (Nat.not_lt.mpr hc)⟩

/-- Settles O45: past its guards the next state is `configChan`, which writes `configFor` into the channel. -/
theorem dmaConfigPointsTheChannel : Obligations.DmaConfigPointsTheChannel := by
  refine ⟨fun c s st hf hc hs => ?_, fun c s st h => ?_⟩
  · rw [exec_dmaConfig, portGuarded_of_running hf hc, isSlot_iff.mpr hs, require_true]
    refine ⟨_, rfl, ?_⟩
    rw [configChan_chan_self hc]
    exact ⟨rfl, rfl, rfl, rfl, rfl, rfl, rfl, rfl, rfl, fun d hd => configChan_chan_ne hd s, rfl, rfl⟩
  · rw [exec_dmaConfig]
    refine portGuarded_refuses fun hc => require_refuses_of_false (decide_eq_false ?_) _ _
    exact Nat.not_lt.mpr (h.resolve_left (Nat.not_le.mpr hc))

/-! ### The engine. -/

theorem byteEnabled_iff : st.byteEnabled c = true ↔ (st.chan c).armed = true ∧ (st.chan c).remaining ≠ 0 := by
  simp [State.byteEnabled]

theorem doneEnabled_iff : st.doneEnabled c = true ↔ (st.chan c).armed = true ∧ (st.chan c).remaining = 0 := by
  simp [State.doneEnabled]

theorem exec_dmaByte_eq (ha : (st.chan c).armed = true) (hrem : (st.chan c).remaining ≠ 0)
    (hr : st.reading (st.chan c).cfg.slot = false) : exec (.dmaByte c) st = .next (transferByte c st) := by
  change execDmaByte c st = _
  rw [execDmaByte, byteEnabled_iff.mpr ⟨ha, hrem⟩, hr]
  rfl

theorem exec_dmaDone_eq (ha : (st.chan c).armed = true) (hrem : (st.chan c).remaining = 0) :
    exec (.dmaDone c) st = .next (finishTransfer c st) := by
  change execDmaDone c st = _
  rw [execDmaDone, doneEnabled_iff.mpr ⟨ha, hrem⟩, require_true]

theorem transferByte_chan_self (hc : c < st.nChannels) : (transferByte c st).chan c =
    { st.chan c with waddr := ((st.chan c).waddr + 1) % st.par.capacity, remaining := (st.chan c).remaining - 1 } :=
  storeByte_chan_self (st := drawStream _ _ st) hc _

theorem transferByte_chan_ne {d : Nat} (hd : d ≠ c) : (transferByte c st).chan d = st.chan d :=
  storeByte_chan_ne (st := drawStream _ _ st) hd _

theorem transferByte_uart_self (hu : (st.chan c).cfg.slot < st.uarts.length) :
    (transferByte c st).uart (st.chan c).cfg.slot =
      { rx := (st.uart (st.chan c).cfg.slot).rx.tail, drawn := (st.uart (st.chan c).cfg.slot).drawn + 1 } :=
  uart_setUart_self hu _

theorem transferByte_uart_ne {u : Nat} (hu : u ≠ (st.chan c).cfg.slot) : (transferByte c st).uart u = st.uart u :=
  uart_setUart_ne hu _

theorem bufByte_transferByte_self (hs : (st.chan c).cfg.slot < st.nSlots) :
    (transferByte c st).bufByte (st.chan c).cfg.slot (st.chan c).waddr =
      some (nextStreamByte (st.chan c).cfg.slot st) :=
  bufByte_writeBuf_self (st := drawStream _ _ st) hs _ _

theorem bufByte_transferByte_ne {u x : Nat} (h : u ≠ (st.chan c).cfg.slot ∨ x ≠ (st.chan c).waddr) :
    (transferByte c st).bufByte u x = st.bufByte u x :=
  bufByte_writeBuf_ne (st := drawStream _ _ st) h _

/-- Settles O46: the next states are `transferByte` and `finishTransfer`, where the engine has R173 or R174 enabled. -/
theorem dmaByteStoresAndDoneSetsTheBit : Obligations.DmaByteStoresAndDoneSetsTheBit := by
  refine ⟨fun c st hf => ⟨fun ha hrem hr => ?_, fun h => ?_, fun hr => ?_⟩, fun c st => ⟨fun ha hrem => ?_, fun h => ?_⟩⟩
  · have hc := lt_of_armed ha
    have hch := chan_fits hf hc
    obtain ⟨hu, -⟩ := fits_iff.mp hf
    refine ⟨_, nextStreamByte (st.chan c).cfg.slot st, exec_dmaByte_eq ha hrem hr, fun x xs hx => ?_,
      bufByte_transferByte_self hch.cfg, fun u x h => bufByte_transferByte_ne h, ?_, ?_, ?_, ?_,
      fun d hd => transferByte_chan_ne hd, fun u => writeBuf_slot_frame (drawStream _ _ st) _ _ _ u,
      fun u hne => transferByte_uart_ne hne, transferByte_frame c⟩
    · rw [transferByte_uart_self (hu ▸ hch.cfg), nextStreamByte, hx]
      exact ⟨rfl, rfl⟩
    all_goals rw [transferByte_chan_self hc]
    · exact Nat.succ_pred_eq_of_ne_zero hrem
    · exact ha
  · have hoff : st.byteEnabled c = false := Bool.eq_false_iff.mpr fun he => by
      obtain ⟨ha, hrem⟩ := byteEnabled_iff.mp he
      simp [ha, hrem] at h
    simp only [exec, execDmaByte, hoff, require_false]
  · exact require_refuses fun _ => require_refuses_of_false (by rw [hr]; rfl) _ _
  · have hc := lt_of_armed ha
    exact ⟨_, exec_dmaDone_eq ha hrem, finishTransfer_chan_self hc, fun d hd => finishTransfer_chan_ne hd, by simp,
      fun d hd => by simp [Ne.symm hd], rfl⟩
  · have hoff : st.doneEnabled c = false := Bool.eq_false_iff.mpr fun he => by
      obtain ⟨ha, hrem⟩ := doneEnabled_iff.mp he
      simp [ha, hrem] at h
    simp only [exec, execDmaDone, hoff, require_false]

end Sys2Proof.Machine
end

section
/-! The service of a slot (43_rearm.md R161) as an exact next state: what a completed service leaves of every register, channel, bit
and port. -/

namespace Sys2Proof.Machine

variable {st : State} {s : Nat}

/-! ### What the scan of a service yields. -/

/-- What the scan of a service leaves in scratch, sends, consumes and asks for. -/
structure Yield where
  scratch : List Host.Cell
  frames : List PortEvent
  consumed : Nat
  request : Nat

/-- The yield of a scan of slot `s`: valid frames of the slot, and a request that makes up one frame with what is left unread
(R177). -/
structure Yield.Legal (y : Yield) (st : State) (s : Nat) : Prop where
  frames : st.deliveries s y.frames
  consumed : y.consumed ≤ (st.avail s).toNat + (st.slot s).lastReq
  request : 1 ≤ y.request
  frame : (st.avail s).toNat + (st.slot s).lastReq - y.consumed + y.request = st.par.frameSize

/-- The state after steps ADV and SCAN of the service of slot `s`. -/
def State.rescanned (st : State) (s : Nat) (y : Yield) : State :=
  advExtract s y.consumed ((advInsert s (st.slot s).lastReq st).scanned y.scratch y.frames)

/-- The state after the service. -/
def State.rearmed (st : State) (s : Nat) (y : Yield) : State := serviceEnd s y.request (st.rescanned s y)

/-- The scan of a serviceable slot completes, the consumer prompt. -/
theorem scanSlot_of_serviceable (hp : st.par.wf = true) (h : st.serviceable s) (hq : st.consumer.prompt) :
    ∃ y : Yield, y.Legal st s ∧
      scanSlot s (advInsert s (st.slot s).lastReq st) = .next (.done y.request (st.rescanned s y)) := by
  have havail := avail_of_serviceable hp h
  obtain ⟨hv, -, hfit, hw⟩ := h
  obtain ⟨o, ho⟩ := scanSlot_completes (st := advInsert s (st.slot s).lastReq st) (s := s) hp
    (havail.symm ▸ hfit) (havail.symm ▸ written_advInsert hw)
  obtain ⟨-, ⟨n, m, x, ⟨sc, l, rfl, hl⟩, rfl, h1, -, hm, hsum⟩ | ⟨r, x, -, -, hslow, -⟩⟩ :=
    scanSlot_cases (st := advInsert s (st.slot s).lastReq st) hp ho
  · rw [havail] at hm hsum
    have hctx : ((advInsert s (st.slot s).lastReq st).slot s).ctx = (st.slot s).ctx := by
      rw [advInsert_slot_self (lt_of_valid hv)]
    refine ⟨⟨sc, l, m, n⟩, ⟨?_, hm, h1, hsum⟩, ho⟩
    simpa only [State.deliveries, State.validFrame, State.delivery, advInsert_par, hctx] using hl
  · exact absurd hq hslow

theorem service_of_serviceable (hp : st.par.wf = true) (h : st.serviceable s) (hq : st.consumer.prompt) :
    ∃ y : Yield, y.Legal st s ∧ service s st = .next (.done (st.rearmed s y)) := by
  obtain ⟨y, hy, hscan⟩ := scanSlot_of_serviceable hp h hq
  exact ⟨y, hy, by rw [service, hscan]; rfl⟩

/-! ### The state after a service, register by register. -/

variable {y : Yield}

theorem rescanned_slot_self (hs : s < st.nSlots) : (st.rescanned s y).slot s = { st.slot s with
    insert := advance (st.slot s).insert (st.slot s).lastReq
    extract := advance (st.slot s).extract y.consumed } := by
  rw [State.rescanned, advExtract_slot_self (by simpa using hs), scanned_slot, advInsert_slot_self hs]

theorem rescanned_slot_ne {u : Nat} (hu : u ≠ s) : (st.rescanned s y).slot u = st.slot u := by
  rw [State.rescanned, advExtract_slot_ne hu, scanned_slot, advInsert_slot_ne hu]

/-- The channel of the slot is not written by the scan. -/
theorem rescanned_slot_chan : ((st.rescanned s y).slot s).chan = (st.slot s).chan := by
  by_cases hs : s < st.nSlots
  · rw [rescanned_slot_self hs]
  · have hn : (st.rescanned s y).nSlots = st.nSlots := by simp [State.rescanned]
    rw [slot_absent (Nat.le_of_not_lt hs), slot_absent (hn ▸ Nat.le_of_not_lt hs)]

@[simp] theorem rearmed_nSlots : (st.rearmed s y).nSlots = st.nSlots := by simp [State.rearmed, State.rescanned]
@[simp] theorem rearmed_nChannels : (st.rearmed s y).nChannels = st.nChannels := by simp [State.rearmed, State.rescanned]

theorem rearmed_slot_self (hs : s < st.nSlots) : (st.rearmed s y).slot s = { st.slot s with
    insert := advance (st.slot s).insert (st.slot s).lastReq
    extract := advance (st.slot s).extract y.consumed
    lastReq := y.request } := by
  rw [State.rearmed, serviceEnd_slot_self (by simpa [State.rescanned] using hs), rescanned_slot_self hs]

theorem rearmed_slot_ne {u : Nat} (hu : u ≠ s) : (st.rearmed s y).slot u = st.slot u := by
  rw [State.rearmed, serviceEnd_slot_ne hu, rescanned_slot_ne hu]

theorem rearmed_chan_self (hs : s < st.nSlots) (hc : (st.slot s).chan < st.nChannels) :
    (st.rearmed s y).chan (st.slot s).chan =
      { armed := true
        waddr := phys st.par (advance (st.slot s).insert (st.slot s).lastReq)
        remaining := y.request
        cfg := (st.chan (st.slot s).chan).cfg } := by
  have h := serviceEnd_chan_self (st := st.rescanned s y) (s := s)
    (by rw [rescanned_slot_chan]; simpa [State.rescanned] using hc) y.request
  rw [rescanned_slot_chan, rescanned_slot_self hs] at h
  exact h

theorem rearmed_chan_ne {c : Nat} (hc : c ≠ (st.slot s).chan) : (st.rearmed s y).chan c = st.chan c :=
  serviceEnd_chan_ne (st := st.rescanned s y) (by rwa [rescanned_slot_chan]) y.request

@[simp] theorem rearmed_ints : (st.rearmed s y).ints = clearBit st.ints (st.slot s).chan := by
  rw [State.rearmed, serviceEnd_ints, rescanned_slot_chan]
  rfl

theorem rearmed_scratch : (st.rearmed s y).scratch = y.scratch :=
  (congrArg State.scratch (serviceEnd_frame (st := st.rescanned s y) s y.request) :)

theorem rearmed_consumer : (st.rearmed s y).consumer = st.consumer.drop y.frames.length :=
  serviceEnd_consumer s y.request (st.rescanned s y)

/-- The frames go out, then the acknowledge, then the rearm (20_memory.md R69). -/
theorem rearmed_out (hs : s < st.nSlots) : (st.rearmed s y).out = st.out ++ y.frames ++ rearmOf st (st.rearmed s y) s := by
  rw [rearmOf, rearmed_slot_self hs, State.rearmed, serviceEnd_out, rescanned_slot_chan, rescanned_slot_self hs,
    List.append_assoc]
  rfl

/-- A service changes nothing else. -/
theorem rearmed_frame : { st.rearmed s y with
    slots := st.slots, chans := st.chans, ints := st.ints, out := st.out, scratch := st.scratch, consumer := st.consumer } = st :=
  congrArg (fun x : State => { x with
    slots := st.slots, chans := st.chans, ints := st.ints, out := st.out, scratch := st.scratch, consumer := st.consumer })
    (serviceEnd_frame (st := st.rescanned s y) s y.request)

theorem rearmed_avail (hp : st.par.wf = true) (h : st.serviceable s) (hy : y.Legal st s) :
    ((st.rearmed s y).avail s).toNat = (st.avail s).toNat + (st.slot s).lastReq - y.consumed := by
  have hadv := avail_of_serviceable hp h
  obtain ⟨hv, -⟩ := h
  have hs := lt_of_valid hv
  have hscan : ((st.rescanned s y).avail s).toNat = (st.avail s).toNat + (st.slot s).lastReq - y.consumed := by
    rw [State.rescanned, avail_advExtract (by simpa using hs) (hadv.symm ▸ hy.consumed), scanned_avail, hadv]
  rw [State.avail, rearmed_slot_self hs, ← hscan, State.avail, rescanned_slot_self hs]

theorem serviced_rearmed (hp : st.par.wf = true) (h : st.serviceable s) (hy : y.Legal st s) :
    serviced st (st.rearmed s y) s := by
  have ⟨hv, hc, _⟩ := h
  have hs := lt_of_valid hv
  unfold serviced
  rw [rearmed_avail hp h hy, rearmed_chan_self hs hc, rearmed_slot_self hs]
  exact ⟨rfl, rfl, rfl, rfl, rfl, hy.frame, hy.request, rfl⟩

/-! ### SVC. -/

theorem exec_svc_eq (h : st.ready) (hv : (st.slot s).valid = true) (hidle : (st.chan (st.slot s).chan).armed = false) :
    exec (.svc s) st = andThen (scanSlot s (advInsert s (st.slot s).lastReq st)) (ScanOut.keepSvc s) := by
  obtain ⟨hf, hscan, hheld⟩ := h
  have hbusy : st.busy = false := by simp [State.busy, hscan, hheld]
  change execSvc s st = _
  rw [execSvc_eq, hf, hbusy, hv, hidle]
  rfl

theorem exec_svc_refuses_armed (h : (st.chan (st.slot s).chan).armed = true) : ∃ why, exec (.svc s) st = .refused why :=
  require_refuses fun _ => require_refuses fun _ => require_refuses fun _ =>
    require_refuses_of_false (by rw [h, Bool.not_true]) _ _

/-- Settles O43: with `y` what the scan yields, the state after RB.ADVI and SCAN is `rescanned`, that after the service `rearmed`. -/
theorem serviceAdvancesScansAcknowledgesRearms : Obligations.ServiceAdvancesScansAcknowledgesRearms := by
  refine ⟨fun s st => exec_svc_refuses_armed, fun s st hp hready h hidle hq => ?_⟩
  have ⟨hf, hscan, hheld⟩ := hready
  have ⟨hv, _⟩ := h
  have hs := lt_of_valid hv
  obtain ⟨y, hy, hyield⟩ := scanSlot_of_serviceable hp h hq
  have hadv : exec (.rbAdvi s (st.slot s).lastReq) st = .next (advInsert s (st.slot s).lastReq st) := by
    rw [exec_rbAdvi, cursorGuarded_of_unscanned hf hs (reading_of_free hscan hheld s)]
  have hscanned : exec (.scan s) (advInsert s (st.slot s).lastReq st) =
      .next ((st.rescanned s y).setResult (.next y.request)) := by
    rw [exec_scan_eq (st := advInsert s (st.slot s).lastReq st) hready (by rw [advInsert_slot_self hs]; exact hv), hyield]
    rfl
  refine ⟨st.rearmed s y, _, _, y.request, y.frames, ?_, hadv, hscanned, rfl, rfl, hy.frames, rearmed_out hs, ?_, rearmed_scratch,
    rearmed_consumer, serviced_rearmed hp h hy, fun c => ?_, fun u hu => rearmed_slot_ne hu, fun c hc => rearmed_chan_ne hc,
    rearmed_frame⟩
  · rw [exec_svc_eq hready hv hidle, hyield]
    rfl
  · rw [rearmed_slot_self hs, setResult_slot, rescanned_slot_self hs]
  · rw [rearmed_ints, bitSet_clearBit, decide_eq_decide.mpr eq_comm]

end Sys2Proof.Machine
end

section
/-! The rearm protocol kept by every protocol event (43_rearm.md R174, R175, R177 to R179). What these events are made of (an INIT, a
byte or the completion of a transfer, a service) writes one slot and the one channel it owns (`Confined`), so the protocol is kept
where this slot is in protocol afterwards. -/

namespace Sys2Proof.Machine

variable {st t u : State} {s c : Nat}

/-! ### Owners. -/

/-- No channel is shared where an owner is the only one of its channel. -/
theorem registryUnique_iff : st.registryUnique ↔ ∀ v w d, st.owns v d = true → st.owns w d = true → v = w := by
  simp only [owns_iff]
  refine ⟨fun h v w d hv hw => ?_, fun h v _ w _ hv hw hvw => h v w _ ⟨hv, hvw⟩ ⟨hw, rfl⟩⟩
  exact h v (lt_of_valid hv.1) w (lt_of_valid hw.1) hv.1 hw.1 (hv.2.trans hw.2.symm)

/-- Under the protocol an armed or pending channel is owned. -/
theorem owner_of_inProtocol (h : st.inProtocol) (hc : c < st.nChannels)
    (hbusy : (st.chan c).armed = true ∨ bitSet st.ints c = true) : ∃ s, st.owns s c = true := by
  obtain ⟨-, -, -, -, -, hchans⟩ := h
  obtain ⟨s, -, hs⟩ := hchans c hc hbusy
  exact ⟨s, hs⟩

theorem slotInProtocol_of_owns (h : st.inProtocol) (hown : st.owns s c = true) : st.slotInProtocol s := by
  obtain ⟨-, -, -, -, hslots, -⟩ := h
  obtain ⟨hv, -⟩ := owns_iff.mp hown
  exact hslots s (lt_of_valid hv) hv

/-- Whether a slot is in protocol depends on its own registers, its channel and its bit. -/
theorem slotInProtocol_congr (hp : t.par = st.par) (hn : t.nChannels = st.nChannels) (hs : t.slot s = st.slot s)
    (hc : t.chan (st.slot s).chan = st.chan (st.slot s).chan)
    (hi : bitSet t.ints (st.slot s).chan = bitSet st.ints (st.slot s).chan) (h : st.slotInProtocol s) :
    t.slotInProtocol s := by
  simpa only [State.slotInProtocol, State.written, State.logicalByte, State.bufByte, State.avail, hp, hn, hs, hc, hi] using h

/-! ### Events that are confined to one slot and its channel. -/

/-- From `st` to `t` no slot but `s`, no channel but `c` and no bit but that of `c` changes, nothing comes in progress, no fatal is
raised, and a prompt consumer stays prompt. -/
structure Confined (s c : Nat) (st t : State) : Prop where
  par : t.par = st.par
  nSlots : t.nSlots = st.nSlots
  nChannels : t.nChannels = st.nChannels
  scan : t.scan = st.scan
  held : t.held = st.held
  fatal : t.fatal = st.fatal
  prompt : st.consumer.prompt → t.consumer.prompt
  slot : ∀ v, v ≠ s → t.slot v = st.slot v
  chan : ∀ d, d ≠ c → t.chan d = st.chan d
  bit : ∀ d, d ≠ c → bitSet t.ints d = bitSet st.ints d

/-- From `st` to `t` the protocol is kept, the consumer stays prompt, no fatal is raised, and there are as many channels. -/
structure KeepsProtocol (st t : State) : Prop where
  inProtocol : t.inProtocol
  prompt : t.consumer.prompt
  fatal : t.fatal = st.fatal
  nChannels : t.nChannels = st.nChannels

theorem KeepsProtocol.trans (h1 : KeepsProtocol st t) (h2 : KeepsProtocol t u) : KeepsProtocol st u :=
  ⟨h2.inProtocol, h2.prompt, h2.fatal.trans h1.fatal, h2.nChannels.trans h1.nChannels⟩

/-- After an event that leaves `c` to `s` the owners are that slot, and the others of before. -/
theorem Confined.owns_after_iff (hk : Confined s c st t) (hown : t.owns s c = true) {v d : Nat} :
    t.owns v d = true ↔ (v = s ∧ d = c) ∨ (v ≠ s ∧ st.owns v d = true) := by
  by_cases hv : v = s
  · have hsd : t.owns s d = true ↔ d = c := by
      obtain ⟨hvalid, hchan⟩ := owns_iff.mp hown
      rw [owns_iff, hchan]
      exact ⟨fun hd => hd.2.symm, fun hd => ⟨hvalid, hd.symm⟩⟩
    simp [hv, hsd]
  · simp [hv, State.owns, hk.slot v hv]

/-- An event confined to slot `s` and channel `c` keeps the protocol if `s` then owns `c` and is in protocol, no other slot
owned `c`, and `s` owned no other channel. -/
theorem Confined.keepsProtocol (hk : Confined s c st t) (h : st.inProtocol) (hq : st.consumer.prompt)
    (hother : ∀ v, st.owns v c = true → v = s) (honly : ∀ d, st.owns s d = true → d = c) (hown : t.owns s c = true)
    (hs : t.slotInProtocol s) : KeepsProtocol st t := by
  obtain ⟨hp, hscan, hheld, huniq, hslots, hchans⟩ := h
  refine ⟨⟨hk.par ▸ hp, hk.scan.trans hscan, hk.held.trans hheld, registryUnique_iff.mpr fun v w d hv hw => ?_,
    fun v _ hvalid => ?_, fun d hd hbusy => ?_⟩, hk.prompt hq, hk.fatal, hk.nChannels⟩
  · rcases (hk.owns_after_iff hown).mp hv with ⟨rfl, rfl⟩ | ⟨hvs, hv⟩ <;>
      rcases (hk.owns_after_iff hown).mp hw with ⟨rfl, hdc⟩ | ⟨hws, hw⟩
    · rfl
    · exact absurd (hother w hw) hws
    · exact absurd (hother v (hdc ▸ hv)) hvs
    · exact registryUnique_iff.mp huniq v w d hv hw
  · by_cases hvs : v = s
    · exact hvs ▸ hs
    · have hslot := hk.slot v hvs
      rw [hslot] at hvalid
      have hvc : (st.slot v).chan ≠ c := fun hvc => hvs (hother v (owns_iff.mpr ⟨hvalid, hvc⟩))
      exact slotInProtocol_congr hk.par hk.nChannels hslot (hk.chan _ hvc) (hk.bit _ hvc)
        (hslots v (lt_of_valid hvalid) hvalid)
  · by_cases hdc : d = c
    · exact ⟨s, lt_of_valid (owns_iff.mp hown).1, hdc ▸ hown⟩
    · rw [hk.chan d hdc, hk.bit d hdc] at hbusy
      obtain ⟨v, hv, hvd⟩ := hchans d (hk.nChannels ▸ hd) hbusy
      have hvs : v ≠ s := by
        rintro rfl
        exact hdc (honly d hvd)
      exact ⟨v, hk.nSlots.symm ▸ hv, (hk.owns_after_iff hown).mpr (.inr ⟨hvs, hvd⟩)⟩

/-- An event confined to a slot and the channel it owns, of which it stays the owner. -/
theorem Confined.keepsProtocol_of_owner (hk : Confined s c st t) (h : st.inProtocol) (hq : st.consumer.prompt)
    (hown : st.owns s c = true) (hvalid : (t.slot s).valid = (st.slot s).valid) (hchan : (t.slot s).chan = (st.slot s).chan)
    (hs : t.slotInProtocol s) : KeepsProtocol st t := by
  have ⟨_, _, _, huniq, _⟩ := h
  refine hk.keepsProtocol h hq (fun v hv => registryUnique_iff.mp huniq v s c hv hown) (fun d hd => ?_) ?_ hs
  · exact (owns_iff.mp hd).2.symm.trans (owns_iff.mp hown).2
  · rw [State.owns, hvalid, hchan]
    exact hown

/-! ### INIT. -/

/-- The slot that INIT writes (44_demux.md R184). -/
def State.freshSlot (st : State) (s c h : Nat) : Slot :=
  { st.slot s with
    valid := true, chan := c, ctx := h % 2 ^ st.par.ctxWidth, insert := 0, extract := 0, lastReq := st.par.frameSize }

theorem initSlot_eq (s c h : Nat) (hcap : st.par.frameSize ≤ st.par.capacity) : initSlot s c h st =
    armChan c 0 st.par.frameSize (configChan c s (st.setSlot s (st.freshSlot s c h))) := by
  rw [initSlot, if_neg (Nat.not_lt.mpr hcap)]
  rfl

/-- A slot just made asks for a whole frame at the start of its buffer. -/
theorem initSlot_keepsProtocol (h : Nat) (hin : st.inProtocol) (hq : st.consumer.prompt) (hs : s < st.nSlots)
    (hc : c < st.nChannels) (hempty : (st.slot s).valid = false) (hfree : st.lookup c = none) :
    KeepsProtocol st (initSlot s c h st) := by
  have ⟨hp, _⟩ := hin
  obtain ⟨hframe, hcap, -⟩ := wf_iff.mp hp
  have hunowned := lookup_eq_none.mp hfree
  have hquiet : bitSet st.ints c = false := Bool.eq_false_iff.mpr fun hb => by
    obtain ⟨v, hv⟩ := owner_of_inProtocol hin hc (.inr hb)
    exact Bool.noConfusion ((hunowned v).symm.trans hv)
  have hinit := initSlot_eq (st := st) s c h hcap
  have hk : Confined s c st (initSlot s c h st) := by
    rw [hinit]
    exact ⟨rfl, by simp, by simp, rfl, rfl, rfl, id, fun v hv => slot_setSlot_ne hv _,
      fun d hd => (armChan_chan_ne hd _ _).trans (configChan_chan_ne hd _), fun _ _ => rfl⟩
  have hslot : (initSlot s c h st).slot s = st.freshSlot s c h := by
    rw [hinit]
    exact slot_setSlot_self hs _
  have hchan : (initSlot s c h st).chan c =
      { armed := true, waddr := 0, remaining := st.par.frameSize, cfg := configFor st.par s } := by
    rw [hinit, armChan_chan_self (by simpa using hc), configChan_chan_self (by simpa using hc)]
    rfl
  have hbit : bitSet (initSlot s c h st).ints c = false := by
    rw [hinit]
    exact hquiet
  refine hk.keepsProtocol hin hq (fun v hv => absurd hv (by simp [hunowned v])) (fun d hd => ?_)
    (owns_iff.mpr (by rw [hslot]; exact ⟨rfl, rfl⟩)) ?_
  · rw [owns_iff, hempty] at hd
    exact Bool.noConfusion hd.1
  · unfold State.slotInProtocol
    rw [State.avail, hslot]
    dsimp only [State.freshSlot]
    rw [hchan, hbit, hk.nChannels, hk.par]
    refine ⟨hc, rfl, by simp, by omega, Nat.le_refl _, fun i hi => ?_, ?_, nofun, nofun⟩
    · simp at hi
    · simp [phys]

/-! ### The engine. -/

/-- The position `k` on from `insert`, counted from `extract`. -/
theorem advance_extract (st : State) (s k : Nat) :
    advance (st.slot s).extract ((st.avail s).toNat + k) = advance (st.slot s).insert k := by
  rw [← advance_advance, advance_avail]

/-- A byte stored where the written positions end is one more of them. -/
theorem written_succ {pos : Cursor} {n : Nat} {b : Byte} (h : st.written s pos n) (hp : t.par = st.par)
    (hbuf : (t.slot s).buf = memWrite (st.slot s).buf (phys st.par (advance pos n)) b) : t.written s pos (n + 1) := by
  intro i hi
  rw [State.logicalByte, State.bufByte, hp, hbuf]
  by_cases hx : phys st.par (advance pos i) = phys st.par (advance pos n)
  · rw [hx, memRead_memWrite_self]
    rfl
  · rw [memRead_memWrite_ne hx]
    have hin : i ≠ n := by
      rintro rfl
      exact hx rfl
    exact h i (by omega)

variable {b : Byte} {w : Nat} {rx : List Byte}

theorem drawnStore_chan_self (hc : c < st.nChannels) : (storeByte c b (drawStream w rx st)).chan c =
    { st.chan c with waddr := ((st.chan c).waddr + 1) % st.par.capacity, remaining := (st.chan c).remaining - 1 } :=
  storeByte_chan_self (st := drawStream w rx st) hc b

theorem drawnStore_slot_self (hs : (st.chan c).cfg.slot < st.nSlots) :
    (storeByte c b (drawStream w rx st)).slot (st.chan c).cfg.slot =
      { st.slot (st.chan c).cfg.slot with buf := memWrite (st.slot (st.chan c).cfg.slot).buf (st.chan c).waddr b } :=
  writeBuf_slot_self (st := drawStream w rx st) hs _ b

theorem confined_drawnStore : Confined (st.chan c).cfg.slot c st (storeByte c b (drawStream w rx st)) :=
  ⟨rfl, storeByte_nSlots c b, storeByte_nChannels c b, rfl, rfl, rfl, id,
    fun _ hv => writeBuf_slot_ne (st := drawStream w rx st) hv _ b,
    fun _ hd => storeByte_chan_ne (st := drawStream w rx st) hd b, fun _ _ => rfl⟩

/-- One byte of an armed channel, stored where its slot's delivered bytes end (R173). -/
theorem drawnStore_keepsProtocol (h : st.inProtocol) (hq : st.consumer.prompt) (ha : (st.chan c).armed = true)
    (hrem : (st.chan c).remaining ≠ 0) : KeepsProtocol st (storeByte c b (drawStream w rx st)) := by
  have ⟨hp, _⟩ := h
  obtain ⟨-, -, hlog⟩ := wf_iff.mp hp
  obtain ⟨s, hown⟩ := owner_of_inProtocol h (lt_of_armed ha) (.inl ha)
  obtain ⟨hv, rfl⟩ := owns_iff.mp hown
  obtain ⟨hc, hcfg, hsum, hpos, hle, hw, haddr, -, hbit⟩ := slotInProtocol_of_owns h hown
  have hs : (st.chan (st.slot s).chan).cfg.slot < st.nSlots := hcfg.symm ▸ lt_of_valid hv
  have hk := confined_drawnStore (st := st) (c := (st.slot s).chan) (b := b) (w := w) (rx := rx)
  have hslot := drawnStore_slot_self (b := b) (w := w) (rx := rx) hs
  have hchan := drawnStore_chan_self (b := b) (w := w) (rx := rx) hc
  rw [hcfg] at hk hslot
  have hdone : (st.slot s).lastReq - ((st.chan (st.slot s).chan).remaining - 1) =
      (st.slot s).lastReq - (st.chan (st.slot s).chan).remaining + 1 := by omega
  have hbuf : ((storeByte (st.slot s).chan b (drawStream w rx st)).slot s).buf = memWrite (st.slot s).buf
      (phys st.par (advance (st.slot s).extract
        ((st.avail s).toNat + ((st.slot s).lastReq - (st.chan (st.slot s).chan).remaining)))) b := by
    rw [hslot, advance_extract, ← haddr]
  refine hk.keepsProtocol_of_owner h hq hown (by rw [hslot]) (by rw [hslot]) ?_
  unfold State.slotInProtocol
  rw [State.avail, hslot]
  dsimp only
  rw [hchan, hk.nChannels, hk.par, hdone]
  refine ⟨hc, hcfg, hsum, hpos, Nat.le_trans (Nat.sub_le _ 1) hle, written_succ hw rfl hbuf, ?_, fun hoff => ?_, hbit⟩
  · dsimp only
    rw [haddr, ← phys_advance_phys (Nat.le_of_lt hlog), advance_advance]
  · exact Bool.noConfusion (ha.symm.trans hoff)

/-- Bytes of an armed channel, at most as many as it has to go. -/
theorem transferBytes_keepsProtocol {bs : List Byte} (h : st.inProtocol) (hq : st.consumer.prompt)
    (ha : (st.chan c).armed = true) (hl : bs.length ≤ (st.chan c).remaining) :
    KeepsProtocol st (transferBytes c bs st) ∧ ((transferBytes c bs st).chan c).armed = true ∧
      ((transferBytes c bs st).chan c).remaining + bs.length = (st.chan c).remaining := by
  induction bs generalizing st with
  | nil => exact ⟨⟨h, hq, rfl, rfl⟩, ha, rfl⟩
  | cons b bs ih =>
    rw [List.length_cons] at hl ⊢
    have hstep := drawnStore_keepsProtocol (b := b) (w := (st.chan c).cfg.slot) (rx := (st.uart (st.chan c).cfg.slot).rx)
      h hq ha (by omega)
    have hchan := drawnStore_chan_self (b := b) (w := (st.chan c).cfg.slot) (rx := (st.uart (st.chan c).cfg.slot).rx)
      (lt_of_armed ha)
    obtain ⟨hk, harmed, hrem⟩ := ih hstep.inProtocol hstep.prompt (by rw [hchan]; exact ha)
      (by rw [hchan]; exact Nat.le_sub_one_of_lt hl)
    rw [hchan] at hrem
    dsimp only at hrem
    exact ⟨hstep.trans hk, harmed, by rw [transferBytes]; omega⟩

/-- The completion of a transfer with nothing to go (R174). -/
theorem finishTransfer_keepsProtocol (h : st.inProtocol) (hq : st.consumer.prompt) (ha : (st.chan c).armed = true)
    (hrem : (st.chan c).remaining = 0) : KeepsProtocol st (finishTransfer c st) := by
  obtain ⟨s, hown⟩ := owner_of_inProtocol h (lt_of_armed ha) (.inl ha)
  obtain ⟨hv, rfl⟩ := owns_iff.mp hown
  obtain ⟨hc, hcfg, hsum, hpos, hle, hw, haddr, -, -⟩ := slotInProtocol_of_owns h hown
  have hk : Confined s (st.slot s).chan st (finishTransfer (st.slot s).chan st) :=
    ⟨rfl, rfl, finishTransfer_nChannels st _, rfl, rfl, rfl, id, fun _ _ => rfl, fun _ hd => finishTransfer_chan_ne hd,
      fun d hd => by simp [Ne.symm hd]⟩
  refine hk.keepsProtocol_of_owner h hq hown rfl rfl ?_
  unfold State.slotInProtocol
  rw [finishTransfer_slot, finishTransfer_chan_self hc, hk.nChannels]
  exact ⟨hc, hcfg, hsum, hpos, hle, hw, haddr, fun _ => hrem, fun _ => rfl⟩

/-! ### The service, and the handler. -/

/-- The service of a pending slot (R177 to R179). -/
theorem rearmed_keepsProtocol {y : Yield} (h : st.inProtocol) (hq : st.consumer.prompt) (hown : st.owns s c = true)
    (hc : bitSet st.ints c = true) (hy : y.Legal st s) : KeepsProtocol st (st.rearmed s y) := by
  have hserve := serviceable_of_inProtocol h hc hown
  have ⟨hp, _⟩ := h
  obtain ⟨hv, rfl⟩ := owns_iff.mp hown
  obtain ⟨hchan, hcfg, -⟩ := slotInProtocol_of_owns h hown
  have ⟨_, _, _, hw⟩ := hserve
  have hs := lt_of_valid hv
  have hslot := rearmed_slot_self (y := y) hs
  have hframe := rearmed_frame (st := st) (s := s) (y := y)
  have hpar : (st.rearmed s y).par = st.par := (congrArg State.par hframe :)
  have havail := rearmed_avail hp hserve hy
  have hk : Confined s (st.slot s).chan st (st.rearmed s y) :=
    ⟨hpar, rearmed_nSlots, rearmed_nChannels, (congrArg State.scan hframe :), (congrArg State.held hframe :),
      (congrArg State.fatal hframe :), fun hq => rearmed_consumer ▸ prompt_drop hq _, fun _ hu => rearmed_slot_ne hu,
      fun _ hd => rearmed_chan_ne hd, fun d hd => by simp [Ne.symm hd]⟩
  refine hk.keepsProtocol_of_owner h hq hown (by rw [hslot]) (by rw [hslot]) ?_
  unfold State.slotInProtocol
  rw [havail, hslot]
  dsimp only
  rw [rearmed_chan_self hs hchan, rearmed_nChannels, hpar]
  have hsum := hy.frame
  refine ⟨hchan, hcfg, hsum, hy.request, Nat.le_refl _, fun i hi => ?_, ?_, nofun, fun hb => ?_⟩
  · dsimp only at hi
    rw [State.logicalByte, State.bufByte, hpar, hslot, advance_advance]
    exact hw (y.consumed + i) (by omega)
  · simp
  · simp at hb

/-- A run of the handler over channels that exist, every pending bit of its snapshot still set. -/
theorem irqRun_keepsProtocol {cs : List Nat} {pending : Nat} (h : st.inProtocol) (hq : st.consumer.prompt)
    (hcs : ∀ c ∈ cs, c < st.nChannels) (hset : ∀ c, bitSet pending c = true → bitSet st.ints c = true) :
    Ensures (KeepsProtocol st) (irqRun cs pending st) := by
  induction cs generalizing pending st with
  | nil => exact ensures_next ⟨h, hq, rfl, rfl⟩
  | cons c cs ih =>
    obtain ⟨hc, hcs⟩ := List.forall_mem_cons.mp hcs
    unfold irqRun
    split
    · next hb =>
      have ⟨hp, _, _, huniq, _⟩ := h
      obtain ⟨s, hown⟩ := owner_of_inProtocol h hc (.inr (hset c hb))
      obtain ⟨y, hy, hserve⟩ := service_of_serviceable hp (serviceable_of_inProtocol h (hset c hb) hown) hq
      have hk := rearmed_keepsProtocol h hq hown (hset c hb) hy
      rw [dispatchChan, lookup_of_owns huniq hown]
      simp only [hserve, andThen_next]
      refine fun t ht => hk.trans (ih hk.inProtocol hk.prompt (fun d hd => hk.nChannels ▸ hcs d hd) (fun d hd => ?_) t ht)
      obtain ⟨-, rfl⟩ := owns_iff.mp hown
      simp only [rearmed_ints, bitSet_clearBit, Bool.and_eq_true] at hd ⊢
      exact ⟨hset d hd.1, hd.2⟩
    · exact ih h hq hcs hset

/-! ### Every protocol event, and the step. -/

theorem resetBlock_inProtocol (h : st.inProtocol) : (resetBlock st).inProtocol :=
  have ⟨hp, _⟩ := h
  resetWith_inProtocol hp st.nSlots st.nChannels

/-- Every protocol event but RESET. -/
theorem exec_keepsProtocol {i : Instr} (h : st.inProtocol) (hq : st.consumer.prompt) (hi : protocolEvent i = true)
    (hreset : i ≠ .reset) : Ensures (KeepsProtocol st) (exec i st) := by
  cases i with
  | reset => exact absurd rfl hreset
  | init s c handle =>
    exact ensures_require fun _ => ensures_require fun hs => ensures_require fun hc => ensures_require fun hempty =>
      ensures_require fun hfree => ensures_next (initSlot_keepsProtocol handle h hq (of_decide_eq_true hs)
        (of_decide_eq_true hc) (by simpa using hempty) (by simpa using hfree))
  | enable => exact ensures_require fun _ => ensures_next ⟨h, hq, rfl, rfl⟩
  | dma c bs =>
    refine ensures_require fun hg => ensures_require fun _ => ensures_next ?_
    simp only [Bool.and_eq_true, decide_eq_true_eq] at hg
    obtain ⟨ha, hl⟩ := hg
    obtain ⟨hk, harmed, hrem⟩ := transferBytes_keepsProtocol h hq ha (Nat.le_of_eq hl)
    exact hk.trans (finishTransfer_keepsProtocol hk.inProtocol hk.prompt harmed (by omega))
  | dmaByte c =>
    refine ensures_require fun he => ensures_require fun _ => ensures_next ?_
    obtain ⟨ha, hrem⟩ := byteEnabled_iff.mp he
    exact drawnStore_keepsProtocol h hq ha hrem
  | dmaDone c =>
    refine ensures_require fun he => ensures_next ?_
    obtain ⟨ha, hrem⟩ := doneEnabled_iff.mp he
    exact finishTransfer_keepsProtocol h hq ha hrem
  | irq =>
    exact ensures_require fun _ => ensures_require fun _ =>
      irqRun_keepsProtocol h hq (fun _ => mem_channels.mp) fun _ hb => hb
  | _ => cases hi

/-- By itself the hardware takes no RESET. -/
theorem hardwareStep_keepsProtocol (h : st.inProtocol) (hq : st.consumer.prompt) :
    Ensures (KeepsProtocol st) (hardwareStep st) := by
  unfold hardwareStep
  split
  · next i hi =>
    refine exec_keepsProtocol h hq (protocolEvent_of_hardwareEvent hi) ?_
    rintro rfl
    obtain ⟨c, hc⟩ := eq_dmaByte_of_hardwareEvent hi (.inl rfl)
    cases hc
  · exact ensures_next ⟨h, hq, rfl, rfl⟩

/-- Settles O50: nothing waits and no scan is open, so the step is an event of the trace or of the hardware; RESET empties the
block, and every other protocol event is confined to one slot and its channel (`exec_keepsProtocol`). -/
theorem protocolIsKept : Obligations.ProtocolIsKept := by
  intro st t h hq hnext hstep
  have ⟨_, hscan, hheld, _⟩ := h
  have hfree := resumes_of_free hheld
  by_cases htrace : st.trace = []
  · rw [step_of_hardware hfree htrace (.inl hscan), turn_of_free hheld] at hstep
    have hk := hardwareStep_keepsProtocol h hq t hstep
    exact ⟨hk.inProtocol, hk.prompt, fun _ => hk.fatal⟩
  · obtain ⟨i, st', hf, hi⟩ := hnext.resolve_left htrace
    obtain ⟨rest, hd, rfl⟩ := fetch_cases hf
    rw [step_of_trace hfree htrace, turn_of_free hheld, traceStep_of_ok hd,
      performEvent_admitted (st := { st with trace := rest }) (.inl hheld)] at hstep
    by_cases hreset : i = .reset
    · subst hreset
      cases hstep
      exact ⟨resetBlock_inProtocol (st := { st with trace := rest }) h, hq, fun hno => absurd ⟨hfree, _, hf⟩ hno⟩
    · have hk := exec_keepsProtocol (st := { st with trace := rest }) h hq hi hreset t hstep
      exact ⟨hk.inProtocol, hk.prompt, fun _ => hk.fatal⟩

end Sys2Proof.Machine
end

section
/-! Lock step with the sensor (43_rearm.md R167): a whole frame on an armed channel of an empty slot arrives with one DMA, and the
run of the handler that follows serves that slot alone. -/

namespace Sys2Proof.Machine

variable {st t : State} {s c pending : Nat} {f : List Byte} {cs : List Nat}

/-! ### A run of the handler for one channel. -/

theorem irqRun_of_none (h : ∀ d ∈ cs, bitSet pending d = false) : irqRun cs pending st = .next st := by
  induction cs with
  | nil => rfl
  | cons d cs ih =>
    obtain ⟨hd, h⟩ := List.forall_mem_cons.mp h
    rw [irqRun, hd, if_neg Bool.false_ne_true, ih h]

/-- Where one bit only is pending, the run is the dispatch of that bit. -/
theorem irqRun_of_single (hmem : c ∈ cs) (hbit : bitSet pending c = true) (honly : ∀ d, bitSet pending d = true → d = c)
    (h : dispatchChan c st = .next (.done t)) : irqRun cs pending st = .next t := by
  induction cs with
  | nil => cases hmem
  | cons d cs ih =>
    by_cases hdc : d = c
    · subst hdc
      have hnone : ∀ e ∈ cs, bitSet (clearBit pending d) e = false := fun e _ => by
        rw [bitSet_clearBit]
        cases he : bitSet pending e with
        | false => rfl
        | true => simp [honly e he]
      rw [irqRun, if_pos hbit, h]
      exact irqRun_of_none hnone
    · have hoff : bitSet pending d = false := Bool.eq_false_iff.mpr fun hd => hdc (honly d hd)
      rw [irqRun, hoff, if_neg Bool.false_ne_true]
      exact ih ((List.mem_cons.mp hmem).resolve_left (Ne.symm hdc))

/-! ### A whole frame in an empty slot. -/

/-- The block runs and is free, the slot `s` is empty but for the frame `f`, just stored from `insert` on, and the bit of its channel
`c` is the one pending. -/
structure State.Arrived (st : State) (s c : Nat) (f : List Byte) : Prop where
  wf : st.par.wf = true
  phase : st.phase = .run
  ready : st.ready
  prompt : st.consumer.prompt
  ints : st.ints = setBit 0 c
  lookup : st.lookup c = some s
  chan : c < st.nChannels
  empty : (st.slot s).extract = (st.slot s).insert
  request : (st.slot s).lastReq = st.par.frameSize
  frame : st.validFrame f
  bytes : st.holds s (st.slot s).insert f

/-- What the scan of a slot yields that holds one frame. -/
def State.wholeFrame (st : State) (s : Nat) (f : List Byte) (sc : List Host.Cell) : Yield :=
  { scratch := sc, frames := [st.delivery s f], consumed := st.par.frameSize, request := st.par.frameSize }

/-- The scan finds the frame, delivers it, and asks for a whole frame. -/
theorem State.Arrived.service_eq (h : st.Arrived s c f) :
    ∃ sc, service s st = .next (.done (st.rearmed s (st.wholeFrame s f sc))) := by
  have hp := h.wf
  obtain ⟨-, hcap, hlog⟩ := wf_iff.mp hp
  obtain ⟨hv, -⟩ := owns_iff.mp (owns_of_lookup h.lookup)
  have hs := lt_of_valid hv
  have hslot := advInsert_slot_self hs (st.slot s).lastReq
  have hzero : (st.avail s).toNat = 0 := by rw [State.avail, h.empty, BitVec.sub_self]; rfl
  have havail : ((advInsert s (st.slot s).lastReq st).avail s).toNat = st.par.frameSize := by
    rw [avail_advInsert hs (by rw [hzero, h.request]; exact Nat.lt_of_le_of_lt (by omega) (capacity_lt hlog)), hzero, h.request,
      Nat.zero_add]
  have hholds : (advInsert s (st.slot s).lastReq st).holds s ((advInsert s (st.slot s).lastReq st).slot s).extract ([] ++ f) := by
    intro i hi
    rw [State.logicalByte, State.bufByte, hslot, List.nil_append]
    exact h.empty ▸ h.bytes i hi
  obtain ⟨sc, hrun⟩ := scanRun_garbled (st := advInsert s (st.slot s).lastReq st)
    (k := st.par.frameSize + 1) (r := scanEntry s (advInsert s (st.slot s).lastReq st)) (g := []) hp
    ⟨h.frame, hholds, nofun⟩ h.prompt (by simpa [scanEntry] using havail) (Nat.zero_le _) (by simp only [scanEntry]; omega)
  have hdelivery : (advInsert s (st.slot s).lastReq st).delivery s f = st.delivery s f := by
    rw [State.delivery, hslot]
    rfl
  have hscan : scanSlot s (advInsert s (st.slot s).lastReq st) =
      .next (.done st.par.frameSize (st.rescanned s (st.wholeFrame s f sc))) := by
    rw [scanSlot_eq (by rw [havail]; exact hcap), havail, hrun, State.rescanned, State.wholeFrame, ← hdelivery]
    simp only [scanEntry, havail]
    rfl
  exact ⟨sc, by rw [service, hscan]; rfl⟩

/-- IRQ serves the slot. -/
theorem State.Arrived.exec_irq_eq (h : st.Arrived s c f) :
    ∃ sc, exec .irq st = .next (st.rearmed s (st.wholeFrame s f sc)) := by
  obtain ⟨-, hscan, hheld⟩ := h.ready
  obtain ⟨sc, hserve⟩ := h.service_eq
  have hbusy : st.busy = false := by simp [State.busy, hscan, hheld]
  have hdispatch : dispatchChan c st = .next (.done (st.rearmed s (st.wholeFrame s f sc))) := by
    rw [dispatchChan, h.lookup]
    simp only [hserve, andThen_next]
  refine ⟨sc, ?_⟩
  change execIrq st = _
  rw [execIrq, decide_eq_true h.phase, hbusy, h.ints]
  exact irqRun_of_single (mem_channels.mpr h.chan) (by simp) (fun d hd => by simpa [eq_comm] using hd) hdispatch

/-- The slot after its service: empty again, past the frame. -/
theorem State.Arrived.slot_after (h : st.Arrived s c f) (sc : List Host.Cell) :
    (st.rearmed s (st.wholeFrame s f sc)).slot s = { st.slot s with
      insert := advance (st.slot s).insert st.par.frameSize
      extract := advance (st.slot s).insert st.par.frameSize } := by
  obtain ⟨hv, -⟩ := owns_iff.mp (owns_of_lookup h.lookup)
  rw [rearmed_slot_self (lt_of_valid hv), State.wholeFrame, ← h.request, h.empty]

/-- The frame, the acknowledge, the rearm. -/
theorem State.Arrived.out_after (h : st.Arrived s c f) (sc : List Host.Cell) :
    (st.rearmed s (st.wholeFrame s f sc)).out = st.out ++ [st.delivery s f, .ackReq c,
      .armReq c (phys st.par (advance (st.slot s).insert st.par.frameSize)) st.par.frameSize] := by
  obtain ⟨hv, hsc⟩ := owns_iff.mp (owns_of_lookup h.lookup)
  rw [rearmed_out (lt_of_valid hv), rearmOf, h.slot_after, hsc, h.request, List.append_assoc]
  rfl

theorem State.Arrived.chan_after (h : st.Arrived s c f) (sc : List Host.Cell) :
    (st.rearmed s (st.wholeFrame s f sc)).chan c =
      { armed := true
        waddr := phys st.par (advance (st.slot s).insert st.par.frameSize)
        remaining := st.par.frameSize
        cfg := (st.chan c).cfg } := by
  obtain ⟨hv, rfl⟩ := owns_iff.mp (owns_of_lookup h.lookup)
  rw [rearmed_chan_self (lt_of_valid hv) h.chan, h.request]
  rfl

theorem State.Arrived.ints_after (h : st.Arrived s c f) (sc : List Host.Cell) :
    (st.rearmed s (st.wholeFrame s f sc)).ints = 0 := by
  obtain ⟨-, hsc⟩ := owns_iff.mp (owns_of_lookup h.lookup)
  refine mask_ext fun d => ?_
  simp [h.ints, hsc]

/-! ### The transfer. -/

/-- What a transfer does to the rest of the machine does not depend on the peripherals. -/
theorem transferBytes_with_uarts (us vs : List Uart) (bs : List Byte) (st : State) :
    { transferBytes c bs { st with uarts := us } with uarts := vs } = { transferBytes c bs st with uarts := vs } := by
  induction bs generalizing st us with
  | nil => rfl
  | cons b bs ih => exact ih _ (storeByte c b (drawStream (st.chan c).cfg.slot (st.uart (st.chan c).cfg.slot).rx st))

/-- Peripherals aside, the bytes of DMA are one transfer, whatever peripherals there are. -/
theorem transferBytes_eq_transferred (hc : c < st.nChannels) (hs : (st.chan c).cfg.slot < st.nSlots)
    (hw : (st.chan c).waddr < st.par.capacity) (us : List Uart) (bs : List Byte) :
    { transferBytes c bs st with uarts := us } = { st.transferred c bs with uarts := us } := by
  have hu : (st.chan c).cfg.slot < (List.replicate st.nSlots Uart.reset).length := by simpa using hs
  rw [← transferBytes_with_uarts (List.replicate st.nSlots Uart.reset) us bs st,
    transferBytes_eq (st := { st with uarts := List.replicate st.nSlots Uart.reset }) hc hs hu hw]
  rfl

/-- The state after DMA of `bs` on channel `c`. -/
def State.fed (st : State) (c : Nat) (bs : List Byte) : State := finishTransfer c (transferBytes c bs st)

variable {bs : List Byte}

theorem exec_dma_fed (ha : (st.chan c).armed = true) (hl : bs.length = (st.chan c).remaining)
    (hr : st.reading (st.chan c).cfg.slot = false) : exec (.dma c bs) st = .next (st.fed c bs) := by
  change execDma c bs st = _
  rw [execDma, ha, decide_eq_true hl, hr]
  rfl

/-- DMA changes slots, channels, peripherals and `INTS` only. -/
theorem fed_frame : { st.fed c bs with slots := st.slots, chans := st.chans, uarts := st.uarts, ints := st.ints } = st :=
  congrArg (fun x : State => { x with ints := st.ints }) (transferBytes_frame c bs st)

theorem fed_ints : (st.fed c bs).ints = setBit st.ints c :=
  (congrArg (fun x : State => setBit x.ints c) (transferBytes_frame c bs st) :)

theorem fed_nChannels : (st.fed c bs).nChannels = st.nChannels :=
  (finishTransfer_nChannels _ c).trans (keepsShape_transferBytes c bs).nChannels

theorem fed_nSlots : (st.fed c bs).nSlots = st.nSlots := (keepsShape_transferBytes c bs).nSlots

section
variable (hc : c < st.nChannels) (hs : (st.chan c).cfg.slot < st.nSlots) (hw : (st.chan c).waddr < st.par.capacity)
include hc hs hw

theorem fed_slot (v : Nat) : (st.fed c bs).slot v = (st.transferred c bs).slot v :=
  (congrArg (State.slot · v) (transferBytes_eq_transferred hc hs hw st.uarts bs) :)

theorem fed_cfg : ((st.fed c bs).chan c).cfg = (st.chan c).cfg := by
  have h : (st.fed c bs).chan c = (finishTransfer c (st.transferred c bs)).chan c :=
    (congrArg (fun x => (finishTransfer c x).chan c) (transferBytes_eq_transferred hc hs hw st.uarts bs) :)
  rw [h, finishTransfer_transferred_chan hc]

theorem fed_owns (v d : Nat) : (st.fed c bs).owns v d = st.owns v d := by
  rw [State.owns, State.owns, fed_slot hc hs hw]
  by_cases hv : v = (st.chan c).cfg.slot
  · rw [hv, transferred_slot_self hs]
    rfl
  · rw [transferred_slot_ne hv]

theorem fed_lookup (d : Nat) : (st.fed c bs).lookup d = st.lookup d :=
  lookup_congr fed_nSlots (fed_owns hc hs hw) d

end

theorem rearmed_owns (hs : s < st.nSlots) (y : Yield) (v d : Nat) : (st.rearmed s y).owns v d = st.owns v d := by
  rw [State.owns, State.owns]
  by_cases hv : v = s
  · rw [hv, rearmed_slot_self hs]
  · rw [rearmed_slot_ne hv]

/-- A frame fed to an armed channel of an empty slot arrives. -/
theorem arrived_fed (hp : st.par.wf = true) (hphase : st.phase = .run) (hready : st.ready) (hq : st.consumer.prompt)
    (hints : st.ints = 0) (hl : st.lookup c = some s) (hempty : (st.slot s).extract = (st.slot s).insert)
    (hreq : (st.slot s).lastReq = st.par.frameSize) (hc : c < st.nChannels) (hcfg : (st.chan c).cfg.slot = s)
    (hw : (st.chan c).waddr = phys st.par (st.slot s).insert) (hf : st.validFrame f) : (st.fed c f).Arrived s c f := by
  subst hcfg
  obtain ⟨-, hcap, hlog⟩ := wf_iff.mp hp
  obtain ⟨hlen, -, -⟩ := frameValid_of_isFrame hf
  obtain ⟨hv, -⟩ := owns_iff.mp (owns_of_lookup hl)
  have hs := lt_of_valid hv
  have hwaddr : (st.chan c).waddr < st.par.capacity := hw ▸ phys_lt _ _
  have hframe := fed_frame (st := st) (c := c) (bs := f)
  have hpar : (st.fed c f).par = st.par := (congrArg State.par hframe :)
  have hcons : (st.fed c f).consumer = st.consumer := (congrArg State.consumer hframe :)
  have hslot := (fed_slot (bs := f) hc hs hwaddr (st.chan c).cfg.slot).trans (transferred_slot_self hs)
  obtain ⟨hrun, hscan, hheld⟩ := hready
  exact {
    wf := hpar ▸ hp
    phase := (congrArg State.phase hframe :).trans hphase
    ready := ⟨(congrArg State.fatal hframe :).trans hrun, (congrArg State.scan hframe :).trans hscan,
      (congrArg State.held hframe :).trans hheld⟩
    prompt := hcons ▸ hq
    ints := by rw [fed_ints, hints]
    lookup := (fed_lookup hc hs hwaddr c).trans hl
    chan := fed_nChannels.symm ▸ hc
    empty := by rw [hslot]; exact hempty
    request := by rw [hslot, hpar]; exact hreq
    frame := by rw [State.validFrame, hpar]; exact hf
    bytes := fun i hi => by
      rw [State.logicalByte, State.bufByte, hpar, hslot]
      simp only [State.ringWritten]
      rw [phys_advance_phys (Nat.le_of_lt hlog), ← hw]
      exact memRead_ringWrite_inside hwaddr hi (by omega) }

/-- Settles O52: the frame arrives (`arrived_fed`), and the handler serves its slot (`State.Arrived.exec_irq_eq`). -/
theorem lockStepDeliversEveryFrame : Obligations.LockStepDeliversEveryFrame := by
  intro s c f st hp hphase hready hq hints hl hempty hreq hchan hf
  have ⟨_, hscan, hheld⟩ := hready
  have ha : (st.chan c).armed = true := by rw [hchan]
  have hc := lt_of_armed ha
  have hcfg : (st.chan c).cfg.slot = s := by rw [hchan]; rfl
  have hw : (st.chan c).waddr = phys st.par (st.slot s).insert := by rw [hchan]
  obtain ⟨hv, -⟩ := owns_iff.mp (owns_of_lookup hl)
  have hs := lt_of_valid hv
  have hcs : (st.chan c).cfg.slot < st.nSlots := hcfg.symm ▸ hs
  have hwaddr : (st.chan c).waddr < st.par.capacity := hw ▸ phys_lt _ _
  obtain ⟨hlen, -, -⟩ := frameValid_of_isFrame hf
  have hdma : exec (.dma c f) st = .next (st.fed c f) :=
    exec_dma_fed ha (by rw [hchan]; exact hlen) (reading_of_free hscan hheld _)
  have harr := arrived_fed hp hphase hready hq hints hl hempty hreq hc hcfg hw hf
  obtain ⟨sc, hirq⟩ := harr.exec_irq_eq
  have hfed := fed_frame (st := st) (c := c) (bs := f)
  have hend := rearmed_frame (st := st.fed c f) (s := s) (y := (st.fed c f).wholeFrame s f sc)
  have hpar : (st.fed c f).par = st.par := (congrArg State.par hfed :)
  have hout : (st.fed c f).out = st.out := (congrArg State.out hfed :)
  have hslot : (st.fed c f).slot s = st.ringWritten s (st.chan c).waddr f := by
    rw [fed_slot hc hcs hwaddr, ← hcfg, transferred_slot_self hcs]
  have hins : ((st.fed c f).slot s).insert = (st.slot s).insert := by rw [hslot]; rfl
  have hdelivery : (st.fed c f).delivery s f = st.delivery s f := by rw [State.delivery, hslot, hpar]; rfl
  obtain ⟨hrun, hnoscan, hnoheld⟩ := harr.ready
  refine ⟨(st.fed c f).rearmed s ((st.fed c f).wholeFrame s f sc), ?_, ?_, ?_, ?_, harr.ints_after sc,
    (congrArg State.phase hend :).trans harr.phase, ⟨(congrArg State.fatal hend :).trans hrun,
      (congrArg State.scan hend :).trans hnoscan, (congrArg State.held hend :).trans hnoheld⟩,
    rearmed_consumer ▸ prompt_drop harr.prompt _, ?_⟩
  · rw [feed, runEvents, hdma, andThen_next, runEvents, hirq]
    rfl
  · rw [harr.out_after, hout, hdelivery, hins, hpar]
  · rw [harr.slot_after, hins, hpar, hslot]
    rfl
  · rw [harr.chan_after, harr.slot_after, hins, hpar, fed_cfg hc hcs hwaddr, hchan]
  · rw [lookup_congr rearmed_nSlots (rearmed_owns (fed_nSlots.symm ▸ hs) _) c]
    exact harr.lookup

end Sys2Proof.Machine
end

section
/-! INIT and ENABLE (44_demux.md R184 to R186) as exact next states, and LOOKUP (R182) as the search of the registry that it is. -/

namespace Sys2Proof.Machine

variable {st t : State} {s c h : Nat}

/-! ### INIT. -/

/-- The five preconditions of INIT (R185 a to e). -/
def State.Admits (st : State) (s c : Nat) : Prop :=
  st.phase = .config ∧ s < st.nSlots ∧ c < st.nChannels ∧ (st.slot s).valid = false ∧ ∀ u, st.owns u c = false

/-- INIT completes where it is admitted, in the state that `initSlot` makes. -/
theorem exec_init_eq_next : exec (.init s c h) st = .next t ↔ st.Admits s c ∧ initSlot s c h st = t := by
  change execInit s c h st = _ ↔ _
  simp only [execInit, require_eq_next, State.Admits, decide_eq_true_eq, isSlot_iff, isChan_iff, Bool.not_eq_true',
    Option.isNone_iff_eq_none, lookup_eq_none, Host.Outcome.next.injEq, and_assoc]

theorem exec_init_eq (hadm : st.Admits s c) : exec (.init s c h) st = .next (initSlot s c h st) :=
  exec_init_eq_next.mpr ⟨hadm, rfl⟩

/-- INIT reads no memory. -/
theorem exec_init_not_fault (f : Fault) : exec (.init s c h) st ≠ .fault f := by
  change execInit s c h st ≠ _
  simp [execInit, require_eq_fault]

theorem exec_init_refuses (hadm : ¬ st.Admits s c) : ∃ why, exec (.init s c h) st = .refused why := by
  cases ho : exec (.init s c h) st with
  | next t => exact absurd (exec_init_eq_next.mp ho).1 hadm
  | fault f => exact absurd ho (exec_init_not_fault f)
  | refused why => exact ⟨why, rfl⟩

/-- Settles O7: the guards of `execInit` are the five preconditions. -/
theorem initCompletesExactlyWhenAdmitted : Obligations.InitCompletesExactlyWhenAdmitted := fun _ _ _ _ =>
  ⟨⟨fun ⟨_, ht⟩ => (exec_init_eq_next.mp ht).1, fun hadm => ⟨_, exec_init_eq hadm⟩⟩, exec_init_not_fault⟩

section
variable (hcap : st.par.frameSize ≤ st.par.capacity)
include hcap

/-- INIT is confined to its slot and its channel. -/
theorem confined_initSlot : Confined s c st (initSlot s c h st) := by
  rw [initSlot_eq s c h hcap]
  exact ⟨rfl, by simp, by simp, rfl, rfl, rfl, id, fun v hv => slot_setSlot_ne hv _,
    fun d hd => (armChan_chan_ne hd _ _).trans (configChan_chan_ne hd _), fun _ _ => rfl⟩

theorem initSlot_slot_self (hs : s < st.nSlots) : (initSlot s c h st).slot s = st.freshSlot s c h := by
  rw [initSlot_eq s c h hcap]
  exact slot_setSlot_self hs _

theorem initSlot_chan_self (hc : c < st.nChannels) : (initSlot s c h st).chan c =
    { armed := true, waddr := 0, remaining := st.par.frameSize, cfg := configFor st.par s } := by
  rw [initSlot_eq s c h hcap, armChan_chan_self (by simpa using hc), configChan_chan_self (by simpa using hc)]
  rfl

theorem initSlot_out : (initSlot s c h st).out =
    st.out ++ [.cfgReq c (configFor st.par s), .armReq c 0 st.par.frameSize] := by
  rw [initSlot_eq s c h hcap]
  exact List.append_assoc _ _ _

/-- INIT changes slots, channels and the port history only. -/
theorem initSlot_frame : { initSlot s c h st with slots := st.slots, chans := st.chans, out := st.out } = st := by
  rw [initSlot_eq s c h hcap]
  rfl

end

/-- A buffer smaller than a frame: INIT is the fatal stop (60_exceptions.md R202). -/
theorem initSlot_of_small (hcap : st.par.capacity < st.par.frameSize) :
    initSlot s c h st = raiseFatal capacityTooSmall c st := if_pos hcap

/-- The first fatal stop records its cause and channel. -/
theorem raiseFatal_of_running (code : BitVec 2) (c : Nat) (hf : st.fatal = false) : raiseFatal code c st =
    { st with fatal := true, diag := { code := code, chan := c }, scan := none, held := none } := by
  rw [raiseFatal, hf]
  rfl

/-- Settles O8: the next state is `initSlot`, which arms the channel where a frame fits the buffer and is the fatal stop where none
does. -/
theorem initMakesTheInstance : Obligations.InitMakesTheInstance := by
  refine ⟨fun s c h st hphase hs hc hempty hfree hcap => ?_, fun s c h st => exec_init_refuses,
    fun s c h st hphase hs hc hempty hfree hcap => ?_⟩
  · have hk := confined_initSlot (s := s) (c := c) (h := h) hcap
    exact ⟨_, configFor st.par s, exec_init_eq ⟨hphase, hs, hc, hempty, hfree⟩, initSlot_slot_self hcap hs, hk.slot,
      initSlot_chan_self hcap hc, rfl, rfl, rfl, rfl, rfl, rfl, rfl, rfl, hk.chan, initSlot_out hcap, initSlot_frame hcap⟩
  · have hrun := fatal_of_phase_config (decide_eq_true hphase)
    refine ⟨_, (exec_init_eq ⟨hphase, hs, hc, hempty, hfree⟩).trans (congrArg _ (initSlot_of_small hcap)), ?_⟩
    rw [raiseFatal_of_running _ _ hrun]
    exact ⟨rfl, rfl, rfl, rfl⟩

/-! ### ENABLE. -/

/-- Settles O9: the one guard of `execEnable` is the phase. -/
theorem enableStartsRun : Obligations.EnableStartsRun := by
  refine fun st => ⟨fun hphase => ⟨?_, ?_⟩, fun hphase => ?_⟩
  · change execEnable st = _
    rw [execEnable, decide_eq_true hphase, require_true]
  · simp [State.phase, fatal_of_phase_config (decide_eq_true hphase)]
  · change execEnable st = _
    rw [execEnable, decide_eq_false hphase, require_false]

/-! ### LOOKUP. -/

/-- The slot that LOOKUP finds is the lowest owner. -/
theorem not_owns_below_lookup {u : Nat} (hl : st.lookup c = some s) (hu : u < s) : st.owns u c = false := by
  obtain ⟨-, -, hbelow⟩ := List.find?_range_eq_some.mp hl
  simpa using hbelow u hu

/-- Settles O53: an existing channel is looked up, and what is found is the lowest owner. -/
theorem lookupFindsTheOwner : Obligations.LookupFindsTheOwner := by
  refine ⟨fun c st hc => ⟨st.lookup c, ?_, fun s hl => ?_, ?_⟩, fun c st hc => ?_⟩
  · change execLookup c st = _
    rw [execLookup, isChan_iff.mpr hc, require_true]
    rfl
  · obtain ⟨hv, hch⟩ := owns_iff.mp (owns_of_lookup hl)
    exact ⟨hv, hch, fun u hu hown => Bool.eq_false_iff.mp (not_owns_below_lookup hl hu) (owns_iff.mpr hown)⟩
  · simp only [lookup_eq_none, ← owns_iff, Bool.not_eq_true]
  · change execLookup c st = _
    rw [execLookup, State.isChan, decide_eq_false (Nat.not_lt.mpr hc), require_false]

end Sys2Proof.Machine
end

section
/-! The registry is written once (44_demux.md R196). Every operation but RESET and INIT keeps which slots are valid, their channels and
their handles (`KeepsRegistry`); INIT writes an empty slot and a channel without an owner. -/

namespace Sys2Proof.Machine

variable {st t u : State} {s c : Nat}

/-- From `st` to `t` no slot becomes valid or empty, and channels and handles stay as they are. -/
structure KeepsRegistry (st t : State) : Prop where
  nSlots : t.nSlots = st.nSlots
  valid : ∀ s, (t.slot s).valid = (st.slot s).valid
  chan : ∀ s, (t.slot s).chan = (st.slot s).chan
  ctx : ∀ s, (t.slot s).ctx = (st.slot s).ctx

theorem KeepsRegistry.trans (h1 : KeepsRegistry st t) (h2 : KeepsRegistry t u) : KeepsRegistry st u where
  nSlots := h2.nSlots.trans h1.nSlots
  valid s := (h2.valid s).trans (h1.valid s)
  chan s := (h2.chan s).trans (h1.chan s)
  ctx s := (h2.ctx s).trans (h1.ctx s)

theorem KeepsRegistry.owns (h : KeepsRegistry st t) (s c : Nat) : t.owns s c = st.owns s c := by
  rw [State.owns, State.owns, h.valid, h.chan]

theorem KeepsRegistry.lookup (h : KeepsRegistry st t) (c : Nat) : t.lookup c = st.lookup c := lookup_congr h.nSlots h.owns c

theorem KeepsRegistry.registryUnique (h : KeepsRegistry st t) (hu : st.registryUnique) : t.registryUnique :=
  registryUnique_iff.mpr fun v w d => by
    rw [h.owns, h.owns]
    exact registryUnique_iff.mp hu v w d

/-! ### The shared operations. -/

/-- An update that writes no slot. -/
theorem keepsRegistry_of_same_slots (hs : t.slots = st.slots := by rfl) : KeepsRegistry st t :=
  have hslot : ∀ s, t.slot s = st.slot s := fun s => congrArg (·.getD s Slot.reset) hs
  ⟨congrArg List.length hs, fun s => by rw [hslot], fun s => by rw [hslot], fun s => by rw [hslot]⟩

@[refl] theorem KeepsRegistry.refl (st : State) : KeepsRegistry st st := keepsRegistry_of_same_slots

theorem keepsRegistry_setSlot {x : Slot} (hv : x.valid = (st.slot s).valid := by rfl)
    (hc : x.chan = (st.slot s).chan := by rfl) (hctx : x.ctx = (st.slot s).ctx := by rfl) :
    KeepsRegistry st (st.setSlot s x) := by
  have hslot : ∀ v, (st.setSlot s x).slot v = x ∧ v = s ∨ (st.setSlot s x).slot v = st.slot v := fun v => by
    rw [slot_setSlot]
    split
    · next h => exact .inl ⟨rfl, h.1⟩
    · exact .inr rfl
  refine ⟨setSlot_nSlots st s x, fun v => ?_, fun v => ?_, fun v => ?_⟩ <;> rcases hslot v with ⟨h, rfl⟩ | h <;> rw [h]
  · exact hv
  · exact hc
  · exact hctx

theorem keepsRegistry_setResult (v : OpResult) : KeepsRegistry st (st.setResult v) := keepsRegistry_of_same_slots

theorem keepsRegistry_with_held (w : Option Held) : KeepsRegistry st { st with held := w } := keepsRegistry_of_same_slots

theorem keepsRegistry_advInsert (s n : Nat) : KeepsRegistry st (advInsert s n st) := keepsRegistry_setSlot

theorem keepsRegistry_advExtract (s n : Nat) : KeepsRegistry st (advExtract s n st) := keepsRegistry_setSlot

theorem keepsRegistry_writeBuf (s a : Nat) (b : Byte) : KeepsRegistry st (writeBuf s a b st) := keepsRegistry_setSlot

theorem keepsRegistry_pushBytes (s : Nat) (p : Cursor) (bs : List Byte) : KeepsRegistry st (pushBytes s p bs st) := by
  induction bs generalizing p st with
  | nil => exact KeepsRegistry.refl st
  | cons b bs ih => exact (keepsRegistry_writeBuf s _ b).trans (ih _)

theorem keepsRegistry_drawnStore (c : Nat) (b : Byte) (s : Nat) (rx : List Byte) :
    KeepsRegistry st (storeByte c b (drawStream s rx st)) :=
  ((keepsRegistry_of_same_slots (t := drawStream s rx st)).trans (keepsRegistry_writeBuf _ _ b)).trans
    keepsRegistry_of_same_slots

theorem keepsRegistry_transferBytes (c : Nat) (bs : List Byte) : KeepsRegistry st (transferBytes c bs st) := by
  induction bs generalizing st with
  | nil => exact KeepsRegistry.refl st
  | cons b bs ih => exact (keepsRegistry_drawnStore c b _ _).trans ih

theorem keepsRegistry_raiseFatal (code : BitVec 2) (c : Nat) : KeepsRegistry st (raiseFatal code c st) :=
  keepsRegistry_of_same_slots (congrArg State.slots (raiseFatal_frame code c st) :)

/-! ### Scans, services, the handler. -/

theorem keepsRegistry_of_scanMoved (h : scanMoved s st t) : KeepsRegistry st t := by
  obtain ⟨sc, l, q, m, rfl⟩ := h
  exact (keepsRegistry_of_same_slots (t := st.shown sc l q)).trans (keepsRegistry_advExtract s m)

theorem scanRun_keepsRegistry (k : Nat) (r : ScanRegs) : Ensures (fun o => KeepsRegistry st o.state) (scanRun k r st) :=
  fun _ ho => keepsRegistry_of_scanMoved (scanRun_moves ho).1

theorem scanSlot_keepsRegistry (s : Nat) : Ensures (fun o => KeepsRegistry st o.state) (scanSlot s st) :=
  ensures_require fun _ => scanRun_keepsRegistry _ _

theorem scanAgain_keepsRegistry (r : ScanRegs) : Ensures (fun o => KeepsRegistry st o.state) (scanAgain r st) :=
  scanRun_keepsRegistry _ _

theorem keepsRegistry_serviceEnd (s n : Nat) : KeepsRegistry st (serviceEnd s n st) := by
  rw [serviceEnd_eq]
  exact (keepsRegistry_setSlot (x := { st.slot s with lastReq := n })).trans keepsRegistry_of_same_slots

theorem service_keepsRegistry (s : Nat) : Ensures (fun o => KeepsRegistry st o.state) (service s st) := by
  refine ensures_andThen (scanSlot_keepsRegistry s) fun o ho => ?_
  have hscan : KeepsRegistry st o.state := (keepsRegistry_advInsert s _).trans ho
  cases o with
  | done n t => exact ensures_next (hscan.trans (keepsRegistry_serviceEnd s n))
  | held r t => exact ensures_next hscan

theorem dispatchChan_keepsRegistry (c : Nat) : Ensures (fun o => KeepsRegistry st o.state) (dispatchChan c st) := by
  intro o ho
  rcases dispatchChan_cases ho with ⟨-, rfl⟩ | ⟨s, t, -, h, rfl⟩ | ⟨s, r, t, -, h, rfl⟩
  · exact keepsRegistry_raiseFatal _ c
  · exact service_keepsRegistry s _ h
  · exact service_keepsRegistry s _ h

theorem irqRun_keepsRegistry (cs : List Nat) (pending : Nat) : Ensures (KeepsRegistry st) (irqRun cs pending st) := fun _ ht =>
  irqRun_induction (P := fun _ x => KeepsRegistry st x) (fun _ _ h => h)
    (fun c _ _ _ h _ hd => h.trans (dispatchChan_keepsRegistry c _ hd))
    (fun c _ _ _ _ h _ hd => (h.trans (dispatchChan_keepsRegistry c _ hd)).trans (keepsRegistry_with_held _))
    (fun c _ _ h _ _ => h.trans (keepsRegistry_raiseFatal _ c)) (KeepsRegistry.refl st) ht

theorem resume_keepsRegistry : Ensures (KeepsRegistry st) (resume st) := by
  have hfree : KeepsRegistry st { st with held := none } := keepsRegistry_with_held none
  unfold resume
  split
  · exact ensures_next (KeepsRegistry.refl st)
  · exact ensures_next hfree
  · exact ensures_next keepsRegistry_of_same_slots
  · refine ensures_andThen (scanAgain_keepsRegistry _) fun o ho => ?_
    cases o with
    | done n t => exact ensures_next (hfree.trans (ho.trans (keepsRegistry_setResult _)))
    | held r t => exact ensures_next (hfree.trans (ho.trans (keepsRegistry_with_held _)))
  · refine ensures_andThen (scanAgain_keepsRegistry _) fun o ho => ?_
    cases o with
    | done n t => exact ensures_next (hfree.trans (ho.trans (keepsRegistry_serviceEnd _ n)))
    | held r t => exact ensures_next (hfree.trans (ho.trans (keepsRegistry_with_held _)))
  · refine ensures_andThen (scanAgain_keepsRegistry _) fun o ho => ?_
    cases o with
    | done n t => exact fun v hv => (hfree.trans (ho.trans (keepsRegistry_serviceEnd _ n))).trans (irqRun_keepsRegistry _ _ v hv)
    | held r t => exact ensures_next (hfree.trans (ho.trans (keepsRegistry_with_held _)))

/-! ### Classes of a scan performed alone. -/

theorem performClass_keepsRegistry (k : ScanClass) (r : ScanRegs) :
    Ensures (fun o => KeepsRegistry st o.state) (performClass k r st) := by
  intro o ho
  rcases performClass_moves ho with ⟨n, m, rfl⟩ | ⟨sc, l, q, n, rfl⟩ | ⟨sc, l, q, rfl⟩
  · exact keepsRegistry_advExtract _ m
  · exact keepsRegistry_of_same_slots
  · exact keepsRegistry_of_same_slots

theorem performAndKeep_keepsRegistry (k : ScanClass) (r : ScanRegs) :
    Ensures (KeepsRegistry st) (andThen (performClass k r st) keepClass) :=
  ensures_andThen (performClass_keepsRegistry k r) fun o ho => by
    cases o <;> exact ensures_next (KeepsRegistry.trans ho keepsRegistry_of_same_slots)

theorem classAlone_keepsRegistry (k : ScanClass) (s : Nat) : Ensures (KeepsRegistry st) (classAlone k s st) :=
  ensures_require fun _ => ensures_require fun _ => ensures_classRegs fun r => ensures_andThen_any fun _ =>
    ensures_require fun _ => performAndKeep_keepsRegistry k r

theorem execHeaderByte_keepsRegistry : Ensures (KeepsRegistry st) (execHeaderByte st) :=
  ensures_openScan fun r => ensures_andThen_any fun k => ensures_require fun _ => performAndKeep_keepsRegistry k r

theorem execFrame_keepsRegistry (raw : List Byte) : Ensures (KeepsRegistry st) (execFrame raw st) :=
  ensures_openScan fun r => ensures_andThen_any fun _ => ensures_require fun _ => ensures_andThen_any fun _ =>
    ensures_require fun _ => performAndKeep_keepsRegistry .accept r

/-! ### The other operations with more than one outcome. -/

theorem execScan_keepsRegistry (s : Nat) : Ensures (KeepsRegistry st) (execScan s st) := by
  refine ensures_require fun _ => ensures_require fun _ => ensures_require fun _ =>
    ensures_andThen (scanSlot_keepsRegistry s) fun o (ho : KeepsRegistry st o.state) => ?_
  cases o with
  | done n t => exact ensures_next (ho.trans (keepsRegistry_setResult _))
  | held r t => exact ensures_next (ho.trans (keepsRegistry_with_held _))

theorem execSvc_keepsRegistry (s : Nat) : Ensures (KeepsRegistry st) (execSvc s st) := by
  refine ensures_require fun _ => ensures_require fun _ => ensures_require fun _ => ensures_require fun _ =>
    ensures_andThen (service_keepsRegistry s) fun o (ho : KeepsRegistry st o.state) => ?_
  cases o with
  | done t => exact ensures_next ho
  | held r t => exact ensures_next (ho.trans (keepsRegistry_with_held _))

theorem execDispatch_keepsRegistry (c : Nat) : Ensures (KeepsRegistry st) (execDispatch c st) := by
  refine ensures_require fun _ => ensures_require fun _ => ensures_require fun _ => ensures_require fun _ =>
    ensures_andThen (dispatchChan_keepsRegistry c) fun o (ho : KeepsRegistry st o.state) => ?_
  cases o with
  | done t => exact ensures_next ho
  | held r t => exact ensures_next (ho.trans (keepsRegistry_with_held _))
  | fatal t => exact ensures_next ho

/-! ### Every operation, and the step. -/

/-- Every operation but RESET and INIT keeps the registry. -/
theorem exec_keepsRegistry {i : Instr} (hreset : i ≠ .reset) (hinit : ∀ s c h, i ≠ .init s c h) :
    Ensures (KeepsRegistry st) (exec i st) := by
  cases i with
  | reset => exact absurd rfl hreset
  | init s c h => exact absurd rfl (hinit s c h)
  | enable => exact ensures_require fun _ => ensures_next keepsRegistry_of_same_slots
  | crcStep c8 b => exact ensures_next (keepsRegistry_setResult _)
  | crcRange l => exact ensures_next (keepsRegistry_setResult _)
  | frameValid f => exact ensures_require fun _ => ensures_next (keepsRegistry_setResult _)
  | rbPhys c => exact ensures_next (keepsRegistry_setResult _)
  | rbAvail s => exact ensures_require fun _ => ensures_next (keepsRegistry_setResult _)
  | rbWindow s c n => exact ensures_require fun _ => ensures_require fun _ => ensures_next (keepsRegistry_setResult _)
  | rbCopy s c n =>
    exact ensures_require fun _ => ensures_require fun _ => ensures_require fun _ => ensures_require fun _ =>
      ensures_andThen_any fun _ => ensures_next keepsRegistry_of_same_slots
  | rbAdvi s n =>
    exact ensures_require fun _ => ensures_require fun _ => ensures_require fun _ =>
      ensures_next (keepsRegistry_advInsert s n)
  | rbAdvx s n =>
    exact ensures_require fun _ => ensures_require fun _ => ensures_require fun _ => ensures_require fun _ =>
      ensures_next (keepsRegistry_advExtract s n)
  | rbDmawr s a b =>
    exact ensures_require fun _ => ensures_require fun _ => ensures_require fun _ =>
      ensures_next (keepsRegistry_writeBuf s a b)
  | push s l =>
    exact ensures_require fun _ => ensures_require fun _ =>
      ensures_next ((keepsRegistry_pushBytes s _ l).trans (keepsRegistry_advInsert s _))
  | scan s => exact execScan_keepsRegistry s
  | scnIdle s => exact classAlone_keepsRegistry .idle s
  | scnSkip s => exact classAlone_keepsRegistry .skip s
  | scnDefer s => exact classAlone_keepsRegistry .defer s
  | scnAccept s => exact classAlone_keepsRegistry .accept s
  | scnReject s => exact classAlone_keepsRegistry .reject s
  | scnDrain s => exact classAlone_keepsRegistry .drain s
  | decode f => exact ensures_require fun _ => ensures_next (keepsRegistry_setResult _)
  | emit s =>
    exact ensures_require fun _ => ensures_require fun _ => ensures_require fun _ => ensures_andThen_any fun _ =>
      ensures_require fun _ => ensures_next keepsRegistry_of_same_slots
  | svc s => exact execSvc_keepsRegistry s
  | ack c => exact ensures_require fun _ => ensures_require fun _ => ensures_next keepsRegistry_of_same_slots
  | arm c a n =>
    exact ensures_require fun _ => ensures_require fun _ => ensures_require fun _ => ensures_require fun _ =>
      ensures_require fun _ => ensures_next keepsRegistry_of_same_slots
  | dma c l =>
    exact ensures_require fun _ => ensures_require fun _ =>
      ensures_next ((keepsRegistry_transferBytes c l).trans keepsRegistry_of_same_slots)
  | raise c => exact ensures_require fun _ => ensures_next keepsRegistry_of_same_slots
  | dmaConfig c s =>
    exact ensures_require fun _ => ensures_require fun _ => ensures_require fun _ =>
      ensures_next keepsRegistry_of_same_slots
  | dmaByte c => exact ensures_require fun _ => ensures_require fun _ => ensures_next (keepsRegistry_drawnStore c _ _ _)
  | dmaDone c => exact ensures_require fun _ => ensures_next keepsRegistry_of_same_slots
  | irq => exact ensures_require fun _ => ensures_require fun _ => irqRun_keepsRegistry _ _
  | lookup c => exact ensures_require fun _ => ensures_next (keepsRegistry_setResult _)
  | dispatch c => exact execDispatch_keepsRegistry c
  | fatal code c => exact ensures_require fun _ => ensures_require fun _ => ensures_next (keepsRegistry_raiseFatal _ c)
  | headerByte => exact execHeaderByte_keepsRegistry
  | frame raw => exact execFrame_keepsRegistry raw

/-- From `st` to `t` no channel comes to be shared, and, but where `clears`, no slot is cleared or gets another channel or
handle. -/
structure WritesOnce (clears : Prop) (st t : State) : Prop where
  unique : st.registryUnique → t.registryUnique
  kept : clears ∨ ∀ s, (st.slot s).valid = true →
    (t.slot s).valid = true ∧ (t.slot s).chan = (st.slot s).chan ∧ (t.slot s).ctx = (st.slot s).ctx

variable {clears : Prop}

theorem KeepsRegistry.writesOnce (h : KeepsRegistry st t) : WritesOnce clears st t :=
  ⟨h.registryUnique, .inr fun s hv => ⟨(h.valid s).trans hv, h.chan s, h.ctx s⟩⟩

/-- INIT writes a slot that was empty, and leaves to it a channel that had no owner. -/
theorem initSlot_writesOnce {h : Nat} (hadm : st.Admits s c) : WritesOnce clears st (initSlot s c h st) := by
  obtain ⟨-, hs, -, hempty, hfree⟩ := hadm
  rcases Nat.lt_or_ge st.par.capacity st.par.frameSize with hcap | hcap
  · rw [initSlot_of_small hcap]
    exact (keepsRegistry_raiseFatal _ c).writesOnce
  · have hk := confined_initSlot (s := s) (c := c) (h := h) hcap
    have hown : (initSlot s c h st).owns s c = true := by
      rw [owns_iff, initSlot_slot_self hcap hs]
      exact ⟨rfl, rfl⟩
    refine ⟨fun hu => registryUnique_iff.mpr fun v w d hv hw => ?_, .inr fun v hv => ?_⟩
    · rcases (hk.owns_after_iff hown).mp hv with ⟨rfl, rfl⟩ | ⟨-, hvst⟩ <;>
        rcases (hk.owns_after_iff hown).mp hw with ⟨rfl, hdc⟩ | ⟨-, hwst⟩
      · rfl
      · exact Bool.noConfusion ((hfree w).symm.trans hwst)
      · exact Bool.noConfusion ((hfree v).symm.trans (hdc ▸ hvst))
      · exact registryUnique_iff.mp hu v w d hvst hwst
    · have hvs : v ≠ s := by
        rintro rfl
        exact Bool.noConfusion (hempty.symm.trans hv)
      rw [hk.slot v hvs]
      exact ⟨hv, rfl, rfl⟩

/-- Every operation writes the registry once, RESET aside. -/
theorem exec_writesOnce (i : Instr) : Ensures (WritesOnce (i = .reset) st) (exec i st) := by
  by_cases hreset : i = .reset
  · subst hreset
    exact ensures_next ⟨fun _ => resetWith_registryUnique st.par st.nSlots st.nChannels, .inl rfl⟩
  by_cases hinit : ∃ s c h, i = .init s c h
  · obtain ⟨s, c, h, rfl⟩ := hinit
    intro t ht
    obtain ⟨hadm, rfl⟩ := exec_init_eq_next.mp ht
    exact initSlot_writesOnce hadm
  · simp only [not_exists] at hinit
    exact fun t ht => (exec_keepsRegistry hreset hinit t ht).writesOnce

/-- The inputs `consumer` and `trace` have no part in it. -/
theorem WritesOnce.of_inputs {q : Consumer} {tr : List Byte}
    (h : WritesOnce clears { st with consumer := q, trace := tr } t) : WritesOnce clears st t :=
  ⟨h.unique, h.kept⟩

theorem WritesOnce.mono {clears' : Prop} (h : WritesOnce clears st t) (hc : clears → clears') : WritesOnce clears' st t :=
  ⟨h.unique, h.kept.imp_left hc⟩

/-- Neither the scanner nor the hardware by itself performs RESET. -/
theorem step_writesOnce : Ensures (WritesOnce st.takesReset st) (step st) := by
  intro t h
  rcases step_cases h with ⟨-, h⟩ | ⟨hr, i, st', hf, -, h⟩ | ⟨-, -, r, i, -, hi, h⟩ | ⟨-, -, i, hi, h⟩ | ⟨-, -, -, rfl⟩
  · rw [turn_eq] at h
    exact (resume_keepsRegistry t h).writesOnce.of_inputs
  · obtain ⟨rest, rfl, hfetch⟩ := fetch_of_turn hf
    refine (exec_writesOnce i t h).of_inputs.mono ?_
    rintro rfl
    exact ⟨hr, _, hfetch⟩
  · exact (exec_writesOnce i t h).mono fun hc => absurd (.inl hc) (not_bufferWriter_of_scanFetch hi)
  · rw [turn_eq] at h
    refine (exec_writesOnce i t h).of_inputs.mono ?_
    rintro rfl
    obtain ⟨c, hc⟩ := eq_dmaByte_of_hardwareEvent hi (.inl rfl)
    cases hc
  · rw [turn_eq]
    exact (keepsRegistry_of_same_slots (st := st)).writesOnce

/-- Settles O54: the two parts of `step_writesOnce`. -/
theorem registryIsWriteOnce : Obligations.RegistryIsWriteOnce :=
  ⟨fun _ t hu h => (step_writesOnce t h).unique hu, fun _ t h hno => (step_writesOnce t h).kept.resolve_left hno⟩

end Sys2Proof.Machine
end

section
/-! What a run of the handler does to the bits of `INTS` and to the slots, whatever the consumer and the parameters (44_demux.md R187,
R189, R191 to R193): the dispatch of a bit writes that bit and its owner, and the run is a list of dispatches. -/

namespace Sys2Proof.Machine

variable {st t x : State} {s c d pending : Nat}

/-! ### The dispatch of a bit. -/

theorem ints_of_scanMoved (h : scanMoved s st t) : t.ints = st.ints := by
  obtain ⟨sc, l, q, m, rfl⟩ := h
  rfl

/-- A service clears the bit of its channel, once its scan has returned. -/
theorem service_ints : Ensures (fun o => o.state.ints = st.ints ∨ o.state.ints = clearBit st.ints (st.slot s).chan)
    (service s st) := by
  intro o ho
  rcases service_cases ho with ⟨n, x, hscan, rfl⟩ | ⟨r, x, hscan, rfl⟩
  all_goals
    obtain ⟨-, hrun⟩ := require_eq_next.mp hscan
    have hmoved : scanMoved s (advInsert s (st.slot s).lastReq st) x := (scanRun_moves hrun).1
    have hints : x.ints = st.ints := (ints_of_scanMoved hmoved :)
  · have hk : KeepsRegistry st x := (keepsRegistry_advInsert s _).trans (keepsRegistry_of_scanMoved hmoved)
    refine .inr (?_ : (serviceEnd s n x).ints = _)
    rw [serviceEnd_ints, hints, hk.chan]
  · exact .inl hints

/-- The dispatch of a bit clears no other, and that one only if a slot owns it. -/
theorem dispatchChan_ints : Ensures (fun o => o.state.ints = st.ints ∨
    (∃ s, st.owns s c = true) ∧ o.state.ints = clearBit st.ints c) (dispatchChan c st) := by
  intro o ho
  have hserve : ∀ {s o'}, st.lookup c = some s → service s st = .next o' → o'.state.ints = st.ints ∨
      (∃ s, st.owns s c = true) ∧ o'.state.ints = clearBit st.ints c := fun {s o'} hl h => by
    obtain ⟨-, hsc⟩ := owns_iff.mp (owns_of_lookup hl)
    exact (hsc ▸ service_ints o' h).imp_right fun hi => ⟨⟨s, owns_of_lookup hl⟩, hi⟩
  rcases dispatchChan_cases ho with ⟨-, rfl⟩ | ⟨s, t, hl, h, rfl⟩ | ⟨s, r, t, hl, h, rfl⟩
  · exact .inl (congrArg State.ints (raiseFatal_frame _ c st) :)
  · exact hserve hl h
  · exact hserve hl h

theorem dispatchChan_bit_ne (hd : d ≠ c) :
    Ensures (fun o => bitSet o.state.ints d = bitSet st.ints d) (dispatchChan c st) := by
  intro o ho
  rcases dispatchChan_ints o ho with h | ⟨-, h⟩
  · rw [h]
  · simp [h, Ne.symm hd]

/-- A completed dispatch leaves the slots of other channels. -/
theorem dispatchChan_slot_ne (h : dispatchChan c st = .next (.done t)) (hs : (st.slot s).chan ≠ c) :
    t.slot s = st.slot s := by
  rcases dispatchChan_cases h with ⟨-, e⟩ | ⟨v, x, hl, hserve, e⟩ | ⟨_, _, _, _, _, e⟩
  · cases e
  · cases e
    refine (service_onlySlot hserve).slot s ?_
    rintro rfl
    exact hs (owns_iff.mp (owns_of_lookup hl)).2
  · cases e

/-! ### The bits that a run clears (R193). -/

/-- From `st` to `t` no bit is set, and the bits that are cleared are acknowledged and have owners, which stay owners. -/
structure ClearsOwned (st t : State) : Prop where
  registry : KeepsRegistry st t
  acks : Acknowledges st t
  unset : ∀ c, bitSet t.ints c = true → bitSet st.ints c = true
  owned : ∀ c, bitSet st.ints c = true → bitSet t.ints c = true ∨ ∃ s, st.owns s c = true

@[refl] theorem ClearsOwned.refl (st : State) : ClearsOwned st st :=
  ⟨KeepsRegistry.refl st, (Ordinary.refl st).acks, fun _ => id, fun _ => .inl⟩

theorem ClearsOwned.trans {u : State} (h1 : ClearsOwned st t) (h2 : ClearsOwned t u) : ClearsOwned st u where
  registry := h1.registry.trans h2.registry
  acks := h1.acks.trans h2.acks
  unset c hc := h1.unset c (h2.unset c hc)
  owned c hc := (h1.owned c hc).elim
    (fun ht => (h2.owned c ht).imp_right fun ⟨s, hs⟩ => ⟨s, (h1.registry.owns s c).symm.trans hs⟩) .inr

theorem dispatchChan_acknowledges (c : Nat) : Ensures (fun o => Acknowledges st o.state) (dispatchChan c st) := fun o ho => by
  rcases dispatchChan_ordinary c o ho with h | rfl
  · exact h.acks
  · exact acknowledges_raiseFatal _ c

theorem dispatchChan_clearsOwned (c : Nat) : Ensures (fun o => ClearsOwned st o.state) (dispatchChan c st) := by
  intro o ho
  refine ⟨dispatchChan_keepsRegistry c o ho, dispatchChan_acknowledges c o ho, fun d hd => ?_, fun d hd => ?_⟩ <;>
    rcases dispatchChan_ints o ho with h | ⟨⟨s, hs⟩, h⟩
  · rwa [← h]
  · rw [h, bitSet_clearBit, Bool.and_eq_true] at hd
    exact hd.1
  · exact .inl (h ▸ hd)
  · by_cases hcd : c = d
    · exact .inr ⟨s, hcd ▸ hs⟩
    · exact .inl (by simp [h, hd, hcd])

theorem clearsOwned_raiseFatal (code : BitVec 2) (c : Nat) (st : State) : ClearsOwned st (raiseFatal code c st) := by
  have hints : (raiseFatal code c st).ints = st.ints := (congrArg State.ints (raiseFatal_frame code c st) :)
  exact ⟨keepsRegistry_raiseFatal code c, acknowledges_raiseFatal code c, fun d hd => hints ▸ hd, fun d hd => .inl (hints ▸ hd)⟩

theorem clearsOwned_with_held (w : Option Held) : ClearsOwned st { st with held := w } :=
  ⟨keepsRegistry_with_held w, (ordinary_with_held w).acks, fun _ => id, fun _ => .inl⟩

theorem irqRun_clearsOwned (cs : List Nat) (pending : Nat) : Ensures (ClearsOwned st) (irqRun cs pending st) := fun _ ht =>
  irqRun_induction (P := fun _ x => ClearsOwned st x) (fun _ _ h => h)
    (fun c _ _ _ h _ hd => h.trans (dispatchChan_clearsOwned c _ hd))
    (fun c _ _ _ _ h _ hd => (h.trans (dispatchChan_clearsOwned c _ hd)).trans (clearsOwned_with_held _))
    (fun c _ x h _ _ => h.trans (clearsOwned_raiseFatal _ c x)) (ClearsOwned.refl st) ht

/-- IRQ past its guards is the handler's loop on the mask as it is. -/
theorem exec_irq_eq_next : exec .irq st = .next t ↔
    st.phase = .run ∧ st.busy = false ∧ irqRun st.channels st.ints st = .next t := by
  change execIrq st = _ ↔ _
  simp only [execIrq, require_eq_next, decide_eq_true_eq, Bool.not_eq_true']

/-- Settles O59: every dispatch clears only an owned bit, with its acknowledge (`dispatchChan_clearsOwned`), and so does the run. -/
theorem irqClearsOnlyServicedBits : Obligations.IrqClearsOnlyServicedBits := by
  intro st t h c
  obtain ⟨-, -, hrun⟩ := exec_irq_eq_next.mp h
  have hk := irqRun_clearsOwned _ _ t hrun
  refine ⟨hk.unset c, fun hset hclear => ?_⟩
  have hnot : ¬ bitSet t.ints c = true := by simp [hclear]
  obtain ⟨l, hout, hack⟩ := hk.acks
  exact ⟨(hk.owned c hset).resolve_left hnot, l, hout, (hack c hset).resolve_left hnot⟩

/-! ### The bits outside the snapshot (R189). -/

/-- A run dispatches no bit that its mask does not hold. -/
theorem irqRun_keeps_bit {cs : List Nat} (hd : bitSet pending d = false) (hset : bitSet st.ints d = true) :
    Ensures (fun t => bitSet t.ints d = true) (irqRun cs pending st) := fun _ ht => by
  have hne : ∀ {pending c}, bitSet pending d = false → bitSet pending c = true → d ≠ c := fun hd hc => by
    rintro rfl
    exact Bool.noConfusion (hd.symm.trans hc)
  refine irqRun_induction (P := fun pending x => bitSet pending d = false ∧ bitSet x.ints d = true) (fun _ _ h => h.2)
    (fun c pending x x' h hc hdisp => ⟨by simp [h.1], ?_⟩) (fun c pending x r x' h hc hdisp => ?_) (fun c pending x h _ _ => ?_)
    ⟨hd, hset⟩ ht
  · exact (dispatchChan_bit_ne (hne h.1 hc) _ hdisp).trans h.2
  · exact (dispatchChan_bit_ne (hne h.1 hc) _ hdisp).trans h.2
  · rw [(congrArg State.ints (raiseFatal_frame unmatchedIrq c x) :)]
    exact h.2

/-- Settles O60: the service that waited ends with the acknowledge of a bit of the snapshot, and the rest of the run keeps the bit
(`irqRun_keeps_bit`). -/
theorem bitsOutsideTheSnapshotWait : Obligations.BitsOutsideTheSnapshotWait := by
  intro pending c r st t d hheld hown hc hd hset ht
  have hst : st = { st with held := some (.irq pending c r) } := by rw [← hheld]
  rw [hst, (follows_keepIrq pending c r.slot).resume r st rfl] at ht
  obtain ⟨o, ho, ht⟩ := andThen_eq_next.mp ht
  have hmoved : scanMoved r.slot { st with held := none } o.state := (scanRun_moves ho).1
  have hints : bitSet o.state.ints d = true := by
    rw [ints_of_scanMoved hmoved]
    exact hset
  cases o with
  | held r' x =>
    cases ht
    exact hints
  | done n x =>
    have hchan : (x.slot r.slot).chan = c := ((keepsRegistry_of_scanMoved hmoved).chan r.slot).trans (owns_iff.mp hown).2
    have hcd : c ≠ d := by
      rintro rfl
      exact Bool.noConfusion (hd.symm.trans hc)
    refine irqRun_keeps_bit (by simp [hd]) ?_ t ht
    have hx : bitSet x.ints d = true := hints
    simp [hchan, hcd, hx]

/-! ### A run that ends fatal (R191, R192). -/

theorem channels_pairwise : st.channels.Pairwise (· < ·) := List.pairwise_lt_range

/-- From `st` to `t` the handler stops at the bit of channel `c`, which no slot owns. -/
structure StopsAt (c : Nat) (st t : State) : Prop where
  unowned : ∀ s, st.owns s c = false
  diag : t.diag = { code := unmatchedIrq, chan := c }
  bits : ∀ d, c ≤ d → bitSet t.ints d = bitSet st.ints d
  slots : ∀ s, c < (st.slot s).chan → t.slot s = st.slot s

theorem stopsAt_raiseFatal (hf : st.fatal = false) (hl : st.lookup c = none) :
    StopsAt c st (raiseFatal unmatchedIrq c st) := by
  rw [raiseFatal_of_running _ _ hf]
  exact ⟨lookup_eq_none.mp hl, rfl, fun _ _ => rfl, fun _ _ => rfl⟩

/-- The dispatch of a lower bit before the stop. -/
theorem StopsAt.of_dispatched (hd : dispatchChan d st = .next (.done x)) (hdc : d < c) (h : StopsAt c x t) :
    StopsAt c st t where
  unowned s := (dispatchChan_keepsRegistry d _ hd).owns s c ▸ h.unowned s
  diag := h.diag
  bits e he := (h.bits e he).trans (dispatchChan_bit_ne (Nat.ne_of_gt (Nat.lt_of_lt_of_le hdc he)) _ hd)
  slots s hs := by
    have hchan : (x.slot s).chan = (st.slot s).chan := (dispatchChan_keepsRegistry d _ hd).chan s
    exact (h.slots s (hchan ▸ hs)).trans (dispatchChan_slot_ne hd (Nat.ne_of_gt (Nat.lt_trans hdc hs)))

theorem irqRun_stopsAt {cs : List Nat} (hcs : cs.Pairwise (· < ·)) (hf : st.fatal = false)
    (h : irqRun cs pending st = .next t) (ht : t.fatal = true) : ∃ c ∈ cs, bitSet pending c = true ∧ StopsAt c st t := by
  induction cs generalizing pending st with
  | nil =>
    cases h
    exact Bool.noConfusion (hf.symm.trans ht)
  | cons d cs ih =>
    obtain ⟨habove, hcs⟩ := List.pairwise_cons.mp hcs
    rw [irqRun] at h
    split at h
    · next hb =>
      obtain ⟨o, ho, h⟩ := andThen_eq_next.mp h
      rcases dispatchChan_cases ho with ⟨hl, rfl⟩ | ⟨s, x, hl, hserve, rfl⟩ | ⟨s, r, x, hl, hserve, rfl⟩
      · cases h
        exact ⟨d, List.mem_cons_self, hb, stopsAt_raiseFatal hf hl⟩
      · obtain ⟨c, hmem, hc, hstop⟩ := ih hcs ((service_ordinary s _ hserve).fatal.trans hf) h
        rw [bitSet_clearBit, Bool.and_eq_true] at hc
        exact ⟨c, List.mem_cons_of_mem d hmem, hc.1, hstop.of_dispatched ho (habove c hmem)⟩
      · cases h
        exact Bool.noConfusion (((service_ordinary s _ hserve).fatal.trans hf).symm.trans ht)
    · obtain ⟨c, hmem, hc⟩ := ih hcs hf h
      exact ⟨c, List.mem_cons_of_mem d hmem, hc⟩

/-- Settles O58: the channels rise, so what was dispatched before the stop are lower bits (`irqRun_stopsAt`). -/
theorem fatalRunStopsAtTheUnmatchedBit : Obligations.FatalRunStopsAtTheUnmatchedBit := by
  intro st t h ht
  obtain ⟨hphase, -, hrun⟩ := exec_irq_eq_next.mp h
  obtain ⟨c, -, hc, hstop⟩ :=
    irqRun_stopsAt channels_pairwise (fatal_of_phase_run (decide_eq_true hphase)) hrun ht
  exact ⟨c, hc, hstop.unowned, hstop.diag, hstop.bits, hstop.slots⟩

/-! ### DISPATCH performed alone. -/

/-- The sequencer takes the interrupt: the block runs, nothing is in progress. -/
structure State.TakesIrq (st : State) : Prop where
  phase : st.phase = .run
  ready : st.ready

theorem busy_of_ready (h : st.ready) : st.busy = false := by
  obtain ⟨-, hscan, hheld⟩ := h
  simp [State.busy, hscan, hheld]

theorem exec_dispatch_eq (h : st.TakesIrq) (hc : c < st.nChannels) (hb : bitSet st.ints c = true) :
    exec (.dispatch c) st = st.dispatched c := by
  change execDispatch c st = _
  rw [execDispatch_eq, decide_eq_true h.phase, busy_of_ready h.ready, isChan_iff.mpr hc, hb]
  rfl

theorem exec_irq_eq (h : st.TakesIrq) : exec .irq st = irqRun st.channels st.ints st := by
  change execIrq st = _
  rw [execIrq, decide_eq_true h.phase, busy_of_ready h.ready]
  rfl

theorem dispatched_of_lookup (hl : st.lookup c = some s) : st.dispatched c =
    andThen (scanSlot s (advInsert s (st.slot s).lastReq st)) (ScanOut.keepSvc s) := by
  rw [State.dispatched, hl]
  rfl

/-- The dispatch of a bit whose owner can be serviced, the consumer prompt: alone and in the handler's run. -/
theorem dispatch_of_serviceable (hp : st.par.wf = true) (hl : st.lookup c = some s) (hserve : st.serviceable s)
    (hq : st.consumer.prompt) : ∃ y : Yield, y.Legal st s ∧ st.dispatched c = .next (st.rearmed s y) ∧
      dispatchChan c st = .next (.done (st.rearmed s y)) := by
  obtain ⟨y, hy, hscan⟩ := scanSlot_of_serviceable hp hserve hq
  have hdone : service s st = .next (.done (st.rearmed s y)) := by
    rw [service, hscan]
    rfl
  refine ⟨y, hy, ?_, ?_⟩
  · rw [dispatched_of_lookup hl, hscan]
    rfl
  · rw [dispatchChan, hl]
    simp only [hdone, andThen_next]

/-- The fatal stop of a block that runs with nothing in progress. -/
theorem raiseFatal_of_ready (code : BitVec 2) (c : Nat) (h : st.ready) :
    raiseFatal code c st = { st with fatal := true, diag := { code := code, chan := c } } := by
  obtain ⟨hf, hscan, hheld⟩ := h
  rw [raiseFatal_of_running code c hf, ← hscan, ← hheld]

/-- A run whose lowest pending bit no slot owns. -/
theorem irqRun_unmatched {cs : List Nat} (hcs : cs.Pairwise (· < ·)) (hmem : c ∈ cs) (hb : bitSet pending c = true)
    (hlow : ∀ d, d < c → bitSet pending d = false) (hl : st.lookup c = none) :
    irqRun cs pending st = .next (raiseFatal unmatchedIrq c st) := by
  induction cs with
  | nil => cases hmem
  | cons d cs ih =>
    obtain ⟨habove, hcs⟩ := List.pairwise_cons.mp hcs
    rcases List.mem_cons.mp hmem with rfl | hmem
    · rw [irqRun, if_pos hb, dispatchChan, hl]
      rfl
    · rw [irqRun, hlow d (habove c hmem), if_neg Bool.false_ne_true]
      exact ih hcs hmem

/-- Settles O57: DISPATCH past its guards is `State.dispatched`, which is the rest of SVC or the fatal stop. -/
theorem dispatchServesOrHalts : Obligations.DispatchServesOrHalts := by
  refine ⟨fun c s st hphase hready hc hb hl => ⟨fun hidle => ?_, fun hp hserve hq => ?_⟩,
    fun c st hphase hready hc hb hfree => ⟨?_, fun hlow => ?_⟩⟩
  · obtain ⟨hv, rfl⟩ := owns_iff.mp (owns_of_lookup hl)
    rw [exec_dispatch_eq ⟨hphase, hready⟩ hc hb, exec_svc_eq hready hv hidle, dispatched_of_lookup hl]
  · obtain ⟨y, hy, hdisp, -⟩ := dispatch_of_serviceable hp hl hserve hq
    obtain ⟨-, hsc⟩ := owns_iff.mp (owns_of_lookup hl)
    rw [exec_dispatch_eq ⟨hphase, hready⟩ hc hb, hdisp]
    exact ⟨_, rfl, serviced_rearmed hp hserve hy, by simp [hsc]⟩
  · rw [exec_dispatch_eq ⟨hphase, hready⟩ hc hb, State.dispatched, lookup_eq_none.mpr hfree, Option.elim_none,
      raiseFatal_of_ready _ _ hready]
    rfl
  · rw [exec_irq_eq ⟨hphase, hready⟩,
      irqRun_unmatched channels_pairwise (mem_channels.mpr hc) hb hlow (lookup_eq_none.mpr hfree),
      raiseFatal_of_ready _ _ hready]
    rfl

end Sys2Proof.Machine
end

section
/-! A run of the handler in which every pending bit has an owner that can be serviced, the consumer prompt (44_demux.md R187, R190):
the dispatches of the pending channels, one after the other, each a service (`State.rearmed`) of a slot of its own. -/

namespace Sys2Proof.Machine

variable {st t : State} {s c pending : Nat} {y : Yield} {cs ds : List Nat}

/-! ### What one service leaves for the next. -/

theorem keepsRegistry_rearmed : KeepsRegistry st (st.rearmed s y) :=
  have hscan : KeepsRegistry (advInsert s (st.slot s).lastReq st) (st.rescanned s y) :=
    (keepsRegistry_of_same_slots (t := (advInsert s (st.slot s).lastReq st).scanned y.scratch y.frames)).trans
      (keepsRegistry_advExtract s y.consumed)
  ((keepsRegistry_advInsert s _).trans hscan).trans (keepsRegistry_serviceEnd s y.request)

theorem rearmed_par : (st.rearmed s y).par = st.par := (congrArg State.par (rearmed_frame (st := st) (s := s) (y := y)) :)

theorem takesIrq_rearmed (h : st.TakesIrq) : (st.rearmed s y).TakesIrq := by
  have hframe := rearmed_frame (st := st) (s := s) (y := y)
  obtain ⟨hphase, hf, hscan, hheld⟩ := h
  exact ⟨(congrArg State.phase hframe :).trans hphase, (congrArg State.fatal hframe :).trans hf,
    (congrArg State.scan hframe :).trans hscan, (congrArg State.held hframe :).trans hheld⟩

/-- The handler can look at the channels `cs`: they exist, and where the bit of one is set, its owner can be serviced. -/
structure State.Sweepable (st : State) (cs : List Nat) : Prop where
  wf : st.par.wf = true
  takesIrq : st.TakesIrq
  prompt : st.consumer.prompt
  unique : st.registryUnique
  exist : ∀ c ∈ cs, c < st.nChannels
  owners : ∀ c ∈ cs, bitSet st.ints c = true → ∃ s, st.owns s c = true ∧ st.serviceable s

theorem State.Sweepable.tail (h : st.Sweepable (c :: cs)) : st.Sweepable cs :=
  { h with
    exist := fun d hd => h.exist d (List.mem_cons_of_mem c hd)
    owners := fun d hd => h.owners d (List.mem_cons_of_mem c hd) }

/-- An owner of another channel is another slot. -/
theorem ne_of_owns {u d : Nat} (hs : st.owns s c = true) (hu : st.owns u d = true) (hdc : d ≠ c) : u ≠ s := by
  rintro rfl
  exact hdc ((owns_iff.mp hu).2.symm.trans (owns_iff.mp hs).2)

/-- The service of the owner of `c` leaves the channels after it as they were. -/
theorem State.Sweepable.after_service (h : st.Sweepable cs) (hc : c ∉ cs) (hown : st.owns s c = true) :
    (st.rearmed s y).Sweepable cs := by
  have hk := keepsRegistry_rearmed (st := st) (s := s) (y := y)
  refine ⟨(rearmed_par (st := st)).symm ▸ h.wf, takesIrq_rearmed h.takesIrq, rearmed_consumer ▸ prompt_drop h.prompt _,
    hk.registryUnique h.unique, fun d hd => rearmed_nChannels.symm ▸ h.exist d hd, fun d hd hb => ?_⟩
  have hdc : d ≠ c := fun e => hc (e ▸ hd)
  rw [rearmed_ints, bitSet_clearBit, Bool.and_eq_true] at hb
  obtain ⟨u, hu, hserve⟩ := h.owners d hd hb.1
  exact ⟨u, (hk.owns u d).trans hu,
    serviceable_congr rearmed_par rearmed_nChannels (rearmed_slot_ne (ne_of_owns hown hu hdc)) hserve⟩

/-! ### What a run leaves. -/

/-- What the handler sends for channel `c`: the frames of its slot, the acknowledge, the rearm. -/
def sentFor (st t : State) (frames : Nat → List PortEvent) (c : Nat) : List PortEvent :=
  (st.lookup c).elim [] fun s => frames s ++ rearmOf st t s

/-- From `st` to `t` the owners of the channels `ds` are serviced, in this order, and nothing else changes. -/
structure Swept (ds : List Nat) (st t : State) : Prop where
  registry : KeepsRegistry st t
  bits : ∀ c, bitSet t.ints c = (bitSet st.ints c && !decide (c ∈ ds))
  serviced : ∀ c ∈ ds, ∀ s, st.owns s c = true → Machine.serviced st t s
  slot : ∀ s, ¬ ((st.slot s).valid = true ∧ (st.slot s).chan ∈ ds) → t.slot s = st.slot s
  chan : ∀ c, c ∉ ds → t.chan c = st.chan c
  sent : ∃ frames, (∀ c ∈ ds, ∀ s, st.owns s c = true → st.deliveries s (frames s)) ∧
    t.out = st.out ++ ds.flatMap (sentFor st t frames)
  frame : { t with slots := st.slots, chans := st.chans, ints := st.ints, out := st.out, scratch := st.scratch,
                   consumer := st.consumer } = st

theorem swept_nil (st : State) : Swept [] st st :=
  ⟨KeepsRegistry.refl st, by simp, nofun, fun _ _ => rfl, fun _ _ => rfl, ⟨fun _ => [], nofun, by simp⟩, rfl⟩

/-- Whether a slot was serviced is seen in its registers and its channel. -/
theorem serviced_congr {st' t' : State} (hp : st'.par = st.par) (hs : st'.slot s = st.slot s)
    (hc : st'.chan (st.slot s).chan = st.chan (st.slot s).chan) (hts : t'.slot s = t.slot s)
    (htc : t'.chan (st.slot s).chan = t.chan (st.slot s).chan) (h : serviced st t s) : serviced st' t' s := by
  simpa only [serviced, State.avail, hp, hs, hc, hts, htc] using h

theorem deliveries_of_rearmed {u : Nat} {l : List PortEvent} (h : (st.rearmed s y).deliveries u l) : st.deliveries u l := by
  simpa only [State.deliveries, State.validFrame, State.delivery, rearmed_par, keepsRegistry_rearmed.ctx] using h

/-- What is sent for a later channel is seen the same from before the service. -/
theorem sentFor_rearmed {d : Nat} {frames : Nat → List PortEvent} (hown : st.owns s c = true) (hdc : d ≠ c) :
    sentFor (st.rearmed s y) t frames d = sentFor st t (Function.update frames s y.frames) d := by
  rw [sentFor, sentFor, keepsRegistry_rearmed.lookup]
  cases hl : st.lookup d with
  | none => rfl
  | some u =>
    rw [Option.elim_some, Option.elim_some, Function.update_of_ne (ne_of_owns hown (owns_of_lookup hl) hdc), rearmOf, rearmOf,
      rearmed_par, keepsRegistry_rearmed.chan]

/-- The service of the owner of `c`, and then the services for `ds`. -/
theorem Swept.cons (h : Swept ds (st.rearmed s y) t) (hp : st.par.wf = true) (hu : st.registryUnique) (hc : c ∉ ds)
    (hown : st.owns s c = true) (hserve : st.serviceable s) (hy : y.Legal st s) : Swept (c :: ds) st t := by
  have hk := keepsRegistry_rearmed (st := st) (s := s) (y := y)
  obtain ⟨hv, rfl⟩ := owns_iff.mp hown
  have honly : ∀ u, st.owns u (st.slot s).chan = true → u = s := fun u huc => registryUnique_iff.mp hu u s _ huc hown
  have hne : ∀ d ∈ ds, d ≠ (st.slot s).chan := fun d hd e => hc (e ▸ hd)
  have hlater : ∀ d ∈ ds, ∀ u, st.owns u d = true → u ≠ s := fun d hd u hud => ne_of_owns hown hud (hne d hd)
  have hslot : t.slot s = (st.rearmed s y).slot s := h.slot s fun ⟨_, hmem⟩ => hc (hk.chan s ▸ hmem)
  obtain ⟨frames, hframes, hout⟩ := h.sent
  exact {
    registry := hk.trans h.registry
    bits := fun d => by simp [h.bits, Bool.and_assoc, eq_comm]
    serviced := List.forall_mem_cons.mpr ⟨fun u huc => by
        obtain rfl := honly u huc
        exact serviced_congr rfl rfl rfl hslot (h.chan _ hc) (serviced_rearmed hp hserve hy),
      fun d hd u hud => by
        obtain ⟨-, rfl⟩ := owns_iff.mp hud
        have hus := rearmed_slot_ne (st := st) (y := y) (hlater _ hd u hud)
        refine serviced_congr rearmed_par.symm hus.symm ?_ rfl rfl (h.serviced _ hd u ((hk.owns u _).trans hud))
        rw [hus, rearmed_chan_ne (hne _ hd)]⟩
    slot := fun u hun => by
      have hus : u ≠ s := by
        rintro rfl
        exact hun ⟨hv, List.mem_cons_self⟩
      have hstays := rearmed_slot_ne (st := st) (y := y) hus
      refine (h.slot u ?_).trans hstays
      rw [hstays]
      exact fun ⟨hvu, hmem⟩ => hun ⟨hvu, List.mem_cons_of_mem _ hmem⟩
    chan := fun d hd => by
      rw [List.mem_cons, not_or] at hd
      obtain ⟨hdc, hd⟩ := hd
      exact (h.chan d hd).trans (rearmed_chan_ne hdc)
    sent := by
      refine ⟨Function.update frames s y.frames, List.forall_mem_cons.mpr ⟨fun u huc => ?_, fun d hd u hud => ?_⟩, ?_⟩
      · rw [honly u huc, Function.update_self]
        exact hy.frames
      · rw [Function.update_of_ne (hlater d hd u hud)]
        exact deliveries_of_rearmed (hframes d hd u ((hk.owns u d).trans hud))
      · have hlast : rearmOf st (st.rearmed s y) s = rearmOf st t s := by rw [rearmOf, rearmOf, hslot]
        have hfirst : sentFor st t (Function.update frames s y.frames) (st.slot s).chan = y.frames ++ rearmOf st t s := by
          rw [sentFor, lookup_of_owns hu hown, Option.elim_some, Function.update_self]
        rw [hout, rearmed_out (lt_of_valid hv), hlast, List.flatMap_cons, hfirst,
          List.flatMap_congr fun d hd => sentFor_rearmed hown (hne d hd)]
        simp only [List.append_assoc]
    frame := (congrArg (fun x : State => { x with
      slots := st.slots, chans := st.chans, ints := st.ints, out := st.out, scratch := st.scratch, consumer := st.consumer })
      h.frame).trans rearmed_frame }

/-! ### The run. -/

/-- The handler's loop over distinct channels, the mask holding their bits as they are, is the dispatch of the pending ones. -/
theorem irqRun_sweeps (h : st.Sweepable cs) (hcs : cs.Nodup) (hmask : ∀ c ∈ cs, bitSet pending c = bitSet st.ints c) :
    ∃ t, irqRun cs pending st = .next t ∧ runEvents ((cs.filter (bitSet st.ints)).map Instr.dispatch) st = .next t ∧
      Swept (cs.filter (bitSet st.ints)) st t := by
  induction cs generalizing st pending with
  | nil => exact ⟨st, rfl, rfl, swept_nil st⟩
  | cons c cs ih =>
    obtain ⟨hc, hcs⟩ := List.nodup_cons.mp hcs
    obtain ⟨hbit, hmask⟩ := List.forall_mem_cons.mp hmask
    rw [irqRun, hbit]
    cases hb : bitSet st.ints c with
    | false =>
      rw [List.filter_cons_of_neg (by simp [hb]), if_neg Bool.false_ne_true]
      exact ih h.tail hcs hmask
    | true =>
      obtain ⟨s, hown, hserve⟩ := h.owners c List.mem_cons_self hb
      have hl := lookup_of_owns h.unique hown
      obtain ⟨y, hy, hdisp, hdone⟩ := dispatch_of_serviceable h.wf hl hserve h.prompt
      have hbits : ∀ d ∈ cs, ∀ m, bitSet (clearBit m c) d = bitSet m d := fun d hd m => by
        have hcd : c ≠ d := fun e => hc (e ▸ hd)
        simp [hcd]
      have hints : ∀ d ∈ cs, bitSet (st.rearmed s y).ints d = bitSet st.ints d := fun d hd => by
        rw [rearmed_ints, (owns_iff.mp hown).2, hbits d hd]
      obtain ⟨t, hrun, hevents, hswept⟩ := ih (pending := clearBit pending c) (h.tail.after_service (y := y) hc hown) hcs
        fun d hd => by rw [hbits d hd, hints d hd, hmask d hd]
      rw [List.filter_congr hints] at hevents hswept
      refine ⟨t, ?_, ?_, ?_⟩
      · rw [if_pos rfl, hdone]
        exact hrun
      · rw [List.filter_cons_of_pos hb, List.map_cons, runEvents,
          exec_dispatch_eq h.takesIrq (h.exist c List.mem_cons_self) hb, hdisp]
        exact hevents
      · rw [List.filter_cons_of_pos hb]
        exact hswept.cons h.wf h.unique (fun hmem => hc (List.mem_of_mem_filter hmem)) hown hserve hy

/-- The pending channels are those whose bit is set, the mask having no bit of a channel that does not exist. -/
theorem mem_pendingChannels (hints : st.ints < 2 ^ st.nChannels) : c ∈ st.pendingChannels ↔ bitSet st.ints c = true := by
  refine List.mem_filter.trans (and_iff_right_of_imp fun hb => mem_channels.mpr ?_)
  by_contra hc
  exact Bool.noConfusion ((bitSet_of_lt hints (Nat.le_of_not_lt hc)).symm.trans hb)

/-- Settles O56: the run over all channels is `irqRun_sweeps`; of what it leaves (`Swept`) each clause is a part. -/
theorem irqServicesEveryPendingSlot : Obligations.IrqServicesEveryPendingSlot := by
  refine ⟨fun st hp hphase hready hq hu hints howners => ?_, fun st hphase hready hnone => ?_, fun st hphase => ?_⟩
  · have hirq : st.TakesIrq := ⟨hphase, hready⟩
    have hmem := fun c => mem_pendingChannels (c := c) hints
    have hsweep : st.Sweepable st.channels := ⟨hp, hirq, hq, hu, fun c => mem_channels.mp, fun c hc hb =>
      (howners c (mem_channels.mp hc) hb).imp fun s hs => hs.2⟩
    obtain ⟨t, hrun, hevents, h⟩ := irqRun_sweeps hsweep List.nodup_range fun _ _ => rfl
    obtain ⟨frames, hframes, hout⟩ := h.sent
    obtain ⟨hf, hscan, hheld⟩ := hready
    have hbits : t.ints = 0 := mask_ext fun c => by
      have hiff : c ∈ st.channels.filter (bitSet st.ints) ↔ bitSet st.ints c = true := hmem c
      simp [h.bits, hiff]
    refine ⟨t, (exec_irq_eq hirq).trans hrun, hevents,
      ⟨frames, fun s c hown hb => hframes c ((hmem c).mpr hb) s hown, ?_⟩,
      (congrArg State.phase h.frame :).trans hphase, hbits,
      ⟨(congrArg State.fatal h.frame :).trans hf, (congrArg State.scan h.frame :).trans hscan,
        (congrArg State.held h.frame :).trans hheld⟩,
      fun s hv hb => h.serviced _ ((hmem _).mpr hb) s (owns_iff.mpr ⟨hv, rfl⟩),
      fun s hs => h.slot s fun ⟨hv, hc⟩ => hs ⟨hv, (hmem _).mp hc⟩, fun c hc => h.chan c fun hin => ?_, h.frame⟩
    · exact hout.trans (congrArg _ (List.flatMap_congr fun c _ => by rw [sentFor]; cases st.lookup c <;> rfl))
    · exact Bool.noConfusion (hc.symm.trans ((hmem c).mp hin))
  · rw [exec_irq_eq ⟨hphase, hready⟩]
    exact irqRun_of_none fun d _ => by rw [hnone, bitSet_zero]
  · change execIrq st = _
    rw [execIrq, decide_eq_false hphase, require_false]

end Sys2Proof.Machine
end

section
/-! The operations beside the sequencer's writes: those that only return a value, the engine's steps and the harness's PUSH, DMA and
RAISE (60_exceptions.md R204, R217; log entry 12). In every phase they leave alone the flags, `DIAG`, what is in progress and what was
sent, and of a slot all but its buffer and `insert` (`Aside`). -/

namespace Sys2Proof.Machine

variable {st t : State}

/-- The operation is none of the host's commands, no fatal, and writes no state of the sequencer. -/
def bystander : Instr → Bool
  | .crcStep _ _ | .crcRange _ | .frameValid _ | .rbPhys _ | .rbAvail _ | .rbWindow _ _ _ | .decode _ | .lookup _ => true
  | .rbDmawr _ _ _ | .push _ _ | .dma _ _ | .raise _ | .dmaByte _ | .dmaDone _ => true
  | _ => false

/-- From `st` to `t` nothing changes but slots, channels, peripherals, `INTS` and the value returned, and of a slot only its buffer
and, away from `extract`, `insert`. -/
structure Aside (st t : State) : Prop where
  frame : { t with slots := st.slots, chans := st.chans, uarts := st.uarts, ints := st.ints, result := st.result } = st
  slot : ∀ s, { t.slot s with insert := (st.slot s).insert, buf := (st.slot s).buf } = st.slot s
  avail : st.par.wf = true → ∀ s, (st.avail s).toNat ≤ (t.avail s).toNat

/-! ### Fields. -/

theorem Aside.par (h : Aside st t) : t.par = st.par := (congrArg State.par h.frame :)

theorem Aside.phase (h : Aside st t) : t.phase = st.phase := (congrArg State.phase h.frame :)

theorem Aside.scan (h : Aside st t) : t.scan = st.scan := (congrArg State.scan h.frame :)

theorem Aside.held (h : Aside st t) : t.held = st.held := (congrArg State.held h.frame :)

theorem Aside.valid (h : Aside st t) (s : Nat) : (t.slot s).valid = (st.slot s).valid := (congrArg Slot.valid (h.slot s) :)

/-! ### The shared operations. -/

/-- An update that writes of the slots at most their buffers. -/
theorem aside_of_same_registers
    (hslot : ∀ s, { t.slot s with buf := (st.slot s).buf } = st.slot s := by exact fun _ => rfl)
    (hframe : { t with slots := st.slots, chans := st.chans, uarts := st.uarts, ints := st.ints, result := st.result } = st
      := by rfl) : Aside st t where
  frame := hframe
  slot s := congrArg (fun x : Slot => { x with insert := (st.slot s).insert }) (hslot s)
  avail _ s := Nat.le_of_eq (congrArg (fun x : Slot => (x.insert - x.extract).toNat) (hslot s)).symm

theorem pushBytes_slot_frame (s : Nat) (c : Cursor) (bs : List Byte) (st : State) (u : Nat) :
    { (pushBytes s c bs st).slot u with buf := (st.slot u).buf } = st.slot u := by
  induction bs generalizing c st with
  | nil => rfl
  | cons b bs ih =>
    exact (congrArg (fun x : Slot => { x with buf := (st.slot u).buf }) (ih (advance c 1) (writeBuf s _ b st))).trans
      (writeBuf_slot_frame st s _ b u)

theorem transferBytes_slot_frame (c : Nat) (bs : List Byte) (st : State) (u : Nat) :
    { (transferBytes c bs st).slot u with buf := (st.slot u).buf } = st.slot u := by
  induction bs generalizing st with
  | nil => rfl
  | cons b bs ih =>
    exact (congrArg (fun x : Slot => { x with buf := (st.slot u).buf }) (ih (st.storedNext c b))).trans
      (writeBuf_slot_frame st _ _ b u)

/-- PUSH with room for its bytes moves `insert` away from `extract`. -/
theorem execPush_aside (s : Nat) (bs : List Byte) : Ensures (Aside st) (execPush s bs st) := by
  refine ensures_require fun hv => ensures_require fun hroom => ensures_next ?_
  have hslot := pushBytes_slot_frame s (st.slot s).insert bs st
  have hframe := pushBytes_frame s (st.slot s).insert bs st
  generalize pushBytes s (st.slot s).insert bs st = x at hslot hframe
  have havail : ∀ u, x.avail u = st.avail u := fun u => (congrArg (fun y : Slot => y.insert - y.extract) (hslot u) :)
  refine ⟨?_, fun u => ?_, fun hp u => ?_⟩
  · exact congrArg (fun y : State => { y with chans := st.chans, uarts := st.uarts, ints := st.ints, result := st.result })
      hframe
  · have hx := congrArg (fun y : Slot => { y with insert := (st.slot u).insert }) (hslot u)
    rw [advInsert, slot_setSlot]
    split
    · next h => rw [h.1] at hx ⊢; exact hx
    · exact hx
  · by_cases hu : u = s
    · have hs : s < x.nSlots := lt_of_valid ((congrArg Slot.valid (hslot s) :).trans hv)
      have hcap := capacity_lt (wf_iff.mp hp).2.2
      have hroom := of_decide_eq_true hroom
      rw [hu, avail_advInsert hs (by rw [havail]; omega), havail]
      omega
    · rw [State.avail, State.avail, advInsert_slot_ne hu]
      exact Nat.le_of_eq (congrArg BitVec.toNat (havail u)).symm

theorem execDma_aside (c : Nat) (bs : List Byte) : Ensures (Aside st) (execDma c bs st) :=
  ensures_require fun _ => ensures_require fun _ => ensures_next <|
    aside_of_same_registers (transferBytes_slot_frame c bs st)
      (congrArg (fun x : State => { x with ints := st.ints, result := st.result }) (transferBytes_frame c bs st))

/-- Every operation beside the sequencer's writes leaves its state alone. -/
theorem exec_aside {i : Instr} (hi : bystander i = true) : Ensures (Aside st) (exec i st) := by
  cases i with
  | crcStep c8 b => exact ensures_next aside_of_same_registers
  | crcRange l => exact ensures_next aside_of_same_registers
  | frameValid f => exact ensures_require fun _ => ensures_next aside_of_same_registers
  | rbPhys c => exact ensures_next aside_of_same_registers
  | rbAvail s => exact ensures_require fun _ => ensures_next aside_of_same_registers
  | rbWindow s c n => exact ensures_require fun _ => ensures_require fun _ => ensures_next aside_of_same_registers
  | decode f => exact ensures_require fun _ => ensures_next aside_of_same_registers
  | lookup c => exact ensures_require fun _ => ensures_next aside_of_same_registers
  | rbDmawr s a b =>
    exact ensures_require fun _ => ensures_require fun _ => ensures_require fun _ =>
      ensures_next (aside_of_same_registers (writeBuf_slot_frame st s a b))
  | push s l => exact execPush_aside s l
  | dma c l => exact execDma_aside c l
  | raise c => exact ensures_require fun _ => ensures_next aside_of_same_registers
  | dmaByte c =>
    exact ensures_require fun _ => ensures_require fun _ =>
      ensures_next (aside_of_same_registers (writeBuf_slot_frame st _ _ _))
  | dmaDone c => exact ensures_require fun _ => ensures_next aside_of_same_registers
  | _ => cases hi

end Sys2Proof.Machine
end

section
/-! The scan in progress stays where it may read (60_exceptions.md R215; 20_memory.md R51): an operation that is no scan keeps the slot
of the scan and its bytes; one that starts or continues a scan finds nothing else in progress, and leaves nothing in progress or, open
or waiting, that scan with bytes it has not passed (`ScanRegs.Legal`). -/

namespace Sys2Proof.Machine

variable {st t : State} {r : ScanRegs} {s c : Nat}

/-- The slot of the scan is valid, and the bytes the scan has still to examine lie in `[extract, insert)`. -/
def ScanRegs.Legal (r : ScanRegs) (st : State) : Prop := (st.slot r.slot).valid = true ∧ r.inside st = true

/-! ### What is in progress. -/

theorem scanLegal_of_free (hs : t.scan = none) (hh : t.held = none) : t.scanLegal := by
  simp [State.scanLegal, State.scansInProgress, hs, hh]

theorem scanLegal_of_open (hs : t.scan = some r) (hh : t.held = none) (hr : r.Legal t) : t.scanLegal := by
  refine ⟨by simp [State.scansInProgress, hs, hh], ?_, by simp [hh]⟩
  rw [hs]
  rintro _ ⟨⟩
  exact hr

theorem scanLegal_of_waiting {w : Held} (hs : t.scan = none) (hh : t.held = some w) (hw : w.regs = some r)
    (hr : (r.consume t.par.frameSize).Legal t) : t.scanLegal := by
  refine ⟨by simp [State.scansInProgress, hs, hh, hw], by simp [hs], ?_⟩
  rw [hh, Option.bind_some, hw]
  rintro _ ⟨⟩
  exact hr

theorem open_legal (h : st.scanLegal) (hs : st.scan = some r) : r.Legal st :=
  have ⟨_, hopen, _⟩ := h
  hopen r hs

/-- The scan that waits is the only one. -/
theorem waiting_legal {w : Held} (h : st.scanLegal) (hh : st.held = some w) (hw : w.regs = some r) :
    st.scan = none ∧ (r.consume st.par.frameSize).Legal st := by
  obtain ⟨hone, -, hwait⟩ := h
  refine ⟨?_, hwait r (by simp [hh, hw])⟩
  cases hs : st.scan with
  | none => rfl
  | some r' => simp [State.scansInProgress, hs, hh, hw] at hone

/-- A scan in progress is one of a valid slot. -/
theorem valid_of_reading (h : st.scanLegal) (hr : st.reading s = true) : (st.slot s).valid = true := by
  rcases reading_iff.mp hr with ⟨r, hs, rfl⟩ | ⟨w, r, hh, hw, rfl⟩
  · exact (open_legal h hs).1
  · exact (waiting_legal h hh hw).2.1

/-! ### Operations that are no scan. -/

/-- What is in progress stays legal where it stays the same and every slot that is read stays valid and loses no byte. -/
theorem scanLegal_of_kept (hp : t.par = st.par) (hs : t.scan = st.scan)
    (hh : t.held.bind Held.regs = st.held.bind Held.regs)
    (hslot : ∀ s, st.reading s = true → (t.slot s).valid = (st.slot s).valid ∧ (st.avail s).toNat ≤ (t.avail s).toNat)
    (h : st.scanLegal) : t.scanLegal := by
  have hkept : ∀ r : ScanRegs, st.reading r.slot = true → r.Legal st → r.Legal t := fun r hr ⟨hv, hin⟩ => by
    obtain ⟨hv', ha⟩ := hslot r.slot hr
    obtain ⟨h1, h2⟩ := inside_iff.mp hin
    exact ⟨hv'.trans hv, inside_iff.mpr ⟨h1, h2.trans ha⟩⟩
  obtain ⟨hone, hopen, hwait⟩ := h
  refine ⟨?_, fun r hr => ?_, fun r hr => ?_⟩
  · rwa [State.scansInProgress, hs, hh]
  · rw [hs] at hr
    exact hkept r (reading_iff.mpr (.inl ⟨r, hr, rfl⟩)) (hopen r hr)
  · rw [hh] at hr
    obtain ⟨w, hw, hwr⟩ := Option.bind_eq_some_iff.mp hr
    rw [hp]
    exact hkept (r.consume _) (reading_iff.mpr (.inr ⟨w, r, hw, hwr, rfl⟩)) (hwait r hr)

theorem scanLegal_of_same_slots (h : st.scanLegal) (hp : t.par = st.par := by rfl) (hs : t.scan = st.scan := by rfl)
    (hh : t.held.bind Held.regs = st.held.bind Held.regs := by rfl) (hslots : t.slots = st.slots := by rfl) :
    t.scanLegal := by
  have hslot : ∀ s, t.slot s = st.slot s := fun s => congrArg (·.getD s Slot.reset) hslots
  refine scanLegal_of_kept hp hs hh (fun s _ => ?_) h
  rw [State.avail, State.avail, hslot]
  exact ⟨rfl, Nat.le_refl _⟩

/-- A write of a slot whose buffer is not being read. -/
theorem scanLegal_setSlot (x : Slot) (hr : st.reading s = false) (h : st.scanLegal) : (st.setSlot s x).scanLegal := by
  refine scanLegal_of_kept (st := st) rfl rfl rfl (fun u hu => ?_) h
  have hne : u ≠ s := fun e => Bool.noConfusion (hr.symm.trans (e ▸ hu))
  rw [State.avail, State.avail, slot_setSlot_ne hne]
  exact ⟨rfl, Nat.le_refl _⟩

theorem Aside.scanLegal (ha : Aside st t) (hp : st.par.wf = true) (h : st.scanLegal) : t.scanLegal :=
  scanLegal_of_kept ha.par ha.scan (congrArg (·.bind Held.regs) ha.held) (fun s _ => ⟨ha.valid s, ha.avail hp s⟩) h

theorem raiseFatal_scan (code : BitVec 2) (c : Nat) (st : State) : (raiseFatal code c st).scan = none := by
  unfold raiseFatal
  split <;> rfl

theorem raiseFatal_scanLegal (code : BitVec 2) (c : Nat) (st : State) : (raiseFatal code c st).scanLegal :=
  scanLegal_of_free (raiseFatal_scan code c st) (raiseFatal_held code c st)

/-- INIT writes a slot that is not valid, so none that is being read. -/
theorem initSlot_scanLegal (c h : Nat) (hempty : (st.slot s).valid = false) (hl : st.scanLegal) :
    (initSlot s c h st).scanLegal := by
  have hunread : st.reading s = false := by
    by_contra hr
    exact Bool.noConfusion (hempty.symm.trans (valid_of_reading hl (by simpa using hr)))
  unfold initSlot
  split
  · exact raiseFatal_scanLegal _ c st
  · exact scanLegal_of_same_slots (scanLegal_setSlot _ hunread hl)

/-! ### A whole scan. -/

/-- Nothing is in progress, and the parameters are within their constraints. -/
structure State.Free (st : State) : Prop where
  wf : st.par.wf = true
  scan : st.scan = none
  held : st.held = none

theorem free_of_not_busy (hp : st.par.wf = true) (hb : (!st.busy) = true) : st.Free := by
  simp only [State.busy, Bool.not_or, Bool.and_eq_true, Bool.not_eq_true', Option.isSome_eq_false_iff,
    Option.isNone_iff_eq_none] at hb
  exact ⟨hp, hb.1, hb.2⟩

theorem State.Free.scanLegal (h : st.Free) : st.scanLegal := scanLegal_of_free h.scan h.held

/-- A scan leaves nothing in progress but, where it waits, itself: past the frame sent its bytes lie in the window. -/
def ScanOut.Legal : ScanOut → Prop
  | .done _ t => t.Free
  | .held r t => t.Free ∧ (r.consume t.par.frameSize).Legal t

/-- Of the bytes of a scan that waits a whole candidate is left. -/
theorem scanRun_legal (k : Nat) (h : st.Free) (hr : r.Legal st) : Ensures ScanOut.Legal (scanRun k r st) := by
  intro o ho
  obtain ⟨hv, hin⟩ := hr
  obtain ⟨-, hav⟩ := inside_iff.mp hin
  rcases scanRun_cases h.wf ho with ⟨n, m, x, ⟨sc, l, rfl, -⟩, rfl, -⟩ |
    ⟨r', x, ⟨sc, l, rfl, -⟩, rfl, -, hslot, havail, -, hleft⟩
  · exact ⟨h.wf, h.scan, h.held⟩
  · refine ⟨⟨h.wf, h.scan, h.held⟩, ?_, inside_iff.mpr ⟨hleft, ?_⟩⟩
    · exact hslot ▸ hv
    · exact havail.trans_le (hslot ▸ hav)

theorem scanSlot_legal (h : st.Free) (hv : (st.slot s).valid = true) : Ensures ScanOut.Legal (scanSlot s st) :=
  ensures_require fun _ => scanRun_legal _ h ⟨hv, inside_scanEntry s⟩

/-- The scan of a service, `insert` advanced. -/
theorem scanSlot_advInsert_legal (n : Nat) (h : st.Free) (hv : (st.slot s).valid = true) :
    Ensures ScanOut.Legal (scanSlot s (advInsert s n st)) :=
  scanSlot_legal ⟨h.wf, h.scan, h.held⟩ (((keepsRegistry_advInsert s n).valid s).trans hv)

theorem serviceEnd_free (s n : Nat) (h : st.Free) : (serviceEnd s n st).Free := by
  rw [serviceEnd_eq]
  exact ⟨h.wf, h.scan, h.held⟩

/-! ### What comes after a scan. -/

theorem keep_scanLegal (o : ScanOut) (h : o.Legal) : Ensures State.scanLegal o.keep := by
  cases o with
  | done n x => exact ensures_next (scanLegal_of_free h.scan h.held)
  | held r x => exact ensures_next (scanLegal_of_waiting h.1.scan rfl rfl h.2)

theorem keepSvc_scanLegal (s : Nat) (o : ScanOut) (h : o.Legal) : Ensures State.scanLegal (o.keepSvc s) := by
  cases o with
  | done n x => exact ensures_next (serviceEnd_free s n h).scanLegal
  | held r x => exact ensures_next (scanLegal_of_waiting h.1.scan rfl rfl h.2)

/-- A dispatch leaves nothing in progress but, where it waits, the scan of its service. -/
def DispatchOut.Legal : DispatchOut → Prop
  | .done t => t.Free
  | .held r t => t.Free ∧ (r.consume t.par.frameSize).Legal t
  | .fatal t => t.scanLegal

theorem dispatchChan_legal (c : Nat) (h : st.Free) : Ensures DispatchOut.Legal (dispatchChan c st) := by
  intro o ho
  have hscan : ∀ s, st.lookup c = some s → Ensures ScanOut.Legal (scanSlot s (advInsert s (st.slot s).lastReq st)) :=
    fun s hl => scanSlot_advInsert_legal _ h (owns_iff.mp (owns_of_lookup hl)).1
  rcases dispatchChan_cases ho with ⟨-, rfl⟩ | ⟨s, x, hl, hs, rfl⟩ | ⟨s, r, x, hl, hs, rfl⟩
  · exact raiseFatal_scanLegal _ c st
  · rcases service_cases hs with ⟨n, y, hy, e⟩ | ⟨r, y, -, e⟩ <;> cases e
    exact serviceEnd_free s n (hscan s hl _ hy)
  · rcases service_cases hs with ⟨n, y, -, e⟩ | ⟨r, y, hy, e⟩ <;> cases e
    exact hscan s hl _ hy

theorem irqRun_scanLegal (cs : List Nat) (pending : Nat) (h : st.Free) : Ensures State.scanLegal (irqRun cs pending st) :=
  fun _ ht => irqRun_induction (P := fun _ x => x.Free) (fun _ _ hx => hx.scanLegal)
    (fun c _ _ _ hx _ hd => dispatchChan_legal c hx _ hd)
    (fun c _ _ _ _ hx _ hd =>
      have ⟨hfree, hr⟩ := dispatchChan_legal c hx _ hd
      scanLegal_of_waiting hfree.scan rfl rfl hr)
    (fun c _ x _ _ _ => raiseFatal_scanLegal _ c x) h ht

theorem keepIrq_scanLegal (pending c s : Nat) (o : ScanOut) (h : o.Legal) :
    Ensures State.scanLegal (o.keepIrq pending c s) := by
  cases o with
  | done n x => exact irqRun_scanLegal _ _ (serviceEnd_free s n h)
  | held r x => exact ensures_next (scanLegal_of_waiting h.1.scan rfl rfl h.2)

/-! ### The consumer's return. -/

/-- A scan that waited goes on past its frame, and then does what comes after it. -/
theorem resume_of_follows {w : ScanRegs → Held} {j : ScanOut → Out State} (hj : Follows r.slot w j)
    (hh : st.held = some (w r)) : resume st = andThen (scanAgain r { st with held := none }) j :=
  have hst : st = { st with held := some (w r) } := by rw [← hh]
  (congrArg resume hst).trans (hj.resume r st rfl)

theorem scanAgain_legal {w : Held} (hp : st.par.wf = true) (h : st.scanLegal) (hh : st.held = some w)
    (hw : w.regs = some r) : Ensures ScanOut.Legal (scanAgain r { st with held := none }) :=
  have ⟨hs, hr⟩ := waiting_legal h hh hw
  scanRun_legal _ ⟨hp, hs, rfl⟩ hr

theorem resume_scanLegal (hp : st.par.wf = true) (h : st.scanLegal) : Ensures State.scanLegal (resume st) := by
  cases hh : st.held with
  | none => rw [resume, hh]; exact ensures_next h
  | some w =>
    cases w with
    | emit => rw [resume, hh]; exact ensures_next (scanLegal_of_same_slots h (hh := by rw [hh]; rfl))
    | accept r => rw [resume, hh]; exact ensures_next (scanLegal_of_open rfl rfl (waiting_legal h hh rfl).2)
    | scan r =>
      rw [resume_of_follows (follows_keep _) hh]
      exact ensures_andThen (scanAgain_legal hp h hh rfl) keep_scanLegal
    | svc r =>
      rw [resume_of_follows (follows_keepSvc _) hh]
      exact ensures_andThen (scanAgain_legal hp h hh rfl) (keepSvc_scanLegal _)
    | irq pending c r =>
      rw [resume_of_follows (follows_keepIrq pending c _) hh]
      exact ensures_andThen (scanAgain_legal hp h hh rfl) (keepIrq_scanLegal pending c _)

/-! ### Classes of a scan performed alone. -/

/-- A class leaves nothing that waits but itself, and the bytes it leaves to examine lie in the window. -/
def ClassOut.Legal : ClassOut → Prop
  | .more r t => t.held = none ∧ r.Legal t
  | .done _ t => t.held = none
  | .held r t => (r.consume t.par.frameSize).Legal t

/-- A class passes only bytes it has found available. -/
theorem scanIter_legal (hp : st.par.wf = true) (hh : st.held = none) (hr : r.Legal st) :
    Ensures ClassOut.Legal (scanIter r st) := by
  intro o ho
  obtain ⟨hv, hin⟩ := hr
  obtain ⟨-, hav⟩ := inside_iff.mp hin
  have hpast : ∀ n, r.consumed + n ≤ r.available → (r.consume n).Legal st := fun n hn => ⟨hv, inside_iff.mpr ⟨hn, hav⟩⟩
  obtain ⟨hframe, -, -⟩ := wf_iff.mp hp
  rcases scanIter_cases hp ho with ⟨-, -, rfl⟩ | ⟨-, -, -, rfl⟩ | ⟨hleft, -, -, rfl⟩ | ⟨-, -, -, -, rfl⟩ |
    ⟨f, hleft, -, -, -, rfl⟩ | ⟨f, hleft, -, -, -, -, -, rfl⟩
  · exact hh
  · exact hh
  · exact ⟨hh, hpast 1 hleft⟩
  · exact hh
  · split
    · exact ⟨hh, hpast _ hleft⟩
    · exact hpast _ hleft
  · exact ⟨hh, hpast 1 (by omega)⟩

theorem keepClass_scanLegal (o : ClassOut) (h : o.Legal) : Ensures State.scanLegal (keepClass o) := by
  cases o with
  | more r x => exact ensures_next (scanLegal_of_open rfl h.1 h.2)
  | done n x => exact ensures_next (scanLegal_of_free rfl h)
  | held r x => exact ensures_next (scanLegal_of_waiting rfl rfl rfl h)

/-- The class taken, performed and kept. -/
theorem performAndKeep_scanLegal {k : ScanClass} (hp : st.par.wf = true) (hh : st.held = none) (hr : r.Legal st)
    (hk : classify r st = .next k) : Ensures State.scanLegal (andThen (performClass k r st) keepClass) :=
  ensures_andThen (fun o ho => scanIter_legal hp hh hr o (by rw [scanIter, hk, andThen_next, ho])) keepClass_scanLegal

/-- A class performed alone works on the open scan, which is legal, or enters one. -/
theorem classAlone_scanLegal (k : ScanClass) (s : Nat) (hp : st.par.wf = true) (h : st.scanLegal) :
    Ensures State.scanLegal (classAlone k s st) := by
  have hk : st.held = none → ∀ r : ScanRegs, r.Legal st → Ensures State.scanLegal (andThen (classify r st) fun k' =>
      require (decide (k' = k)) .classNotTaken (andThen (performClass k r st) keepClass)) := fun hh r hr =>
    ensures_andThen (fun _ hk => hk) fun _ hk => ensures_require fun hkk =>
      performAndKeep_scanLegal hp hh hr (of_decide_eq_true hkk ▸ hk)
  refine ensures_require fun _ => ensures_require fun hv => ensures_require fun hh => ?_
  have hh : st.held = none := Option.isNone_iff_eq_none.mp hh
  split
  · next r hs => exact ensures_require fun _ => ensures_require fun _ => hk hh r (open_legal h hs)
  · exact ensures_require fun _ => hk hh _ ⟨hv, inside_scanEntry s⟩

theorem ensures_openScan_legal {k : ScanRegs → Out State} (h : st.scanLegal)
    (hk : st.held = none → ∀ r : ScanRegs, r.Legal st → Ensures State.scanLegal (k r)) :
    Ensures State.scanLegal (openScan st k) := by
  refine ensures_require fun _ => ensures_require fun hh => ?_
  split
  · next r hs =>
    exact ensures_require fun _ => ensures_require fun _ => hk (Option.isNone_iff_eq_none.mp hh) r (open_legal h hs)
  · exact ensures_refused _

theorem execHeaderByte_scanLegal (hp : st.par.wf = true) (h : st.scanLegal) : Ensures State.scanLegal (execHeaderByte st) :=
  ensures_openScan_legal h fun hh _ hr => ensures_andThen (fun _ hk => hk) fun _ hk => ensures_require fun _ =>
    performAndKeep_scanLegal hp hh hr hk

theorem execFrame_scanLegal (raw : List Byte) (hp : st.par.wf = true) (h : st.scanLegal) :
    Ensures State.scanLegal (execFrame raw st) :=
  ensures_openScan_legal h fun hh _ hr => ensures_andThen (fun _ hk => hk) fun _ hk => ensures_require fun hkk =>
    ensures_andThen_any fun _ => ensures_require fun _ => performAndKeep_scanLegal hp hh hr (of_decide_eq_true hkk ▸ hk)

/-! ### The other operations of the sequencer. -/

theorem execScan_scanLegal (s : Nat) (hp : st.par.wf = true) : Ensures State.scanLegal (execScan s st) := by
  rw [execScan_eq]
  exact ensures_require fun _ => ensures_require fun hb => ensures_require fun hv =>
    ensures_andThen (scanSlot_legal (free_of_not_busy hp hb) hv) keep_scanLegal

theorem execSvc_scanLegal (s : Nat) (hp : st.par.wf = true) : Ensures State.scanLegal (execSvc s st) := by
  rw [execSvc_eq]
  exact ensures_require fun _ => ensures_require fun hb => ensures_require fun hv => ensures_require fun _ =>
    ensures_andThen (scanSlot_advInsert_legal _ (free_of_not_busy hp hb) hv) (keepSvc_scanLegal s)

theorem execDispatch_scanLegal (c : Nat) (hp : st.par.wf = true) : Ensures State.scanLegal (execDispatch c st) := by
  refine ensures_require fun _ => ensures_require fun hb => ensures_require fun _ => ensures_require fun _ =>
    ensures_andThen (dispatchChan_legal c (free_of_not_busy hp hb)) fun o (ho : o.Legal) => ?_
  cases o with
  | done x => exact ensures_next (State.Free.scanLegal ho)
  | held r x => exact ensures_next (scanLegal_of_waiting ho.1.scan rfl rfl ho.2)
  | fatal x => exact ensures_next ho

/-- EMIT performed alone waits as no scan, whether one is open or not. -/
theorem execEmit_scanLegal (s : Nat) (h : st.scanLegal) : Ensures State.scanLegal (execEmit s st) := by
  refine ensures_require fun _ => ensures_require fun hh => ensures_require fun _ => ensures_andThen_any fun f =>
    ensures_require fun _ => ensures_next (scanLegal_of_same_slots h (hh := ?_))
  rw [Option.isNone_iff_eq_none.mp hh]
  cases st.reply <;> rfl

/-! ### Every operation, and the step. -/

theorem exec_scanLegal (i : Instr) (hp : st.par.wf = true) (h : st.scanLegal) : Ensures State.scanLegal (exec i st) := by
  cases i with
  | reset => exact ensures_next (resetWith_scanLegal st.par st.nSlots st.nChannels)
  | init s c hd =>
    exact ensures_require fun _ => ensures_require fun _ => ensures_require fun _ => ensures_require fun hempty =>
      ensures_require fun _ => ensures_next (initSlot_scanLegal c hd (by simpa using hempty) h)
  | enable => exact ensures_require fun _ => ensures_next (scanLegal_of_same_slots h)
  | rbCopy s p n =>
    exact ensures_require fun _ => ensures_require fun _ => ensures_require fun _ => ensures_require fun _ =>
      ensures_andThen_any fun _ => ensures_next (scanLegal_of_same_slots h)
  | rbAdvi s n =>
    exact ensures_require fun _ => ensures_require fun _ => ensures_require fun hr =>
      ensures_next (scanLegal_setSlot _ (by simpa using hr) h)
  | rbAdvx s n =>
    exact ensures_require fun _ => ensures_require fun _ => ensures_require fun hr => ensures_require fun _ =>
      ensures_next (scanLegal_setSlot _ (by simpa using hr) h)
  | scan s => exact execScan_scanLegal s hp
  | scnIdle s => exact classAlone_scanLegal .idle s hp h
  | scnSkip s => exact classAlone_scanLegal .skip s hp h
  | scnDefer s => exact classAlone_scanLegal .defer s hp h
  | scnAccept s => exact classAlone_scanLegal .accept s hp h
  | scnReject s => exact classAlone_scanLegal .reject s hp h
  | scnDrain s => exact classAlone_scanLegal .drain s hp h
  | emit s => exact execEmit_scanLegal s h
  | svc s => exact execSvc_scanLegal s hp
  | ack c => exact ensures_require fun _ => ensures_require fun _ => ensures_next (scanLegal_of_same_slots h)
  | arm c a n =>
    exact ensures_require fun _ => ensures_require fun _ => ensures_require fun _ => ensures_require fun _ =>
      ensures_require fun _ => ensures_next (scanLegal_of_same_slots h)
  | dmaConfig c s =>
    exact ensures_require fun _ => ensures_require fun _ => ensures_require fun _ =>
      ensures_next (scanLegal_of_same_slots h)
  | irq => exact ensures_require fun _ => ensures_require fun hb => irqRun_scanLegal _ _ (free_of_not_busy hp hb)
  | dispatch c => exact execDispatch_scanLegal c hp
  | fatal code c => exact ensures_require fun _ => ensures_require fun _ => ensures_next (raiseFatal_scanLegal _ c st)
  | headerByte => exact execHeaderByte_scanLegal hp h
  | frame raw => exact execFrame_scanLegal raw hp h
  | _ => exact fun t ht => (exec_aside rfl t ht).scanLegal hp h

theorem turn_scanLegal (h : st.scanLegal) : st.turn.scanLegal := by
  rw [turn_eq]
  exact scanLegal_of_same_slots h

/-- Settles O32: every operation keeps the scan in its place (`exec_scanLegal`), and so does the consumer's return
(`resume_scanLegal`). -/
theorem scanStaysInsideTheWindow : Obligations.ScanStaysInsideTheWindow := by
  intro st t hp h hstep
  have hp' : st.turn.par.wf = true := (turn_par st).symm ▸ hp
  have hturn := turn_scanLegal h
  rcases step_cases hstep with ⟨-, hres⟩ | ⟨-, i, x, hf, -, he⟩ | ⟨-, -, r, i, -, -, he⟩ | ⟨-, -, i, -, he⟩ | ⟨-, -, -, rfl⟩
  · exact resume_scanLegal hp' hturn t hres
  · obtain ⟨rest, -, rfl⟩ := fetch_cases hf
    exact exec_scanLegal (st := { st.turn with trace := rest }) i hp' (scanLegal_of_same_slots hturn) t he
  · exact exec_scanLegal i hp h t he
  · exact exec_scanLegal i hp' hturn t he
  · exact hturn

end Sys2Proof.Machine
end

section
/-! The phases (60_exceptions.md R216): every operation but RESET and ENABLE leaves the phase as it is or halts the block, and so does
the consumer's return. -/

namespace Sys2Proof.Machine

variable {st t u : State}

/-- From `st` to `t` the phase stays as it is, or the block is halted. -/
def StaysOrHalts (st t : State) : Prop := t.phase = st.phase ∨ t.phase = .halted

theorem staysOrHalts_of_same_phase (h : t.phase = st.phase := by rfl) : StaysOrHalts st t := .inl h

theorem StaysOrHalts.trans (h1 : StaysOrHalts st t) (h2 : StaysOrHalts t u) : StaysOrHalts st u := by
  rcases h2 with h2 | h2
  · rwa [StaysOrHalts, h2]
  · exact .inr h2

theorem raiseFatal_phase (code : BitVec 2) (c : Nat) (st : State) : (raiseFatal code c st).phase = .halted := by
  unfold raiseFatal
  split
  · next h => exact if_pos h
  · rfl

theorem staysOrHalts_raiseFatal (code : BitVec 2) (c : Nat) : StaysOrHalts st (raiseFatal code c st) :=
  .inr (raiseFatal_phase code c st)

theorem staysOrHalts_initSlot (s c h : Nat) : StaysOrHalts st (initSlot s c h st) := by
  unfold initSlot
  split
  · exact staysOrHalts_raiseFatal _ c
  · exact staysOrHalts_of_same_phase

/-! ### Scans, and what comes after them. -/

theorem scanRun_staysOrHalts (k : Nat) (r : ScanRegs) : Ensures (fun o => StaysOrHalts st o.state) (scanRun k r st) := by
  intro o ho
  obtain ⟨⟨sc, l, q, m, e⟩, -⟩ := scanRun_moves ho
  rw [e]
  exact staysOrHalts_of_same_phase

theorem scanSlot_staysOrHalts (s : Nat) : Ensures (fun o => StaysOrHalts st o.state) (scanSlot s st) :=
  ensures_require fun _ => scanRun_staysOrHalts _ _

/-- A scan with something after it. -/
theorem staysOrHalts_andThen {o : Out ScanOut} {j : ScanOut → Out State} (ho : Ensures (fun a => StaysOrHalts st a.state) o)
    (hj : ∀ a : ScanOut, Ensures (StaysOrHalts a.state) (j a)) : Ensures (StaysOrHalts st) (andThen o j) :=
  ensures_andThen ho fun a ha t ht => ha.trans (hj a t ht)

theorem keep_staysOrHalts (o : ScanOut) : Ensures (StaysOrHalts o.state) o.keep := by
  cases o <;> exact ensures_next staysOrHalts_of_same_phase

theorem keepSvc_staysOrHalts (s : Nat) (o : ScanOut) : Ensures (StaysOrHalts o.state) (o.keepSvc s) := by
  cases o <;> exact ensures_next staysOrHalts_of_same_phase

theorem service_staysOrHalts (s : Nat) : Ensures (fun o => StaysOrHalts st o.state) (service s st) := by
  intro o ho
  have hscan := scanSlot_staysOrHalts (st := advInsert s (st.slot s).lastReq st) s
  rcases service_cases ho with ⟨n, x, hx, rfl⟩ | ⟨r, x, hx, rfl⟩
  · exact (hscan _ hx).trans staysOrHalts_of_same_phase
  · exact hscan _ hx

theorem dispatchChan_staysOrHalts (c : Nat) : Ensures (fun o => StaysOrHalts st o.state) (dispatchChan c st) := by
  intro o ho
  rcases dispatchChan_cases ho with ⟨-, rfl⟩ | ⟨s, x, -, hx, rfl⟩ | ⟨s, r, x, -, hx, rfl⟩
  · exact staysOrHalts_raiseFatal _ c
  · exact service_staysOrHalts s _ hx
  · exact service_staysOrHalts s _ hx

theorem irqRun_staysOrHalts (cs : List Nat) (pending : Nat) : Ensures (StaysOrHalts st) (irqRun cs pending st) := fun _ ht =>
  irqRun_induction (P := fun _ x => StaysOrHalts st x) (fun _ _ h => h)
    (fun c _ _ _ h _ hd => h.trans (dispatchChan_staysOrHalts c _ hd))
    (fun c _ _ _ _ h _ hd => h.trans (dispatchChan_staysOrHalts c _ hd))
    (fun c _ x _ _ _ => .inr (raiseFatal_phase _ c x)) staysOrHalts_of_same_phase ht

theorem keepIrq_staysOrHalts (pending c s : Nat) (o : ScanOut) : Ensures (StaysOrHalts o.state) (o.keepIrq pending c s) := by
  cases o with
  | done n x => exact irqRun_staysOrHalts (st := serviceEnd s n x) _ _
  | held r x => exact ensures_next staysOrHalts_of_same_phase

/-- The operation that waited goes on with its scan and what comes after it. -/
theorem resume_staysOrHalts : Ensures (StaysOrHalts st) (resume st) := by
  have hscan : ∀ r, Ensures (fun o => StaysOrHalts st o.state) (scanAgain r { st with held := none }) := fun r =>
    scanRun_staysOrHalts (st := { st with held := none }) _ _
  cases hh : st.held with
  | none => rw [resume, hh]; exact ensures_next staysOrHalts_of_same_phase
  | some w =>
    cases w with
    | emit | accept r => rw [resume, hh]; exact ensures_next staysOrHalts_of_same_phase
    | scan r =>
      rw [resume_of_follows (follows_keep r.slot) hh]
      exact staysOrHalts_andThen (hscan r) keep_staysOrHalts
    | svc r =>
      rw [resume_of_follows (follows_keepSvc r.slot) hh]
      exact staysOrHalts_andThen (hscan r) (keepSvc_staysOrHalts r.slot)
    | irq pending c r =>
      rw [resume_of_follows (follows_keepIrq pending c r.slot) hh]
      exact staysOrHalts_andThen (hscan r) (keepIrq_staysOrHalts pending c r.slot)

/-! ### Classes of a scan performed alone. -/

theorem performAndKeep_staysOrHalts (k : ScanClass) (r : ScanRegs) :
    Ensures (StaysOrHalts st) (andThen (performClass k r st) keepClass) := by
  intro t ht
  obtain ⟨o, ho, ht⟩ := andThen_eq_next.mp ht
  rcases performClass_moves ho with ⟨n, m, rfl⟩ | ⟨sc, l, q, n, rfl⟩ | ⟨sc, l, q, rfl⟩ <;> cases ht <;>
    exact staysOrHalts_of_same_phase

theorem classAlone_staysOrHalts (k : ScanClass) (s : Nat) : Ensures (StaysOrHalts st) (classAlone k s st) :=
  ensures_require fun _ => ensures_require fun _ => ensures_classRegs fun r => ensures_andThen_any fun _ =>
    ensures_require fun _ => performAndKeep_staysOrHalts k r

theorem execHeaderByte_staysOrHalts : Ensures (StaysOrHalts st) (execHeaderByte st) :=
  ensures_openScan fun r => ensures_andThen_any fun k => ensures_require fun _ => performAndKeep_staysOrHalts k r

theorem execFrame_staysOrHalts (raw : List Byte) : Ensures (StaysOrHalts st) (execFrame raw st) :=
  ensures_openScan fun r => ensures_andThen_any fun _ => ensures_require fun _ => ensures_andThen_any fun _ =>
    ensures_require fun _ => performAndKeep_staysOrHalts .accept r

/-! ### The operations whose scan is a whole one. -/

theorem execScan_staysOrHalts (s : Nat) : Ensures (StaysOrHalts st) (execScan s st) := by
  rw [execScan_eq]
  exact ensures_require fun _ => ensures_require fun _ => ensures_require fun _ =>
    staysOrHalts_andThen (scanSlot_staysOrHalts s) keep_staysOrHalts

theorem execSvc_staysOrHalts (s : Nat) : Ensures (StaysOrHalts st) (execSvc s st) := by
  rw [execSvc_eq]
  exact ensures_require fun _ => ensures_require fun _ => ensures_require fun _ => ensures_require fun _ =>
    staysOrHalts_andThen (scanSlot_staysOrHalts (st := advInsert s (st.slot s).lastReq st) s) (keepSvc_staysOrHalts s)

theorem execDispatch_staysOrHalts (c : Nat) : Ensures (StaysOrHalts st) (execDispatch c st) := by
  refine ensures_require fun _ => ensures_require fun _ => ensures_require fun _ => ensures_require fun _ =>
    ensures_andThen (dispatchChan_staysOrHalts c) fun o ho => ?_
  cases o <;> exact ensures_next ho

/-! ### Every operation, and the step. -/

/-- Every operation but RESET and ENABLE keeps the phase or halts. -/
theorem exec_staysOrHalts {i : Instr} (hreset : i ≠ .reset) (henable : i ≠ .enable) :
    Ensures (StaysOrHalts st) (exec i st) := by
  cases i with
  | reset => exact absurd rfl hreset
  | enable => exact absurd rfl henable
  | init s c h =>
    exact ensures_require fun _ => ensures_require fun _ => ensures_require fun _ => ensures_require fun _ =>
      ensures_require fun _ => ensures_next (staysOrHalts_initSlot s c h)
  | rbCopy s p n =>
    exact ensures_require fun _ => ensures_require fun _ => ensures_require fun _ => ensures_require fun _ =>
      ensures_andThen_any fun _ => ensures_next staysOrHalts_of_same_phase
  | rbAdvi s n =>
    exact ensures_require fun _ => ensures_require fun _ => ensures_require fun _ =>
      ensures_next staysOrHalts_of_same_phase
  | rbAdvx s n =>
    exact ensures_require fun _ => ensures_require fun _ => ensures_require fun _ => ensures_require fun _ =>
      ensures_next staysOrHalts_of_same_phase
  | scan s => exact execScan_staysOrHalts s
  | scnIdle s => exact classAlone_staysOrHalts .idle s
  | scnSkip s => exact classAlone_staysOrHalts .skip s
  | scnDefer s => exact classAlone_staysOrHalts .defer s
  | scnAccept s => exact classAlone_staysOrHalts .accept s
  | scnReject s => exact classAlone_staysOrHalts .reject s
  | scnDrain s => exact classAlone_staysOrHalts .drain s
  | emit s =>
    exact ensures_require fun _ => ensures_require fun _ => ensures_require fun _ => ensures_andThen_any fun _ =>
      ensures_require fun _ => ensures_next staysOrHalts_of_same_phase
  | svc s => exact execSvc_staysOrHalts s
  | ack c => exact ensures_require fun _ => ensures_require fun _ => ensures_next staysOrHalts_of_same_phase
  | arm c a n =>
    exact ensures_require fun _ => ensures_require fun _ => ensures_require fun _ => ensures_require fun _ =>
      ensures_require fun _ => ensures_next staysOrHalts_of_same_phase
  | dmaConfig c s =>
    exact ensures_require fun _ => ensures_require fun _ => ensures_require fun _ =>
      ensures_next staysOrHalts_of_same_phase
  | irq => exact ensures_require fun _ => ensures_require fun _ => irqRun_staysOrHalts _ _
  | dispatch c => exact execDispatch_staysOrHalts c
  | fatal code c => exact ensures_require fun _ => ensures_require fun _ => ensures_next (staysOrHalts_raiseFatal _ c)
  | headerByte => exact execHeaderByte_staysOrHalts
  | frame raw => exact execFrame_staysOrHalts raw
  | _ => exact fun t ht => .inl (exec_aside rfl t ht).phase

/-- ENABLE moves from CONFIG to RUN. -/
theorem exec_enable_phase (h : exec .enable st = .next t) : st.phase = .config ∧ t.phase = .run := by
  obtain ⟨hphase, ht⟩ := require_eq_next.mp h
  cases ht
  have hconfig := of_decide_eq_true hphase
  obtain ⟨hrun, -⟩ := enableStartsRun st
  exact ⟨hconfig, (hrun hconfig).2⟩

/-- Of the host's commands that move the phase the scanner and the hardware perform none by themselves. -/
theorem no_command_of_scanFetch {r : ScanRegs} {i : Instr} (h : scanFetch r st = .next i) : i ≠ .reset ∧ i ≠ .enable := by
  rcases scanFetch_cases h with rfl | rfl | rfl | rfl | ⟨f, rfl⟩ <;> exact ⟨nofun, nofun⟩

theorem no_command_of_hardwareEvent {i : Instr} (h : hardwareEvent st = some i) : i ≠ .reset ∧ i ≠ .enable := by
  rcases hardwareEvent_cases h with ⟨rfl, -⟩ | ⟨c, rfl, -⟩ | ⟨c, rfl, -⟩ <;> exact ⟨nofun, nofun⟩

/-- Settles O11: but for the events RESET and ENABLE a step keeps the phase or halts (`exec_staysOrHalts`). -/
theorem phaseMovesOnlyForward : Obligations.PhaseMovesOnlyForward := by
  refine ⟨rfl, fun st t hstep => ?_⟩
  have hstays : StaysOrHalts st t → t.phase = st.phase ∨ (st.takesReset ∧ t.phase = .config) ∨
      (st.phase = .config ∧ t.phase = .run ∧ ∃ st', fetch st = .ok (.enable, st')) ∨
      (st.phase ≠ .halted ∧ t.phase = .halted) := fun h => by
    by_cases hst : st.phase = .halted
    · exact .inl (h.elim id fun ht => ht.trans hst.symm)
    · exact h.imp_right fun ht => .inr (.inr ⟨hst, ht⟩)
  rcases step_cases hstep with ⟨-, h⟩ | ⟨hr, i, x, hf, -, h⟩ | ⟨-, -, r, i, -, hi, h⟩ | ⟨-, -, i, hi, h⟩ | ⟨-, -, -, rfl⟩
  · rw [turn_eq] at h
    exact hstays (resume_staysOrHalts (st := { st with consumer := st.turn.consumer }) t h)
  · obtain ⟨rest, rfl, hfetch⟩ := fetch_of_turn hf
    by_cases hreset : i = .reset
    · subst hreset
      cases h
      exact .inr (.inl ⟨⟨hr, _, hfetch⟩, rfl⟩)
    · by_cases henable : i = .enable
      · subst henable
        obtain ⟨hconfig, hrun⟩ := exec_enable_phase h
        exact .inr (.inr (.inl ⟨hconfig, hrun, _, hfetch⟩))
      · exact hstays (exec_staysOrHalts (st := { st with consumer := st.turn.consumer, trace := rest }) hreset henable t h)
  · obtain ⟨hreset, henable⟩ := no_command_of_scanFetch hi
    exact hstays (exec_staysOrHalts hreset henable t h)
  · obtain ⟨hreset, henable⟩ := no_command_of_hardwareEvent hi
    rw [turn_eq] at h
    exact hstays (exec_staysOrHalts (st := { st with consumer := st.turn.consumer }) hreset henable t h)
  · rw [turn_eq]
    exact .inl rfl

end Sys2Proof.Machine
end

section
/-! The fatal stop and the block it leaves (60_exceptions.md R203 to R205, R217): FATAL as an exact next state; in HALTED every writing
operation of the sequencer is refused, and of what is performed nothing but RESET moves the phase, `DIAG`, a slot's registers but
`insert`, or a port. -/

namespace Sys2Proof.Machine

variable {st t : State}

/-! ### FATAL. -/

/-- Where a fatal is recorded already the stop only abandons what is in progress. -/
theorem raiseFatal_of_halted (code : BitVec 2) (c : Nat) (hf : st.fatal = true) :
    raiseFatal code c st = { st with scan := none, held := none } := if_pos hf

theorem exec_fatal_eq {code c : Nat} (hcode : code = 1 ∨ code = 2) (hc : c < st.nChannels) :
    exec (.fatal code c) st = .next (raiseFatal (BitVec.ofNat 2 code) c st) := by
  change execFatal code c st = _
  rw [execFatal, decide_eq_true (by exact hcode), isChan_iff.mpr hc, require_true, require_true]

/-- Settles O10: past its guards FATAL is `raiseFatal`. -/
theorem fatalEntryRecordsTheFirst : Obligations.FatalEntryRecordsTheFirst := by
  refine ⟨fun code c st hcode hc => ⟨_, exec_fatal_eq hcode hc, raiseFatal_phase _ c st, raiseFatal_scan _ c st,
    raiseFatal_held _ c st, fun hf => ?_, fun hf => ?_, raiseFatal_frame _ c st⟩, fun code c st h => ?_⟩
  · rw [raiseFatal_of_running _ c hf]
    rcases hcode with rfl | rfl <;> exact ⟨rfl, rfl⟩
  · rw [raiseFatal_of_halted _ c hf]
  · refine require_refuses fun hcode => require_refuses_of_false (decide_eq_false ?_) _ _
    exact Nat.not_lt.mpr (h.resolve_left (not_not_intro (of_decide_eq_true hcode)))

/-! ### What a halted block refuses. -/

/-- In HALTED every operation is refused but RESET, FATAL and those beside the sequencer's writes. -/
theorem exec_refuses_halted (hf : st.fatal = true) {i : Instr} (hi : bystander i = false) (hreset : i ≠ .reset)
    (hfatal : ∀ code c, i ≠ .fatal code c) : ∃ why, exec i st = .refused why := by
  have hrun : (!st.fatal) = false := by rw [hf]; rfl
  have hphase : st.phase = .halted := if_pos hf
  cases i with
  | reset => exact absurd rfl hreset
  | fatal code c => exact absurd rfl (hfatal code c)
  | init | enable | irq | dispatch => exact require_refuses_of_false (decide_eq_false (by rw [hphase]; nofun)) _ _
  | rbCopy | rbAdvi | rbAdvx | scan | emit | svc | ack | arm | dmaConfig | headerByte | frame =>
    exact require_refuses_of_false hrun _ _
  | scnIdle | scnSkip | scnDefer | scnAccept | scnReject | scnDrain => exact require_refuses_of_false hrun _ _
  | _ => cases hi

/-! ### What a halted block keeps. -/

/-- From `st` to `t` the block stays halted as it is: `DIAG`, the ports and the registers of the slots, but for `insert`. -/
structure StandsStill (st t : State) : Prop where
  fatal : t.fatal = true
  diag : t.diag = st.diag
  out : t.out = st.out
  slot : ∀ s, { t.slot s with insert := (st.slot s).insert, buf := (st.slot s).buf } = st.slot s

theorem Aside.standsStill (h : Aside st t) (hf : st.fatal = true) : StandsStill st t :=
  ⟨(congrArg State.fatal h.frame :).trans hf, (congrArg State.diag h.frame :), (congrArg State.out h.frame :), h.slot⟩

/-- In HALTED every operation but RESET that is performed leaves the block as it is. -/
theorem exec_standsStill (hf : st.fatal = true) {i : Instr} (hreset : i ≠ .reset) : Ensures (StandsStill st) (exec i st) := by
  intro t ht
  cases hi : bystander i with
  | true => exact (exec_aside hi t ht).standsStill hf
  | false =>
    by_cases hfatal : ∃ code c, i = .fatal code c
    · obtain ⟨code, c, rfl⟩ := hfatal
      obtain ⟨-, ht⟩ := require_eq_next.mp ht
      obtain ⟨-, ht⟩ := require_eq_next.mp ht
      cases ht
      rw [raiseFatal_of_halted _ c hf]
      exact ⟨hf, rfl, rfl, fun _ => rfl⟩
    · simp only [not_exists] at hfatal
      obtain ⟨why, h⟩ := exec_refuses_halted hf hi hreset hfatal
      cases h.symm.trans ht

/-- With nothing waiting, a step of a halted block that is not RESET leaves it as it is. -/
theorem step_standsStill (hf : st.fatal = true) (hh : st.held = none) (hno : ¬ st.takesReset) :
    Ensures (StandsStill st) (step st) := by
  intro t hstep
  have hturn := turn_of_free hh
  rcases step_cases hstep with ⟨hr, -⟩ | ⟨hr, i, x, hfetch, -, h⟩ | ⟨-, -, r, i, -, hi, h⟩ | ⟨-, -, i, hi, h⟩ | ⟨-, -, -, rfl⟩
  · simp [State.resumes, hh] at hr
  · rw [hturn] at hfetch
    obtain ⟨rest, -, rfl⟩ := fetch_cases hfetch
    have hreset : i ≠ .reset := fun e => hno ⟨hr, _, e ▸ hfetch⟩
    obtain ⟨hfatal, hdiag, hout, hslot⟩ := exec_standsStill (st := { st with trace := rest }) hf hreset t h
    exact ⟨hfatal, hdiag, hout, hslot⟩
  · exact exec_standsStill hf (no_command_of_scanFetch hi).1 t h
  · rw [hturn] at h
    exact exec_standsStill hf (no_command_of_hardwareEvent hi).1 t h
  · rw [hturn]
    exact ⟨hf, rfl, rfl, fun _ => rfl⟩

/-- Settles O12: the step is `step_standsStill`; of the operations listed none is RESET, FATAL or beside the sequencer's writes. -/
theorem haltedBlockStandsStill : Obligations.HaltedBlockStandsStill := by
  refine ⟨fun st t hf hh hstep hno => ?_, fun st hf i hi => ?_⟩
  · obtain ⟨hfatal, hdiag, hout, hslot⟩ := step_standsStill hf hh hno t hstep
    exact ⟨hfatal, hdiag, hout, fun s => ⟨(congrArg Slot.valid (hslot s) :), (congrArg Slot.chan (hslot s) :),
      (congrArg Slot.ctx (hslot s) :), (congrArg Slot.extract (hslot s) :), (congrArg Slot.lastReq (hslot s) :)⟩⟩
  · rcases hi with rfl | rfl | ⟨s, c, h, rfl⟩ | ⟨s, rfl | rfl | rfl⟩ | ⟨_ | _ | _ | _ | _ | _, s, rfl⟩ | rfl |
      ⟨f, rfl⟩ | ⟨s, c, n, rfl⟩ | ⟨s, n, rfl | rfl⟩ | ⟨c, rfl | rfl⟩ | ⟨c, a, n, rfl⟩ | ⟨c, s, rfl⟩
    all_goals exact exec_refuses_halted hf rfl nofun nofun

end Sys2Proof.Machine
end

section
/-! RESET (70_reset_and_hazards.md R230) answers with `resetBlock`, whose registry, channels and control bits are those of
`State.resetWith`. -/

namespace Sys2Proof.Machine

variable {st : State}

@[simp] theorem resetBlock_slot (s : Nat) : (resetBlock st).slot s = Slot.reset :=
  resetWith_slot st.par st.nSlots st.nChannels s

@[simp] theorem resetBlock_chan (c : Nat) : (resetBlock st).chan c = Channel.reset :=
  resetWith_chan st.par st.nSlots st.nChannels c

/-- Settles O5: RESET has no guard, every slot and channel of `resetBlock` reads as `Slot.reset` and `Channel.reset`, and it
counts as many of each as before. -/
theorem resetEmptiesTheBlock : Obligations.ResetEmptiesTheBlock := by
  intro st
  have hslot : ∀ s, ((resetBlock st).slot s).valid = false ∧ ((resetBlock st).slot s).insert = 0 ∧
      ((resetBlock st).slot s).extract = 0 := fun s => by
    rw [resetBlock_slot]
    exact ⟨rfl, rfl, rfl⟩
  have hchan : ∀ c, ((resetBlock st).chan c).armed = false ∧ ((resetBlock st).chan c).remaining = 0 := fun c => by
    rw [resetBlock_chan]
    exact ⟨rfl, rfl⟩
  exact ⟨resetBlock st, rfl, hslot, rfl, rfl, rfl, rfl, rfl, hchan, rfl, rfl, rfl, resetBlock_nSlots, resetBlock_nChannels, rfl⟩

end Sys2Proof.Machine
end
